-- ==== Sys2Proof/Word.lean ====
section
/-! DEFINITION. The word types of the Celnor C3 and their plainest arithmetic (R3, R177). -/

namespace Sys2Proof

/-- A scalar register, a virtual address or a control register: 64 bits. -/
abbrev Word := BitVec 64

/-- The smallest addressable unit of memory (R67). -/
abbrev Byte := BitVec 8

/-- One lane register's data, or a mask register's 32 lane bits (R40). -/
abbrev Word32 := BitVec 32

/-- The 128 data bytes of one sector, byte `i` in bits `8i+7 : 8i` (R46). -/
abbrev SectorData := BitVec 1024

/-- One bit per byte of a sector (R47, R56). -/
abbrev ByteMask := BitVec 128

end Sys2Proof
end

