-- ==== Sys2Proof/Syntax.lean ====
section
/-! DEFINITION. The actions of the machine: one constructor of `Instr` for each row of the opcode table.
The first 105 are the S-stream forms (chapter 6, format tables), then the 80 single lane forms and the pair
lane word, then the 91 events: steps that the hardware, a host or a peer takes. An event's arguments are the
inputs it brings and the choices the spec leaves open at it. -/

namespace Sys2Proof

/-- A scalar register field: s0 to s63 (R133). -/
abbrev SReg := BitVec 6

/-- Rounding modes in code order (R162). -/
inductive Rnd where
  | rne | rtz | rdn | rup
deriving DecidableEq, Repr

/-- Element types of the lane stream in code order (R137). -/
inductive LType where
  | b32 | i8 | i16 | i32 | i64 | n8 | n16 | n32 | n64 | f64 | f32 | f16 | bf16
  | e5m2 | e4m3 | e3m2 | e2m3 | e2m1 | e8m0 | b64 | a26
deriving DecidableEq, Repr

/-- How a request reaches the module: by one of the two delivery modes it implements, or by another mode or with a semantic
that it does not (R388). -/
inductive Delivery where
  | unordered | ordered | unsupported
deriving DecidableEq, Repr

/-- Where an inbound access comes from: its delivery, and the peer that sent it, or the host when peer is 0
(R388, R391, R394). -/
structure Arrival where
  mode : Delivery
  peer : Nat
  host : Nat
deriving DecidableEq, Repr

/-- How a packet comes to a queue: its delivery, the host that sent it and the queue's number (R341, R388, R400). -/
structure Submission where
  mode : Delivery
  host : Nat
  queue : Nat
deriving DecidableEq, Repr

/-- Strength of an access or fence (R76). -/
inductive Strength where
  | plain | acq | rel | ar
deriving DecidableEq, Repr

/-- The ordering annotation: a strength and the five observer letters h p m y k, k in bit 0 (R76). -/
structure Ord where
  str : Strength
  obs : BitVec 5
deriving DecidableEq, Repr

/-- Access size of a scalar memory form (R191). -/
inductive Size where
  | b8 | b16 | b32 | b64
deriving DecidableEq, Repr

/-- The fields of a single lane word other than its opcode (R135). `imm` is the bit I. -/
structure LaneFields where
  ty : LType
  d : BitVec 10
  a : BitVec 10
  b : BitVec 10
  c : BitVec 10
  msel : BitVec 3
  rnd : Rnd
  sat : Bool
  nega : Bool
  negb : Bool
  absa : Bool
  absb : Bool
  ka : Bool
  kb : Bool
  kc : Bool
  imm : Bool
  aux : BitVec 11
  imm16 : BitVec 16
deriving DecidableEq, Repr

/-- One compact operation of a pair lane word (R139). -/
structure CompactOp where
  cop : BitVec 6
  ctype : BitVec 3
  d : BitVec 9
  a : BitVec 9
  b : BitVec 9
  rnd : Rnd
  sat : Bool
  nega : Bool
  negb : Bool
  absa : Bool
  absb : Bool
  x3 : BitVec 3
deriving DecidableEq, Repr

/-- Kinds of access, in the order of the kind codes of R37. -/
inductive AccessKind where
  | scalarLoad | scalarStore | scalarAtomic | sFetch | laneFetch | laneLoad | laneStore | laneDirect
  | laneAtomic | copyRead | copyWrite | matrixOperand | walkerStore | csrWrite | tlbi | allDead
deriving DecidableEq, Repr

/-- What a management claim or a privilege is about: the module, or one VF (R392). -/
inductive OwnScope where
  | module
  | vf (n : Nat)
deriving DecidableEq, Repr

/-- Who performs a control-register write (R431, R393): a host by number, or a privileged task of a VF. -/
inductive Writer where
  | host (h : Nat)
  | task (vf : Nat) (privileged : Bool)
deriving DecidableEq, Repr

/-- One count change: location, time word, amount (R318, R320). -/
structure Change where
  loc : Nat
  time : Word
  amount : Int
deriving DecidableEq, Repr

/-- Where an upset strikes (R66, and the SOFT_ERROR row); `checker` and `chunk` are the checkers of R363,
`translation` the parity of a cached translation (R364), `stack` an entry of a hart's divergence stack, numbered from the
oldest (R121). -/
inductive UpsetTarget where
  | laneReg (hart reg lane : Nat)
  | scalarReg (hart reg : Nat)
  | uniformReg (hart reg : Nat)
  | l1Clean (core sector : Nat)
  | l1Dirty (core sector : Nat)
  | clusterGranule (unit granule : Nat)
  | dieStore (sector : Nat)
  | gddr (sector : Nat) (bits : List Nat)
  | tile (unit engine tile : Nat)
  | checker (hart : Nat)
  | chunk (unit engine : Nat)
  | translation (index : Nat)
  | walkEntry (index : Nat)
  | reserved (die : Nat)
  | stack (hart entry : Nat)
deriving DecidableEq, Repr

/-- What UNQUARANTINE releases (R364). -/
inductive QuarTarget where
  | partition (n : Nat)
  | engine (n : Nat)
  | cluster (n : Nat)
deriving DecidableEq, Repr

/-- What a fault or event queue forwards, and what the management endpoint returns: plain words. -/
abbrev Words := List Word

/-- The actions of the machine, one constructor per row of the opcode table. -/
inductive Instr where
  -- S-stream forms, opcode 0x01 (R179, R180)
  | sadd (d a b : SReg) | ssub (d a b : SReg) | smul (d a b : SReg) | smulh (d a b : SReg)
  | smulhn (d a b : SReg) | sdiv (d a b : SReg) | sdivn (d a b : SReg) | srem (d a b : SReg)
  | sremn (d a b : SReg) | sand (d a b : SReg) | sor (d a b : SReg) | sxor (d a b : SReg)
  | sshl (d a b : SReg) | sshr (d a b : SReg) | ssra (d a b : SReg) | smin (d a b : SReg)
  | smax (d a b : SReg) | sminn (d a b : SReg) | smaxn (d a b : SReg)
  | scmp (d a b : SReg) (cc : BitVec 3) | scmov (d a b : SReg) (nz : Bool)
  | sbfx (d a b : SReg) (signed : Bool) | sbfi (d a b : SReg)
  | sclz (d a : SReg) | spop (d a : SReg) | sext (d a : SReg) (kind : BitVec 3)
  | slea (d a b : SReg) (sh : BitVec 3)
  -- immediates and constants (R183, R184)
  | saddi (d a : SReg) (i : BitVec 14) | sandi (d a : SReg) (i : BitVec 14) | sori (d a : SReg) (i : BitVec 14)
  | sxori (d a : SReg) (i : BitVec 14) | sshli (d a : SReg) (i : BitVec 6) | sshri (d a : SReg) (i : BitVec 6)
  | ssrai (d a : SReg) (i : BitVec 6) | scmpi (d a : SReg) (cc : BitVec 3) (i : BitVec 11)
  | smovl (d : SReg) (i : BitVec 20) | sshor (d : SReg) (i : BitVec 20)
  -- control transfer (R185 to R187)
  | sbr (cond : BitVec 4) (a : SReg) (off : BitVec 16) | sjmp (off : BitVec 26) | scall (off : BitVec 26)
  | sret | sjmpr (a : SReg) | scallr (a : SReg) | sloop (a : SReg) (off : BitVec 16)
  -- lane dispatch (R188, R189)
  | lrun (a : SReg) | lsync | sget (d : SReg) | kset (k : BitVec 4) (a : SReg)
  -- scalar memory (R191 to R193)
  | sld (d a : SReg) (ord : Ord) (sz : Size) (off : BitVec 5)
  | sst (d a : SReg) (ord : Ord) (sz : Size) (off : BitVec 5)
  | satom (d a : SReg) (ord : Ord) (wide : Bool) (aop : BitVec 4)
  | sldc (d a : SReg) (ord : Ord) (sz : Size) | sstc (d a : SReg) (ord : Ord) (sz : Size)
  -- waits, fences and time (R194 to R196)
  | swait (ld st : BitVec 6) (cp mx : BitVec 4) (ts : BitVec 6)
  | sfence (ord : Ord) | sclk (d : SReg) (name : BitVec 4) | ssleep (a b : SReg) (bar : BitVec 4)
  -- barriers (R255 to R257)
  | barInit (a : SReg) (bar : BitVec 4) | barArrive (ord : Ord) (bar : BitVec 4)
  | barWait (a : SReg) (ord : Ord) (bar : BitVec 4) | barTest (d a : SReg) (ord : Ord) (bar : BitVec 4)
  | barArm (h a : SReg) (ord : Ord) (bar : BitVec 4) | uret
  -- copies (R246)
  | cpy (d a b : SReg) (bar : BitVec 4) | cpyt (d a b : SReg) (bar : BitVec 4)
  | cpyg (d a b : SReg) (bar : BitVec 4) | cpcl | cpq (d : SReg) (bar : BitVec 4)
  -- rings (R260); the ring is q0 to q63
  | ringRes (d : SReg) (q : BitVec 6) | ringCmt (a : SReg) (q : BitVec 6)
  | ringGet (d : SReg) (q : BitVec 6) | ringRel (a : SReg) (q : BitVec 6)
  -- tasks (R325)
  | spawn (d a b : SReg) | send (d a b : SReg) | fwait (a b : SReg) | fpoll (d a b : SReg)
  | hold (a b : SReg) | drop (a b : SReg) | tget (d : SReg) (c : BitVec 4) | tset (a b : SReg) (c : BitVec 4)
  | exit | jcancel
  -- safe points and phases (R197)
  | safe (a : SReg) | phase (a b : SReg) | yield (a : SReg)
  -- the walker (R285)
  | wloop (d a b : SReg) | wcov (a b : SReg) | wclr
  -- the crane's tile group (R299, R303)
  | mfmt (a : SReg) | mzero (acc : BitVec 3) (mask : BitVec 4) | mma (acc : BitVec 3) (a b : SReg) (mask : BitVec 4)
  | mout (a : SReg) (acc : BitVec 3) (mask : BitVec 4) (cmt z : Bool)
  | mbar (d : SReg) (n : BitVec 4) | mwait (a : SReg) (n : BitVec 4)
  | mpsn (d : SReg) (acc : BitVec 3) (mask : BitVec 4) | mscrub (mask : BitVec 4)
  -- system and control registers (R199, R200, R30)
  | csrr (d : SReg) (n : BitVec 10) | csrw (a : SReg) (n : BitVec 10) | feat (d : SReg) (c : BitVec 4)
  | trap (n : BitVec 10) | rte | tlbiVa (a : SReg) | tlbiSpace | tlbiVf | halt
  -- single lane words (R144)
  | add (w : LaneFields) | sub (w : LaneFields) | mul (w : LaneFields) | mulh (w : LaneFields)
  | mad (w : LaneFields) | and (w : LaneFields) | or (w : LaneFields) | xor (w : LaneFields)
  | shl (w : LaneFields) | shr (w : LaneFields) | sra (w : LaneFields) | min (w : LaneFields)
  | max (w : LaneFields) | abs (w : LaneFields) | cmp (w : LaneFields) | bfx (w : LaneFields)
  | bfi (w : LaneFields) | clz (w : LaneFields) | pop (w : LaneFields) | brev (w : LaneFields)
  | fadd (w : LaneFields) | fsub (w : LaneFields) | fmul (w : LaneFields) | fma (w : LaneFields)
  | fmin (w : LaneFields) | fmax (w : LaneFields) | fcmp (w : LaneFields) | fdiv (w : LaneFields)
  | fsqrt (w : LaneFields) | fexp2 (w : LaneFields) | flog2 (w : LaneFields) | frcp (w : LaneFields)
  | frsq (w : LaneFields) | fsinpi (w : LaneFields) | fcospi (w : LaneFields) | ftanh (w : LaneFields)
  | fclass (w : LaneFields) | frnd (w : LaneFields) | fscale (w : LaneFields)
  | cvt (w : LaneFields) | qscl (w : LaneFields) | qpack (w : LaneFields) | qunp (w : LaneFields)
  | qspare (w : LaneFields)
  | sel (w : LaneFields) | mand (w : LaneFields) | mor (w : LaneFields) | mxor (w : LaneFields)
  | mnot (w : LaneFields) | mmov (w : LaneFields)
  | shfl (w : LaneFields) | perm (w : LaneFields) | vote (w : LaneFields) | redu (w : LaneFields)
  | scan (w : LaneFields) | srd (w : LaneFields) | movx (w : LaneFields) | movxd (w : LaneFields)
  | ld (w : LaneFields) | st (w : LaneFields) | ldd (w : LaneFields) | std (w : LaneFields)
  | ldc (w : LaneFields) | stc (w : LaneFields) | atom (w : LaneFields) | atomc (w : LaneFields)
  | pref (w : LaneFields) | tagrd (w : LaneFields)
  | dinit (w : LaneFields) | dacc (w : LaneFields) | drnd (w : LaneFields) | dcor (w : LaneFields)
  | drst (w : LaneFields) | ptst (w : LaneFields) | pchk (w : LaneFields)
  | lbr (w : LaneFields) | ljoin (w : LaneFields) | lend (w : LaneFields) | lnop (w : LaneFields)
  | ltrap (w : LaneFields)
  -- the pair lane word (R139)
  | pairLaneWord (x y : CompactOp)
  -- events of the streams, the caches and the memory system
  | laneBlockStart (hart : Nat)
  | tlbMissWalk (core vf : Nat) (va : Word) (cached : Bool)
  | tlbiComplete (hart : Nat)
  | fillGenerationWrap (core : Nat)
  | storeQueueDrain (hart : Nat) (evict : List Nat)
  | homeSectorWrite (op : Nat) (evict : List Nat)
  | homeSectorRead (sector : Nat) (evict : List Nat)
  | atomicAtHome (op : Nat) (index : Nat) (evict : List Nat)
  | postedClusterWrite (op : Nat)
  | loadReturn (hart op : Nat)
  | remoteCompletion (op : Nat) (data : SectorData) (p : Bool)
  | inboundRmaRead (a : Arrival) (vf : Nat) (va : Word) (len : Nat)
  | inboundRmaWrite (a : Arrival) (vf : Nat) (va : Word) (data : List Byte) (p : List Bool)
  | inboundRmaAtomic (a : Arrival) (vf : Nat) (va : Word) (wide : Bool) (aop : BitVec 4) (operand new : Word)
  -- control registers of the control window and the VF
  | controlRegisterWrite (w : Writer) (addr : Nat) (value : Word)
  | cgrantWrite (w : Writer) (vf : Nat) (value : Word)
  | qctlWrite (w : Writer) (q : Nat) (value : Word)
  | vfschedWrite (w : Writer) (vf : Nat) (value : Word)
  | errcntWrite (w : Writer) (die : Nat) (value : Word)
  | nwinWrite (w : Writer) (n : Nat) (value : Word)
  | peertabWrite (w : Writer) (p : Nat) (high : Bool) (value : Word)
  | mcfgWrite (w : Writer) (unit : Nat) (value : Word)
  | trootWrite (host vf : Nat) (value : Word)
  | tspaceWrite (host vf : Nat) (value : Word)
  -- copy engine, barriers, rings
  | copyBytesPerformed (copy : Nat) (write : Bool) (k : Nat)
  | copyComplete (copy : Nat)
  | copyEndsOnFault (copy : Nat) (k : Nat)
  | ssleepWake (hart : Nat)
  | ringRelEffective (unit ring slot : Nat)
  | userInterrupt (hart : Nat)
  -- matrix engines
  | mzeroComplete (op : Nat)
  | mmaComplete (op : Nat) (cell : Option (Nat × Nat × Nat))
  | moutComplete (op : Nat) (cell : Option (Nat × Nat × Nat))
  | mbarMarkComplete (unit obj : Nat)
  | streamedOperandFault (op : Nat)
  -- walker and lane traps
  | walkerBatchStart (hart : Nat)
  | walkerBatchCommit (hart : Nat)
  | laneTrapDelivery (hart : Nat)
  -- progress and tasks
  | spawnAccept (hart : Nat)
  | taskRetirement (vf task : Nat)
  | aggregatorBatchApply (die : Nat)
  | frontierPush (die vf job loc : Nat)
  | messageConsumption (vf job : Nat) (index : Nat)
  | peerBatchReceive (peer vf job : Nat) (changes : List Change) (message : Option (BitVec 6 × Word × Word))
  | peerUnreachable (peer : Nat)
  -- queues and placement
  | launchPacket (q : Submission) (packet : List Word)
  | fencePacket (q : Submission) (buffers : List (List Word))
  | fenceConditionPoll (q : Nat)
  | placementRound
  | berthSwap (hart : Nat)
  | roleMark (unit hart : Nat)
  | preemptionRequest (unit : Nat)
  | preemptionTimeout (unit : Nat)
  | contextRestore (unit : Nat) (place : Nat)
  | granuleFill (hart granule : Nat)
  -- the harbourmaster and the module
  | harbourmasterTakeover (die : Nat) (usable : Bool)
  | standbyActive (die : Nat)
  | fieldTestStart (cluster : Nat)
  | fieldTestFail (cluster : Nat)
  | monitorSample (unit : Nat) (x : Word)
  | powerOn (firmwareOk : Bool)
  | thermalThrottle (die : Nat)
  | thermalShutdown (die : Nat)
  -- the management endpoint
  | claim (host : Nat) (scope : OwnScope) (prio : BitVec 8) (nonce : Word) (lease : Nat)
  | renew (host : Nat) (scope : OwnScope) (lease : Nat)
  | release (host : Nat) (scope : OwnScope)
  | grant (host : Nat) (scope : OwnScope) (recipient : Nat) (lease : Nat)
  | claimWindowExpiry (scope : OwnScope)
  | leaseLapse (scope : OwnScope)
  | read (host : Nat) (addr len : Nat)
  | write (host : Nat) (addr : Nat) (data : List Byte)
  | load (host vf : Nat) (base : Word) (len : Nat) (image : List Byte) (frames : List Nat)
  | unload (host vf : Nat) (base : Word) (force : Bool)
  | mgmtTlbi (host vf : Nat) (scope : BitVec 4) (va : Word)
  | jobnew (host vf job : Nat) (chart : Nat) (gate slack : Nat) (peers : List Nat)
  | cancel (host vf job : Nat)
  | mgmtHold (host vf job loc : Nat) (time : Word)
  | mgmtDrop (host vf job loc : Nat) (time : Word)
  | answer (host vf task : Nat) (resume : Bool)
  | relaunch (host vf task : Nat)
  | discard (host vf task : Nat)
  | unhalt (host vf hart : Nat)
  | unquarantine (host : Nat) (target : QuarTarget)
  | attest (host : Nat) (nonce : Word)
  | monitorRead (host unit : Nat)
  | monitorConfigure (host unit : Nat) (cfg : Word) (edges : List Word)
  | recordStart (host vf : Nat) (addr : Word) (len : Nat)
  | recordStop (host vf : Nat)
  | recordRead (host vf : Nat)
  | softError (target : UpsetTarget) (multi : Bool)
  | fieldTestPass (cluster : Nat)
deriving DecidableEq, Repr

end Sys2Proof
end

