-- ==== Sys2Proof/Machine/Bits.lean ====
section
/-! DEFINITION. Bit fields, sign extension and byte order, written once (R3). -/

namespace Sys2Proof.Machine

/-- Bits `lo + w - 1 : lo` of a word, as a number. -/
def bits (x : Word) (lo w : Nat) : Nat := (x.toNat >>> lo) % 2 ^ w

/-- Bit `i` of a word. -/
def bitOf (x : Word) (i : Nat) : Bool := x.getLsbD i

/-- A number placed at bit `lo` of a word. -/
def at' (lo : Nat) (n : Nat) : Word := BitVec.ofNat 64 (n <<< lo)

/-- The word of a Boolean. -/
def wordOfBool (b : Bool) : Word := if b then 1 else 0

/-- The integer of the low `w` bits of `n`, in two's complement. -/
def signedOf (w n : Nat) : Int :=
  if n % 2 ^ w < 2 ^ (w - 1) then (n % 2 ^ w : Nat) else (n % 2 ^ w : Nat) - (2 ^ w : Nat)

/-- The low `w` bits of an integer. -/
def wrap (w : Nat) (z : Int) : Nat := (z % (2 ^ w : Nat)).toNat

/-- `n` with its bits below `k` cleared. -/
def clearLow (k n : Nat) : Nat := (n >>> k) <<< k

/-- Byte `i` of a number, lowest first (R3). -/
def byteOf (n i : Nat) : Byte := BitVec.ofNat 8 (n >>> (8 * i))

/-- The number whose bytes, lowest first, are the list (R3). -/
def ofBytes : List Byte → Nat
  | [] => 0
  | b :: bs => b.toNat + 256 * ofBytes bs

/-- The `n` lowest bytes of a number, lowest first (R3). -/
def toBytes : Nat → Nat → List Byte
  | 0, _ => []
  | n + 1, x => BitVec.ofNat 8 x :: toBytes n (x / 256)

/-- The mask of bytes `off .. off + len - 1` of a sector. -/
def byteRun (off len : Nat) : ByteMask := BitVec.ofNat 128 ((2 ^ len - 1) <<< off)

/-- A byte mask widened to one of bits: eight ones for each listed byte, from byte `i` up. -/
def widenFrom (m : ByteMask) : Nat → Nat
  | 0 => 0
  | i + 1 => widenFrom m i ||| (if m.getLsbD i then 0xFF <<< (8 * i) else 0)

/-- A byte mask widened to one of bits. -/
def widen (m : ByteMask) : SectorData := BitVec.ofNat 1024 (widenFrom m 128)

/-- `old` with the bytes of `m` taken from `new`. -/
def mergeBytes (m : ByteMask) (old new : SectorData) : SectorData :=
  (old &&& ~~~(widen m)) ||| (new &&& widen m)

/-- Bytes `off .. off + len - 1` of a sector, as a number. -/
def sectorBytes (x : SectorData) (off len : Nat) : Nat := (x.toNat >>> (8 * off)) % 2 ^ (8 * len)

/-- A number's `len` low bytes placed at byte `off` of a sector. -/
def sectorPlace (n off len : Nat) : SectorData := BitVec.ofNat 1024 ((n % 2 ^ (8 * len)) <<< (8 * off))

/-- Count of one bits among the low `w` bits of a number. -/
def popBelow (n : Nat) : Nat → Nat
  | 0 => 0
  | w + 1 => popBelow n w + (if n.testBit w then 1 else 0)

/-- Leading zeros of a `w`-bit number. -/
def clzBelow (n : Nat) : Nat → Nat
  | 0 => 0
  | w + 1 => if n.testBit w then 0 else 1 + clzBelow n w

/-- A `w`-bit number with bit `k` moved to bit `w - 1 - k`. -/
def revBelow (n w : Nat) : Nat → Nat
  | 0 => 0
  | k + 1 => revBelow n w k ||| (if n.testBit k then 1 <<< (w - 1 - k) else 0)

/-- The lanes 0 to 31. -/
def allLanes : List Nat := List.range 32

/-- The lanes of a mask, ascending. -/
def lanesOf (m : Word32) : List Nat := allLanes.filter fun l => m.getLsbD l

/-- The mask of a list of lanes. -/
def maskOf : List Nat → Word32
  | [] => 0
  | l :: ls => (1#32 <<< l) ||| maskOf ls

/-- The mask with bit `l` written. -/
def setBit32 (m : Word32) (l : Nat) (b : Bool) : Word32 :=
  if b then m ||| (1#32 <<< l) else m &&& ~~~(1#32 <<< l)

/-- Whether any element satisfies the test: the OR of the tags a value is made from. -/
def anyTag {α : Type} (f : α → Bool) (xs : List α) : Bool := xs.any f

end Sys2Proof.Machine
end

