-- ==== Sys2Proof/Machine/Legal.lean ====
section
/-! DEFINITION. Which words are legal: the reasons of R146, and the checks of single lane words, pair lane
words and S-stream forms, in the order R146 and R142 give them. -/

namespace Sys2Proof

/-- Why a word fails decode, or a form is misused (R146). -/
inductive Reason where
  | opcode | select | form | type | typeop | mbz | ord | copcode | engine | fifoEmpty | carry | bucket
  | oddbase | mzero | pbank | pdest | pdep | pclass | join
deriving DecidableEq, Repr

/-- A failed decode: the reason, and the LATER bit of the detail word (R146). -/
structure DecodeError where
  reason : Reason
  later : Bool
deriving DecidableEq, Repr

/-- The REASON code (R146). -/
def Reason.code : Reason → Nat
  | .opcode => 0x01 | .select => 0x02 | .form => 0x03 | .type => 0x04 | .typeop => 0x05 | .mbz => 0x06
  | .ord => 0x07 | .copcode => 0x08 | .engine => 0x09 | .fifoEmpty => 0x0A | .carry => 0x0B | .bucket => 0x0C
  | .oddbase => 0x10 | .mzero => 0x11 | .pbank => 0x12 | .pdest => 0x13 | .pdep => 0x14 | .pclass => 0x15
  | .join => 0x16

/-- Whether the reason belongs to the illegal-lane-word class (R145, R146). -/
def Reason.laneClass (r : Reason) : Bool := decide (0x10 ≤ r.code)

/-- The 16-bit detail word: LATER in bit 15, REASON in bits 7:0 (R146). -/
def DecodeError.detail (e : DecodeError) : BitVec 16 :=
  BitVec.ofNat 16 ((if e.later then 0x8000 else 0) + e.reason.code)

/-- Element width in bits: 4 for e2m1, 8 for the other 8- and 6-bit types (R137, R168). -/
def LType.width : LType → Nat
  | .e2m1 => 4
  | .i8 | .n8 | .e5m2 | .e4m3 | .e3m2 | .e2m3 | .e8m0 => 8
  | .i16 | .n16 | .f16 | .bf16 => 16
  | .b32 | .i32 | .n32 | .f32 | .a26 => 32
  | .i64 | .n64 | .f64 | .b64 => 64

/-- Whether a value of the type occupies an even/odd pair (R137). -/
def LType.pair (t : LType) : Bool := decide (t.width = 64)

/-- Elements per register, or per pair (R137). -/
def LType.elems (t : LType) : Nat := if t.width < 32 then 32 / t.width else 1

/-- Signed integer types (R155). -/
def LType.signed : LType → Bool
  | .i8 | .i16 | .i32 | .i64 => true
  | _ => false

/-- The narrow types of R168 and R203. -/
def LType.narrow : LType → Bool
  | .bf16 | .f16 | .e5m2 | .e4m3 | .e3m2 | .e2m3 | .e2m1 => true
  | _ => false

/-- Integer types with a numeric value (R155). -/
def LType.isInt : LType → Bool
  | .i8 | .i16 | .i32 | .i64 | .n8 | .n16 | .n32 | .n64 => true
  | _ => false

/-- Floating types of R156. -/
def LType.isFloat : LType → Bool
  | .f64 | .f32 | .a26 | .f16 | .bf16 | .e5m2 | .e4m3 | .e3m2 | .e2m3 | .e2m1 => true
  | _ => false

/-- The type of a code (R137); codes 21 to 31 are reserved. -/
def LType.ofCode : Nat → Option LType
  | 0 => some .b32 | 1 => some .i8 | 2 => some .i16 | 3 => some .i32 | 4 => some .i64 | 5 => some .n8
  | 6 => some .n16 | 7 => some .n32 | 8 => some .n64 | 9 => some .f64 | 10 => some .f32 | 11 => some .f16
  | 12 => some .bf16 | 13 => some .e5m2 | 14 => some .e4m3 | 15 => some .e3m2 | 16 => some .e2m3
  | 17 => some .e2m1 | 18 => some .e8m0 | 19 => some .b64 | 20 => some .a26 | _ => none

/-- The code of a type (R137). -/
def LType.code : LType → Nat
  | .b32 => 0 | .i8 => 1 | .i16 => 2 | .i32 => 3 | .i64 => 4 | .n8 => 5 | .n16 => 6 | .n32 => 7 | .n64 => 8
  | .f64 => 9 | .f32 => 10 | .f16 => 11 | .bf16 => 12 | .e5m2 => 13 | .e4m3 => 14 | .e3m2 => 15 | .e2m3 => 16
  | .e2m1 => 17 | .e8m0 => 18 | .b64 => 19 | .a26 => 20

/-- The rounding mode of a code (R162). -/
def Rnd.ofCode (n : Nat) : Rnd := match n % 4 with | 0 => .rne | 1 => .rtz | 2 => .rdn | _ => .rup

/-- The code of a rounding mode (R162). -/
def Rnd.code : Rnd → Nat
  | .rne => 0 | .rtz => 1 | .rdn => 2 | .rup => 3

/-- The code of a strength (R76). -/
def Strength.code : Strength → Nat
  | .plain => 0 | .acq => 1 | .rel => 2 | .ar => 3

/-- The strength of a code (R76). -/
def Strength.ofCode (n : Nat) : Strength := match n % 4 with | 0 => .plain | 1 => .acq | 2 => .rel | _ => .ar

/-- The 7-bit annotation (R76). -/
def Ord.code (o : Ord) : BitVec 7 := BitVec.ofNat 7 (o.str.code * 32 + o.obs.toNat)

/-- The annotation of 7 bits (R76). -/
def Ord.ofCode (b : BitVec 7) : Ord := ⟨Strength.ofCode (b.toNat / 32), BitVec.ofNat 5 b.toNat⟩

/-- A plain annotation names no observer, and a strong one names at least one (R76). -/
def Ord.wf (o : Ord) : Bool := decide ((o.str = .plain) ↔ (o.obs = 0))

/-- A legal annotation whose strength is among those accepted (R76, R77). -/
def Ord.accepts (ss : List Strength) (o : Ord) : Bool := o.wf && ss.contains o.str

/-- Bytes of an access size (R191). -/
def Size.bytes : Size → Nat
  | .b8 => 1 | .b16 => 2 | .b32 => 4 | .b64 => 8

/-- The code of an access size (R191). -/
def Size.code : Size → Nat
  | .b8 => 0 | .b16 => 1 | .b32 => 2 | .b64 => 3

/-- The access size of a code (R191). -/
def Size.ofCode (n : Nat) : Size := match n % 4 with | 0 => .b8 | 1 => .b16 | 2 => .b32 | _ => .b64

/-- What a register field of a lane word names (R136). `reg` is a lane register of the type's width, `reg32` one
32-bit register whatever the type, `even` always a pair. -/
inductive FieldKind where
  | none | reg | reg32 | even | mask | wide
deriving DecidableEq, Repr

/-- The fields a lane form uses (R135, R136). `aux` holds the aux11 bits it assigns, `immB` whether I may replace
operand b, `imm` the imm16 bits it reads when I does not. -/
structure LaneRule where
  types : List LType
  d : FieldKind
  a : FieldKind
  b : FieldKind
  c : FieldKind
  ksrc : Bool × Bool × Bool
  immB : Bool
  msel : Bool
  rnd : Bool
  sat : Bool
  modA : Bool
  modB : Bool
  aux : BitVec 11
  imm : BitVec 16
deriving DecidableEq, Repr

/-- A form that uses no field: the base the other rules change. -/
def LaneRule.none : LaneRule :=
  ⟨[.b32], .none, .none, .none, .none, (false, false, false), false, false, false, false, false, false, 0, 0⟩

def tI : List LType := [.i8, .i16, .i32, .i64]
def tN : List LType := [.n8, .n16, .n32, .n64]
def tB : List LType := [.b32, .b64]
def tW : List LType := [.i32, .i64, .n32, .n64]
def tF : List LType := [.f64, .f32, .a26, .f16, .bf16]
def tFm : List LType := [.f64, .f32, .f16, .bf16]
def tD : List LType := [.f64, .f32]
def tE : List LType := [.e2m1, .e3m2, .e2m3, .e4m3, .e5m2]
def tMem : List LType := [.b32, .b64, .i8, .n8, .i16, .n16, .i32, .n32, .i64, .n64]
def tAtom : List LType := [.b32, .b64, .i32, .n32, .i64, .n64, .f32, .f64]
def tNum : List LType :=
  [.i8, .i16, .i32, .i64, .n8, .n16, .n32, .n64, .f64, .f32, .f16, .bf16, .e5m2, .e4m3, .e3m2, .e2m3, .e2m1, .a26]

/-- A two-source integer form (R206). -/
def intRule (ts : List LType) (sat : Bool) : LaneRule :=
  { LaneRule.none with types := ts, d := .reg, a := .reg, b := .reg, ksrc := (true, true, false), immB := true, sat := sat }

/-- A one-source integer form (R206). -/
def intRule1 (ts : List LType) (sat : Bool) : LaneRule :=
  { LaneRule.none with types := ts, d := .reg, a := .reg, ksrc := (true, false, false), sat := sat }

/-- A two-source floating form (R210). -/
def fpRule (ts : List LType) (rnd sat : Bool) : LaneRule :=
  { LaneRule.none with
    types := ts, d := .reg, a := .reg, b := .reg, ksrc := (true, true, false), immB := true, rnd := rnd, sat := sat,
    modA := true, modB := true }

/-- A one-source floating form (R210). -/
def fpRule1 (ts : List LType) : LaneRule :=
  { LaneRule.none with types := ts, d := .reg, a := .reg, ksrc := (true, false, false), rnd := true, modA := true }

/-- A mask operation (R217). -/
def maskRule : LaneRule := { LaneRule.none with d := .mask, a := .mask, msel := true, aux := 0 }

/-- A memory form (R231). -/
def memRule (ts : List LType) (d a c : FieldKind) : LaneRule :=
  { LaneRule.none with
    types := ts, d := d, a := a, b := .reg32, c := c, ksrc := (true, true, c ≠ .none), msel := true, aux := 0x7FF,
    imm := 0xFFFF }

/-- The fields of each lane opcode (R144, and the tables of R167, R206, R210, R216 to R231, R273). A form whose
fields depend on aux11 is resolved by those bits. DEDUCED (log 38). -/
def laneRule (op : Nat) (f : LaneFields) : Option LaneRule :=
  let sub := f.aux.toNat % 4
  match op with
  | 0x01 | 0x02 | 0x03 => some (intRule (tI ++ tN) true)
  | 0x04 => some (intRule (tI ++ tN) false)
  | 0x05 => some { intRule (tI ++ tN) true with c := .reg, ksrc := (true, true, true) }
  | 0x06 | 0x07 | 0x08 => some (intRule tB false)
  | 0x09 | 0x0A => some (intRule (tB ++ tI ++ tN) false)
  | 0x0B => some (intRule tI false)
  | 0x0C | 0x0D => some (intRule (tI ++ tN) false)
  | 0x0E => some (intRule1 tI true)
  | 0x0F => some { intRule (tW ++ [.b32]) false with d := .mask, aux := 7 }
  | 0x10 => some { intRule tW false with b := .reg }
  | 0x11 => some (intRule tB false)
  | 0x12 | 0x13 | 0x14 => some (intRule1 tB false)
  | 0x20 | 0x21 | 0x22 => some (fpRule tF true true)
  | 0x23 => some { fpRule tF true true with c := .reg, ksrc := (true, true, true) }
  | 0x24 | 0x25 => some (fpRule tFm false false)
  | 0x26 => some { fpRule tD false false with d := .mask, aux := 7 }
  | 0x27 => some (fpRule tD true true)
  | 0x28 => some (fpRule1 tD)
  | 0x29 | 0x2A | 0x2B | 0x2C | 0x2D | 0x2E | 0x2F => some (fpRule1 [.f32])
  | 0x30 => some { LaneRule.none with types := tD, d := .reg32, a := .reg, ksrc := (true, false, false) }
  | 0x31 => some (fpRule1 tFm)
  | 0x32 => some { fpRule tD true true with b := .reg32, modB := false }
  | 0x40 => some { LaneRule.none with
      types := tNum, d := .reg, a := .reg, sat := true, aux := 0x1F,
      rnd := !(f.ty.isInt && ((LType.ofCode (f.aux.toNat % 32)).any (·.isInt))) }
  | 0x41 => some { LaneRule.none with types := tE, d := .reg32, a := .reg32, aux := 0x1F }
  | 0x42 => some { LaneRule.none with
      types := tE, d := .reg32, a := .reg32, b := .reg32, ksrc := (false, true, false), rnd := true, sat := true, aux := 0x1F }
  | 0x43 => some { LaneRule.none with
      types := [.f32], d := .reg32, a := .reg32, b := .reg32, ksrc := (false, true, false), rnd := true, sat := true, aux := 0x1F }
  | 0x44 => some { LaneRule.none with
      types := [.e4m3], d := .reg32, a := .reg32, b := .reg32, ksrc := (false, true, false), rnd := true, sat := true, aux := 0x1F }
  | 0x48 => some { intRule tB false with msel := true }
  | 0x49 | 0x4A | 0x4B => some maskRule
  | 0x4C => some { maskRule with a := .none }
  | 0x4D => some (match sub with
      | 0 => { maskRule with a := .none, aux := 3 }
      | 1 => { maskRule with a := .reg, ksrc := (true, false, false), msel := false, aux := 3 }
      | _ => { maskRule with d := .reg, a := .none, aux := 3 })
  | 0x50 => some { intRule tB false with b := .reg32, aux := 3 }
  | 0x51 => some { intRule tB false with c := .reg32, ksrc := (true, true, true) }
  | 0x52 => some { LaneRule.none with d := if sub = 2 then .none else .mask, msel := true, aux := 3 }
  | 0x53 => some { LaneRule.none with
      types := tW ++ tB ++ tD, d := if f.aux.getLsbD 4 then .none else .reg, a := .reg, ksrc := (true, false, false),
      rnd := f.aux.toNat % 16 = 0 && (f.ty = .f32 || f.ty = .f64), aux := 0x1F }
  | 0x54 => some { LaneRule.none with
      types := tW ++ tB ++ tD, d := .reg, a := .reg, ksrc := (true, false, false),
      rnd := f.aux.toNat % 16 = 0 && (f.ty = .f32 || f.ty = .f64), aux := 0x1F }
  | 0x55 => some { LaneRule.none with types := tB, d := .reg, aux := 0xF }
  | 0x56 => some { LaneRule.none with types := tB, d := .reg, a := .reg32, ksrc := (true, false, false), imm := 0xFFFF }
  | 0x57 => some { LaneRule.none with types := tB, a := .reg32, b := .reg, ksrc := (true, true, false), imm := 0xFFFF }
  | 0x58 | 0x5A => some (memRule tMem .reg .even .none)
  | 0x59 | 0x5B => some (memRule tMem .none .even .reg)
  | 0x5C => some (memRule tMem .reg .reg32 .none)
  | 0x5D => some (memRule tMem .none .reg32 .reg)
  | 0x5E => some { memRule tAtom .reg .even .reg with rnd := (f.ty = .f32 || f.ty = .f64) && f.aux.toNat / 128 % 4 = 0 }
  | 0x5F => some { memRule tAtom .reg .reg32 .reg with rnd := (f.ty = .f32 || f.ty = .f64) && f.aux.toNat / 128 % 4 = 0 }
  | 0x60 => some (memRule [.b32] .none .even .none)
  | 0x61 => some (memRule [.b32] .mask .even .none)
  | 0x70 => some { LaneRule.none with
      types := tD, d := .wide, b := .reg, c := if f.aux.getLsbD 0 then .reg else .none,
      ksrc := (false, true, f.aux.getLsbD 0), aux := 1, imm := if f.aux.getLsbD 0 then 0 else 0xFFFF }
  | 0x71 => some { LaneRule.none with types := tD, d := .wide, a := .reg, b := .reg, ksrc := (true, true, false), aux := 1 }
  | 0x72 => some { LaneRule.none with types := tD, d := .reg, a := .wide, rnd := true }
  | 0x73 => some { LaneRule.none with types := tD, d := .reg, a := .reg, b := .wide, c := .reg, ksrc := (true, false, true) }
  | 0x74 => some { LaneRule.none with
      d := if sub = 0 then .wide else .even, a := if sub = 0 then .none else .wide, aux := 3 }
  | 0x75 => some { LaneRule.none with
      types := if sub = 0 then tB else [.b32], d := .mask,
      a := match sub with | 0 => .reg | 1 => .mask | _ => .wide, aux := 3 }
  | 0x76 => some { LaneRule.none with
      types := if sub = 0 then tB else [.b32], a := match sub with | 0 => .reg | 1 => .mask | _ => .wide, aux := 3 }
  | 0x78 => some { LaneRule.none with msel := true, aux := 0xFF, imm := 0xFFFF }
  | 0x79 | 0x7A | 0x7B => some LaneRule.none
  | 0x7C => some { LaneRule.none with imm := 0x3FF }
  | _ => none

/-- Whether a lane opcode is a memory form (R136). -/
def isMemOp (op : Nat) : Bool := decide (0x58 ≤ op ∧ op ≤ 0x61)

/-- Reserved conditions, sub-operations and mode codes of aux11 (R204, R232, R241, R273). -/
def selectBad (op : Nat) (f : LaneFields) : Bool :=
  let aux := f.aux.toNat
  match op with
  | 0x0F => decide (6 ≤ aux % 8)
  | 0x4D | 0x52 | 0x75 | 0x76 => decide (aux % 4 = 3)
  | 0x53 | 0x54 => decide (6 ≤ aux % 16)
  | 0x55 => decide (7 ≤ aux % 16)
  | 0x58 | 0x59 | 0x5A | 0x5B | 0x5C | 0x5D | 0x60 => decide (aux / 128 % 4 = 3)
  | 0x5E | 0x5F => decide (aux / 128 % 4 = 3) && (f.ty = .f32 || f.ty = .f64)
  | 0x61 => decide (2 ≤ aux / 128 % 4)
  | 0x74 => decide (2 ≤ aux % 4)
  | _ => false

/-- Types an opcode or its sub-operation does not accept (R167, R204, R208, R222, R225). DEDUCED (log 38). -/
def typeopBad (op : Nat) (f : LaneFields) (r : LaneRule) : Bool :=
  let aux := f.aux.toNat
  let ty2 := LType.ofCode (aux % 32)
  !r.types.contains f.ty ||
  (match op with
  | 0x0F => f.ty = .b32 && decide (2 ≤ aux % 8)
  | 0x40 => match ty2 with
      | some t => !(LType.e8m0 :: tNum).contains t || t = f.ty
      | none => true
  | 0x41 | 0x42 | 0x44 => ty2 ≠ some .f32
  | 0x43 => match ty2 with
      | some t => !tE.contains t
      | none => true
  | 0x53 | 0x54 =>
      if aux % 16 < 3 then tB.contains f.ty else tD.contains f.ty
  | 0x55 => if aux % 16 = 0 then f.ty ≠ .b64 else f.ty ≠ .b32
  | _ => false)

/-- Whether a register field breaks the zero rules of its kind (R136). -/
def fieldBad (k : FieldKind) (x : BitVec 10) (sel ksel : Bool) : Bool :=
  if ksel then !sel || decide (16 ≤ x.toNat)
  else match k with
  | .none => x ≠ 0
  | .mask => decide (8 ≤ x.toNat)
  | .wide => decide (4 ≤ x.toNat)
  | _ => false

/-- Whether an immediate operand breaks its type's zero rule (R138). -/
def immBad (ty : LType) (imm : BitVec 16) : Bool :=
  match ty with
  | .i8 | .n8 => decide (256 ≤ imm.toNat)
  | .e3m2 | .e2m3 => imm &&& 0xC0C0 ≠ 0
  | _ => false

/-- The must-be-zero checks of a single lane word (R135, R136, R204, R231, R232, R273). DEDUCED (log 38). -/
def mbzBad (op : Nat) (f : LaneFields) (r : LaneRule) : Bool :=
  let vec := f.aux.toNat / 128 % 4
  fieldBad r.d f.d false false || fieldBad r.a f.a r.ksrc.1 f.ka ||
  (if f.imm then f.b ≠ 0 || f.kb else fieldBad r.b f.b r.ksrc.2.1 f.kb) ||
  fieldBad r.c f.c r.ksrc.2.2 f.kc ||
  (f.imm && !r.immB && !isMemOp op) ||
  (!r.msel && f.msel ≠ 0) || (!r.rnd && f.rnd ≠ .rne) || (!r.sat && f.sat) ||
  (!r.modA && (f.nega || f.absa)) || (!r.modB && (f.negb || f.absb)) ||
  f.aux &&& ~~~r.aux ≠ 0 ||
  (if f.imm && r.immB then immBad (if r.b = .reg32 then .i32 else f.ty) f.imm16 else f.imm16 &&& ~~~r.imm ≠ 0) ||
  (match op with
  | 0x58 | 0x59 | 0x5A | 0x5B | 0x5C | 0x5D =>
      (decide (f.ty.width < 32) && vec ≠ 0) || (f.kc && vec ≠ 0)
  | 0x5E | 0x5F => f.kc && f.ty.isInt && vec = 3
  | 0x70 => !f.aux.getLsbD 0 &&
      f.imm16.toNat / 4096 ≠ (if f.imm16.getLsbD 11 then 15 else 0)
  | _ => false) ||
  (isMemOp op && f.imm && f.aux.toNat / 512 ≠ 0)

/-- Strengths a memory form accepts (R77, R231). -/
def memStrengths (op : Nat) : List Strength :=
  match op with
  | 0x58 | 0x5A | 0x5C => [.plain, .acq]
  | 0x59 | 0x5B | 0x5D => [.plain, .rel]
  | 0x5E | 0x5F => [.plain, .acq, .rel, .ar]
  | _ => [.plain]

/-- The ordering annotation of a memory word (R136). -/
def LaneFields.ord (f : LaneFields) : Ord := Ord.ofCode (BitVec.ofNat 7 f.aux.toNat)

def ordBad (op : Nat) (f : LaneFields) : Bool := isMemOp op && !f.ord.accepts (memStrengths op)

/-- Whether a register field is an odd base of a 64-bit operand (R42, R136). -/
def odd64 (ty : LType) (k : FieldKind) (x : BitVec 10) (ksel : Bool) : Bool :=
  !ksel && x.getLsbD 0 && (match k with | .reg => ty.pair | .even => true | _ => false)

/-- The odd-base check (R42, R167, R227, R231, R241, R273). -/
def oddBad (op : Nat) (f : LaneFields) (r : LaneRule) : Bool :=
  let ty2 := (LType.ofCode (f.aux.toNat % 32)).getD .b32
  match op with
  | 0x40 => odd64 f.ty .reg f.d false || odd64 ty2 .reg f.a false
  | _ =>
    odd64 f.ty r.d f.d false || odd64 f.ty r.a f.a f.ka || (!f.imm && odd64 f.ty r.b f.b f.kb) ||
    odd64 f.ty r.c f.c f.kc ||
    ((op = 0x5E || op = 0x5F) && f.ty.isInt && f.aux.toNat / 128 % 4 = 3 && f.c.getLsbD 0)

/-- m0 as a mask destination (R123, R136). -/
def mzeroBad (f : LaneFields) (r : LaneRule) : Bool := r.d = .mask && f.d = 0

/-- The checks of a single lane word after its form and type, in the order of R146. -/
def laneCheck (op : Nat) (f : LaneFields) : Option DecodeError :=
  match laneRule op f with
  | none => some ⟨.opcode, op ≠ 0⟩
  | some r =>
    if selectBad op f then some ⟨.select, true⟩
    else if typeopBad op f r then some ⟨.typeop, false⟩
    else if mbzBad op f r then some ⟨.mbz, false⟩
    else if ordBad op f then some ⟨.ord, false⟩
    else if oddBad op f r then some ⟨.oddbase, false⟩
    else if mzeroBad f r then some ⟨.mzero, false⟩
    else none

/-- The single-form type of a compact type code (R140). -/
def ctypeOf (n : BitVec 3) : LType :=
  match n.toNat with
  | 0 => .b32 | 1 => .i32 | 2 => .n32 | 3 => .f32 | 4 => .f64 | 5 => .f16 | 6 => .bf16 | _ => .i64

/-- The lane opcode of a compact opcode (R141). -/
def copLane (c : BitVec 6) : Option Nat :=
  match c.toNat with
  | 0x01 => some 0x01 | 0x02 => some 0x02 | 0x03 => some 0x03 | 0x04 => some 0x04 | 0x05 => some 0x05
  | 0x06 => some 0x06 | 0x07 => some 0x07 | 0x08 => some 0x08 | 0x09 => some 0x09 | 0x0A => some 0x0A
  | 0x0B => some 0x0B | 0x0C => some 0x0C | 0x0D => some 0x0D | 0x0E => some 0x0E | 0x0F => some 0x12
  | 0x10 => some 0x13 | 0x11 => some 0x14
  | 0x20 => some 0x20 | 0x21 => some 0x21 | 0x22 => some 0x22 | 0x23 => some 0x23 | 0x24 => some 0x24
  | 0x25 => some 0x25 | 0x26 => some 0x31 | 0x27 => some 0x32
  | 0x28 => some 0x27 | 0x29 => some 0x28 | 0x2A => some 0x29 | 0x2B => some 0x2A | 0x2C => some 0x2B
  | 0x2D => some 0x2C | 0x2E => some 0x2D | 0x2F => some 0x2E | 0x30 => some 0x2F
  | 0x38 => some 0x40 | 0x39 => some 0x48
  | _ => none

/-- Class S: the operations of which a pair may hold one (R141, R142). -/
def classS (c : BitVec 6) : Bool := decide (0x28 ≤ c.toNat ∧ c.toNat ≤ 0x30) || c.toNat = 0x38

/-- The single form that a compact operation stands for (R141). -/
def CompactOp.single (x : CompactOp) : LaneFields :=
  { ty := ctypeOf x.ctype, d := x.d.zeroExtend 10, a := x.a.zeroExtend 10, b := x.b.zeroExtend 10,
    c := if x.cop = 0x05 || x.cop = 0x23 then x.d.zeroExtend 10 else 0,
    msel := if x.cop = 0x39 then x.x3 else 0, rnd := x.rnd, sat := x.sat, nega := x.nega, negb := x.negb,
    absa := x.absa, absb := x.absb, ka := false, kb := false, kc := false, imm := false,
    aux := if x.cop = 0x38 then BitVec.ofNat 11 (ctypeOf x.x3).code else 0, imm16 := 0 }

/-- The step-1 checks of one compact operation (R139, R142): opcode, type, unused fields. -/
def compactCheck (x : CompactOp) : Option DecodeError :=
  match copLane x.cop with
  | none => some ⟨.copcode, x.cop ≠ 0⟩
  | some op =>
    match laneRule op x.single with
    | none => some ⟨.copcode, true⟩
    | some r =>
      if typeopBad op x.single r then some ⟨.typeop, false⟩
      else if mbzBad op x.single r || (x.cop ≠ 0x38 && x.cop ≠ 0x39 && x.x3 ≠ 0) then some ⟨.mbz, false⟩
      else none

/-- The registers an operand field reads or writes: one, or the two of a pair (R142). -/
def regsOf (pair : Bool) (x : BitVec 10) : List Nat := if pair then [x.toNat, x.toNat + 1] else [x.toNat]

/-- Registers `cvt` reads from its source and writes to its destination, by its two types (R168). -/
def cvtCount (t other : LType) : Nat :=
  Nat.max 1 (32 / Nat.min t.width other.width) * t.width / 32

/-- The registers a compact operation reads through a and b (R142). -/
def compactReads (x : CompactOp) : List Nat :=
  let f := x.single
  let ty2 := (LType.ofCode (f.aux.toNat % 32)).getD .b32
  if x.cop = 0x38 then (List.range (cvtCount ty2 f.ty)).map (f.a.toNat + ·)
  else regsOf f.ty.pair f.a ++
    (match (copLane x.cop).bind (laneRule · f) with
    | some r => match r.b with
        | .none => []
        | .reg32 => [f.b.toNat]
        | _ => regsOf f.ty.pair f.b
    | none => [])

/-- The registers a compact operation writes (R142). -/
def compactWrites (x : CompactOp) : List Nat :=
  let f := x.single
  let ty2 := (LType.ofCode (f.aux.toNat % 32)).getD .b32
  if x.cop = 0x38 then (List.range (cvtCount f.ty ty2)).map (f.d.toNat + ·)
  else regsOf f.ty.pair f.d

/-- The registers a compact operation reads through an accumulating d (R142). -/
def compactAcc (x : CompactOp) : List Nat :=
  if x.cop = 0x05 || x.cop = 0x23 then regsOf x.single.ty.pair x.single.d else []

/-- Whether some bank supplies more than two register reads (R142). -/
def bankBad (rs : List Nat) : Bool := [0, 1, 2, 3].any fun b => decide (2 < (rs.filter fun r => r % 4 = b).length)

/-- The checks of a pair lane word, in the order of R142. -/
def pairCheck (x y : CompactOp) : Option DecodeError :=
  match compactCheck x, compactCheck y with
  | some e, _ => some e
  | none, some e => some e
  | none, none =>
    let odd (z : CompactOp) : Bool := match (copLane z.cop) with
      | some op => (laneRule op z.single).any (oddBad op z.single)
      | none => false
    if odd x || odd y then some ⟨.oddbase, false⟩
    else if bankBad (compactReads x ++ compactReads y) then some ⟨.pbank, false⟩
    else if (compactWrites x).any fun r => (compactWrites y).any fun q => r % 4 = q % 4 then some ⟨.pdest, false⟩
    else if (compactWrites x).any fun r => (compactReads y ++ compactAcc y ++ compactWrites y).contains r then
      some ⟨.pdep, false⟩
    else if classS x.cop && classS y.cop then some ⟨.pclass, false⟩
    else none

end Sys2Proof
end

