-- ==== Sys2Proof/Config.lean ====
section
/-! DEFINITION. What the manual leaves to the implementation: free values with no body, so that no proof can
see them, and the fixed figures of the module (R2, R40). A free value is applied to the counter `State.free`
or to the operands it depends on; each is named in the assumption log. -/

namespace Sys2Proof.Config

/-- A promise's distance beyond the least one that R100 allows (log 11). -/
opaque promiseSlack : Nat → Nat

/-- The value of a tile cell while its tile is poisoned, which R301 leaves unspecified (log 12). -/
opaque poisonedCell : Nat → Word32

/-- A byte of the signature that ATTEST returns; R394 gives its algorithm and no key (log 13). -/
opaque attestByte : Nat → Byte

/-- The module serial number and the firmware and configuration digests of R394, word by word (log 13). -/
opaque identityWord : Nat → Word

/-- The order in which a lane atomic word's lanes are applied is unspecified (R71): the rank of a lane (log 14). -/
opaque laneRank : Nat → Nat → Nat

/-- A timebase estimate that `cpq` gives afresh, beyond the timebase (R252) (log 11). -/
opaque estimate : Nat → Nat

/-- How many of the other slot's latest writes a cross-lane read of one of its lanes does not see yet, which R226 leaves
open (log 103). -/
opaque laneAge : Nat → Nat

/-- Whether an uncorrectable GDDR read of a sector has lost its P bit (R66), which the stored bits do not tell
(log 15). -/
opaque pBitLost : Nat → Bool

/-- The identifier a new task is given, from which the first unused one is taken (R333) (log 16). -/
opaque taskId : Nat → Nat

/-- The handle in a suspect record through which the endpoint reads its list (R365) (log 17). -/
opaque listHandle : Nat → Word

/-- The cause and the access kind in the fault record of a nested trap's first trap, by its class and detail (R361)
(log 18). -/
opaque nestedCode : Nat → Nat × Nat

/-- The set that a die store's fixed, unstated hash selects for a line (R40) (log 5). -/
opaque dieSet : Nat → Nat

/-- The counts that the spill area in a VF's memory holds beyond the units' own, whose size no rule gives (R319) (log 79). -/
opaque spillCounts : Nat → Nat

/-- How many TCBs beyond two a VF's TCB area holds, whose size no rule gives (R327) (log 98). -/
opaque tcbExtra : Nat → Nat

/-- Stamp counts of a die's progress unit and of the aggregator (R319). -/
def unitCounts : Nat := 8192
def aggregatorCounts : Nat := 16384

/-- Active jobs of the module (R2). -/
def activeJobs : Nat := 256

/-- Sets and ways of an L1 and of a die store, in lines of four sectors (R40). -/
def l1Sets : Nat := 64
def dieSets : Nat := 6144
def ways : Nat := 16

/-- Lines of a die store that its reserved part takes: 5 MiB on die 0, 1 MiB on the others (R55). -/
def reservedLines (die : Nat) : Nat := if die = 0 then 10240 else 2048

/-- Dies, clusters, cores and partitions of the module (R2). -/
def dies : Nat := 4
def clusters : Nat := 32
def cores : Nat := 128
def partitions : Nat := 1024

/-- Berths per partition (R2). -/
def berths : Nat := 32

/-- Lane registers per lane column of a partition (R40). -/
def laneFile : Nat := 2048

/-- Granules of a cluster store (R62). -/
def clusterGranules : Nat := 16384

/-- Crane-thread slots and tiles per engine of a cluster (R292). -/
def craneSlots : Nat := 4
def engineTiles : Nat := 8

/-- Ring descriptors of a cluster (R258). -/
def clusterRings : Nat := 64

/-- Incomplete copies one cluster's copy engine holds (R248). -/
def copySlots : Nat := 256

/-- First address past usable GDDR (R11). -/
def usableEnd : Nat := 0x2E80000000

/-- The metadata region (R11, R51). -/
def metaBase : Nat := 0x2E80000000
def metaEnd : Nat := 0x3000000000

/-- First metadata address that describes no sector: reads zero, ignores writes (R51). -/
def metaUsedEnd : Nat := 0x2FF4000000

/-- The control window (R11). -/
def ctlBase : Nat := 0xF000000000
def ctlEnd : Nat := 0xF100000000

/-- First address of the network windows, and the first address past them (R11). -/
def netBase : Nat := 0x8000000000000
def netEnd : Nat := 0x10000000000000

/-- FEAT0 and FEAT1 of the C3 (R383). -/
def feat0 : Word := 0x03000000000003FF
def feat1 : Word := 0x0003408212200000

/-- Ticks a member may take to reach a safe point (R353). -/
def preemptTicks : Nat := 2 ^ 22

/-- Ticks claims for a vacant scope are collected (R392). -/
def claimTicks : Nat := 1000000

/-- Buffers of the launch pool (R342). -/
def poolBuffers : Nat := 65536

end Sys2Proof.Config
end

