-- ==== Sys2Proof/Machine/SMap.lean ====
section
/-! DEFINITION. Sparse maps as plain data: a list of key and value pairs, keys strictly rising, no entry
equal to the value an unlisted key reads as. Memory, register files and every table of the machine use them,
so equal contents are equal lists. -/

namespace Sys2Proof.Machine

/-- A sparse map from natural numbers. -/
abbrev SMap (α : Type) := List (Nat × α)

namespace SMapOps

variable {α : Type}

/-- The value at key `k`, or `dflt` when the key is unlisted. -/
def get (dflt : α) : SMap α → Nat → α
  | [], _ => dflt
  | (j, x) :: m, k => if k = j then x else if k < j then dflt else get dflt m k

/-- Removes the entry of key `k`; what follows it has a greater key. -/
def erase : SMap α → Nat → SMap α
  | [], _ => []
  | (j, x) :: m, k =>
    if k = j then m.dropWhile fun p => decide (p.1 ≤ k) else if k < j then (j, x) :: m else (j, x) :: erase m k

/-- Lists `x` at key `k`, in key order. -/
def insert : SMap α → Nat → α → SMap α
  | [], k, x => [(k, x)]
  | (j, y) :: m, k, x =>
    if k = j then (k, x) :: m else if k < j then (k, x) :: (j, y) :: m else (j, y) :: insert m k x

/-- Writes `x` at key `k`, keeping the canonical form: the default value is never listed. -/
def set [DecidableEq α] (dflt : α) (m : SMap α) (k : Nat) (x : α) : SMap α :=
  if x = dflt then erase m k else insert m k x

/-- Every key of the map lies above `k`. -/
def above (k : Nat) : SMap α → Bool
  | [] => true
  | (j, _) :: m => decide (k < j) && above k m

/-- The canonical form: keys strictly rising, and no value equal to the default. -/
def wf [DecidableEq α] (dflt : α) : SMap α → Bool
  | [] => true
  | (j, x) :: m => decide (x ≠ dflt) && above j m && wf dflt m

/-- Writes a list of values, later ones over earlier ones. -/
def setMany [DecidableEq α] (dflt : α) (m : SMap α) : List (Nat × α) → SMap α
  | [] => m
  | (k, x) :: xs => setMany dflt (set dflt m k x) xs

/-- The values listed, in key order. -/
def values (m : SMap α) : List α := m.map Prod.snd

end SMapOps

end Sys2Proof.Machine
end

