-- ==== Sys2Proof/Machine/State.lean ====
section
/-! DEFINITION. The state of one Celnor C3 module, as plain data, and the module right after reset. -/

namespace Sys2Proof.Machine

/-- A 64-bit value with its proposal tag (R177). -/
structure TV where
  val : Word
  tag : Bool
deriving DecidableEq, Repr

/-- A lane register of one lane: 32 data bits and one tag (R42). -/
structure LV where
  val : Word32
  tag : Bool
deriving DecidableEq, Repr

/-- A mask register: a bit and a tag for each lane (R40, R123). -/
structure MaskReg where
  bits : Word32
  tags : Word32
deriving DecidableEq, Repr

/-- Which engine a hart is: a wave's S-stream with its lanes, or a crane thread (R128, R293). -/
inductive Engine where
  | wave | crane
deriving DecidableEq, Repr

/-- A wave's role (R128). -/
inductive Role where
  | loader | vector
deriving DecidableEq, Repr

/-- State of a lane PC slot (R119). -/
inductive SlotState where
  | free | run | wait | waitAny
deriving DecidableEq, Repr

/-- A lane PC slot (R119). -/
structure Slot where
  off : BitVec 24
  mask : Word32
  shadow : Bool
  st : SlotState
deriving DecidableEq, Repr

/-- One divergence-stack entry: the other slot, and the outer shadow and origin of its pair (R121). -/
structure Split where
  other : Slot
  csh : Bool
  corg : Bool
deriving DecidableEq, Repr

/-- A lane block: its entry address, its snapshot of k0 to k15 (R117), and the number its `lrun` took among the operations of
the module. -/
structure Block where
  entry : Word
  ksnap : SMap TV
  since : Nat
deriving DecidableEq, Repr

/-- One sector write: bytes, data, tag, poison, and whether this one write covers the sector (R47).
`sector` numbers the 128-byte sectors of its space. -/
structure SWrite where
  sector : Nat
  mask : ByteMask
  data : SectorData
  s : Bool
  x : Bool
  fc : Bool
deriving DecidableEq, Repr

/-- The operations of lane, scalar and inbound atomics (R193, R241, R388). -/
inductive AtomOp where
  | add | and | or | xor | smin | smax | umin | umax | swap | cas
  | fadd (rnd : Rnd) | fmin | fmax
deriving DecidableEq, Repr

/-- One atomic of one lane, or of the S-stream when `lane` is none (R48). -/
structure AtomReq where
  lane : Option Nat
  addr : Nat
  size : Nat
  op : AtomOp
  v : Nat
  new : Nat
  opTag : Bool
  s : Bool
  dst : Nat
  iaddr : Word
deriving DecidableEq, Repr

/-- Memory types of a leaf (R20). -/
inductive MemType where
  | normal | streaming | device
deriving DecidableEq, Repr

/-- Where a store-queue entry goes when it leaves the queue (R72, R73, R240). -/
inductive SqKind where
  | l1 | through | cluster | device | atomics | clusterAtomics | copyCmd | tileCmd
deriving DecidableEq, Repr

/-- What a load or a store comes from, by its place in wave order (R70): a word of the S-stream, with the number of its last
`lsync`; a lane word, with the number of its block's `lrun`; or a batch that the walker commits. -/
inductive Source where
  | scalar (synced : Nat)
  | lane (block : Nat)
  | walker
deriving DecidableEq, Repr

/-- One entry of a wave's store queue (R72). `op` names its st operation (R90), `ld` its ld operation where it
has one, `copy` the copy or tile operation whose command it is. `rel` marks the own access of a release: it is performed
as it leaves the queue (R78). -/
structure SqEntry where
  op : Nat
  ld : Nat
  kind : SqKind
  rel : Bool
  sized : List (Nat × Nat × Nat)
  writes : List SWrite
  atoms : List AtomReq
  copy : Nat
  src : Source
deriving DecidableEq, Repr

/-- One lane's translated access (R233, R236). -/
structure LaneAcc where
  lane : Nat
  ea : Word
  pa : Nat
  mt : MemType
  tag : Bool
deriving DecidableEq, Repr

/-- The load forms (R192, R237, R243, R244). `acqS` and `acqL` are the acquire part of an atomic of the S-stream or
of a lane slot that is still in flight (R80); they read nothing. -/
inductive LoadForm where
  | ld | ldd | ldc | sld | sldc | tagP | tagX | pref | acqS | acqL
deriving DecidableEq, Repr

/-- A load that has issued and whose value has not returned (R90, R237). `acq` holds the letters of an acquire
load; `remote` what has come back for it: sectors of network windows, and device accesses, with P and X. `late` counts
the acquires (k, y, p or h) that have passed it since it issued (F13, F14). -/
structure LoadReq where
  op : Nat
  form : LoadForm
  lanes : List LaneAcc
  esize : Nat
  count : Nat
  signed : Bool
  dst : Nat
  acq : Option (BitVec 5)
  iaddr : Word
  kind : AccessKind
  remote : List (Nat × SectorData × Bool × Bool)
  late : Nat
  src : Source
deriving DecidableEq, Repr

/-- The counters of a stream (R90). -/
inductive CounterClass where
  | ld | st | cp | mx | ts
deriving DecidableEq, Repr

/-- One counted operation: its number, and whether it has completed (R90, R92). -/
structure Counted where
  op : Nat
  done : Bool
deriving DecidableEq, Repr

/-- What an S-stream that has issued an instruction waits for: the waits of R435, and those of instructions that run
to completion. `lsync` counts the blocks still to end; `mscrub` lists the operations it waits for; `cpyg` names
its barrier. -/
inductive Wait where
  | swait (ld st cp mx ts : Nat)
  | barWait (bar : Nat) (gen : BitVec 32) (ord : Ord)
  | ssleep (bar : Nat) (gen : BitVec 32) (promise : Word)
  | ringRes (ring : Nat) (d : SReg)
  | ringGet (ring : Nat) (d : SReg)
  | fwait (loc : Nat) (time : Word)
  | cpyg (bar : Nat)
  | mwait (obj : Nat) (gen : BitVec 32)
  | mmaSlot (acc : BitVec 3) (a b : SReg) (mask : BitVec 4)
  | sendGate (d : SReg) (payload time control : Word)
  | sget (d : SReg)
  | lsync (blocks : Nat)
  | lrun (entry : Word)
  | tlbi
  | spawn (d : SReg) (control tpl args time slist : Word)
  | mscrub (mask : BitVec 4) (ops : List Nat)
deriving DecidableEq, Repr

/-- A trap record as entry loads it into s57 to s61 (R359). -/
structure Record where
  cls : BitVec 8
  detail : BitVec 16
  lane : Bool
  lretry : Bool
  wait : Bool
  lanes : Word32
  faddr : Word
  arg0 : Word
  arg1 : Word
  arg2 : Word
deriving DecidableEq, Repr

/-- A lane trap that has frozen the lane queue and waits for the S-stream's next boundary (R359). -/
structure LaneTrap where
  slot : Bool
  record : Record
deriving DecidableEq, Repr

/-- A running trap handler: the program's s56 to s61 in the six hidden slots, whether the trap came from the
lane stream and its slot, and the record for a nested trap (R359 to R361). `since` is the number the next operation had at
the entry: what an older one brings for s56 to s61 belongs in the hidden slots. -/
structure Handler where
  saved : List TV
  slot : Bool
  record : Record
  rpc : Word
  waiting : Option Wait
  since : Nat
deriving DecidableEq, Repr

/-- An armed user interrupt (R257). -/
structure Armed where
  bar : Nat
  gen : BitVec 32
  handler : Word
  ord : Ord
deriving DecidableEq, Repr

/-- The walker's recorded store of one byte by one lane of the running batch (R288). -/
structure WStore where
  lane : Nat
  addr : Nat
  pa : Nat
  mt : MemType
  byte : Byte
  tag : Bool
deriving DecidableEq, Repr

/-- A `wloop` in progress (R287, R291). `batch` counts the batches still to run, `exe` and `skp` the lanes of the
committed ones; `run` is the mask of the batch in the body, and `inBody` whether the body runs. `savedV` and `savedM` are the
program's lane and mask registers, and `savedX` the lane registers among them, by register and lane, that hold an uncorrectable
error. -/
structure WalkRun where
  manifest : List Word
  body : Word
  d : SReg
  n : Nat
  batch : Nat
  exe : Nat
  skp : Nat
  run : Word32
  lanes : Word32
  inBody : Bool
  savedV : SMap LV
  savedM : SMap MaskReg
  savedX : List (Nat × Nat)
  ksnap : SMap TV
  stores : List WStore
  cells : List (Nat × Nat)
deriving DecidableEq, Repr

/-- A lane word that the lane stream has passed and that a load still owes a register: the slot and the block it was issued
in, the accesses of a store, whose checks are done (R189, R426), and the lanes it has killed so far (R126). -/
structure LateWord where
  instr : Instr
  slot : Bool
  ctx : Slot
  block : Block
  accs : List LaneAcc
  kills : Word32
deriving DecidableEq, Repr

/-- How a hart ended (R129, R130, R332). -/
inductive EndKind where
  | exited | phased | killed
deriving DecidableEq, Repr

/-- A wave or a crane thread (R115, R293). Lane registers, with the hidden wide-accumulator registers above
the declared count (R44), are keyed `register * 32 + lane`. `busy` marks an instruction that has issued and stalls
in a part the S-stream does not leave (R435); `acq` marks the acquire due before the next instruction (R86); `kills` holds
the lanes that the word at which a slot stands, or an operation of one, has killed so far (R126); `older` holds, for each
open split, innermost first, what lane registers held before the writes since it, by moments, newest first, each with its
register and lane (R226); `late` holds the lane words that wait for a load behind the lane stream, oldest first. `synced` is the
number of the last `lsync`; `floats` says of each floating atomic, by operation, whether a lane of it has raised a status and
whether one has returned a proposal (R163); `stallS` and `stallL` name the counter that holds the word at which the S-stream,
and a lane slot, stands (R91, R350); `reached` says that the member has met a safe point since the pre-emption request (R353),
and `doomed` that its code is gone (R356). -/
structure Hart where
  unit : Nat
  engine : Engine
  gang : Nat
  index : Nat
  core : Nat
  part : Nat
  berth : Nat
  pendingBerth : Bool
  role : Role
  start : Word
  pc : Word
  s : SMap TV
  k : SMap TV
  m : SMap MaskReg
  v : SMap LV
  queue : List Block
  block : Option Block
  slot0 : Slot
  slot1 : Slot
  csh : Bool
  corg : Bool
  stack : List Split
  fifo : List TV
  fstat : Word
  wstat : Word
  corrLimit : Word
  corrKappa : Word
  corrOvf : Word
  fmt : Word
  walker : Word
  ld : List Counted
  st : List Counted
  cp : List Counted
  mx : List Counted
  ts : List Counted
  storeQ : List SqEntry
  loads : List LoadReq
  batchOpen : Option (Nat × Nat)
  armed : List Armed
  userReturn : Option Word
  trapped : Option Handler
  laneTrap : Option LaneTrap
  lastRecord : Option Record
  frozen : Bool
  busy : Bool
  wait : Option Wait
  walk : Option WalkRun
  suspendedFault : Bool
  halted : Bool
  safeMask : Option Word
  netFetch : List (Nat × SectorData × Bool)
  absent : List Nat
  ctxV : SMap LV
  acq : Bool
  kills : SMap Word32
  older : List (List (List (Nat × Nat × LV)))
  late : List LateWord
  synced : Nat
  floats : SMap (Bool × Bool)
  stallS : Option CounterClass
  stallL : Option CounterClass
  reached : Bool
  doomed : Bool
  ended : Option EndKind
deriving DecidableEq, Repr

/-- A barrier register (R96); `rsv` is bits 35:6 of its image. -/
structure Barrier where
  gen : BitVec 32
  pend : BitVec 48
  exp : BitVec 6
  arr : BitVec 6
  rsv : BitVec 30
  ccause : BitVec 4
  cflt : Bool
  init : Bool
deriving DecidableEq, Repr

/-- Slot states of a ring (R259). -/
inductive RingSlotState where
  | free | res | full | held
deriving DecidableEq, Repr

/-- A waiter of a ring: its hart, whether it takes a slot for producing, and whether it waits inside a trap handler
(R259, R435). -/
structure Waiter where
  hart : Nat
  prod : Bool
  handler : Bool
deriving DecidableEq, Repr

/-- A bound ring: its descriptor's fields, its slots with their phase bits, its waiters in arrival order, and its occupancy
since it was bound, newest first: each value with the time it began (R258, R259, R352). -/
structure Ring where
  en : Bool
  base : Nat
  ssz : Nat
  nsl : Nat
  pi : Nat
  ci : Nat
  slots : SMap (RingSlotState × Bool)
  waiters : List Waiter
  hist : List (Nat × Word)
deriving DecidableEq, Repr

/-- A `ring.rel` not yet effective: the slot, and the engine reads it waits for (R106): tile operations, copies, and the gang
copies still open, by gang and barrier. -/
structure RingRel where
  ring : Nat
  slot : Nat
  tileOps : List Nat
  copies : List Nat
  gangs : List (Nat × Nat)
deriving DecidableEq, Repr

/-- One slice of a copy, or the whole of a plain one: its hart and batch, source and destination with whether each
lies in the cluster store, and length (R248, R251). `since` is the number the next operation had when it arrived. -/
structure Slice where
  hart : Nat
  batch : Nat
  since : Nat
  index : Nat
  d : SReg
  src : Nat
  srcC : Bool
  dst : Nat
  dstC : Bool
  len : Nat
deriving DecidableEq, Repr

/-- An open gang copy of `cpyg`; `bad` marks a malformed control word among its slices (R251). -/
structure GangCopy where
  gang : Nat
  bar : Nat
  nsl : Nat
  arv : Bool
  bad : Bool
  slices : List Slice
deriving DecidableEq, Repr

/-- What a copy moves: byte ranges, or one box of a tensor (R248, R250). -/
inductive CopyWork where
  | linear (slices : List Slice)
  | tensor (map : List Word) (coords : List Int) (toTensor : Bool) (caddr : Nat)
deriving DecidableEq, Repr

/-- A copy that has issued and has not completed (R95, R102). `gang` and `bar` name its barrier, `die` and `cluster`
the engine that runs it. `done` numbers the destination sectors performed; `read` holds the pieces read and not yet
written, keyed `sector * 128 + piece`; `owed` counts the bytes not yet performed. -/
structure Copy where
  hart : Nat
  unit : Nat
  vf : Nat
  cluster : Nat
  gang : Nat
  bar : Option Nat
  work : CopyWork
  ring : Option (Nat × Nat)
  promise : Word
  active : Bool
  done : List Nat
  read : List (Nat × SWrite)
  batches : List (Nat × Nat)
  owed : Nat
  iaddr : Word
deriving DecidableEq, Repr

/-- What a tile operation does (R300 to R302). -/
inductive TileKind where
  | mzero
  | mma (a b : Word) (va vb : Word) (fmt : Word)
  | mout (dst : Word) (z cmt : Bool)
deriving DecidableEq, Repr

/-- A tile operation that has issued and has not completed; `done` lists the cells already done, numbered
`engine * 4096 + 64 * i + j` (R307), and `active` says its command has left the thread's store queue (R102, R104). -/
structure TileOp where
  hart : Nat
  unit : Nat
  op : Nat
  kind : TileKind
  acc : Nat
  mask : BitVec 4
  done : List Nat
  out : List SWrite
  iaddr : Word
  active : Bool
deriving DecidableEq, Repr

/-- A pending mark of a matrix barrier object: the tile operations it waits for (R304). -/
structure Mark where
  obj : Nat
  hart : Nat
  ops : List Nat
deriving DecidableEq, Repr

/-- Whether a unit's members are resident, or saved at a safe point (R353, R354). -/
inductive UnitState where
  | resident | saved | released
deriving DecidableEq, Repr

/-- A placed gang or convoy (R115, R348). Cluster-store bytes, and the P and X of its granules, are keyed by
offset in the reservation; barriers by `gang * 16 + number`; tile cells by
`(engine * 8 + tile) * 4096 + 64 * i + j`. `roles` is the template's loader mask, `image` is the `.cstore` image the
reservation starts from. `cbase` is the reservation's first granule in the cluster store (R348), and `ticket` the place of a
saved unit among those that wait to be restored (R197). -/
structure Gang where
  vf : Nat
  task : Nat
  index : Nat
  convoy : Bool
  cluster : Nat
  waves : Nat
  nregs : Nat
  wide : Bool
  nbar : Nat
  nacc : Nat
  ncrane : Nat
  granules : Nat
  roles : Word32
  lentry : Word
  image : SMap Byte
  cbytes : SMap Byte
  ctags : SMap (Bool × Bool)
  bars : SMap Barrier
  rings : SMap (Option Ring)
  rels : List RingRel
  gangCopies : List GangCopy
  tiles : SMap Word32
  tpoison : SMap Bool
  mgens : SMap (BitVec 32)
  marks : List Mark
  roleMark : Option Nat
  preempt : Option Word
  st : UnitState
  ticket : Nat
  cbase : Nat
deriving DecidableEq, Repr

/-- A sector of a core's L1 (R56). -/
structure L1Sector where
  filled : Bool
  dirty : ByteMask
  data : SectorData
  fc : Bool
  pf : Bool
  xf : Bool
  pd : Bool
  xd : Bool
  gen : BitVec 8
deriving DecidableEq, Repr

/-- A sector held by its home die store: dirty or clean, data, P and X (R54). -/
structure DsSector where
  dirty : Bool
  data : SectorData
  p : Bool
  x : Bool
deriving DecidableEq, Repr

/-- What a write or access in flight between a core and its point of performance does (R68, R73). -/
inductive FlightKind where
  | home (w : SWrite)
  | posted (unit : Nat) (w : SWrite)
  | atomics (reqs : List AtomReq)
  | clusterAtomics (unit : Nat) (reqs : List AtomReq)
  | netWrite (w : SWrite)
  | netRelease (w : SWrite)
  | netDevice (release : Bool) (w : SWrite)
  | netAtomics (release : Bool) (reqs : List AtomReq)
  | netLoad (key : Nat)
  | netAnswer (sector : Nat) (data : SectorData) (p : Bool)
deriving DecidableEq, Repr

/-- An access in flight: the hart that issued it, or 0 for a core's own write-back, its core, and its counted
operations. -/
structure Flight where
  hart : Nat
  core : Nat
  op : Nat
  ld : Nat
  kind : FlightKind
deriving DecidableEq, Repr

/-- Where a cached translation is held: one core's first-level TLB, or one die's TLB (R24). -/
inductive TlbSite where
  | core (n : Nat)
  | die (n : Nat)
deriving DecidableEq, Repr

/-- A cached translation (R24, R26). `page` is the virtual address divided by the size, and `bitsLog` its
log2: 12, 16 or 21. `space` is none for a global entry. `leaf` is the physical address of the walked entry, and `entry` what the
walk left there (R21). -/
structure TlbEntry where
  site : TlbSite
  vf : Nat
  space : Option (BitVec 16)
  bitsLog : Nat
  page : Nat
  base : Nat
  w : Bool
  x : Bool
  mt : MemType
  d : Bool
  leaf : Nat
  entry : Word
deriving DecidableEq, Repr

/-- A walk-cache entry: the table entry of `level` read for the prefix, giving the next table's frame (R24). -/
structure WalkEntry where
  die : Nat
  vf : Nat
  space : BitVec 16
  level : Nat
  pre : Nat
  frame : Nat
deriving DecidableEq, Repr

/-- A latent upset not yet read (R66, and the SOFT_ERROR row). -/
structure Upset where
  target : UpsetTarget
  multi : Bool
deriving DecidableEq, Repr

/-- Memory and the structures that hold it on the module. `mem` is GDDR, the metadata region included, as
physical bytes; `ds` the die stores, keyed by sector; `l1` keyed `core * 2^45 + sector`; `cg` and `hz` the
fill generation and horizon of each core (R50 to R58). -/
structure MemState where
  mem : List Host.Cell
  ds : SMap (Option DsSector)
  l1 : SMap (Option L1Sector)
  cg : SMap (BitVec 8)
  hz : SMap (BitVec 8)
  flights : SMap (Option Flight)
  tlb : List TlbEntry
  walks : List WalkEntry
  upsets : List Upset
deriving DecidableEq, Repr

/-- States of a task control block (R333). -/
inductive TaskState where
  | armed | ready | running | faulted | dead
deriving DecidableEq, Repr

/-- A member's carry set in a phase record: s registers, lane registers and m0, with tags (R130). `s` lists each carried
register with its value. -/
structure Carry where
  unit : Nat
  member : Nat
  s : List (Nat × TV)
  v : SMap LV
  m0 : MaskReg
  entry : Word
deriving DecidableEq, Repr

/-- A message sent on an edge and not yet consumed (R328). -/
structure Message where
  edge : Nat
  time : Word
  payload : Word
deriving DecidableEq, Repr

/-- A launch template's fields. `buckets` pairs each entry with its limit word (R346). -/
structure Template where
  convoy : Bool
  waves : Nat
  count : Nat
  regs : Nat
  wide : Bool
  nbar : Nat
  ncrane : Nat
  nacc : Nat
  granules : Nat
  roles : Word32
  csimg : Word
  cslen : Nat
  rings : Word
  pmask : Word
  pval : Word
  lentry : Word
  buckets : List (Word × Word)
  centry : List Word
deriving DecidableEq, Repr

/-- What the placement reads of a task gave (R346, R347). -/
structure PlaceData where
  tpl : Template
  shape : Nat
  entry : Word
  pre : List (SReg × TV)
  image : SMap Byte
  rings : SMap (Option Ring)
deriving DecidableEq, Repr

/-- A task control block with the harbourmaster's record of its progress (R333). `placed` counts the units
placed, `units` the units of the task, `carries` its phase record, `msgs` the messages its batch sends to peers, `data` what
its placement reads gave, `spilt` how many counts of `batch` its die's unit could not hold (R319), `dead` the lanes it
has lost, by unit and member (R124), `waited` the locations at which an `fwait` of it has ended (R329), and `leaving` that it has
ended, its batch forwarded, and its successor list is still to be read (R335). -/
structure Tcb where
  st : TaskState
  prio : BitVec 3
  priv : Bool
  msg : Bool
  disc : Bool
  canc : Bool
  time : Word
  job : BitVec 8
  node : BitVec 6
  entry : Word
  pend : BitVec 12
  scnt : BitVec 6
  slrel : BitVec 46
  args : Word
  tpl : Word
  fcode : BitVec 16
  relaunch : BitVec 16
  die : Nat
  batch : List Change
  spilt : Nat
  placed : Nat
  units : Nat
  carries : List Carry
  msgs : List (Nat × Message)
  data : Option PlaceData
  dead : List (Nat × Nat × Word32)
  waited : List Nat
  leaving : Bool
deriving DecidableEq, Repr

/-- A forwarded count batch, with the messages to peers that follow it (R320, R396). `own` marks one that arose on
this module, and `frees` names the DEAD tasks whose −1 it holds (R334). -/
structure Batch where
  vf : Nat
  job : Nat
  changes : List Change
  msgs : List (Nat × Message)
  own : Bool
  frees : List Nat
deriving DecidableEq, Repr

/-- One outstanding stamp: location, time word and count (R318, R321). -/
structure Stamp where
  loc : Nat
  time : Word
  count : Int
deriving DecidableEq, Repr

/-- A frontier as a die last received it, or as the aggregator computed it (R322, R323). -/
structure Front where
  die : Nat
  loc : Nat
  elems : List Word
deriving DecidableEq, Repr

/-- A job: its chart, counts, frontiers, holds, gate and peers (R314 to R330, R395). `told` says that the end of its cancel
has been reported (R338). -/
structure Job where
  locs : SMap (Word × Word)
  paths : SMap Word
  stamps : List Stamp
  fronts : List Front
  holds : List Stamp
  messages : List Message
  applied : Bool
  cancelled : Bool
  gate : Nat
  slack : Nat
  peers : List Nat
  told : Bool
deriving DecidableEq, Repr

/-- Tasks, jobs and the batches on their way to the aggregator, by die (R318 to R337). Tasks are keyed
`vf * 2^32 + id`, jobs `vf * 256 + job`. -/
structure ProgState where
  tasks : SMap (Option Tcb)
  jobs : SMap (Option Job)
  dieQ : List (Nat × Batch)
deriving DecidableEq, Repr

/-- A VF's registers: translation, role reassignment, and its placement weight (R14, R341, R351). -/
structure VfRegs where
  troot : Word
  tspace : Word
  roleLow : Word
  roleHigh : Word
  roleTime : Word
  sched : Word
deriving DecidableEq, Repr

/-- A launch queue's register, the conditions of the FENCE that holds it, and the packets in its buffers, oldest
first: each is the 64-byte buffers it fills (R341, R342, R344). -/
structure Queue where
  ctl : Word
  fence : List (Word × Word)
  packets : List (List Words)
deriving DecidableEq, Repr

/-- A capture unit (R399). -/
structure Monitor where
  cfg : Word
  edges : SMap Word
  min : Word
  max : Word
  count : Word
  sum : Word
  bins : SMap Word32
deriving DecidableEq, Repr

/-- Ownership of a scope: the owner and the end of its lease, or the claims being collected (R392). -/
structure Claim where
  host : Nat
  prio : BitVec 8
  nonce : Word
  lease : Nat
deriving DecidableEq, Repr

structure Ownership where
  scope : OwnScope
  owner : Option (Nat × Word)
  claims : List Claim
  firstClaim : Word
deriving DecidableEq, Repr

/-- A loaded image: its place, its pages and the charts it holds; `leaving` marks an unload deferred while code is in
use, `loading` one whose leaves the loader has still to write (R356, R386, R387). -/
structure Image where
  vf : Nat
  base : Word
  size : Nat
  charts : List (List Word)
  pages : List Nat
  leaving : Bool
  loading : Bool
deriving DecidableEq, Repr

/-- A VF's recorder (R400). -/
structure Recorder where
  running : Bool
  addr : Word
  len : Nat
  log : List Words
deriving DecidableEq, Repr

/-- A die's harbourmaster (R366). -/
inductive Harbour where
  | active | takingOver | down
deriving DecidableEq, Repr

/-- A cluster's structural-test record: whether a test runs, the earliest start of the next, the last pass, and the
tasks retired on the cluster since (R365). -/
structure FieldTest where
  running : Bool
  next : Word
  pass : Word
  retired : List Words
deriving DecidableEq, Repr

/-- The module's power state (R394, R401). -/
inductive Power where
  | off | on | refused | down
deriving DecidableEq, Repr

/-- Where traffic to a peer or host goes: its PEERTAB entry, with the endpoint address, VF and job that the entry names
(R390). -/
structure PeerAddr where
  peer : Nat
  fabric : Word
  rvf : Nat
  rjob : Nat
deriving DecidableEq, Repr

/-- What leaves the module: a response to a host or inbound access, a write or message to a peer, a record to
a host. The P of read bytes is one bit a sector (R391), and an address sent to a peer is the
remote one (R390). Only the order in the list is observable. DESIGN CHOICE (log 10, 84). -/
inductive Output where
  | response (host code : Nat) (ok : Bool) (words : Words)
  | bytes (host code : Nat) (data : List Byte) (p : List Bool)
  | refusedAccess (sender : Nat)
  | record (vf : Nat) (words : Words)
  | netWrite (dest : PeerAddr) (w : SWrite)
  | netRead (dest : PeerAddr) (addr len : Nat)
  | netAtomic (dest : PeerAddr) (r : AtomReq)
  | batch (vf job : Nat) (dest : List PeerAddr) (changes : List Change)
  | message (vf job : Nat) (dest : PeerAddr) (edge : Nat) (time payload : Word)
  | suspect (vf : Nat) (dest : List PeerAddr) (words : Words)
deriving DecidableEq, Repr

/-- What a die's harbourmaster holds while its standby takes over (R366): a record for a VF's fault queue, a task that
faulted, a task to relaunch. -/
inductive Held where
  | record (vf : Nat) (words : Words)
  | fault (vf task : Nat) (code : BitVec 16)
  | relaunch (vf task cause : Nat)
deriving DecidableEq, Repr

/-- A command of the management endpoint that may take more than one step (R392, R393): its attempts go on until it is
complete. `unlisted` is one of a code that R393 does not list. -/
inductive HostCmd where
  | read (host addr len : Nat)
  | write (host addr : Nat) (data : List Byte)
  | load (host vf : Nat) (base : Word) (len : Nat) (image : List Byte) (frames : List Nat)
  | unload (host vf : Nat) (base : Word) (force : Bool)
  | mgmtTlbi (host vf : Nat) (scope : BitVec 4) (va : Word)
  | discard (host vf task : Nat)
  | unlisted (host code : Nat)
deriving DecidableEq, Repr

/-- The module's own registers and records (R341, R364, R390, R392, R399, R431). `held` holds what waits for a standby, by
die; `log` the management log (R394); `accepted` the commands the management endpoint has accepted and not finished (R392);
`lists` the lists that suspect records name, by handle (R365); `quota` the units a VF may still restore of its last turn (R345). -/
structure ModState where
  power : Power
  vfs : SMap VfRegs
  queues : SMap Queue
  cgrant : SMap Word
  errcnt : SMap Word
  nwin : SMap Word
  peertab : SMap (Word × Word)
  monitors : SMap Monitor
  owners : List Ownership
  images : List Image
  recorders : SMap Recorder
  harbour : SMap Harbour
  tests : SMap FieldTest
  quarParts : List Nat
  quarEngines : List Nat
  quarClusters : List Nat
  throttled : List Nat
  round : Nat
  held : List (Nat × Held)
  log : List Words
  accepted : List (Option OwnScope × HostCmd)
  lists : List (Word × List Words)
  quota : SMap Nat
deriving DecidableEq, Repr

/-- Who acts: a hart's S-stream, or one of its lane PC slots (`false` slot 0, `true` slot 1). -/
inductive Agent where
  | scalar (hart : Nat)
  | lane (hart : Nat) (slot : Bool)
deriving DecidableEq, Repr

/-- What moves next: an agent issues, an event takes place, a command that the management endpoint has accepted is tried
again or one of a code that is not listed arrives (R393), one lane of a load or one sector write of a store word is
performed ahead of the word's others (R71), a slot passes a word that waits for a load, or such a word is executed (R189),
or the timebase advances (R2). DESIGN CHOICE (log 2). -/
inductive Move where
  | run (a : Agent)
  | event (i : Instr)
  | lane (hart op lane : Nat)
  | part (hart entry write : Nat)
  | hold (hart : Nat) (slot : Bool)
  | late (hart : Nat)
  | command (c : HostCmd)
  | tick (n : Nat)
deriving DecidableEq, Repr

/-- The state of the module. `cur` is the agent that acts when `sched` is empty, `free` the counter of free
values, `nextId` the number the next operation takes; these four are the model's own. `promises` holds the last promise of
each cluster's copy engine (R100). -/
structure State where
  cur : Agent
  sched : List Move
  free : Nat
  nextId : Nat
  time : Word
  harts : SMap (Option Hart)
  gangs : SMap (Option Gang)
  copies : SMap (Option Copy)
  promises : SMap Word
  tileOps : SMap (Option TileOp)
  mem : MemState
  prog : ProgState
  mod : ModState
  outbox : List Output
deriving DecidableEq, Repr

/-- Why a step can stop. Only the model's own reasons are here: the spec gives every instruction and event an
effect, a trap or a stall. -/
inductive Fault where
  /-- Raised by a meaning when `State.cur` names no resident hart of the kind the instruction runs on, so
  there is nothing to run. `step` finds the agent first and raises it only where `State.sched` schedules an
  instruction as an event with no such agent. Safe. -/
  | noAgent
deriving DecidableEq, Repr

/-- Why a step can be refused. -/
inductive Refusal where
  /-- Raised by `exec` for an instruction with no meaning yet. Safe. -/
  | notModelled (mnemonic : String)
deriving DecidableEq, Repr

/-- Values that unlisted keys of the tables read as: the reset values of what they hold. -/
def TV.zero : TV := ⟨0, false⟩
def LV.zero : LV := ⟨0, false⟩
def MaskReg.zero : MaskReg := ⟨0, 0⟩
def Barrier.zero : Barrier := ⟨0, 0, 0, 0, 0, 0, false, false⟩
def Slot.zero : Slot := ⟨0, 0, false, .free⟩
def VfRegs.zero : VfRegs := ⟨0, 0, 0, 0, 0, 1⟩
def Queue.zero : Queue := ⟨0, [], []⟩
def Monitor.zero : Monitor := ⟨0, [], 0, 0, 0, 0, []⟩
def Recorder.zero : Recorder := ⟨false, 0, 0, []⟩
def FieldTest.zero : FieldTest := ⟨false, 0, 0, []⟩

/-- What a byte of memory reads as when nothing has written it: bring-up writes every usable sector as zero,
settled and unpoisoned with valid ECC, which is the all-zero metadata word (R401, R432). DEDUCED (log 3). -/
def memDefault : Byte := 0

/-- The canonical form of memory. DEDUCED (log 3). -/
abbrev Memory.wf (m : List Host.Cell) : Prop := SMapOps.wf memDefault m = true

def MemState.reset : MemState := ⟨[], [], [], [], [], [], [], [], []⟩

def ProgState.reset : ProgState := ⟨[], [], []⟩

def ModState.reset : ModState :=
  { power := .off, round := 0
    vfs := [], queues := [], cgrant := [], errcnt := [], nwin := [], peertab := []
    monitors := [], owners := [], images := [], recorders := [], harbour := [], tests := []
    quarParts := [], quarEngines := [], quarClusters := [], throttled := []
    held := [], log := [], accepted := [], lists := [], quota := [] }

/-- The module right after reset: unpowered endpoints, no task, no unit, every register at its reset value,
memory with nothing listed (R14, R341, R364, R390, R399, R401). DESIGN CHOICE (log 1). -/
def State.reset : State :=
  ⟨.scalar 0, [], 0, 1, 0, [], [], [], [], [], MemState.reset, ProgState.reset, ModState.reset, []⟩

end Sys2Proof.Machine
end

