-- ==== Sys2Proof/WellFormed.lean ====
section
/-! DEFINITION. Well-formed instructions: the terms that some word encodes. An event is always well-formed: its
arguments are inputs, and its meaning checks them. -/

namespace Sys2Proof

/-- The control registers that a number names (R200). -/
def csrKnown (n : BitVec 10) : Bool :=
  [0x000, 0x001, 0x010, 0x011, 0x012, 0x020, 0x021, 0x030, 0x031, 0x032].contains n.toNat

/-- A barrier-group annotation of the strength the form takes (R255). -/
def barOrd (o : Ord) (strong : Strength) : Bool := o.accepts [.plain, strong]

/-- Which terms are instructions: those that decode gives. -/
def Instr.wf (i : Instr) : Bool :=
  match i with
  | .sbr c _ _ => decide (c.toNat < 6)
  | .sext _ _ k => decide (k.toNat < 6)
  | .sld _ _ o _ _ | .sldc _ _ o _ => o.accepts [.plain, .acq]
  | .sst _ _ o _ _ | .sstc _ _ o _ => o.accepts [.plain, .rel]
  | .satom d _ o _ p => o.accepts [.plain, .acq, .rel, .ar] && decide (p.toNat < 10) && !(p.toNat = 9 && d.getLsbD 0)
  | .sfence o => o.accepts [.acq, .rel, .ar]
  | .sclk _ n => decide (n.toNat < 6)
  | .barArrive o _ => barOrd o .rel
  | .barWait _ o _ | .barTest _ _ o _ | .barArm _ _ o _ => barOrd o .acq
  | .cpy _ a _ _ | .cpyg _ a _ _ => decide (a.toNat ≤ 62)
  | .cpyt _ a _ _ => decide (a.toNat ≤ 59)
  | .spawn _ a _ => decide (a.toNat ≤ 60)
  | .send _ a _ => decide (a.toNat ≤ 62)
  | .tget _ c => decide (c.toNat < 6)
  | .tset _ b c => decide (c.toNat < 2) && (b = 0 || c = 1)
  | .wloop d a _ => decide (d.toNat ≤ 62 ∧ a.toNat ≤ 62)
  | .mzero _ m | .mma _ _ _ m | .mout _ _ m _ _ | .mpsn _ _ m | .mscrub m => m ≠ 0
  | .mbar _ n | .mwait _ n => decide (n.toNat < 8)
  | .csrr _ n | .csrw _ n => csrKnown n
  | .feat _ c => decide (c.toNat < 2)
  | .add w => (laneCheck 0x01 w).isNone
  | .sub w => (laneCheck 0x02 w).isNone
  | .mul w => (laneCheck 0x03 w).isNone
  | .mulh w => (laneCheck 0x04 w).isNone
  | .mad w => (laneCheck 0x05 w).isNone
  | .and w => (laneCheck 0x06 w).isNone
  | .or w => (laneCheck 0x07 w).isNone
  | .xor w => (laneCheck 0x08 w).isNone
  | .shl w => (laneCheck 0x09 w).isNone
  | .shr w => (laneCheck 0x0A w).isNone
  | .sra w => (laneCheck 0x0B w).isNone
  | .min w => (laneCheck 0x0C w).isNone
  | .max w => (laneCheck 0x0D w).isNone
  | .abs w => (laneCheck 0x0E w).isNone
  | .cmp w => (laneCheck 0x0F w).isNone
  | .bfx w => (laneCheck 0x10 w).isNone
  | .bfi w => (laneCheck 0x11 w).isNone
  | .clz w => (laneCheck 0x12 w).isNone
  | .pop w => (laneCheck 0x13 w).isNone
  | .brev w => (laneCheck 0x14 w).isNone
  | .fadd w => (laneCheck 0x20 w).isNone
  | .fsub w => (laneCheck 0x21 w).isNone
  | .fmul w => (laneCheck 0x22 w).isNone
  | .fma w => (laneCheck 0x23 w).isNone
  | .fmin w => (laneCheck 0x24 w).isNone
  | .fmax w => (laneCheck 0x25 w).isNone
  | .fcmp w => (laneCheck 0x26 w).isNone
  | .fdiv w => (laneCheck 0x27 w).isNone
  | .fsqrt w => (laneCheck 0x28 w).isNone
  | .fexp2 w => (laneCheck 0x29 w).isNone
  | .flog2 w => (laneCheck 0x2A w).isNone
  | .frcp w => (laneCheck 0x2B w).isNone
  | .frsq w => (laneCheck 0x2C w).isNone
  | .fsinpi w => (laneCheck 0x2D w).isNone
  | .fcospi w => (laneCheck 0x2E w).isNone
  | .ftanh w => (laneCheck 0x2F w).isNone
  | .fclass w => (laneCheck 0x30 w).isNone
  | .frnd w => (laneCheck 0x31 w).isNone
  | .fscale w => (laneCheck 0x32 w).isNone
  | .cvt w => (laneCheck 0x40 w).isNone
  | .qscl w => (laneCheck 0x41 w).isNone
  | .qpack w => (laneCheck 0x42 w).isNone
  | .qunp w => (laneCheck 0x43 w).isNone
  | .qspare w => (laneCheck 0x44 w).isNone
  | .sel w => (laneCheck 0x48 w).isNone
  | .mand w => (laneCheck 0x49 w).isNone
  | .mor w => (laneCheck 0x4A w).isNone
  | .mxor w => (laneCheck 0x4B w).isNone
  | .mnot w => (laneCheck 0x4C w).isNone
  | .mmov w => (laneCheck 0x4D w).isNone
  | .shfl w => (laneCheck 0x50 w).isNone
  | .perm w => (laneCheck 0x51 w).isNone
  | .vote w => (laneCheck 0x52 w).isNone
  | .redu w => (laneCheck 0x53 w).isNone
  | .scan w => (laneCheck 0x54 w).isNone
  | .srd w => (laneCheck 0x55 w).isNone
  | .movx w => (laneCheck 0x56 w).isNone
  | .movxd w => (laneCheck 0x57 w).isNone
  | .ld w => (laneCheck 0x58 w).isNone
  | .st w => (laneCheck 0x59 w).isNone
  | .ldd w => (laneCheck 0x5A w).isNone
  | .std w => (laneCheck 0x5B w).isNone
  | .ldc w => (laneCheck 0x5C w).isNone
  | .stc w => (laneCheck 0x5D w).isNone
  | .atom w => (laneCheck 0x5E w).isNone
  | .atomc w => (laneCheck 0x5F w).isNone
  | .pref w => (laneCheck 0x60 w).isNone
  | .tagrd w => (laneCheck 0x61 w).isNone
  | .dinit w => (laneCheck 0x70 w).isNone
  | .dacc w => (laneCheck 0x71 w).isNone
  | .drnd w => (laneCheck 0x72 w).isNone
  | .dcor w => (laneCheck 0x73 w).isNone
  | .drst w => (laneCheck 0x74 w).isNone
  | .ptst w => (laneCheck 0x75 w).isNone
  | .pchk w => (laneCheck 0x76 w).isNone
  | .lbr w => (laneCheck 0x78 w).isNone
  | .ljoin w => (laneCheck 0x79 w).isNone
  | .lend w => (laneCheck 0x7A w).isNone
  | .lnop w => (laneCheck 0x7B w).isNone
  | .ltrap w => (laneCheck 0x7C w).isNone
  | .pairLaneWord x y => (pairCheck x y).isNone
  | _ => true

end Sys2Proof
end

