-- ==== Sys2Proof/Decode.lean ====
section
/-! DEFINITION. Decoding, total on any bits, each failure with its REASON; then the encoder, written from the
same encoding tables (chapter 6 and the family chapters). -/

namespace Sys2Proof

/-! ### Field positions (R133, R135, R139) -/

/-- The fields of an S-stream word that hold registers and selectors, by their places in format SX (R133). -/
structure SFields where
  op : BitVec 6
  d : BitVec 6
  a : BitVec 6
  b : BitVec 6
  c : BitVec 4
  sub : BitVec 4
deriving DecidableEq, Repr

/-- Splits an S-stream word (R133). -/
def SFields.ofWord (w : BitVec 32) : SFields :=
  ⟨w.extractLsb' 26 6, w.extractLsb' 20 6, w.extractLsb' 14 6, w.extractLsb' 8 6, w.extractLsb' 4 4, w.extractLsb' 0 4⟩

/-- Joins the fields of an S-stream word (R133). -/
def SFields.toWord (f : SFields) : BitVec 32 := f.op ++ f.d ++ f.a ++ f.b ++ f.c ++ f.sub

/-- Bits 7:0 of the word: the fn field of format S3 (R133). -/
def SFields.fn (f : SFields) : BitVec 8 := f.c ++ f.sub

/-- imm14 of format SI (R133). -/
def SFields.imm14 (f : SFields) : BitVec 14 := f.b ++ f.c ++ f.sub

/-- imm20 of format SL (R133). -/
def SFields.imm20 (f : SFields) : BitVec 20 := f.a ++ f.b ++ f.c ++ f.sub

/-- off26 of format SJ (R133). -/
def SFields.off26 (f : SFields) : BitVec 26 := f.d ++ f.a ++ f.b ++ f.c ++ f.sub

/-- The condition, register and offset of format SB (R133). -/
def SFields.cond (f : SFields) : BitVec 4 := f.d.extractLsb' 2 4
def SFields.sbA (f : SFields) : BitVec 6 := f.d.extractLsb' 0 2 ++ f.a.extractLsb' 2 4
def SFields.off16 (f : SFields) : BitVec 16 := f.a.extractLsb' 0 2 ++ f.b ++ f.c ++ f.sub

/-- The ordering annotation in bits 13:7 of a scalar memory word (R191). -/
def SFields.ordBits (f : SFields) : BitVec 7 := f.b ++ f.c.extractLsb' 3 1

/-- SIZE and OFF5 in bits 6:5 and 4:0 (R191). -/
def SFields.size (f : SFields) : BitVec 2 := f.c.extractLsb' 1 2
def SFields.off5 (f : SFields) : BitVec 5 := f.c.extractLsb' 0 1 ++ f.sub

/-- The thresholds of format SW (R133). -/
def SFields.cpT (f : SFields) : BitVec 4 := f.b.extractLsb' 2 4
def SFields.mxT (f : SFields) : BitVec 4 := f.b.extractLsb' 0 2 ++ f.c.extractLsb' 2 2
def SFields.tsT (f : SFields) : BitVec 6 := f.c.extractLsb' 0 2 ++ f.sub

/-- The 10-bit number b:c of the control-register and trap forms (R199, R200). -/
def SFields.num10 (f : SFields) : BitVec 10 := f.b ++ f.c

/-- OBS6 of the barrier forms as an annotation of strength `strong` (R255). -/
def SFields.obs6 (strong : Strength) (f : SFields) : Ord :=
  ⟨if f.b.getLsbD 5 then strong else .plain, f.b.extractLsb' 0 5⟩

/-! ### S-stream decode -/

abbrev Decoded := Except DecodeError Instr

def bad (r : Reason) (later : Bool) : Decoded := .error ⟨r, later⟩

/-- Must-be-zero fields, then an annotation check, then the form (R146). -/
def mbzThen (zero : Bool) (i : Instr) : Decoded := if zero then .ok i else bad .mbz false

/-- As `mbzThen`, with the ordering annotation checked after the zero fields (R146). -/
def ordThen (zero okOrd : Bool) (i : Instr) : Decoded :=
  if zero then (if okOrd then .ok i else bad .ord false) else bad .mbz false

/-- Opcode 0x01: the 27 forms, x3 in bits 7:5 and the form in bits 4:0 (R179, R180). -/
def decodeAlu (f : SFields) : Decoded :=
  let x3 : BitVec 3 := f.c.extractLsb' 1 3
  let form : BitVec 5 := f.c.extractLsb' 0 1 ++ f.sub
  let z := decide (x3 = 0)
  match form.toNat with
  | 0x00 => mbzThen z (.sadd f.d f.a f.b)
  | 0x01 => mbzThen z (.ssub f.d f.a f.b)
  | 0x02 => mbzThen z (.smul f.d f.a f.b)
  | 0x03 => mbzThen z (.smulh f.d f.a f.b)
  | 0x04 => mbzThen z (.smulhn f.d f.a f.b)
  | 0x05 => mbzThen z (.sdiv f.d f.a f.b)
  | 0x06 => mbzThen z (.sdivn f.d f.a f.b)
  | 0x07 => mbzThen z (.srem f.d f.a f.b)
  | 0x08 => mbzThen z (.sremn f.d f.a f.b)
  | 0x09 => mbzThen z (.sand f.d f.a f.b)
  | 0x0A => mbzThen z (.sor f.d f.a f.b)
  | 0x0B => mbzThen z (.sxor f.d f.a f.b)
  | 0x0C => mbzThen z (.sshl f.d f.a f.b)
  | 0x0D => mbzThen z (.sshr f.d f.a f.b)
  | 0x0E => mbzThen z (.ssra f.d f.a f.b)
  | 0x0F => mbzThen z (.smin f.d f.a f.b)
  | 0x10 => mbzThen z (.smax f.d f.a f.b)
  | 0x11 => mbzThen z (.sminn f.d f.a f.b)
  | 0x12 => mbzThen z (.smaxn f.d f.a f.b)
  | 0x13 => .ok (.scmp f.d f.a f.b x3)
  | 0x14 => if 2 ≤ x3.toNat then bad .select true else .ok (.scmov f.d f.a f.b (x3.getLsbD 0))
  | 0x15 => if 2 ≤ x3.toNat then bad .select true else .ok (.sbfx f.d f.a f.b (x3.getLsbD 0))
  | 0x16 => mbzThen z (.sbfi f.d f.a f.b)
  | 0x17 => mbzThen (z && f.b = 0) (.sclz f.d f.a)
  | 0x18 => mbzThen (z && f.b = 0) (.spop f.d f.a)
  | 0x19 => if 6 ≤ x3.toNat then bad .select true else mbzThen (f.b = 0) (.sext f.d f.a x3)
  | 0x1A => .ok (.slea f.d f.a f.b x3)
  | _ => bad .select true

/-- A form that only a crane thread, or only a wave, executes (R134): the ENGINE check comes after the selector
and before the zero fields (R146). -/
def onlyOn (need got : Machine.Engine) (r : Decoded) : Decoded := if need = got then r else bad .engine false

/-- Whether a barrier-group annotation is legal: S set exactly when a letter is (R255). -/
def obs6Ok (f : SFields) : Bool := f.b.getLsbD 5 = (f.b.extractLsb' 0 5 ≠ 0)

/-- Decodes an S-stream word on an engine (R132 to R134, R146 and the family chapters). -/
def decodeFields (eng : Machine.Engine) (f : SFields) : Decoded :=
  let wave := onlyOn .wave eng
  let crane := onlyOn .crane eng
  let dz := decide (f.d = 0)
  let az := decide (f.a = 0)
  let bz := decide (f.b = 0)
  let cz := decide (f.c = 0)
  let sz := decide (f.sub = 0)
  let ord := Ord.ofCode f.ordBits
  match f.op.toNat with
  | 0x00 => bad .opcode false
  | 0x01 => decodeAlu f
  | 0x02 => .ok (.saddi f.d f.a f.imm14)
  | 0x03 => .ok (.sandi f.d f.a f.imm14)
  | 0x04 => .ok (.sori f.d f.a f.imm14)
  | 0x05 => .ok (.sxori f.d f.a f.imm14)
  | 0x06 => mbzThen (f.imm14.toNat < 64) (.sshli f.d f.a (f.imm14.extractLsb' 0 6))
  | 0x07 => mbzThen (f.imm14.toNat < 64) (.sshri f.d f.a (f.imm14.extractLsb' 0 6))
  | 0x08 => mbzThen (f.imm14.toNat < 64) (.ssrai f.d f.a (f.imm14.extractLsb' 0 6))
  | 0x09 => .ok (.scmpi f.d f.a (f.imm14.extractLsb' 11 3) (f.imm14.extractLsb' 0 11))
  | 0x0A => .ok (.smovl f.d f.imm20)
  | 0x0B => .ok (.sshor f.d f.imm20)
  | 0x0C => if 6 ≤ f.cond.toNat then bad .select true else .ok (.sbr f.cond f.sbA f.off16)
  | 0x0D => .ok (.sjmp f.off26)
  | 0x0E => .ok (.scall f.off26)
  | 0x0F => match f.fn.toNat with
    | 0 => mbzThen (dz && az && bz) .sret
    | 1 => mbzThen (dz && bz) (.sjmpr f.a)
    | 2 => mbzThen (dz && bz) (.scallr f.a)
    | _ => bad .select true
  | 0x10 => if f.cond ≠ 0 then bad .select true else .ok (.sloop f.sbA f.off16)
  | 0x11 => wave (mbzThen (dz && bz && cz && sz) (.lrun f.a))
  | 0x12 => match f.sub.toNat with
    | 0 => wave (mbzThen (dz && az && bz && cz) .lsync)
    | 1 => wave (mbzThen (az && bz && cz) (.sget f.d))
    | 2 => wave (mbzThen (f.d.toNat < 16 && bz && cz) (.kset (f.d.extractLsb' 0 4) f.a))
    | _ => bad .select true
  | 0x13 => ordThen true (ord.accepts [.plain, .acq]) (.sld f.d f.a ord (Size.ofCode f.size.toNat) f.off5)
  | 0x14 => ordThen true (ord.accepts [.plain, .rel]) (.sst f.d f.a ord (Size.ofCode f.size.toNat) f.off5)
  | 0x15 =>
    let aop : BitVec 4 := f.c.extractLsb' 0 2 ++ f.sub.extractLsb' 2 2
    if 10 ≤ aop.toNat then bad .select true
    else ordThen (f.sub.extractLsb' 0 2 = (0 : BitVec 2) && !(aop.toNat = 9 && f.d.getLsbD 0))
      (ord.accepts [.plain, .acq, .rel, .ar]) (.satom f.d f.a ord (f.c.getLsbD 2) aop)
  | 0x16 => match f.sub.toNat with
    | 0 => ordThen (!f.c.getLsbD 0) (ord.accepts [.plain, .acq]) (.sldc f.d f.a ord (Size.ofCode f.size.toNat))
    | 1 => ordThen (!f.c.getLsbD 0) (ord.accepts [.plain, .rel]) (.sstc f.d f.a ord (Size.ofCode f.size.toNat))
    | _ => bad .select true
  | 0x17 => .ok (.swait f.d f.a f.cpT f.mxT f.tsT)
  | 0x18 => match f.sub.toNat with
    | 0 => ordThen (dz && az && f.c.extractLsb' 0 3 = (0 : BitVec 3)) (ord.accepts [.acq, .rel, .ar]) (.sfence ord)
    | 1 => if 6 ≤ f.c.toNat then bad .select true else mbzThen (az && bz) (.sclk f.d f.c)
    | 2 => wave (mbzThen dz (.ssleep f.a f.b f.c))
    | _ => bad .select true
  | 0x19 => match f.sub.toNat with
    | 0 => wave (mbzThen (dz && bz) (.barInit f.a f.c))
    | 1 => wave (ordThen (dz && az) (obs6Ok f) (.barArrive (f.obs6 .rel) f.c))
    | 2 => wave (ordThen dz (obs6Ok f) (.barWait f.a (f.obs6 .acq) f.c))
    | 3 => wave (ordThen true (obs6Ok f) (.barTest f.d f.a (f.obs6 .acq) f.c))
    | 4 => wave (ordThen true (obs6Ok f) (.barArm f.d f.a (f.obs6 .acq) f.c))
    | 5 => wave (mbzThen (dz && az && bz && cz) .uret)
    | _ => bad .select true
  | 0x1B => match f.sub.toNat with
    | 0 => mbzThen (f.a.toNat ≤ 62 && (eng = .wave || cz)) (.cpy f.d f.a f.b f.c)
    | 1 => mbzThen (f.a.toNat ≤ 59 && (eng = .wave || cz)) (.cpyt f.d f.a f.b f.c)
    | 2 => wave (mbzThen (f.a.toNat ≤ 62) (.cpyg f.d f.a f.b f.c))
    | 3 => mbzThen (dz && az && bz && cz) .cpcl
    | 4 => mbzThen (az && bz && (eng = .wave || cz)) (.cpq f.d f.c)
    | _ => bad .select true
  | 0x1C => match f.sub.toNat with
    | 0 => mbzThen (az && cz) (.ringRes f.d f.b)
    | 1 => mbzThen (dz && cz) (.ringCmt f.a f.b)
    | 2 => mbzThen (az && cz) (.ringGet f.d f.b)
    | 3 => mbzThen (dz && cz) (.ringRel f.a f.b)
    | _ => bad .select true
  | 0x1D => match f.sub.toNat with
    | 0 => mbzThen (f.a.toNat ≤ 60 && cz) (.spawn f.d f.a f.b)
    | 1 => mbzThen (f.a.toNat ≤ 62 && cz) (.send f.d f.a f.b)
    | 2 => mbzThen (dz && cz) (.fwait f.a f.b)
    | 3 => mbzThen cz (.fpoll f.d f.a f.b)
    | 4 => mbzThen (dz && cz) (.hold f.a f.b)
    | 5 => mbzThen (dz && cz) (.drop f.a f.b)
    | 6 => if 6 ≤ f.c.toNat then bad .select true else mbzThen (az && bz) (.tget f.d f.c)
    | 7 =>
      if 6 ≤ f.c.toNat then bad .select true
      else if 2 ≤ f.c.toNat then bad .select false
      else mbzThen (dz && (bz || f.c = 1)) (.tset f.a f.b f.c)
    | 8 => mbzThen (dz && az && bz && cz) .exit
    | 9 => mbzThen (dz && az && bz && cz) .jcancel
    | _ => bad .select true
  | 0x1E => match f.sub.toNat with
    | 0 => mbzThen (dz && bz && cz) (.safe f.a)
    | 1 => mbzThen (dz && cz) (.phase f.a f.b)
    | 2 => mbzThen (dz && bz && cz) (.yield f.a)
    | _ => bad .select true
  | 0x1F => match f.sub.toNat with
    | 0 => wave (mbzThen (f.d.toNat ≤ 62 && f.a.toNat ≤ 62 && cz) (.wloop f.d f.a f.b))
    | 1 => wave (mbzThen (dz && cz) (.wcov f.a f.b))
    | 2 => wave (mbzThen (dz && az && bz && cz) .wclr)
    | _ => bad .select true
  | 0x20 => crane (mbzThen (dz && bz && cz && sz) (.mfmt f.a))
  | 0x21 => crane (mbzThen (f.d.toNat < 8 && az && bz && !cz && sz) (.mzero (f.d.extractLsb' 0 3) f.c))
  | 0x22 => crane (mbzThen (f.d.toNat < 8 && !cz && sz) (.mma (f.d.extractLsb' 0 3) f.a f.b f.c))
  | 0x23 => crane (mbzThen (f.d.toNat < 8 && bz && !cz && f.sub.toNat < 4)
      (.mout f.a (f.d.extractLsb' 0 3) f.c (f.sub.getLsbD 1) (f.sub.getLsbD 0)))
  | 0x24 => match f.sub.toNat with
    | 0 => crane (mbzThen (az && bz && f.c.toNat < 8) (.mbar f.d f.c))
    | 1 => crane (mbzThen (dz && bz && f.c.toNat < 8) (.mwait f.a f.c))
    | 2 => crane (mbzThen (az && f.b.toNat < 8 && !cz) (.mpsn f.d (f.b.extractLsb' 0 3) f.c))
    | 3 => crane (mbzThen (dz && az && bz && !cz) (.mscrub f.c))
    | _ => bad .select true
  | 0x3E => match f.sub.toNat with
    | 0 => if csrKnown f.num10 then mbzThen az (.csrr f.d f.num10) else bad .select true
    | 1 => if csrKnown f.num10 then mbzThen dz (.csrw f.a f.num10) else bad .select true
    | 2 => if 2 ≤ f.c.toNat then bad .select true else mbzThen (az && bz) (.feat f.d f.c)
    | _ => bad .select true
  | 0x3F => match f.sub.toNat with
    | 0 => mbzThen (dz && az) (.trap f.num10)
    | 1 => mbzThen (dz && az && bz && cz) .rte
    | 2 => match f.c.toNat with
      | 0 => wave (mbzThen (dz && bz) (.tlbiVa f.a))
      | 1 => wave (mbzThen (dz && az && bz) .tlbiSpace)
      | 2 => wave (mbzThen (dz && az && bz) .tlbiVf)
      | _ => bad .select true
    | 3 => mbzThen (dz && az && bz && cz) .halt
    | _ => bad .select true
  | _ => bad .opcode true

/-- Decodes a 32-bit word on an engine. -/
def decodeS (eng : Machine.Engine) (w : BitVec 32) : Decoded := decodeFields eng (SFields.ofWord w)

/-! ### Lane decode -/

/-- The instruction of a lane opcode (R144). -/
def laneInstr (op : Nat) (w : LaneFields) : Option Instr :=
  match op with
  | 0x01 => some (.add w)
  | 0x02 => some (.sub w)
  | 0x03 => some (.mul w)
  | 0x04 => some (.mulh w)
  | 0x05 => some (.mad w)
  | 0x06 => some (.and w)
  | 0x07 => some (.or w)
  | 0x08 => some (.xor w)
  | 0x09 => some (.shl w)
  | 0x0A => some (.shr w)
  | 0x0B => some (.sra w)
  | 0x0C => some (.min w)
  | 0x0D => some (.max w)
  | 0x0E => some (.abs w)
  | 0x0F => some (.cmp w)
  | 0x10 => some (.bfx w)
  | 0x11 => some (.bfi w)
  | 0x12 => some (.clz w)
  | 0x13 => some (.pop w)
  | 0x14 => some (.brev w)
  | 0x20 => some (.fadd w)
  | 0x21 => some (.fsub w)
  | 0x22 => some (.fmul w)
  | 0x23 => some (.fma w)
  | 0x24 => some (.fmin w)
  | 0x25 => some (.fmax w)
  | 0x26 => some (.fcmp w)
  | 0x27 => some (.fdiv w)
  | 0x28 => some (.fsqrt w)
  | 0x29 => some (.fexp2 w)
  | 0x2A => some (.flog2 w)
  | 0x2B => some (.frcp w)
  | 0x2C => some (.frsq w)
  | 0x2D => some (.fsinpi w)
  | 0x2E => some (.fcospi w)
  | 0x2F => some (.ftanh w)
  | 0x30 => some (.fclass w)
  | 0x31 => some (.frnd w)
  | 0x32 => some (.fscale w)
  | 0x40 => some (.cvt w)
  | 0x41 => some (.qscl w)
  | 0x42 => some (.qpack w)
  | 0x43 => some (.qunp w)
  | 0x44 => some (.qspare w)
  | 0x48 => some (.sel w)
  | 0x49 => some (.mand w)
  | 0x4A => some (.mor w)
  | 0x4B => some (.mxor w)
  | 0x4C => some (.mnot w)
  | 0x4D => some (.mmov w)
  | 0x50 => some (.shfl w)
  | 0x51 => some (.perm w)
  | 0x52 => some (.vote w)
  | 0x53 => some (.redu w)
  | 0x54 => some (.scan w)
  | 0x55 => some (.srd w)
  | 0x56 => some (.movx w)
  | 0x57 => some (.movxd w)
  | 0x58 => some (.ld w)
  | 0x59 => some (.st w)
  | 0x5A => some (.ldd w)
  | 0x5B => some (.std w)
  | 0x5C => some (.ldc w)
  | 0x5D => some (.stc w)
  | 0x5E => some (.atom w)
  | 0x5F => some (.atomc w)
  | 0x60 => some (.pref w)
  | 0x61 => some (.tagrd w)
  | 0x70 => some (.dinit w)
  | 0x71 => some (.dacc w)
  | 0x72 => some (.drnd w)
  | 0x73 => some (.dcor w)
  | 0x74 => some (.drst w)
  | 0x75 => some (.ptst w)
  | 0x76 => some (.pchk w)
  | 0x78 => some (.lbr w)
  | 0x79 => some (.ljoin w)
  | 0x7A => some (.lend w)
  | 0x7B => some (.lnop w)
  | 0x7C => some (.ltrap w)
  | _ => none

/-- The opcode and fields of a single lane form (R144). -/
def laneParts (i : Instr) : Option (Nat × LaneFields) :=
  match i with
  | .add w => some (0x01, w)
  | .sub w => some (0x02, w)
  | .mul w => some (0x03, w)
  | .mulh w => some (0x04, w)
  | .mad w => some (0x05, w)
  | .and w => some (0x06, w)
  | .or w => some (0x07, w)
  | .xor w => some (0x08, w)
  | .shl w => some (0x09, w)
  | .shr w => some (0x0A, w)
  | .sra w => some (0x0B, w)
  | .min w => some (0x0C, w)
  | .max w => some (0x0D, w)
  | .abs w => some (0x0E, w)
  | .cmp w => some (0x0F, w)
  | .bfx w => some (0x10, w)
  | .bfi w => some (0x11, w)
  | .clz w => some (0x12, w)
  | .pop w => some (0x13, w)
  | .brev w => some (0x14, w)
  | .fadd w => some (0x20, w)
  | .fsub w => some (0x21, w)
  | .fmul w => some (0x22, w)
  | .fma w => some (0x23, w)
  | .fmin w => some (0x24, w)
  | .fmax w => some (0x25, w)
  | .fcmp w => some (0x26, w)
  | .fdiv w => some (0x27, w)
  | .fsqrt w => some (0x28, w)
  | .fexp2 w => some (0x29, w)
  | .flog2 w => some (0x2A, w)
  | .frcp w => some (0x2B, w)
  | .frsq w => some (0x2C, w)
  | .fsinpi w => some (0x2D, w)
  | .fcospi w => some (0x2E, w)
  | .ftanh w => some (0x2F, w)
  | .fclass w => some (0x30, w)
  | .frnd w => some (0x31, w)
  | .fscale w => some (0x32, w)
  | .cvt w => some (0x40, w)
  | .qscl w => some (0x41, w)
  | .qpack w => some (0x42, w)
  | .qunp w => some (0x43, w)
  | .qspare w => some (0x44, w)
  | .sel w => some (0x48, w)
  | .mand w => some (0x49, w)
  | .mor w => some (0x4A, w)
  | .mxor w => some (0x4B, w)
  | .mnot w => some (0x4C, w)
  | .mmov w => some (0x4D, w)
  | .shfl w => some (0x50, w)
  | .perm w => some (0x51, w)
  | .vote w => some (0x52, w)
  | .redu w => some (0x53, w)
  | .scan w => some (0x54, w)
  | .srd w => some (0x55, w)
  | .movx w => some (0x56, w)
  | .movxd w => some (0x57, w)
  | .ld w => some (0x58, w)
  | .st w => some (0x59, w)
  | .ldd w => some (0x5A, w)
  | .std w => some (0x5B, w)
  | .ldc w => some (0x5C, w)
  | .stc w => some (0x5D, w)
  | .atom w => some (0x5E, w)
  | .atomc w => some (0x5F, w)
  | .pref w => some (0x60, w)
  | .tagrd w => some (0x61, w)
  | .dinit w => some (0x70, w)
  | .dacc w => some (0x71, w)
  | .drnd w => some (0x72, w)
  | .dcor w => some (0x73, w)
  | .drst w => some (0x74, w)
  | .ptst w => some (0x75, w)
  | .pchk w => some (0x76, w)
  | .lbr w => some (0x78, w)
  | .ljoin w => some (0x79, w)
  | .lend w => some (0x7A, w)
  | .lnop w => some (0x7B, w)
  | .ltrap w => some (0x7C, w)
  | _ => none

/-- The fields of a single lane word whose type code is `ty` (R135). -/
def LaneFields.ofWord (ty : LType) (w : BitVec 96) : LaneFields :=
  { ty := ty, d := w.extractLsb' 71 10, a := w.extractLsb' 61 10, b := w.extractLsb' 51 10, c := w.extractLsb' 41 10,
    msel := w.extractLsb' 38 3, rnd := Rnd.ofCode (w.extractLsb' 36 2).toNat, sat := w.getLsbD 35,
    nega := w.getLsbD 34, negb := w.getLsbD 33, absa := w.getLsbD 32, absb := w.getLsbD 31,
    ka := w.getLsbD 30, kb := w.getLsbD 29, kc := w.getLsbD 28, imm := w.getLsbD 27,
    aux := w.extractLsb' 16 11, imm16 := w.extractLsb' 0 16 }

/-- One bit of a Boolean. -/
def bit (b : Bool) : BitVec 1 := BitVec.ofBool b

/-- A single lane word (R135). -/
def LaneFields.toWord (op : BitVec 8) (f : LaneFields) : BitVec 96 :=
  (0 : BitVec 2) ++ op ++ BitVec.ofNat 5 f.ty.code ++ f.d ++ f.a ++ f.b ++ f.c ++ f.msel ++ BitVec.ofNat 2 f.rnd.code ++
    bit f.sat ++ bit f.nega ++ bit f.negb ++ bit f.absa ++ bit f.absb ++ bit f.ka ++ bit f.kb ++ bit f.kc ++ bit f.imm ++
    f.aux ++ f.imm16

/-- A compact operation, from its 46 bits (R139). -/
def CompactOp.ofBits (w : BitVec 46) : CompactOp :=
  { cop := w.extractLsb' 40 6, ctype := w.extractLsb' 37 3, d := w.extractLsb' 28 9, a := w.extractLsb' 19 9,
    b := w.extractLsb' 10 9, rnd := Rnd.ofCode (w.extractLsb' 8 2).toNat, sat := w.getLsbD 7, nega := w.getLsbD 6,
    negb := w.getLsbD 5, absa := w.getLsbD 4, absb := w.getLsbD 3, x3 := w.extractLsb' 0 3 }

/-- The 46 bits of a compact operation (R139). -/
def CompactOp.toBits (x : CompactOp) : BitVec 46 :=
  x.cop ++ x.ctype ++ x.d ++ x.a ++ x.b ++ BitVec.ofNat 2 x.rnd.code ++ bit x.sat ++ bit x.nega ++ bit x.negb ++
    bit x.absa ++ bit x.absb ++ x.x3

/-- Decodes a lane word (R135, R139, R142, R146). -/
def decodeL (w : BitVec 96) : Decoded :=
  match (w.extractLsb' 94 2).toNat with
  | 0 =>
    let op := (w.extractLsb' 86 8).toNat
    match laneRule op (LaneFields.ofWord .b32 w) with
    | none => bad .opcode (op ≠ 0)
    | some _ =>
      match LType.ofCode (w.extractLsb' 81 5).toNat with
      | none => if selectBad op (LaneFields.ofWord .b32 w) then bad .select true else bad .type true
      | some ty =>
        match laneCheck op (LaneFields.ofWord ty w) with
        | some e => .error e
        | none =>
          match laneInstr op (LaneFields.ofWord ty w) with
          | some i => .ok i
          | none => bad .opcode true
  | 1 =>
    if w.extractLsb' 0 2 ≠ (0 : BitVec 2) then bad .mbz false
    else
      let x := CompactOp.ofBits (w.extractLsb' 48 46)
      let y := CompactOp.ofBits (w.extractLsb' 2 46)
      match pairCheck x y with
      | some e => .error e
      | none => .ok (.pairLaneWord x y)
  | 2 => bad .form true
  | _ => bad .form false

/-! ### From bytes (R131) -/

/-- Decodes the S-stream word at the head of a list of bytes, lowest first. -/
def decodeSBytes (eng : Machine.Engine) (bs : List Byte) : Decoded := decodeS eng (BitVec.ofNat 32 (Machine.ofBytes (bs.take 4)))

/-- Decodes the lane word at the head of a list of bytes, lowest first. -/
def decodeLBytes (bs : List Byte) : Decoded := decodeL (BitVec.ofNat 96 (Machine.ofBytes (bs.take 12)))

/-! ### The encoder -/

/-- Format SX, and S3 with fn in c and sub (R133). -/
def sx (op : BitVec 6) (d a b : BitVec 6) (c sub : BitVec 4) : BitVec 32 := SFields.toWord ⟨op, d, a, b, c, sub⟩

/-- Opcode 0x01: x3 above the form (R179). -/
def s3 (d a b : SReg) (x3 : BitVec 3) (form : BitVec 5) : BitVec 32 := (1 : BitVec 6) ++ d ++ a ++ b ++ x3 ++ form

def si (op : BitVec 6) (d a : SReg) (i : BitVec 14) : BitVec 32 := op ++ d ++ a ++ i

/-- A scalar memory word: the annotation in bits 13:7, SIZE in 6:5, OFF5 or sub below (R191). -/
def smem (op : BitVec 6) (d a : SReg) (o : Ord) (sz : BitVec 2) (low : BitVec 5) : BitVec 32 :=
  op ++ d ++ a ++ o.code ++ sz ++ low

def szBits (s : Size) : BitVec 2 := BitVec.ofNat 2 s.code

/-- OBS6: S above the letters (R255). -/
def obsBits (o : Ord) : BitVec 6 := bit (o.str ≠ .plain) ++ o.obs

/-- A register field that names a tile, or k0 to k15 (R133, R299). -/
def low6 {n : Nat} (x : BitVec n) : BitVec 6 := x.zeroExtend 6

/-- The word of an S-stream form; none for any other action. -/
def encodeS (i : Instr) : Option (BitVec 32) :=
  match i with
  | .sadd d a b => some (s3 d a b 0 0x00)
  | .ssub d a b => some (s3 d a b 0 0x01)
  | .smul d a b => some (s3 d a b 0 0x02)
  | .smulh d a b => some (s3 d a b 0 0x03)
  | .smulhn d a b => some (s3 d a b 0 0x04)
  | .sdiv d a b => some (s3 d a b 0 0x05)
  | .sdivn d a b => some (s3 d a b 0 0x06)
  | .srem d a b => some (s3 d a b 0 0x07)
  | .sremn d a b => some (s3 d a b 0 0x08)
  | .sand d a b => some (s3 d a b 0 0x09)
  | .sor d a b => some (s3 d a b 0 0x0A)
  | .sxor d a b => some (s3 d a b 0 0x0B)
  | .sshl d a b => some (s3 d a b 0 0x0C)
  | .sshr d a b => some (s3 d a b 0 0x0D)
  | .ssra d a b => some (s3 d a b 0 0x0E)
  | .smin d a b => some (s3 d a b 0 0x0F)
  | .smax d a b => some (s3 d a b 0 0x10)
  | .sminn d a b => some (s3 d a b 0 0x11)
  | .smaxn d a b => some (s3 d a b 0 0x12)
  | .scmp d a b cc => some (s3 d a b cc 0x13)
  | .scmov d a b nz => some (s3 d a b (BitVec.ofNat 3 nz.toNat) 0x14)
  | .sbfx d a b sg => some (s3 d a b (BitVec.ofNat 3 sg.toNat) 0x15)
  | .sbfi d a b => some (s3 d a b 0 0x16)
  | .sclz d a => some (s3 d a 0 0 0x17)
  | .spop d a => some (s3 d a 0 0 0x18)
  | .sext d a k => some (s3 d a 0 k 0x19)
  | .slea d a b h => some (s3 d a b h 0x1A)
  | .saddi d a i => some (si 0x02 d a i)
  | .sandi d a i => some (si 0x03 d a i)
  | .sori d a i => some (si 0x04 d a i)
  | .sxori d a i => some (si 0x05 d a i)
  | .sshli d a i => some (si 0x06 d a (i.zeroExtend 14))
  | .sshri d a i => some (si 0x07 d a (i.zeroExtend 14))
  | .ssrai d a i => some (si 0x08 d a (i.zeroExtend 14))
  | .scmpi d a cc i => some (si 0x09 d a (cc ++ i))
  | .smovl d i => some ((0x0A : BitVec 6) ++ d ++ i)
  | .sshor d i => some ((0x0B : BitVec 6) ++ d ++ i)
  | .sbr c a o => some ((0x0C : BitVec 6) ++ c ++ a ++ o)
  | .sjmp o => some ((0x0D : BitVec 6) ++ o)
  | .scall o => some ((0x0E : BitVec 6) ++ o)
  | .sret => some (sx 0x0F 0 0 0 0 0)
  | .sjmpr a => some (sx 0x0F 0 a 0 0 1)
  | .scallr a => some (sx 0x0F 0 a 0 0 2)
  | .sloop a o => some ((0x10 : BitVec 6) ++ (0 : BitVec 4) ++ a ++ o)
  | .lrun a => some (sx 0x11 0 a 0 0 0)
  | .lsync => some (sx 0x12 0 0 0 0 0)
  | .sget d => some (sx 0x12 d 0 0 0 1)
  | .kset k a => some (sx 0x12 (low6 k) a 0 0 2)
  | .sld d a o s f => some (smem 0x13 d a o (szBits s) f)
  | .sst d a o s f => some (smem 0x14 d a o (szBits s) f)
  | .satom d a o w p => some ((0x15 : BitVec 6) ++ d ++ a ++ o.code ++ bit w ++ p ++ (0 : BitVec 2))
  | .sldc d a o s => some (smem 0x16 d a o (szBits s) 0)
  | .sstc d a o s => some (smem 0x16 d a o (szBits s) 1)
  | .swait l s c m t => some ((0x17 : BitVec 6) ++ l ++ s ++ c ++ m ++ t)
  | .sfence o => some ((0x18 : BitVec 6) ++ (0 : BitVec 12) ++ o.code ++ (0 : BitVec 7))
  | .sclk d n => some (sx 0x18 d 0 0 n 1)
  | .ssleep a b c => some (sx 0x18 0 a b c 2)
  | .barInit a c => some (sx 0x19 0 a 0 c 0)
  | .barArrive o c => some (sx 0x19 0 0 (obsBits o) c 1)
  | .barWait a o c => some (sx 0x19 0 a (obsBits o) c 2)
  | .barTest d a o c => some (sx 0x19 d a (obsBits o) c 3)
  | .barArm h a o c => some (sx 0x19 h a (obsBits o) c 4)
  | .uret => some (sx 0x19 0 0 0 0 5)
  | .cpy d a b c => some (sx 0x1B d a b c 0)
  | .cpyt d a b c => some (sx 0x1B d a b c 1)
  | .cpyg d a b c => some (sx 0x1B d a b c 2)
  | .cpcl => some (sx 0x1B 0 0 0 0 3)
  | .cpq d c => some (sx 0x1B d 0 0 c 4)
  | .ringRes d q => some (sx 0x1C d 0 q 0 0)
  | .ringCmt a q => some (sx 0x1C 0 a q 0 1)
  | .ringGet d q => some (sx 0x1C d 0 q 0 2)
  | .ringRel a q => some (sx 0x1C 0 a q 0 3)
  | .spawn d a b => some (sx 0x1D d a b 0 0)
  | .send d a b => some (sx 0x1D d a b 0 1)
  | .fwait a b => some (sx 0x1D 0 a b 0 2)
  | .fpoll d a b => some (sx 0x1D d a b 0 3)
  | .hold a b => some (sx 0x1D 0 a b 0 4)
  | .drop a b => some (sx 0x1D 0 a b 0 5)
  | .tget d c => some (sx 0x1D d 0 0 c 6)
  | .tset a b c => some (sx 0x1D 0 a b c 7)
  | .exit => some (sx 0x1D 0 0 0 0 8)
  | .jcancel => some (sx 0x1D 0 0 0 0 9)
  | .safe a => some (sx 0x1E 0 a 0 0 0)
  | .phase a b => some (sx 0x1E 0 a b 0 1)
  | .yield a => some (sx 0x1E 0 a 0 0 2)
  | .wloop d a b => some (sx 0x1F d a b 0 0)
  | .wcov a b => some (sx 0x1F 0 a b 0 1)
  | .wclr => some (sx 0x1F 0 0 0 0 2)
  | .mfmt a => some (sx 0x20 0 a 0 0 0)
  | .mzero t m => some (sx 0x21 (low6 t) 0 0 m 0)
  | .mma t a b m => some (sx 0x22 (low6 t) a b m 0)
  | .mout a t m cmt z => some (sx 0x23 (low6 t) a 0 m ((0 : BitVec 2) ++ bit cmt ++ bit z))
  | .mbar d n => some (sx 0x24 d 0 0 n 0)
  | .mwait a n => some (sx 0x24 0 a 0 n 1)
  | .mpsn d t m => some (sx 0x24 d 0 (low6 t) m 2)
  | .mscrub m => some (sx 0x24 0 0 0 m 3)
  | .csrr d n => some ((0x3E : BitVec 6) ++ d ++ (0 : BitVec 6) ++ n ++ (0 : BitVec 4))
  | .csrw a n => some ((0x3E : BitVec 6) ++ (0 : BitVec 6) ++ a ++ n ++ (1 : BitVec 4))
  | .feat d c => some (sx 0x3E d 0 0 c 2)
  | .trap n => some ((0x3F : BitVec 6) ++ (0 : BitVec 12) ++ n ++ (0 : BitVec 4))
  | .rte => some (sx 0x3F 0 0 0 0 1)
  | .tlbiVa a => some (sx 0x3F 0 a 0 0 2)
  | .tlbiSpace => some (sx 0x3F 0 0 0 1 2)
  | .tlbiVf => some (sx 0x3F 0 0 0 2 2)
  | .halt => some (sx 0x3F 0 0 0 0 3)
  | _ => none

/-- The word of a lane form; none for any other action. -/
def encodeL (i : Instr) : Option (BitVec 96) :=
  match i with
  | .pairLaneWord x y => some ((1 : BitVec 2) ++ x.toBits ++ y.toBits ++ (0 : BitVec 2))
  | _ => (laneParts i).map fun (op, f) => f.toWord (BitVec.ofNat 8 op)

/-- The words of a well-formed instruction: how many bits it has, and the bits. An event has no word. -/
def encode (i : Instr) : Option (Nat × Nat) :=
  match encodeS i with
  | some w => some (32, w.toNat)
  | none => (encodeL i).map fun w => (96, w.toNat)

/-- The engine whose code holds an S-stream form: a crane thread for the tile group, a wave otherwise (R134). -/
def engineOf (w : BitVec 32) : Machine.Engine :=
  let op := (w.extractLsb' 26 6).toNat
  if 0x20 ≤ op ∧ op ≤ 0x24 then .crane else .wave

/-- The instruction the decoder reads from the table's numbering of a word: 32 bits of S-stream code, or the 96
bits of a lane word where more are given. -/
def decodeTableWord (nbits w : Nat) : Option Instr :=
  if nbits ≤ 32 then
    (decodeSBytes (engineOf (BitVec.ofNat 32 w)) (Machine.toBytes 4 w)).toOption
  else (decodeLBytes (Machine.toBytes 12 w)).toOption

end Sys2Proof
end

