-- ==== Sys2Proof/Machine/Float.lean ====
section
/-! DEFINITION. Number formats, exact values, rounding and the exact arithmetic of chapter 7 (R156 to R166).
A finite value is kept exactly, as a sign, a natural and a power of two; each operation rounds once. -/

namespace Sys2Proof

open Machine

/-- How a format encodes NaN (R156). -/
inductive NanKind where
  | ieee | allOnes | none
deriving DecidableEq, Repr

/-- A floating format: exponent bits, bias, fraction bits, the largest finite value `maxN * 2^maxQ`, whether it
has infinities, and its NaNs (R156). -/
structure Fmt where
  e : Nat
  bias : Nat
  f : Nat
  maxN : Nat
  maxQ : Int
  inf : Bool
  nan : NanKind
deriving DecidableEq, Repr

def fmtF64 : Fmt := ⟨11, 1023, 52, 2 ^ 53 - 1, 971, true, .ieee⟩
def fmtF32 : Fmt := ⟨8, 127, 23, 2 ^ 24 - 1, 104, true, .ieee⟩
def fmtA26 : Fmt := ⟨8, 127, 17, 2 ^ 18 - 1, 110, true, .ieee⟩
def fmtF16 : Fmt := ⟨5, 15, 10, 2 ^ 11 - 1, 5, true, .ieee⟩
def fmtBf16 : Fmt := ⟨8, 127, 7, 255, 120, true, .ieee⟩
def fmtE5m2 : Fmt := ⟨5, 15, 2, 7, 13, true, .ieee⟩
def fmtE4m3 : Fmt := ⟨4, 7, 3, 14, 5, false, .allOnes⟩
def fmtE3m2 : Fmt := ⟨3, 3, 2, 7, 2, false, .none⟩
def fmtE2m3 : Fmt := ⟨2, 1, 3, 15, -1, false, .none⟩
def fmtE2m1 : Fmt := ⟨2, 1, 1, 3, 1, false, .none⟩

/-- The format of a floating element type; any other type is given f32. -/
def LType.fmt : LType → Fmt
  | .f64 => fmtF64 | .a26 => fmtA26 | .f16 => fmtF16 | .bf16 => fmtBf16 | .e5m2 => fmtE5m2
  | .e4m3 => fmtE4m3 | .e3m2 => fmtE3m2 | .e2m3 => fmtE2m3 | .e2m1 => fmtE2m1 | _ => fmtF32

/-- An exact value: NaN, an infinity, or `(-1)^neg * m * 2^e`; a zero keeps its sign. -/
inductive FVal where
  | nan
  | inf (neg : Bool)
  | fin (neg : Bool) (m : Nat) (e : Int)
deriving DecidableEq, Repr

/-- Status bits 5:0 of FSTAT (R163). -/
abbrev Stat := BitVec 6

def stNone : Stat := 0
def stNX : Stat := 1
def stUF : Stat := 2
def stOF : Stat := 4
def stNV : Stat := 8
def stDZ : Stat := 16
def stSCLO : Stat := 32

def FVal.isNaN : FVal → Bool
  | .nan => true
  | _ => false

def FVal.isInf : FVal → Bool
  | .inf _ => true
  | _ => false

def FVal.isFin : FVal → Bool
  | .fin .. => true
  | _ => false

def FVal.isZero : FVal → Bool
  | .fin _ m _ => m = 0
  | _ => false

/-- The sign of a value; a NaN has none. -/
def FVal.sign : FVal → Bool
  | .nan => false
  | .inf n => n
  | .fin n _ _ => n

def FVal.negate : FVal → FVal
  | .nan => .nan
  | .inf n => .inf !n
  | .fin n m e => .fin (!n) m e

def FVal.abs : FVal → FVal
  | .nan => .nan
  | .inf _ => .inf false
  | .fin _ m e => .fin false m e

/-- Source modifiers: abs first, then neg (R210). -/
def FVal.modify (neg abs : Bool) (x : FVal) : FVal :=
  let y := if abs then x.abs else x
  if neg then y.negate else y

/-- Bits of a positive natural. -/
def bitLen (m : Nat) : Nat := if m = 0 then 0 else m.log2 + 1

/-- `m * 2^k`, cut to a whole number downward. -/
def shiftInt (m : Nat) (k : Int) : Nat := if 0 ≤ k then m <<< k.toNat else m >>> (-k).toNat

/-! ### Codes and values (R156) -/

/-- The value of a code of a format (R156). -/
def Fmt.decode (t : Fmt) (code : Nat) : FVal :=
  let neg := code.testBit (t.e + t.f)
  let ex := (code >>> t.f) % 2 ^ t.e
  let fr := code % 2 ^ t.f
  let top := ex = 2 ^ t.e - 1
  if t.nan = .ieee && top then (if fr = 0 then .inf neg else .nan)
  else if t.nan = .allOnes && top && fr = 2 ^ t.f - 1 then .nan
  else if ex = 0 then .fin neg fr (1 - (t.bias : Int) - (t.f : Int))
  else .fin neg (2 ^ t.f + fr) ((ex : Int) - (t.bias : Int) - (t.f : Int))

/-- The default NaN of a format; a format without NaN has none, and zero stands there (R156, R166). -/
def Fmt.nanCode (t : Fmt) : Nat :=
  match t.nan with
  | .ieee => (2 ^ t.e - 1) <<< t.f ||| 1 <<< (t.f - 1)
  | .allOnes => 2 ^ (t.e + t.f) - 1
  | .none => 0

/-- The code of a value that the format represents (R156). -/
def Fmt.encode (t : Fmt) (x : FVal) : Nat :=
  let sg (n : Bool) : Nat := if n then 1 <<< (t.e + t.f) else 0
  match x with
  | .nan => t.nanCode
  | .inf n => sg n + (2 ^ t.e - 1) <<< t.f
  | .fin n m e =>
    if m = 0 then sg n
    else
      let ex := e + (bitLen m : Int) - 1 + (t.bias : Int)
      if ex < 1 then sg n + shiftInt m (e + (t.bias : Int) + (t.f : Int) - 1)
      else sg n + ex.toNat <<< t.f + (shiftInt m (e + (t.f : Int) - (e + (bitLen m : Int) - 1))) % 2 ^ t.f

/-- The value of element code `n` of a floating type: an a26 is the f32 pattern without its low six bits, and
the top bits of a six-bit element are ignored (R137). -/
def LType.value (t : LType) (n : Nat) : FVal :=
  match t with
  | .a26 => fmtA26.decode (n >>> 6)
  | .e8m0 => if n % 256 = 255 then .nan else .fin false 1 ((n % 256 : Nat) - 127)
  | _ => t.fmt.decode (n % 2 ^ (1 + t.fmt.e + t.fmt.f))

/-- The element code of a value that the type represents (R137). -/
def LType.image (t : LType) (x : FVal) : Nat :=
  match t with
  | .a26 => fmtA26.encode x <<< 6
  | _ => t.fmt.encode x

/-- The largest finite value of a format, with a sign. -/
def Fmt.max (t : Fmt) (neg : Bool) : FVal := .fin neg t.maxN t.maxQ

/-! ### Rounding (R162) -/

/-- Whether a remainder `r` of `2^s` over `n` rounds away from zero in the mode. -/
def roundsUp (md : Rnd) (neg : Bool) (n r s : Nat) : Bool :=
  match md with
  | .rne => decide (2 ^ s < 2 * r) || (decide (2 * r = 2 ^ s) && decide (n % 2 = 1))
  | .rtz => false
  | .rdn => neg && decide (r ≠ 0)
  | .rup => !neg && decide (r ≠ 0)

/-- `m * 2^e` rounded to a multiple of `2^q`: the multiple, and whether it is inexact. A remainder far below
the quantum is replaced by a quarter of it, which every mode rounds the same way. -/
def roundQ (md : Rnd) (neg : Bool) (m : Nat) (e q : Int) : Nat × Bool :=
  if q ≤ e then (m <<< (e - q).toNat, false)
  else
    let s := (q - e).toNat
    if m = 0 then (0, false)
    else if bitLen m + 1 < s then ((if roundsUp md neg 0 1 2 then 1 else 0), true)
    else
      let n := m >>> s
      let r := m % 2 ^ s
      ((if roundsUp md neg n r s then n + 1 else n), r ≠ 0)

/-- A value rounded to a format: `big` when, rounded with unbounded exponent, it exceeds the largest finite
value, `tiny` by the test of R162. -/
structure Rounded where
  val : FVal
  inexact : Bool
  tiny : Bool
  big : Bool
deriving DecidableEq, Repr

/-- Rounds a finite nonzero value to a format's precision and range (R162). -/
def Fmt.roundFin (t : Fmt) (md : Rnd) (neg : Bool) (m : Nat) (e : Int) : Rounded :=
  let q0 := e + (bitLen m : Int) - ((t.f : Int) + 1)
  let qmin := 1 - (t.bias : Int) - (t.f : Int)
  let u := roundQ md neg m e q0
  let q := if q0 < qmin then qmin else q0
  let n := roundQ md neg m e q
  { val := .fin neg n.1 q
    inexact := n.2
    tiny := q0 + (bitLen u.1 : Int) - 1 < 1 - (t.bias : Int)
    big := decide (t.maxQ < q) || (q = t.maxQ && decide (t.maxN < n.1)) }

/-- Rounds an exact value in an arithmetic instruction, with its status (R162). -/
def Fmt.round (t : Fmt) (md : Rnd) (x : FVal) : FVal × Stat :=
  match x with
  | .fin neg m e =>
    if m = 0 then (x, stNone)
    else
      let r := t.roundFin md neg m e
      if r.big then
        let away := match md with
          | .rne => true
          | .rtz => false
          | .rdn => neg
          | .rup => !neg
        ((if away then .inf neg else t.max neg), stOF ||| stNX)
      else (r.val, (if r.inexact then stNX else stNone) ||| (if r.inexact && r.tiny then stUF else stNone))
  | _ => (x, stNone)

/-! ### Exact arithmetic (R157, R162) -/

/-- The sign an exact zero sum takes (R162). -/
def zeroSign (md : Rnd) (x y : Bool) : Bool := if x = y then x else md = .rdn

/-- `x` as an integer multiple of `2^q`, for `q` at most its exponent. -/
def scaledInt (neg : Bool) (m : Nat) (e q : Int) : Int :=
  let n : Int := (m <<< (e - q).toNat : Nat)
  if neg then -n else n

/-- The exact sum, with NV for opposite infinities (R157). -/
def FVal.add (md : Rnd) (x y : FVal) : FVal × Stat :=
  match x, y with
  | .nan, _ | _, .nan => (.nan, stNone)
  | .inf a, .inf b => if a = b then (.inf a, stNone) else (.nan, stNV)
  | .inf a, .fin .. => (.inf a, stNone)
  | .fin .., .inf b => (.inf b, stNone)
  | .fin a m e, .fin b n k =>
    if m = 0 ∧ n = 0 then (.fin (zeroSign md a b) 0 0, stNone)
    else if m = 0 then (y, stNone)
    else if n = 0 then (x, stNone)
    else
      let q := min e k
      let z := scaledInt a m e q + scaledInt b n k q
      if z = 0 then (.fin (md = .rdn) 0 0, stNone) else (.fin (decide (z < 0)) z.natAbs q, stNone)

/-- The exact product, with NV for zero times infinity (R157). -/
def FVal.mul (x y : FVal) : FVal × Stat :=
  match x, y with
  | .nan, _ | _, .nan => (.nan, stNone)
  | .inf a, .inf b => (.inf (a != b), stNone)
  | .inf a, .fin b m _ => if m = 0 then (.nan, stNV) else (.inf (a != b), stNone)
  | .fin a m _, .inf b => if m = 0 then (.nan, stNV) else (.inf (a != b), stNone)
  | .fin a m e, .fin b n k => (.fin (a != b) (m * n) (e + k), stNone)

/-- Bits kept below the precision of a quotient or root before its sticky bit. -/
def guardBits : Nat := 80

/-- The quotient, exact or with a sticky lowest bit; DZ and NV by R157. -/
def FVal.div (x y : FVal) : FVal × Stat :=
  match x, y with
  | .nan, _ | _, .nan => (.nan, stNone)
  | .inf _, .inf _ => (.nan, stNV)
  | .inf a, .fin b _ _ => (.inf (a != b), stNone)
  | .fin a _ _, .inf b => (.fin (a != b) 0 0, stNone)
  | .fin a m e, .fin b n k =>
    if n = 0 then (if m = 0 then (.nan, stNV) else (.inf (a != b), stDZ))
    else
      let s := guardBits + bitLen n
      let q := (m <<< s) / n
      let r := (m <<< s) % n
      (.fin (a != b) (2 * q + (if r = 0 then 0 else 1)) (e - k - (s : Int) - 1), stNone)

/-- The integer square root of `n`, from the bits below `k` of a root so far. -/
def isqrtFrom (n : Nat) : Nat → Nat → Nat
  | 0, r => r
  | k + 1, r => let c := r + 2 ^ k; isqrtFrom n k (if c * c ≤ n then c else r)

/-- The integer square root. -/
def isqrt (n : Nat) : Nat := isqrtFrom n (bitLen n / 2 + 1) 0

/-- The square root of `m * 2^e`, exact or with a sticky lowest bit. -/
def sqrtFin (m : Nat) (e : Int) : FVal :=
  let odd := decide (e % 2 ≠ 0)
  let m1 := (if odd then 2 * m else m) <<< (2 * guardBits)
  let e1 := (if odd then e - 1 else e)
  let r := isqrt m1
  .fin false (2 * r + (if r * r = m1 then 0 else 1)) (e1 / 2 - (guardBits : Int) - 1)

/-- The square root (R157, R214). -/
def FVal.sqrt (x : FVal) : FVal × Stat :=
  match x with
  | .nan => (.nan, stNone)
  | .inf n => if n then (.nan, stNV) else (x, stNone)
  | .fin n m e => if m = 0 then (x, stNone) else if n then (.nan, stNV) else (sqrtFin m e, stNone)

/-- The exact value of `x * y + z`: an invalid product sets NV even when the addend is a NaN (R157). -/
def FVal.fma (md : Rnd) (x y z : FVal) : FVal × Stat :=
  let p := x.mul y
  if p.2 ≠ stNone then p else p.1.add md z

/-- `x * 2^n` (R211). -/
def FVal.scale (x : FVal) (n : Int) : FVal :=
  match x with
  | .fin s m e => .fin s m (e + n)
  | _ => x

/-- The integral value nearest `x` in the mode, the sign kept (R211). -/
def FVal.integral (md : Rnd) (x : FVal) : FVal :=
  match x with
  | .fin s m e => if 0 ≤ e then x else .fin s (roundQ md s m e 0).1 0
  | _ => x

/-! ### Comparison -/

/-- Whether `x < y`, for values other than NaN. -/
def FVal.lt (x y : FVal) : Bool :=
  match x, y with
  | .nan, _ | _, .nan => false
  | .inf a, .inf b => a && !b
  | .inf a, .fin .. => a
  | .fin .., .inf b => !b
  | .fin a m e, .fin b n k => let q := min e k; decide (scaledInt a m e q < scaledInt b n k q)

/-- Whether the values are equal as numbers: −0 equals +0, and a NaN equals nothing. -/
def FVal.eqv (x y : FVal) : Bool :=
  match x, y with
  | .nan, _ | _, .nan => false
  | .inf a, .inf b => a = b
  | .fin a m e, .fin b n k => let q := min e k; decide (scaledInt a m e q = scaledInt b n k q)
  | _, _ => false

/-- The lesser, with −0 below +0; a lone NaN gives the other operand (R212). -/
def FVal.min (x y : FVal) : FVal :=
  if x.isNaN then y else if y.isNaN then x
  else if x.lt y then x else if y.lt x then y else if x.sign then x else y

/-- The greater (R212). -/
def FVal.max (x y : FVal) : FVal :=
  if x.isNaN then y else if y.isNaN then x
  else if x.lt y then y else if y.lt x then x else if x.sign then y else x

/-! ### Conversions (R166) -/

/-- A conversion's value or code: `code` for a target without a value, such as an e4m3 NaN. -/
def convFloat (t : LType) (md : Rnd) (sat : Bool) (x : FVal) : FVal × Stat :=
  let f := t.fmt
  match x with
  | .nan => if f.nan = .none then (.fin false 0 0, stNV) else (.nan, stNone)
  | .inf n =>
    if sat then (f.max n, stNone)
    else if f.inf then (.inf n, stNone)
    else if f.nan = .allOnes then (.nan, stNV)
    else (f.max n, stOF)
  | .fin neg m e =>
    if m = 0 then ((if f.nan = .none then .fin false 0 0 else x), stNone)
    else
      let r := f.roundFin md neg m e
      if r.big then
        let away := match md with
          | .rne => true
          | .rtz => false
          | .rdn => neg
          | .rup => !neg
        if sat || f.nan = .none || !away then (f.max neg, stOF ||| stNX)
        else if f.inf then (.inf neg, stOF ||| stNX)
        else (.nan, stNV ||| stOF ||| stNX)
      else
        let v := if f.nan = .none && r.val.isZero then .fin false 0 0 else r.val
        (v, (if r.inexact then stNX else stNone) ||| (if r.inexact && r.tiny then stUF else stNone))

/-- The least and greatest values of an integer type (R155). -/
def LType.minInt (t : LType) : Int := if t.signed then -((2 ^ (t.width - 1) : Nat) : Int) else 0
def LType.maxInt (t : LType) : Int :=
  if t.signed then ((2 ^ (t.width - 1) : Nat) : Int) - 1 else ((2 ^ t.width : Nat) : Int) - 1

/-- Clamps an integer to a type's range. -/
def LType.clamp (t : LType) (z : Int) : Int :=
  if z < t.minInt then t.minInt else if t.maxInt < z then t.maxInt else z

/-- Converts a value to an integer type (R166). A value beyond any integer type is cut to 2^80 first, which
clamps the same way. DEDUCED (log 39). -/
def convToInt (t : LType) (md : Rnd) (sat : Bool) (x : FVal) : Int × Stat :=
  match x with
  | .nan => (0, stNV)
  | .inf n => ((if n then t.minInt else t.maxInt), if sat then stNone else stNV)
  | .fin neg m e =>
    let big := decide (80 < e + (bitLen m : Int)) && decide (m ≠ 0)
    let r := if big then (2 ^ 80, false) else roundQ md neg m e 0
    let z : Int := if neg then -(r.1 : Int) else r.1
    if z < t.minInt ∨ t.maxInt < z then (t.clamp z, if sat then stNone else stNV)
    else (z, if r.2 then stNX else stNone)

/-- An integer as an exact value. -/
def FVal.ofInt (z : Int) : FVal := .fin (decide (z < 0)) z.natAbs 0

/-- The numeric value of an integer element code (R155). -/
def LType.intValue (t : LType) (n : Nat) : Int := if t.signed then signedOf t.width n else ((n % 2 ^ t.width : Nat) : Int)

/-- The code of an element converted to another type, with its status (R166, R168). In `cvt` the e2m1 code
0b1000 decodes as −0, which is R156's formula for it. DEDUCED (log 39). -/
def convert (src dst : LType) (md : Rnd) (sat : Bool) (code : Nat) : Nat × Stat :=
  if src.isInt && dst.isInt then
    let z := src.intValue code
    (wrap dst.width (if sat then dst.clamp z else z), stNone)
  else if dst.isInt then
    let r := convToInt dst md sat (src.value code)
    (wrap dst.width r.1, r.2)
  else
    let x := if src.isInt then FVal.ofInt (src.intValue code) else src.value code
    let r := convFloat dst md sat x
    (dst.image r.1, r.2)

/-! ### Block scaling (R159, R160, R169 to R172) -/

/-- The value of an e4m3 code. -/
def e4m3Value (n : Nat) : FVal := fmtE4m3.decode (n % 256)

/-- An element of a scale block, unscaled (R160). -/
def blockDecode (t : LType) (code scale spare : Nat) : FVal :=
  if scale = 0xFF then .nan
  else if t = .e2m1 && code = 8 then e4m3Value spare
  else t.value code

/-- The unbiased exponent of a type's largest finite value (R169). -/
def LType.emax : LType → Int
  | .e2m1 | .e2m3 => 2
  | .e3m2 => 4
  | .e4m3 => 8
  | _ => 15

/-- `qscl` of one magnitude (R169). -/
def qsclOf (t : LType) (x : FVal) : Nat × Stat :=
  match x with
  | .nan | .inf _ => (0xFF, stNV)
  | .fin _ m e =>
    if m = 0 then (0, stNone)
    else
      let k := e + (bitLen m : Int) - 1 - t.emax
      if k < -127 then (0, stSCLO) else ((k + 127).toNat, stNone)

/-- The distance of two finite values, as a value. -/
def FVal.dist (x y : FVal) : FVal := (x.add .rne y.negate).1.abs

/-- The candidates of `qpack` into e2m1: the regular codes, then the spare (R171). -/
def e2m1Candidates (spare : Nat) : List (Nat × FVal) :=
  ((List.range 16).filter (· ≠ 8)).map (fun c => (c, LType.e2m1.value c)) ++
    (if (e4m3Value spare).isNaN then [] else [(8, e4m3Value spare)])

/-- The better of two candidates for `x`, by distance, then by the ties of R171: a regular code over the
spare, then the code whose bit 0 is 0. -/
def nearer (x : FVal) (p q : Nat × FVal) : Nat × FVal :=
  let dp := x.dist p.2
  let dq := x.dist q.2
  if dq.lt dp then q
  else if dp.lt dq then p
  else if q.1 = 8 then p
  else if p.1 = 8 then q
  else if p.1 % 2 = 0 then p else q

/-- The nearest candidate of a list, if it has one. -/
def nearest (x : FVal) : List (Nat × FVal) → Option (Nat × FVal)
  | [] => none
  | c :: cs => match nearest x cs with
    | none => some c
    | some d => some (nearer x c d)

/-- Whether a candidate stands in the mode's direction from `x` (R171). -/
def inDirection (md : Rnd) (x v : FVal) : Bool :=
  match md with
  | .rne => true
  | .rtz => !(x.abs.lt v.abs) && (v.isZero || v.sign = x.sign)
  | .rdn => !(x.lt v)
  | .rup => !(v.lt x)

/-- `qpack` of one value into e2m1 (R171). Beyond every candidate on its side, `x` takes the extreme one. -/
def qpackE2m1 (md : Rnd) (spare : Nat) (x : FVal) : Nat × Stat :=
  let cs := e2m1Candidates spare
  match x with
  | .nan => (0, stNV)
  | .inf n =>
    let far : FVal := .fin n 1 60
    ((match nearest far cs with
      | some c => if c.2.isZero then 0 else c.1
      | none => 0), stOF ||| stNX)
  | .fin _ m _ =>
    if m = 0 then (0, stNone)
    else
      let beyond := cs.all fun c => if x.sign then x.lt c.2 else c.2.lt x
      let pick := if beyond then nearest x cs else nearest x (cs.filter fun c => inDirection md x c.2)
      match pick with
      | none => (0, stNone)
      | some c =>
        let code := if c.2.isZero then 0 else c.1
        let differs := !(c.2.eqv x)
        let small := !c.2.isZero && c.2.abs.lt (.fin false 1 0)
        (code, (if beyond then stOF ||| stNX else stNone) ||| (if differs then stNX else stNone) |||
          (if differs && small then stUF else stNone))

/-- `qpack` of one value (R171). -/
def qpackOf (t : LType) (md : Rnd) (sat : Bool) (scale spare : Nat) (x : FVal) : Nat × Stat :=
  if scale = 0xFF then
    (if t.fmt.nan = .none then (0, stNV) else (t.fmt.nanCode, stNone))
  else
    let y := x.scale (127 - (scale : Int))
    if t = .e2m1 then qpackE2m1 md spare y
    else let r := convFloat t md sat y; (t.image r.1, r.2)

/-- `qunp` of one element (R170). -/
def qunpOf (t : LType) (md : Rnd) (sat : Bool) (scale spare code : Nat) : Nat × Stat :=
  let r := convFloat .f32 md sat ((blockDecode t code scale spare).scale ((scale : Int) - 127))
  (LType.f32.image r.1, r.2)

/-- `qspare` of one value (R172). -/
def qspareOf (md : Rnd) (sat : Bool) (scale : Nat) (x : FVal) : Nat × Stat :=
  if scale = 0xFF then (0x7F, stNV)
  else let r := convFloat .e4m3 md sat (x.scale (127 - (scale : Int))); (fmtE4m3.encode r.1, r.2)

/-! ### Matrix summation (R173) -/

/-- The exact sum of a group's four products (R173). -/
def groupSum : List (FVal × FVal) → FVal
  | [] => .fin true 0 0
  | (a, b) :: ps => ((a.mul b).1.add .rne (groupSum ps)).1

/-- One accumulation of a group into an a26 cell (R173). The array records no status. -/
def mmaGroup (acc : FVal) (ps : List (FVal × FVal)) : FVal :=
  (fmtA26.round .rne (acc.add .rne (groupSum ps)).1).1

/-! ### Wide accumulators (R175) -/

/-- A wide accumulator's integer, window exponent and status (R175). -/
structure Wide where
  w : Int
  e : Int
  nv : Bool
  st : Bool
  ov : Bool
deriving DecidableEq, Repr

/-- `m * 2^k` cut to a whole number toward zero, capped at 2^512, and whether bits were dropped. -/
def truncPow (m : Nat) (k : Int) : Nat × Bool :=
  if m = 0 then (0, false)
  else if 0 ≤ k then (if 600 < k then (2 ^ 512, false) else (m <<< k.toNat, false))
  else if (bitLen m : Int) < -k then (0, true)
  else (m >>> (-k).toNat, m % 2 ^ (-k).toNat ≠ 0)

def wideMax : Int := ((2 ^ 255 : Nat) : Int) - 1
def wideMin : Int := -((2 ^ 255 : Nat) : Int)

/-- `wide_init` (R175). -/
def wideInit (b : FVal) (e : Int) : Wide :=
  match b with
  | .fin neg m k =>
    let q := truncPow m (k - e)
    let z : Int := if neg then -(q.1 : Int) else q.1
    if 2 ^ 255 ≤ q.1 then ⟨if neg then wideMin else wideMax, e, false, q.2, true⟩
    else ⟨z, e, false, q.2, false⟩
  | _ => ⟨0, e, true, false, false⟩

/-- `wide_acc`; `sub` subtracts the product (R175). -/
def wideAcc (w : Wide) (a x : FVal) (sub : Bool) : Wide :=
  if !a.isFin || !x.isFin || w.nv then { w with nv := true }
  else if w.ov then w
  else
    match (a.mul x).1 with
    | .fin neg m k =>
      let q := truncPow m (k - w.e)
      let z : Int := if neg != sub then -(q.1 : Int) else q.1
      let n := w.w + z
      if wideMax < n then { w with st := w.st || q.2, w := wideMax, ov := true }
      else if n < wideMin then { w with st := w.st || q.2, w := wideMin, ov := true }
      else { w with st := w.st || q.2, w := n }
    | _ => { w with nv := true }

/-- `wide_round` (R175). A zero W rounds to +0 in every mode. DESIGN CHOICE (log 104). -/
def wideRound (w : Wide) (t : Fmt) (md : Rnd) : FVal × Stat :=
  if w.nv then (.nan, stNV)
  else if w.ov then (.inf (decide (w.w ≤ 0)), stOF)
  else t.round md (.fin (decide (w.w < 0)) w.w.natAbs w.e)

end Sys2Proof
end

