-- ==== Sys2Proof/Machine/Control.lean ====
section
/-! DEFINITION. The control window: the registers it holds, their images, and the rules of a write to each
(R431, R341, R364, R390, R399). Ownership of the module and its VFs (R392). -/

namespace Sys2Proof.Machine

/-- The ownership record of a scope. -/
def State.ownership (s : State) (sc : OwnScope) : Option Ownership := s.mod.owners.find? fun o => o.scope = sc

/-- The host that owns a scope now: a lease that has run out owns nothing (R392). -/
def State.ownerOf (s : State) (sc : OwnScope) : Option Nat :=
  match (s.ownership sc).bind (·.owner) with
  | some (h, lapse) => if s.time < lapse then some h else none
  | none => none

/-- Adds to what leaves the module. -/
def State.emit (s : State) (o : Output) : State := { s with outbox := s.outbox ++ [o] }

/-- Adds a line to the management log (R394). -/
def State.note (s : State) (w : Words) : State := { s with mod := { s.mod with log := s.mod.log ++ [w] } }

/-- Whether a die's harbourmaster acts (R366). -/
def State.harbourOk (s : State) (die : Nat) : Bool := SMapOps.get .active s.mod.harbour die = .active

/-- Keeps something for a die's standby (R366). -/
def State.hold (s : State) (die : Nat) (x : Held) : State := { s with mod := { s.mod with held := s.mod.held ++ [(die, x)] } }

/-- A register of the control window (R431). -/
inductive CtlReg where
  | cgrant (vf : Nat)
  | qctl (q : Nat)
  | vfsched (vf : Nat)
  | errcnt (die : Nat)
  | nwin (n : Nat)
  | peertab (p : Nat) (high : Bool)
  | capture (u : Nat) (word : Nat)
deriving DecidableEq, Repr

/-- The register whose eight bytes start at an offset of the window, itself a multiple of 8. -/
def ctlRegAt (off : Nat) : Option CtlReg :=
  if off < 0x2000 then some (.cgrant (off / 8))
  else if 0x100000 ≤ off ∧ off < 0x108000 then some (.qctl ((off - 0x100000) / 8))
  else if 0x108000 ≤ off ∧ off < 0x10A000 then some (.vfsched ((off - 0x108000) / 8))
  else if 0x200000 ≤ off ∧ off < 0x200020 then some (.errcnt ((off - 0x200000) / 8))
  else if 0x300000 ≤ off ∧ off < 0x304000 then some (.nwin ((off - 0x300000) / 8))
  else if 0x400010 ≤ off ∧ off < 0x410000 then some (.peertab ((off - 0x400000) / 16) (off / 8 % 2 = 1))
  else if 0x500000 ≤ off ∧ off < 0x508000 ∧ off % 512 < 416 then some (.capture ((off - 0x500000) / 512) (off % 512 / 8))
  else none

def State.vfRegs (s : State) (vf : Nat) : VfRegs := SMapOps.get VfRegs.zero s.mod.vfs vf
def State.setVfRegs (s : State) (vf : Nat) (r : VfRegs) : State :=
  { s with mod := { s.mod with vfs := SMapOps.set VfRegs.zero s.mod.vfs vf r } }
def State.queue (s : State) (q : Nat) : Queue := SMapOps.get Queue.zero s.mod.queues q
def State.setQueue (s : State) (q : Nat) (x : Queue) : State :=
  { s with mod := { s.mod with queues := SMapOps.set Queue.zero s.mod.queues q x } }
def State.monitor (s : State) (u : Nat) : Monitor := SMapOps.get Monitor.zero s.mod.monitors u
def State.setMonitor (s : State) (u : Nat) (x : Monitor) : State :=
  { s with mod := { s.mod with monitors := SMapOps.set Monitor.zero s.mod.monitors u x } }
def State.peer (s : State) (p : Nat) : Word × Word := SMapOps.get (0, 0) s.mod.peertab p
def State.nwin (s : State) (n : Nat) : Word := SMapOps.get 0 s.mod.nwin n

/-- A word of a capture unit's block (R399). -/
def Monitor.word (m : Monitor) (i : Nat) : Word :=
  if i = 0 then m.cfg
  else if i ≤ 31 then SMapOps.get 0 m.edges (i - 1)
  else if i = 32 then m.min
  else if i = 33 then m.max
  else if i = 34 then m.count
  else if i = 35 then m.sum
  else if i ≤ 51 then SMapOps.get 0 m.bins (2 * (i - 36) + 1) ++ SMapOps.get 0 m.bins (2 * (i - 36))
  else 0

/-- The image of a register. -/
def State.ctlImage (s : State) : CtlReg → Word
  | .cgrant vf => SMapOps.get 0 s.mod.cgrant vf
  | .qctl q => (s.queue q).ctl
  | .vfsched vf => (s.vfRegs vf).sched
  | .errcnt d => SMapOps.get 0 s.mod.errcnt d
  | .nwin n => s.nwin n
  | .peertab p high => if high then (s.peer p).2 else (s.peer p).1
  | .capture u i => (s.monitor u).word i

/-- The eight bytes of the window at an offset that is a multiple of 8; bytes that hold no register read zero. -/
def State.ctlWord (s : State) (off : Nat) : Word :=
  match ctlRegAt off with
  | some r => s.ctlImage r
  | none => 0

/-- A read of 1, 2, 4 or 8 aligned bytes of the window (R431). A lane's access of 16 or 32 bytes, of which R431 does not
speak, gets the bytes from its address to the end of their register word, and zeros above. DESIGN CHOICE (log 89). -/
def State.ctlRead (s : State) (off len : Nat) : Nat := bits (s.ctlWord (off / 8 * 8)) (8 * (off % 8)) (8 * len)

/-- QCTL fields (R341). -/
def qEn (c : Word) : Bool := bitOf c 63
def qPriv (c : Word) : Bool := bitOf c 62
def qVf (c : Word) : Nat := bits c 52 10
def qCap (c : Word) : Nat := bits c 32 16
def qMin (c : Word) : Nat := bits c 16 16
def qSt (c : Word) : Nat := bits c 0 2
def qWithSt (c : Word) (st : Nat) : Word := at' 2 (bits c 2 62) ||| BitVec.ofNat 64 (st % 4)

/-- The sum of QMIN over enabled queues, with queue `q` at value `c` (R341). -/
def State.qminSum (s : State) (q : Nat) (c : Word) : Nat :=
  let others := (s.mod.queues.filter fun p => p.1 ≠ q && qEn p.2.ctl).map fun p => qMin p.2.ctl
  others.foldl (· + ·) 0 + (if qEn c then qMin c else 0)

/-- Whether a writer may write as the module owner. -/
def State.isModuleOwner (s : State) : Writer → Bool
  | .host h => s.ownerOf .module = some h
  | .task .. => false

/-- Whether a write to a register is allowed: the writer column, then the field rules (R431, and the rules of
each register). DEDUCED (log 8). -/
def State.ctlAllowed (s : State) (w : Writer) (r : CtlReg) (v : Word) : Bool :=
  match r with
  | .cgrant _ => s.isModuleOwner w && !bitOf v 0
  | .qctl q =>
    let old := (s.queue q).ctl
    let shape := bits v 48 4 = 0 && bits v 2 14 = 0 && decide (1 ≤ qCap v) && decide (qMin v ≤ qCap v) &&
      decide (s.qminSum q v ≤ 65536)
    let who := match w with
      | .host h => s.isModuleOwner w && (!qPriv v || qPriv old && qVf old = qVf v || s.ownerOf (.vf (qVf v)) = some h)
      | .task vf p => p && qVf old = vf && qVf v = vf && qPriv old = qPriv v
    shape && who
  | .vfsched vf =>
    bits v 8 56 = 0 && (match w with
      | .host _ => s.isModuleOwner w
      | .task t p => p && t = vf)
  | .errcnt _ => s.isModuleOwner w && bits v 0 8 = 0
  | .nwin _ => s.isModuleOwner w && !bitOf v 61 && !(bitOf v 63 && bits v 48 12 = 0) && bits v 40 8 = 0
  | .peertab _ high => s.isModuleOwner w && (high || bits v 0 44 = 0)
  | .capture _ i =>
    s.isModuleOwner w &&
      (if i = 0 then bits v 56 7 = 0 && decide (1 ≤ bits v 48 8) && decide (bits v 48 8 ≤ 6) else decide (i ≤ 31))

/-- A field of ERRCNT written with zero is cleared; any other keeps its count (R364). -/
def errcntWritten (old v : Word) : Word :=
  let f (lo w : Nat) : Word := if bits v lo w = 0 then 0 else at' lo (bits old lo w)
  f 48 16 ||| f 32 16 ||| f 16 16 ||| f 8 8

/-- Whether a writer is a host. -/
def hostWriter : Writer → Bool
  | .host _ => true
  | .task .. => false

/-- The register written under its own rules, the write being allowed. Only a host's write restarts a queue (R341). -/
def State.ctlStore (s : State) (w : Writer) (r : CtlReg) (v : Word) : State :=
  match r with
  | .cgrant vf => { s with mod := { s.mod with cgrant := SMapOps.set 0 s.mod.cgrant vf v } }
  | .qctl q =>
    let old := s.queue q
    let st := if hostWriter w && qSt v = 0 && qSt old.ctl = 2 then 0 else qSt old.ctl
    s.setQueue q { old with ctl := qWithSt v st }
  | .vfsched vf => s.setVfRegs vf { s.vfRegs vf with sched := v }
  | .errcnt d =>
    { s with mod := { s.mod with errcnt := SMapOps.set 0 s.mod.errcnt d (errcntWritten (SMapOps.get 0 s.mod.errcnt d) v) } }
  | .nwin n => { s with mod := { s.mod with nwin := SMapOps.set 0 s.mod.nwin n v } }
  | .peertab p high =>
    let old := s.peer p
    { s with mod := { s.mod with peertab := SMapOps.set (0, 0) s.mod.peertab p (if high then (old.1, v) else (v, old.2)) } }
  | .capture u i =>
    let m := s.monitor u
    if i = 0 then s.setMonitor u { Monitor.zero with cfg := v, edges := m.edges }
    else if i ≤ 31 then s.setMonitor u { m with edges := SMapOps.set 0 m.edges (i - 1) v }
    else s

/-- A word naming a writer in the management log. DESIGN CHOICE (log 10). -/
def writerWord : Writer → Word
  | .host h => BitVec.ofNat 64 h
  | .task vf _ => BitVec.ofNat 64 (2 ^ 32 + vf)

/-- A write of a control register: made when allowed, else refused, logged, and the register kept (R431, R394).
The second component says whether it was made. DEDUCED (log 8). -/
def State.ctlWriteReg (s : State) (w : Writer) (r : CtlReg) (addr : Nat) (v : Word) : State × Bool :=
  if s.ctlAllowed w r v then (s.ctlStore w r v, true)
  else (s.note [writerWord w, BitVec.ofNat 64 addr], false)

/-- A store of `len` bytes to the window: only an aligned 8-byte store to a register acts (R431). -/
def State.ctlWrite (s : State) (w : Writer) (off len : Nat) (v : Word) : State × Bool :=
  if len ≠ 8 ∨ off % 8 ≠ 0 then (s, false)
  else
    match ctlRegAt off with
    | some r => s.ctlWriteReg w r (Config.ctlBase + off) v
    | none => (s, false)

/-! ### Network windows and granted pages (R390, R12) -/

/-- Whether a physical address lies in a network window. -/
def isNet (pa : Nat) : Bool := decide (Config.netBase ≤ pa ∧ pa < Config.netEnd)

/-- The NWIN register of a network-window address (R390). -/
def State.winOf (s : State) (pa : Nat) : Word := s.nwin ((pa / 2 ^ 40) % 2 ^ 11)

def State.winEn (s : State) (pa : Nat) : Bool := bitOf (s.winOf pa) 63
def State.winProp (s : State) (pa : Nat) : Bool := bitOf (s.winOf pa) 62
/-- A host window; a peer window otherwise (R390). -/
def State.winHost (s : State) (pa : Nat) : Bool := bits (s.winOf pa) 60 2 = 1

/-- Where a PEERTAB entry sends traffic (R390). -/
def State.peerAddr (s : State) (p : Nat) : PeerAddr :=
  let e := s.peer p
  ⟨p, e.2, bits e.1 52 10, bits e.1 44 8⟩

/-- The target of a network-window address, and the remote address: REMOTE × 2^24 + offset (R390). -/
def State.remoteOf (s : State) (pa : Nat) : PeerAddr × Nat :=
  let w := s.winOf pa
  (s.peerAddr (bits w 48 12), bits w 0 40 * 2 ^ 24 + pa % 2 ^ 40)

/-- Whether the page of a control-window address is granted to a VF (R431). -/
def State.granted (s : State) (vf pa : Nat) : Bool :=
  let b := (pa - Config.ctlBase) / 2 ^ 20
  decide (1 ≤ b ∧ b ≤ 63) && bitOf (SMapOps.get 0 s.mod.cgrant vf) b

end Sys2Proof.Machine
end

