-- ==== Sys2Proof/Machine/Regs.lean ====
section
/-! DEFINITION. Reading and writing harts, units and registers: every register has one home, and every access
goes through these operations (R40 to R45, R90 to R92, R115, R123, R177). -/

namespace Sys2Proof.Machine

/-- What a meaning answers. -/
abbrev Out := Host.Outcome State Fault Refusal

/-! ### Tables -/

def State.hart? (s : State) (id : Nat) : Option Hart := SMapOps.get none s.harts id
def State.putHart (s : State) (id : Nat) (h : Hart) : State :=
  { s with harts := SMapOps.set none s.harts id (some h) }
def State.dropHart (s : State) (id : Nat) : State := { s with harts := SMapOps.set none s.harts id none }

/-- Changes a hart, if it is there. -/
def State.modHart (s : State) (id : Nat) (f : Hart → Hart) : State :=
  match s.hart? id with
  | some h => s.putHart id (f h)
  | none => s

def State.unit? (s : State) (id : Nat) : Option Gang := SMapOps.get none s.gangs id
def State.putUnit (s : State) (id : Nat) (u : Gang) : State :=
  { s with gangs := SMapOps.set none s.gangs id (some u) }
def State.dropUnit (s : State) (id : Nat) : State := { s with gangs := SMapOps.set none s.gangs id none }
def State.modUnit (s : State) (id : Nat) (f : Gang → Gang) : State :=
  match s.unit? id with
  | some u => s.putUnit id (f u)
  | none => s

def State.copy? (s : State) (id : Nat) : Option Copy := SMapOps.get none s.copies id
def State.putCopy (s : State) (id : Nat) (c : Copy) : State :=
  { s with copies := SMapOps.set none s.copies id (some c) }
def State.dropCopy (s : State) (id : Nat) : State := { s with copies := SMapOps.set none s.copies id none }

def State.tileOp? (s : State) (id : Nat) : Option TileOp := SMapOps.get none s.tileOps id
def State.putTileOp (s : State) (id : Nat) (t : TileOp) : State :=
  { s with tileOps := SMapOps.set none s.tileOps id (some t) }
def State.dropTileOp (s : State) (id : Nat) : State := { s with tileOps := SMapOps.set none s.tileOps id none }

/-- Tasks and jobs are kept by VF (R333, R314). -/
def taskKey (vf id : Nat) : Nat := vf * 2 ^ 32 + id
def jobKey (vf job : Nat) : Nat := vf * 256 + job

def State.tcb? (s : State) (vf id : Nat) : Option Tcb := SMapOps.get none s.prog.tasks (taskKey vf id)
def State.setTcb (s : State) (vf id : Nat) (t : Option Tcb) : State :=
  { s with prog := { s.prog with tasks := SMapOps.set none s.prog.tasks (taskKey vf id) t } }
def State.putTcb (s : State) (vf id : Nat) (t : Tcb) : State := s.setTcb vf id (some t)
def State.job? (s : State) (vf job : Nat) : Option Job := SMapOps.get none s.prog.jobs (jobKey vf job)
def State.setJob (s : State) (vf job : Nat) (j : Option Job) : State :=
  { s with prog := { s.prog with jobs := SMapOps.set none s.prog.jobs (jobKey vf job) j } }
def State.putJob (s : State) (vf job : Nat) (j : Job) : State := s.setJob vf job (some j)

/-- Takes the next operation number. -/
def State.fresh (s : State) : Nat × State := (s.nextId, { s with nextId := s.nextId + 1 })

/-- Takes the next place in the sequence of free values. -/
def State.freeAt (s : State) : Nat × State := (s.free, { s with free := s.free + 1 })

/-! ### Where a hart is -/

/-- Cores 0 to 127 hold waves; the crane core of cluster `c` is numbered `128 + c` (R292). DEDUCED (log 53). -/
def craneCore (cluster : Nat) : Nat := 128 + cluster
def coreCluster (core : Nat) : Nat := if core < 128 then core / 4 else core - 128
def clusterDie (cluster : Nat) : Nat := cluster / 8
def coreDie (core : Nat) : Nat := clusterDie (coreCluster core)

/-- The core number a hart reports; a crane thread reports its cluster's first core (R195, R35). -/
def Hart.coreNo (h : Hart) : Nat := if h.core < 128 then h.core else 4 * (h.core - 128)
def Hart.cluster (h : Hart) : Nat := coreCluster h.core
def Hart.die (h : Hart) : Nat := coreDie h.core

/-- The VF of a unit; 0 for a unit that is gone. -/
def State.unitVf (s : State) (u : Nat) : Nat := match s.unit? u with | some g => g.vf | none => 0
def State.hartVf (s : State) (h : Hart) : Nat := s.unitVf h.unit

/-- The TCB of a hart's task. -/
def State.hartTcb (s : State) (h : Hart) : Option Tcb :=
  match s.unit? h.unit with
  | some g => s.tcb? g.vf g.task
  | none => none

/-- Whether a hart belongs to a privileged task (R33). -/
def State.privileged (s : State) (h : Hart) : Bool := match s.hartTcb h with | some t => t.priv | none => false

/-- The harts of a unit, ascending. -/
def State.unitHarts (s : State) (u : Nat) : List Nat :=
  (s.harts.filter fun p => match p.2 with | some h => h.unit = u | none => false).map Prod.fst

/-- The units of a task, ascending. -/
def State.taskUnits (s : State) (vf task : Nat) : List Nat :=
  (s.gangs.filter fun p => match p.2 with | some g => g.vf = vf && g.task = task | none => false).map Prod.fst

/-- The harts of a task. -/
def State.taskHarts (s : State) (vf task : Nat) : List Nat := (s.taskUnits vf task).flatMap s.unitHarts

/-- Applies a change to each listed id in turn. -/
def State.forEach (s : State) (f : State → Nat → State) (ids : List Nat) : State := ids.foldl f s

/-! ### Scalar, uniform and mask registers -/

/-- A scalar register: s0 reads as zero, settled (R177). -/
def Hart.getS (h : Hart) (r : SReg) : TV := if r = 0 then TV.zero else SMapOps.get TV.zero h.s r.toNat

/-- Writes a scalar register: a write to s0 is discarded (R177). -/
def Hart.setS (h : Hart) (r : SReg) (x : TV) : Hart :=
  if r = 0 then h else { h with s := SMapOps.set TV.zero h.s r.toNat x }

/-- Scalar register number `n`, for a group from a base (R246, R325). -/
def sreg (n : Nat) : SReg := BitVec.ofNat 6 n
def Hart.sAt (h : Hart) (base : SReg) (i : Nat) : TV := h.getS (sreg (base.toNat + i))

def Hart.getK (h : Hart) (k : Nat) : TV := SMapOps.get TV.zero h.k k
def Hart.setK (h : Hart) (k : Nat) (x : TV) : Hart := { h with k := SMapOps.set TV.zero h.k k x }
def Hart.getM (h : Hart) (m : Nat) : MaskReg := SMapOps.get MaskReg.zero h.m m
def Hart.setM (h : Hart) (m : Nat) (x : MaskReg) : Hart := { h with m := SMapOps.set MaskReg.zero h.m m x }

/-- The live mask m0 (R123). -/
def Hart.m0 (h : Hart) : Word32 := (h.getM 0).bits

/-! ### Lane registers -/

def Hart.getV (h : Hart) (r lane : Nat) : LV := SMapOps.get LV.zero h.v (r * 32 + lane)
/-- Writes a lane register; what it held is kept while a split is open (R226). -/
def Hart.setV (h : Hart) (r lane : Nat) (x : LV) : Hart :=
  { h with v := SMapOps.set LV.zero h.v (r * 32 + lane) x, older := h.older.map ([(r, lane, h.getV r lane)] :: ·) }

/-- The writes that a change of a hart makes are of one moment: no other slot finds some of them made and some not (R226). -/
def Hart.atOnce (h : Hart) (f : Hart → Hart) : Hart :=
  let k := f { h with older := [[]] }
  let ws := (k.older.headD []).flatten
  { k with older := if ws.isEmpty then h.older else h.older.map (ws :: ·) }

/-- What a lane register held before the writes of the last `k` moments since the innermost split (R226). -/
def Hart.agedV (h : Hart) (k r lane : Nat) : LV :=
  match ((h.older.headD []).take k).flatten.reverse.find? fun w => w.1 = r && w.2.1 = lane with
  | some w => w.2.2
  | none => h.getV r lane

/-- An even/odd pair as one 64-bit value, its tag the OR of the two (R42). -/
def Hart.getV64 (h : Hart) (r lane : Nat) : TV :=
  ⟨(h.getV (r + 1) lane).val ++ (h.getV r lane).val, (h.getV r lane).tag || (h.getV (r + 1) lane).tag⟩

/-- Writes a pair: the same tag into both registers (R42). -/
def Hart.setV64 (h : Hart) (r lane : Nat) (x : TV) : Hart :=
  h.atOnce fun h => (h.setV r lane ⟨x.val.extractLsb' 0 32, x.tag⟩).setV (r + 1) lane ⟨x.val.extractLsb' 32 32, x.tag⟩

/-- Declared lane registers of a hart's unit, and whether w0 to w3 are enabled (R41, R44). -/
def State.declared (s : State) (h : Hart) : Nat := match s.unit? h.unit with | some g => g.nregs | none => 0
def State.wideOn (s : State) (h : Hart) : Bool := match s.unit? h.unit with | some g => g.wide | none => false

/-- The first hidden register of wn: they stand above the declared count (R44, R269). -/
def wideBase (declared n : Nat) : Nat := declared + 12 * n

/-- A slot of a hart. -/
def Hart.slot (h : Hart) (i : Bool) : Slot := if i then h.slot1 else h.slot0
def Hart.setSlot (h : Hart) (i : Bool) (x : Slot) : Hart := if i then { h with slot1 := x } else { h with slot0 := x }

/-- The lanes a slot executes: its mask and m0 (R119). -/
def Hart.live (h : Hart) (i : Bool) : Word32 := (h.slot i).mask &&& h.m0

/-- The address of a slot's lane word (R131). -/
def Hart.laneAddr (h : Hart) (i : Bool) : Word :=
  match h.block with
  | some b => b.entry + BitVec.ofNat 64 (12 * (h.slot i).off.toNat)
  | none => 0

/-! ### Counters (R90 to R92) -/

def Hart.counter (h : Hart) : CounterClass → List Counted
  | .ld => h.ld | .st => h.st | .cp => h.cp | .mx => h.mx | .ts => h.ts

def Hart.setCounter (h : Hart) (c : CounterClass) (l : List Counted) : Hart :=
  match c with
  | .ld => { h with ld := l }
  | .st => { h with st := l }
  | .cp => { h with cp := l }
  | .mx => { h with mx := l }
  | .ts => { h with ts := l }

/-- The counter's largest value (R90). -/
def CounterClass.limit : CounterClass → Nat
  | .cp | .mx => 15
  | _ => 63

def Hart.count (h : Hart) (c : CounterClass) : Nat := (h.counter c).length

/-- Whether one more operation would pass the largest value, so that the instruction stalls (R91). DEDUCED (log 22). -/
def Hart.full (h : Hart) (c : CounterClass) : Bool := decide (c.limit ≤ h.count c)

/-- A word stalls at issue for a counter (R91): the mark says so while it stands there (R350). -/
def State.stallsOn (s : State) (hid : Nat) (scalar : Bool) (c : CounterClass) : State :=
  s.modHart hid fun h => if scalar then { h with stallS := some c } else { h with stallL := some c }

/-- Counts an operation at issue (R90). -/
def Hart.issue (h : Hart) (c : CounterClass) (op : Nat) : Hart := h.setCounter c (h.counter c ++ [⟨op, false⟩])

/-- Operations retire in issue order: the completed ones at the head leave (R92). -/
def retire : List Counted → List Counted
  | [] => []
  | c :: cs => if c.done then retire cs else c :: cs

/-- Marks an operation completed, then retires (R92). -/
def completeIn (l : List Counted) (op : Nat) : List Counted :=
  retire (l.map fun c => if c.op = op then { c with done := true } else c)

def Hart.complete (h : Hart) (c : CounterClass) (op : Nat) : Hart := h.setCounter c (completeIn (h.counter c) op)

def State.completeOp (s : State) (hid : Nat) (c : CounterClass) (op : Nat) : State := s.modHart hid (·.complete c op)

/-- Whether every counter is zero (R110, R130). -/
def Hart.drained (h : Hart) : Bool := [h.ld, h.st, h.cp, h.mx, h.ts].all (·.isEmpty)

/-! ### Harts that stand still -/

/-- Whether a hart's unit is saved: its context stands in the VF's private area (R354). -/
def State.saved (s : State) (h : Hart) : Bool := match s.unit? h.unit with | some g => g.st = .saved | none => false

/-- Whether a hart performs nothing: it has ended, is suspended by a fault, is halted, or has stopped at a safe point. -/
def Hart.still (h : Hart) : Bool := h.ended.isSome || h.suspendedFault || h.halted || h.safeMask.isSome

/-! ### Wave order (R70) -/

/-- What an access of the acting agent's word comes from. -/
def State.source (s : State) (h : Hart) : Source :=
  match s.cur with
  | .scalar _ => .scalar h.synced
  | .lane _ _ => .lane (match h.block with | some b => b.since | none => 0)

/-- Whether an older access of a wave, operation `op` from `a`, precedes one from `b` in wave order (R70). The two slots of a
block count as one stream. DEDUCED (log 91). -/
def Source.precedes (a : Source) (op : Nat) (b : Source) : Bool :=
  match a, b with
  | .lane m, .scalar n => decide (m < n)
  | .scalar _, .lane n => decide (op < n)
  | _, _ => true

/-! ### Latent register upsets (R42, R45) -/

/-- Whether an uncorrectable upset waits at a target. -/
def State.upsetAt (s : State) (t : UpsetTarget) : Bool := s.mem.upsets.any fun u => u.target = t && u.multi

/-- A write of a register replaces what an upset had left there. -/
def State.clearUpset (s : State) (t : UpsetTarget) : State :=
  if s.mem.upsets.isEmpty then s
  else { s with mem := { s.mem with upsets := s.mem.upsets.filter fun u => u.target ≠ t } }

/-- The lane registers of a hart, by register and lane, that hold an uncorrectable error. -/
def State.laneUpsets (s : State) (hid : Nat) : List (Nat × Nat) :=
  s.mem.upsets.filterMap fun u => match u.target with
    | .laneReg h r l => if h = hid && u.multi then some (r, l) else none
    | _ => none

/-- The lane registers of a hart take values of which those listed hold an uncorrectable error. -/
def State.putLaneUpsets (s : State) (hid : Nat) (xs : List (Nat × Nat)) : State :=
  if s.mem.upsets.isEmpty && xs.isEmpty then s
  else
    let rest := s.mem.upsets.filter fun u => match u.target with | .laneReg h _ _ => h ≠ hid | _ => true
    { s with mem := { s.mem with upsets := rest ++ xs.map fun p => ⟨.laneReg hid p.1 p.2, true⟩ } }

/-- Writes a scalar register of a hart. -/
def State.setS (s : State) (hid : Nat) (r : SReg) (x : TV) : State :=
  (s.modHart hid (·.setS r x)).clearUpset (.scalarReg hid r.toNat)

/-- The six registers of the record window, in order. -/
def windowRegs : List SReg := [56, 57, 58, 59, 60, 61]

/-- The number under which a latent upset of a hidden slot stands: 64 to 69. -/
def hiddenSlot (r : SReg) : Nat := r.toNat + 8

/-- A scalar register takes the result of an access issued as operation `op`. While a handler runs, the program's s56 to s61 are
in the hidden slots: an access issued before the handler was entered writes there (R359). -/
def State.returnS (s : State) (hid op : Nat) (r : SReg) (x : TV) : State :=
  match (s.hart? hid).bind (·.trapped) with
  | some t =>
    if op < t.since && windowRegs.contains r then
      (s.modHart hid fun h => { h with trapped := some { t with saved := t.saved.set (r.toNat - 56) x } }).clearUpset
        (.scalarReg hid (hiddenSlot r))
    else s.setS hid r x
  | none => s.setS hid r x

/-- Latent upsets follow the registers that an entry exchanges into the hidden slots, and that `rte` exchanges back
(R359, R360). -/
def State.moveUpsets (s : State) (hid : Nat) (src dst : SReg → Nat) : State :=
  if s.mem.upsets.isEmpty then s
  else
    let reg (f : SReg → Nat) (u : Upset) : Option SReg := windowRegs.find? fun r => u.target = .scalarReg hid (f r)
    { s with mem := { s.mem with upsets := s.mem.upsets.filterMap fun u =>
        match (reg src u, reg dst u) with
        | (some r, _) => some { u with target := .scalarReg hid (dst r) }
        | (none, some _) => none
        | (none, none) => some u } }

/-- The S-stream moves on to the next word (R131). -/
def State.nextPc (s : State) (hid : Nat) : State := s.modHart hid fun h => { h with pc := h.pc + 4 }

end Sys2Proof.Machine
end

