-- ==== Sys2Proof/Machine/Mem.lean ====
section
/-! DEFINITION. Physical memory with its metadata and check code, the die stores, the L1s and the cluster store:
every change a store makes to a sector (R46 to R66, R432). -/

namespace Sys2Proof.Machine

/-! ### Physical bytes -/

/-- One byte of physical memory, the metadata region included. -/
def byteAt (m : List Host.Cell) (a : Nat) : Byte := SMapOps.get memDefault m a

/-- Writes one byte, keeping the canonical form. -/
def setByte (m : List Host.Cell) (a : Nat) (b : Byte) : List Host.Cell := SMapOps.set memDefault m a b

/-- Writes a run of bytes. -/
def setBytes (m : List Host.Cell) (a : Nat) : List Byte → List Host.Cell
  | [] => m
  | b :: bs => setBytes (setByte m a b) (a + 1) bs

/-- The number held by the `n` bytes at an address, lowest first: one pass over the list, unlisted bytes being
zero. -/
def bytesNum (m : List Host.Cell) (a n : Nat) : Nat :=
  m.foldl (fun acc p => if a ≤ p.1 ∧ p.1 < a + n then acc ||| p.2.toNat <<< (8 * (p.1 - a)) else acc) 0

/-- The sector that holds a byte. -/
def sectorOf (a : Nat) : Nat := a / 128

/-- The metadata word's address (R51). -/
def metaAddr (sec : Nat) : Nat := Config.metaBase + 4 * sec

/-- The home die of a sector of usable GDDR (R50). -/
def homeDie (sec : Nat) : Nat := (sec / 32) % 48 % 4

/-! ### The check code (R432) -/

/-- XOR of `2049 + n` over the set bits `n` below a bound. -/
def eccSum (x : Nat) : Nat → Nat
  | 0 => 0
  | n + 1 => (if x.testBit n then 2049 + n else 0) ^^^ eccSum x n

/-- The 1,026 protected bits: data, then P, then X. -/
def protectedBits (data : SectorData) (p x : Bool) : Nat :=
  data.toNat + (if p then 2 ^ 1024 else 0) + (if x then 2 ^ 1025 else 0)

/-- The check code of a sector (R432). -/
def eccOf (data : SectorData) (p x : Bool) : Nat :=
  let b := protectedBits data p x
  if b = 0 then 0
  else
    let s := eccSum b 1026
    let e := (popBelow b 1026 + popBelow s 12) % 2
    e * 0xF000 + s % 2 ^ 12

/-- How a GDDR read comes out (R432). -/
inductive EccResult where
  | consistent
  | corrected (data : SectorData) (p x : Bool)
  | uncorrectable
deriving DecidableEq, Repr

/-- Classifies stored bits: consistent, one bit away from a consistent set, or neither (R432). -/
def eccCheck (data : SectorData) (p x : Bool) (ecc : Nat) : EccResult :=
  let own := eccOf data p x
  if own = ecc then .consistent
  else if popBelow (own ^^^ ecc) 16 = 1 then .corrected data p x
  else
    let d := (own ^^^ ecc) % 2 ^ 12
    if 2049 ≤ d ∧ d ≤ 3074 then
      let n := d - 2049
      let data' := if n < 1024 then data ^^^ BitVec.ofNat 1024 (2 ^ n) else data
      let p' := if n = 1024 then !p else p
      let x' := if n = 1025 then !x else x
      if eccOf data' p' x' = ecc then .corrected data' p' x' else .uncorrectable
    else .uncorrectable

/-! ### Error counts (R364) -/

/-- Adds one to a saturating field of a word. -/
def bumpField (v : Word) (lo w : Nat) : Word := if bits v lo w = 2 ^ w - 1 then v else v + at' lo 1

/-- Counts an event of a die: the field at `lo`, `w` bits wide. DEDUCED (log 76). -/
def State.countErr (s : State) (die lo w : Nat) : State :=
  { s with mod := { s.mod with
      errcnt := SMapOps.set 0 s.mod.errcnt die (bumpField (SMapOps.get 0 s.mod.errcnt die) lo w) } }

def State.countCE (s : State) (die : Nat) : State := s.countErr die 48 16
def State.countUE (s : State) (die : Nat) : State := s.countErr die 32 16
def State.countRetry (s : State) (die : Nat) : State := s.countErr die 16 16
def State.countQuar (s : State) (die : Nat) : State := s.countErr die 8 8

/-! ### Die stores (R53, R54) -/

def State.setMem (s : State) (m : List Host.Cell) : State := { s with mem := { s.mem with mem := m } }
def State.dsGet (s : State) (sec : Nat) : Option DsSector := SMapOps.get none s.mem.ds sec
def State.dsSet (s : State) (sec : Nat) (d : Option DsSector) : State :=
  { s with mem := { s.mem with ds := SMapOps.set none s.mem.ds sec d } }

/-- A sector as GDDR holds it, with its stored metadata word. DEDUCED (log 3). -/
def gddrData (m : List Host.Cell) (sec : Nat) : SectorData := BitVec.ofNat 1024 (bytesNum m (128 * sec) 128)
def gddrMeta (m : List Host.Cell) (sec : Nat) : Nat := bytesNum m (metaAddr sec) 4

/-- Reads a sector from GDDR: the sector as the die store takes it, and whether it was corrected or
uncorrectable (R54, R66, R432). DESIGN CHOICE (log 15). -/
def gddrRead (m : List Host.Cell) (sec : Nat) : DsSector × EccResult :=
  let data := gddrData m sec
  let w := gddrMeta m sec
  let p := w.testBit 16
  let x := w.testBit 17
  match eccCheck data p x (w % 2 ^ 16) with
  | .consistent => (⟨false, data, p, x⟩, .consistent)
  | .corrected d p' x' => (⟨true, d, p', x'⟩, .corrected d p' x')
  | .uncorrectable => (⟨true, 0, p || Config.pBitLost sec, true⟩, .uncorrectable)

/-- A sector write applied to a tuple (R47). -/
def applyWrite (d : DsSector) (w : SWrite) : DsSector :=
  { dirty := true, data := mergeBytes w.mask d.data w.data, p := w.s || (d.p && !w.fc), x := w.x || (d.x && !w.fc) }

/-- Writes a sector to GDDR: data, P, X and a fresh code, in one write (R54). -/
def gddrWrite (m : List Host.Cell) (sec : Nat) (data : SectorData) (p x : Bool) : List Host.Cell :=
  let w := eccOf data p x + (if p then 2 ^ 16 else 0) + (if x then 2 ^ 17 else 0)
  setBytes (setBytes m (128 * sec) (toBytes 128 data.toNat)) (metaAddr sec) (toBytes 4 w)

/-- Evicts a sector from its die store; a dirty one is written to GDDR (R54). -/
def State.homeEvict (s : State) (sec : Nat) : State :=
  match s.dsGet sec with
  | some d =>
    let s1 := if d.dirty then s.setMem (gddrWrite s.mem.mem sec d.data d.p d.x) else s
    s1.dsSet sec none
  | none => s

/-- The other lines of a sector's die store (R40). -/
def State.dieLines (s : State) (sec : Nat) : List Nat :=
  ((s.mem.ds.map fun p => p.1 / 4).eraseDups).filter fun n => n ≠ sec / 4 && homeDie (4 * n) = homeDie sec

/-- The line that a sector's installation displaces: one of its set when all sixteen ways are taken, else one of its die
when the part R55 leaves for caching is full (R40, R55). DESIGN CHOICE (log 5). -/
def State.dieVictim (s : State) (sec : Nat) : Option Nat :=
  if s.mem.ds.length < Config.ways then none
  else
    let lines := s.dieLines sec
    let own := lines.filter fun n => Config.dieSet n % Config.dieSets = Config.dieSet (sec / 4) % Config.dieSets
    if Config.ways ≤ own.length then own.head?
    else if Config.ways * Config.dieSets - Config.reservedLines (homeDie sec) ≤ lines.length then lines.head?
    else none

/-- Makes room for a sector in its die store. DESIGN CHOICE (log 5). -/
def State.homeRoom (s : State) (sec : Nat) : State :=
  match s.dieVictim sec with
  | some n => [4 * n, 4 * n + 1, 4 * n + 2, 4 * n + 3].foldl State.homeEvict s
  | none => s

/-- A read at the home die store, which installs an absent sector (HOME_SECTOR_READ, R54). DESIGN CHOICE (log 15). -/
def State.homeRead (s : State) (sec : Nat) : State × DsSector :=
  match s.dsGet sec with
  | some d => (s, d)
  | none =>
    let s0 := s.homeRoom sec
    let r := gddrRead s0.mem.mem sec
    let s1 := s0.dsSet sec (some r.1)
    match r.2 with
    | .consistent => (s1, r.1)
    | .corrected .. => (s1.countCE (homeDie sec), r.1)
    | .uncorrectable => (s1.countUE (homeDie sec), r.1)

/-- A write at the home die store; a write of the whole sector needs no read (HOME_SECTOR_WRITE, R54). A write-back of
FC = 1 whose mask is partial still does: R47 leaves the other bytes unchanged. -/
def State.homeWrite (s : State) (w : SWrite) : State :=
  if w.fc && w.mask = BitVec.allOnes 128 && (s.dsGet w.sector).isNone then
    (s.homeRoom w.sector).dsSet w.sector (some (applyWrite ⟨true, 0, false, false⟩ w))
  else
    let r := s.homeRead w.sector
    r.1.dsSet w.sector (some (applyWrite r.2 w))

/-- Changes a sector's data at its home, its P and X staying: a hardware update of A or D (R21). -/
def State.homeUpdate (s : State) (sec : Nat) (f : SectorData → SectorData) : State :=
  let r := s.homeRead sec
  r.1.dsSet sec (some { r.2 with data := f r.2.data, dirty := true })

/-- A privileged write of a metadata word: the die store writes back and drops its copy first (R52). The bits
above X are written as given only when zero. -/
def State.metaWrite (s : State) (sec : Nat) (w : Nat) : State :=
  let s1 := s.homeEvict sec
  s1.setMem (setBytes s1.mem.mem (metaAddr sec) (toBytes 4 w))

/-! ### L1 (R56 to R60) -/

def l1Key (core sec : Nat) : Nat := core * 2 ^ 45 + sec
def State.l1Get (s : State) (core sec : Nat) : Option L1Sector := SMapOps.get none s.mem.l1 (l1Key core sec)
def State.l1Set (s : State) (core sec : Nat) (x : Option L1Sector) : State :=
  { s with mem := { s.mem with l1 := SMapOps.set none s.mem.l1 (l1Key core sec) x } }
def State.cgOf (s : State) (core : Nat) : BitVec 8 := SMapOps.get 0 s.mem.cg core
def State.hzOf (s : State) (core : Nat) : BitVec 8 := SMapOps.get 0 s.mem.hz core

/-- The P and X a load sees (R56). -/
def L1Sector.effP (l : L1Sector) : Bool := l.pd || (l.pf && !l.fc)
def L1Sector.effX (l : L1Sector) : Bool := l.xd || (l.xf && !l.fc)

/-- A sector not allocated: state I. -/
def L1Sector.empty : L1Sector := ⟨false, 0, 0, false, false, false, false, false, 0⟩

/-- The fill of a sector from its home: clean bytes, PF, XF and GEN are replaced; dirty bytes stay (R57, R58). -/
def L1Sector.fill (l : L1Sector) (data : SectorData) (p x : Bool) (gen : BitVec 8) : L1Sector :=
  { l with filled := true, data := mergeBytes l.dirty data l.data, pf := p, xf := x, gen := gen }

/-- A plain store's sector write into L1: allocated without a fill (R57). A sector that is clean takes the
dirty fields afresh. -/
def L1Sector.store (l : L1Sector) (w : SWrite) : L1Sector :=
  { l with dirty := l.dirty ||| w.mask, data := mergeBytes w.mask l.data w.data, fc := l.fc || w.fc,
           pd := w.s || (l.pd && !w.fc), xd := w.x || (l.xd && !w.fc) }

/-- A write-through's update of an allocated copy (R60): DIRTY does not change. -/
def L1Sector.through (l : L1Sector) (w : SWrite) : L1Sector :=
  let l1 := { l with data := mergeBytes w.mask l.data w.data }
  if l.dirty = 0 then
    { l1 with pf := w.s || (l.pf && !w.fc), xf := w.x || (l.xf && !w.fc) }
  else
    { l1 with fc := l.fc || w.fc, pd := w.s || (l.pd && !w.fc), xd := w.x || (l.xd && !w.fc) }

/-- Whether a filled copy is stale (R58). -/
def State.stale (s : State) (core : Nat) (l : L1Sector) : Bool := decide (l.gen < s.hzOf core)

/-- Whether a plain load can be served from the core's copy. -/
def State.l1Hit (s : State) (core sec : Nat) : Bool :=
  match s.l1Get core sec with
  | some l => l.filled && !s.stale core l
  | none => false

/-- The sector write that a write-back sends (R59). -/
def L1Sector.writeBack (l : L1Sector) (sec : Nat) : SWrite := ⟨sec, l.dirty, l.data, l.pd, l.xd, l.fc⟩

/-- The copy after its write-back: state C, or gone (R59). -/
def L1Sector.cleaned (l : L1Sector) : L1Sector :=
  { l with dirty := 0, fc := false, pf := l.effP, xf := l.effX, pd := false, xd := false }

/-! ### Flights and network windows -/

def State.flight? (s : State) (id : Nat) : Option Flight := SMapOps.get none s.mem.flights id
def State.setFlight (s : State) (id : Nat) (f : Option Flight) : State :=
  { s with mem := { s.mem with flights := SMapOps.set none s.mem.flights id f } }

/-- Puts an access in flight under a new number. -/
def State.launch (s : State) (f : Flight) : State :=
  let r := s.fresh
  r.2.setFlight r.1 (some f)

/-- P crosses the link only through a proposal window (R65, R391). -/
def State.netTag (s : State) (sec : Nat) (p : Bool) : Bool := p && s.winProp (128 * sec)

/-- Emits a write into a network window. DESIGN CHOICE (log 84). -/
def State.emitWrite (s : State) (w : SWrite) : State :=
  let r := s.remoteOf (128 * w.sector)
  s.emit (.netWrite r.1 { w with sector := sectorOf r.2 })

/-- What came back from a network window for a core's harts, and waits to be used, is asked again once the core writes the
sector: a load never returns bytes older than its core's own store (R73, F1). -/
def State.forgetAnswers (s : State) (core sec : Nat) : State :=
  { s with harts := s.harts.map fun p => (p.1, p.2.map fun h =>
      if h.core = core then
        { h with loads := h.loads.map fun q => { q with remote := q.remote.filter fun r => r.1 ≠ sec },
                 netFetch := h.netFetch.filter fun r => r.1 ≠ sec }
      else h) }

/-- Sends a write into a network window and puts it in flight until the transport reports it complete (R68).
Poison never crosses the link (R391). DESIGN CHOICE (log 35). -/
def State.sendWrite (s : State) (hart core op : Nat) (release : Bool) (w : SWrite) : State :=
  let w1 := { w with s := s.netTag w.sector w.s, x := false }
  ((s.forgetAnswers core w.sector).emitWrite w1).launch ⟨hart, core, op, 0, if release then .netRelease w1 else .netWrite w1⟩

/-- Asks the peer or host for bytes, and puts the ask in flight under a key (R238). DESIGN CHOICE (log 84). -/
def State.askBytes (s : State) (hart core op key addr len : Nat) : State :=
  (s.emit (.netRead (s.remoteOf addr).1 (s.remoteOf addr).2 len)).launch ⟨hart, core, op, op, .netLoad key⟩

/-- Asks for a sector. -/
def State.askSector (s : State) (hart core op sec : Nat) : State := s.askBytes hart core op sec (128 * sec) 128

/-- Whether an ask under a key is still unanswered for an operation. -/
def State.asked (s : State) (op key : Nat) : Bool :=
  s.mem.flights.any fun p => match p.2 with
    | some f => f.op = op && f.kind = .netLoad key
    | none => false

/-- Writes back one sector of a core, and keeps it clean or drops it (R59). A write-back into a network window
goes through the network interface. DESIGN CHOICE (log 35). -/
def State.writeBack (s : State) (core sec : Nat) (evict : Bool) : State :=
  match s.l1Get core sec with
  | none => s
  | some l =>
    let keep := l.filled && !evict
    let s1 := s.l1Set core sec (if keep then some l.cleaned else none)
    if l.dirty = 0 then s1
    else if isNet (128 * sec) then (if l.xd then s1 else s1.sendWrite 0 core 0 false (l.writeBack sec))
    else s1.homeWrite (l.writeBack sec)

/-- The sectors a core's L1 holds. -/
def State.l1Sectors (s : State) (core : Nat) : List Nat :=
  (s.mem.l1.filter fun p => p.1 / 2 ^ 45 = core).map fun p => p.1 % 2 ^ 45

/-- The sectors of a core that hold dirty bytes. -/
def State.dirtySectors (s : State) (core : Nat) : List Nat :=
  (s.l1Sectors core).filter fun sec => match s.l1Get core sec with
    | some l => l.dirty ≠ 0
    | none => false

/-- Before the fill generation would pass 255: every C sector becomes I and every D sector W, and both counts
return to zero (R58). -/
def State.genWrap (s : State) (core : Nat) : State :=
  let s1 := (s.l1Sectors core).foldl (fun s sec => match s.l1Get core sec with
    | some l => s.l1Set core sec (if l.dirty = 0 then none else some { l with filled := false, pf := false, xf := false, gen := 0 })
    | none => s) s
  { s1 with mem := { s1.mem with cg := SMapOps.set 0 s1.mem.cg core 0, hz := SMapOps.set 0 s1.mem.hz core 0 } }

/-- The observer letters of R76: k is bit 0, y 1, m 2, p 3, h 4. -/
def obsK (o : BitVec 5) : Bool := o.getLsbD 0
def obsY (o : BitVec 5) : Bool := o.getLsbD 1
def obsM (o : BitVec 5) : Bool := o.getLsbD 2
def obsP (o : BitVec 5) : Bool := o.getLsbD 3
def obsH (o : BitVec 5) : Bool := o.getLsbD 4
def obsGlobal (o : BitVec 5) : Bool := obsK o || obsY o || obsP o || obsH o
def letterK : BitVec 5 := 1
def letterM : BitVec 5 := 4
def letterKYM : BitVec 5 := 7

/-- The fill-generation step of an acquire (R58, R79). -/
def State.acquireGen (s : State) (core : Nat) (o : BitVec 5) : State :=
  if !obsGlobal o then s
  else if s.cgOf core = 255 then s.genWrap core
  else
    let g := s.cgOf core + 1
    { s with mem := { s.mem with cg := SMapOps.set 0 s.mem.cg core g, hz := SMapOps.set 0 s.mem.hz core g } }

/-! ### Cluster store (R62 to R64) -/

/-- Data of a granule of a unit's reservation. -/
def Gang.granule (g : Gang) (n : Nat) : SectorData :=
  BitVec.ofNat 1024 (g.cbytes.foldl (fun acc p =>
    if 128 * n ≤ p.1 ∧ p.1 < 128 * n + 128 then acc ||| p.2.toNat <<< (8 * (p.1 - 128 * n)) else acc) 0)

def Gang.granuleTags (g : Gang) (n : Nat) : Bool × Bool := SMapOps.get (false, false) g.ctags n

/-- The bytes of a sector write, ascending. -/
def maskedBytes (m : ByteMask) (d : SectorData) : List (Nat × Byte) :=
  ((List.range 128).filter fun i => m.getLsbD i).map fun i => (i, d.extractLsb' (8 * i) 8)

/-- A sector write performed at its slice (R47, R62). -/
def Gang.clusterWrite (g : Gang) (w : SWrite) : Gang :=
  let bytes := (maskedBytes w.mask w.data).map fun p => (128 * w.sector + p.1, p.2)
  let t := g.granuleTags w.sector
  { g with cbytes := SMapOps.setMany 0 g.cbytes bytes,
           ctags := SMapOps.set (false, false) g.ctags w.sector (w.s || (t.1 && !w.fc), w.x || (t.2 && !w.fc)) }

/-- Bytes of a unit's reservation (R9). -/
def Gang.csize (g : Gang) : Nat := 128 * g.granules

/-! ### Views -/

/-- What a sector shows a reader. -/
structure View where
  data : SectorData
  p : Bool
  x : Bool
deriving DecidableEq, Repr

def DsSector.view (d : DsSector) : View := ⟨d.data, d.p, d.x⟩
def L1Sector.view (l : L1Sector) : View := ⟨l.data, l.effP, l.effX⟩

/-- A home's sector with the core's dirty bytes merged over it, as if filled now (R60). -/
def State.mergeDirty (s : State) (core sec : Nat) (v : View) : View :=
  match s.l1Get core sec with
  | some l => (l.fill v.data v.p v.x 0).view
  | none => v

/-- Applies queued sector writes over a view (R237). -/
def View.covered (v : View) (w : SWrite) : View :=
  (applyWrite ⟨true, v.data, v.p, v.x⟩ w).view

/-- A plain load's view through L1, filling from the home where it must (R57, R58). DEDUCED (log 83). -/
def State.l1View (s : State) (core sec : Nat) : State × View :=
  if s.l1Hit core sec then
    match s.l1Get core sec with
    | some l => (s, l.view)
    | none => (s, ⟨0, false, false⟩)
  else
    let r := s.homeRead sec
    let old := (r.1.l1Get core sec).getD L1Sector.empty
    let l := old.fill r.2.data r.2.p r.2.x (r.1.cgOf core)
    (r.1.l1Set core sec (some l), l.view)

/-- The view at the point of performance with the core's dirty bytes merged (R60, R79). -/
def State.pointView (s : State) (core sec : Nat) : State × View :=
  let r := s.homeRead sec
  (r.1, r.1.mergeDirty core sec r.2.view)

end Sys2Proof.Machine
end

