-- ==== Sys2Proof/Machine/Xlate.lean ====
section
/-! DEFINITION. Translation: the page table, the walk and its caches, the checks of an access, the A and D
updates, and fault records (R8, R12 to R39). -/

namespace Sys2Proof.Machine

/-! ### Causes, kinds and classes -/

/-- Trap classes (R357). -/
inductive TrapClass where
  | illegal | illegalLane | tag | nonConvergence | missedPromise | register | manifest | coverRead | walker
  | role | timeRegression | timeOverflow | timeFormat | translation | access | address | scalarPoison | pipeline
  | divergence | ringMisuse | barrierMisuse | preemptTimeout | cancelled | codeGone | software | laneSoftware
  | wideOverflow | allDead
deriving DecidableEq, Repr

/-- Class codes (R357). -/
def TrapClass.code : TrapClass → Nat
  | .illegal => 0x01 | .illegalLane => 0x02 | .tag => 0x03 | .nonConvergence => 0x04 | .missedPromise => 0x05
  | .register => 0x06 | .manifest => 0x07 | .coverRead => 0x08 | .walker => 0x09 | .role => 0x0A
  | .timeRegression => 0x0B | .timeOverflow => 0x0C | .timeFormat => 0x0D | .translation => 0x0E | .access => 0x0F
  | .address => 0x10 | .scalarPoison => 0x11 | .pipeline => 0x12 | .divergence => 0x13 | .ringMisuse => 0x14
  | .barrierMisuse => 0x15 | .preemptTimeout => 0x16 | .cancelled => 0x17 | .codeGone => 0x18 | .software => 0x19
  | .laneSoftware => 0x1A | .wideOverflow => 0x1B | .allDead => 0x1C

/-- Whether the program's handler takes the class when it supplies one (R357). -/
def TrapClass.user : TrapClass → Bool
  | .illegal | .illegalLane | .tag | .nonConvergence | .missedPromise | .register | .role | .ringMisuse
  | .barrierMisuse | .software | .laneSoftware | .wideOverflow => true
  | _ => false

/-- Fault causes (R36). -/
inductive Cause where
  | notValid | rsvd | write | exec | hole | metaRegion | ctrl | walkPa | walkPsn | mtAtom | noRoot | canon | cRange
  | cBound | priv | csrz | allDead | cpyTag | cpyMap | cpyCtl
deriving DecidableEq, Repr

def Cause.code : Cause → Nat
  | .notValid => 0x01 | .rsvd => 0x02 | .write => 0x03 | .exec => 0x04 | .hole => 0x05 | .metaRegion => 0x06
  | .ctrl => 0x07 | .walkPa => 0x08 | .walkPsn => 0x09 | .mtAtom => 0x0A | .noRoot => 0x0B | .canon => 0x0C
  | .cRange => 0x0D | .cBound => 0x0E | .priv => 0x0F | .csrz => 0x10 | .allDead => 0x11 | .cpyTag => 0x12
  | .cpyMap => 0x13 | .cpyCtl => 0x14

/-- The trap class a cause raises (R36). -/
def Cause.trapClass : Cause → TrapClass
  | .notValid => .translation
  | .canon | .cRange => .address
  | .allDead => .allDead
  | _ => .access

/-- Kind codes (R37). -/
def kindCode : AccessKind → Nat
  | .scalarLoad => 0 | .scalarStore => 1 | .scalarAtomic => 2 | .sFetch => 3 | .laneFetch => 4 | .laneLoad => 5
  | .laneStore => 6 | .laneDirect => 7 | .laneAtomic => 8 | .copyRead => 9 | .copyWrite => 10
  | .matrixOperand => 11 | .walkerStore => 12 | .csrWrite => 13 | .tlbi => 14 | .allDead => 15

/-! ### Page-table entries (R17) -/

def pteV (e : Word) : Bool := bitOf e 0
def pteT (e : Word) : Bool := bitOf e 1
def pteW (e : Word) : Bool := bitOf e 2
def pteX (e : Word) : Bool := bitOf e 3
def pteG (e : Word) : Bool := bitOf e 4
def pteC (e : Word) : Bool := bitOf e 5
def pteA (e : Word) : Bool := bitOf e 6
def pteD (e : Word) : Bool := bitOf e 7
def pteMt (e : Word) : Nat := bits e 8 2
/-- The physical address of the frame an entry names. -/
def pteFrame (e : Word) : Nat := bits e 12 40 * 4096

def memTypeOf (n : Nat) : MemType := match n with | 0 => .normal | 1 => .streaming | _ => .device

/-- Whether a valid entry breaks a rule of R17 at its level (R18). -/
def pteBad (level : Nat) (e : Word) : Bool :=
  let reserved := bitOf e 63 || bits e 52 6 ≠ 0 || bits e 10 2 ≠ 0
  if pteT e then level = 0 || reserved || bits e 2 8 ≠ 0
  else
    decide (2 ≤ level) || reserved || pteMt e = 3 || (level = 1 && (pteC e || bits e 12 9 ≠ 0))

/-- The table index of an address at a level (R15, R16). -/
def vaIndex (va : Word) (level : Nat) : Nat := bits va (12 + 9 * level) 9

/-- The prefix of an address that selects the entry of a level. -/
def vaPrefix (va : Word) (level : Nat) : Nat := bits va (12 + 9 * level) (45 - 9 * level)

/-- Canonical addresses (R8). -/
def canonical (va : Word) : Bool := bits va 57 7 = (if bitOf va 56 then 127 else 0)

/-- Whether a physical address is usable GDDR (R11). -/
def isGddr (pa : Nat) : Bool := decide (pa < Config.usableEnd)
def isMeta (pa : Nat) : Bool := decide (Config.metaBase ≤ pa ∧ pa < Config.metaEnd)
def isCtl (pa : Nat) : Bool := decide (Config.ctlBase ≤ pa ∧ pa < Config.ctlEnd)

/-! ### Walks (R16 to R18, R25) -/

/-- The eight bytes at an address, as a die store serves them, with the sector's poison bit. -/
def State.tableRead (s : State) (a : Nat) : State × Word × Bool :=
  let r := s.homeRead (sectorOf a)
  (r.1, BitVec.ofNat 64 (sectorBytes r.2.data (a % 128) 8), r.2.x)

/-- How a walk ends: a leaf with its level and address, or the cause and the level at which it failed. -/
inductive Walked where
  | leaf (e : Word) (level : Nat) (addr : Nat)
  | failed (c : Cause) (level : Nat)
deriving DecidableEq, Repr

/-- Keeps at most `n` of a list, newest first. DESIGN CHOICE (log 5). -/
def newest {α : Type} (n : Nat) (x : α) (xs : List α) : List α := (x :: xs).take n

/-- Installs a walk-cache entry (R24, R25). DESIGN CHOICE (log 5). -/
def State.cacheWalk (s : State) (w : WalkEntry) : State :=
  let own := s.mem.walks.filter fun x => x.die = w.die
  let rest := s.mem.walks.filter fun x => x.die ≠ w.die
  { s with mem := { s.mem with walks := newest 1024 w (own.filter (· ≠ w)) ++ rest } }

/-- The walk from a level down: `fuel` levels are left. -/
def State.walkFrom (s : State) (die vf : Nat) (space : BitVec 16) (va : Word) : Nat → Nat → Nat → State × Walked
  | 0, level, _ => (s, .failed .rsvd level)
  | fuel + 1, level, base =>
    if !isGddr base then (s, .failed .walkPa (if level = 4 then 4 else level + 1))
    else
      let a := base + 8 * vaIndex va level
      let r := s.tableRead a
      let e := r.2.1
      if r.2.2 then (r.1, .failed .walkPsn level)
      else if !pteV e then (r.1, .failed .notValid level)
      else if pteBad level e then (r.1, .failed .rsvd level)
      else if pteT e then
        let s1 := if isGddr (pteFrame e) then
            r.1.cacheWalk ⟨die, vf, space, level, vaPrefix va level, pteFrame e⟩ else r.1
        s1.walkFrom die vf space va fuel (level - 1) (pteFrame e)
      else (r.1, .leaf e level a)

/-- The deepest cached table entry that matches an address: the level below it and its frame (R25). -/
def State.walkStart (s : State) (die vf : Nat) (space : BitVec 16) (va : Word) : Option (Nat × Nat) :=
  let hit (level : Nat) : Option (Nat × Nat) :=
    (s.mem.walks.find? fun w => w.die = die && w.vf = vf && w.space = space && w.level = level &&
      w.pre = vaPrefix va level).map fun w => (level - 1, w.frame)
  [1, 2, 3, 4].findSome? hit

/-- TSPACE of a VF (R14). -/
def State.space (s : State) (vf : Nat) : BitVec 16 := (s.vfRegs vf).tspace.extractLsb' 0 16

/-- A walk of an address for a VF, from the walk cache when `cached` (R25). DEDUCED (log 4). -/
def State.walk (s : State) (die vf : Nat) (va : Word) (cached : Bool) : State × Walked :=
  let root := (s.vfRegs vf).troot
  if !bitOf root 0 then (s, .failed .noRoot 15)
  else
    match (if cached then s.walkStart die vf (s.space vf) va else none) with
    | some (level, frame) => s.walkFrom die vf (s.space vf) va (level + 1) level frame
    | none => s.walkFrom die vf (s.space vf) va 5 4 (bits root 12 40 * 4096)

/-- Sets bit `i` of the entry at an address, in its home die store (R21). -/
def State.setPteBit (s : State) (a i : Nat) : State :=
  s.homeUpdate (sectorOf a) fun d => d ||| BitVec.ofNat 1024 (2 ^ (8 * (a % 128) + i))

/-- The A and D bits of an entry (R17). -/
def pteABit : Word := 0x40
def pteDBit : Word := 0x80

/-- The translation a leaf gives; 64 KiB where an L0 leaf has C (R26). The walk has set A in it (R21). -/
def tlbOf (site : TlbSite) (vf : Nat) (space : BitVec 16) (va : Word) (e : Word) (level a : Nat) : TlbEntry :=
  let log := if level = 1 then 21 else if pteC e then 16 else 12
  { site := site, vf := vf, space := if pteG e then none else some space, bitsLog := log,
    page := va.toNat % 2 ^ 57 / 2 ^ log, base := pteFrame e / 2 ^ log * 2 ^ log, w := pteW e, x := pteX e,
    mt := memTypeOf (pteMt e), d := pteD e, leaf := a, entry := e ||| pteABit }

/-- Whether an entry translates an address of a VF and space (R24). -/
def TlbEntry.hits (t : TlbEntry) (vf : Nat) (space : BitVec 16) (va : Word) : Bool :=
  t.vf = vf && (t.space = none || t.space = some space) && t.page = va.toNat % 2 ^ 57 / 2 ^ t.bitsLog

/-- The capacity of a TLB (R24). -/
def TlbSite.capacity : TlbSite → Nat
  | .core _ => 512
  | .die _ => 16384

/-- Installs a translation at its site (R25). DESIGN CHOICE (log 5). -/
def State.tlbInstall (s : State) (t : TlbEntry) : State :=
  let own := s.mem.tlb.filter fun x => x.site = t.site && (x.vf, x.space, x.bitsLog, x.page) ≠ (t.vf, t.space, t.bitsLog, t.page)
  let rest := s.mem.tlb.filter fun x => x.site ≠ t.site
  { s with mem := { s.mem with tlb := newest t.site.capacity t own ++ rest } }

/-- Drops every copy of a translation. -/
def State.tlbForget (s : State) (t : TlbEntry) : State :=
  { s with mem := { s.mem with tlb := s.mem.tlb.filter fun x => x.vf ≠ t.vf || x.leaf ≠ t.leaf || x.page ≠ t.page } }

/-- The sites an access looks at: its core's TLB, if it has one, then its die's (R24). -/
structure Site where
  core : Option Nat
  die : Nat
deriving DecidableEq, Repr

def Site.list (t : Site) : List TlbSite := (match t.core with | some c => [.core c] | none => []) ++ [.die t.die]

def Hart.site (h : Hart) : Site := ⟨some h.core, h.die⟩

/-- A cached translation of an address. -/
def State.tlbFind (s : State) (site : Site) (vf : Nat) (va : Word) : Option TlbEntry :=
  site.list.findSome? fun t => s.mem.tlb.find? fun x => x.site = t && x.hits vf (s.space vf) va

/-- Installs a walked leaf in every site of an access (R25). -/
def State.installLeaf (s : State) (site : Site) (vf : Nat) (va e : Word) (level a : Nat) : State :=
  site.list.foldl (fun s t => s.tlbInstall (tlbOf t vf (s.space vf) va e level a)) s

/-- How an address translates. -/
inductive Xlated where
  | ok (t : TlbEntry)
  | bad (c : Cause) (level : Nat)
deriving DecidableEq, Repr

/-- Walks an address, sets A (R21) and installs the translation (R25). -/
def State.miss (s : State) (site : Site) (vf : Nat) (va : Word) (cached : Bool) : State × Xlated :=
  let r := s.walk site.die vf va cached
  match r.2 with
  | .failed c level => (r.1, .bad c level)
  | .leaf e level a =>
    let s1 := if pteA e then r.1 else r.1.setPteBit a 6
    let s2 := s1.installLeaf site vf va e level a
    (s2, .ok (tlbOf (.die site.die) vf (s.space vf) va e level a))

/-- Translates an address: canonical check (R8), the root's enable, which a cached translation does not pass over (R14),
the TLBs, then a walk. DEDUCED (log 4). -/
def State.translate (s : State) (site : Site) (vf : Nat) (va : Word) : State × Xlated :=
  if !canonical va then (s, .bad .canon 15)
  else if !bitOf (s.vfRegs vf).troot 0 then (s, .bad .noRoot 15)
  else
    match s.tlbFind site vf va with
    | some t => (s, .ok t)
    | none => s.miss site vf va true

/-- The physical address under a translation. -/
def TlbEntry.pa (t : TlbEntry) (va : Word) : Nat := t.base + va.toNat % 2 ^ t.bitsLog

/-- What an access does through its translation. -/
structure Access where
  write : Bool
  exec : Bool
  atomic : Bool
deriving DecidableEq, Repr

def accRead : Access := ⟨false, false, false⟩
def accWrite : Access := ⟨true, false, false⟩
def accFetch : Access := ⟨false, true, false⟩
def accAtomic : Access := ⟨true, false, true⟩

/-- The frame check (R12, R390): an access from outside reaches no device and no peer (R389). -/
def State.frameCheck (s : State) (vf pa : Nat) (mt : MemType) (inbound : Bool) : Option Cause :=
  if isGddr pa then none
  else if isMeta pa then some .metaRegion
  else if isCtl pa then (if s.granted vf pa && mt = .device && !inbound then none else some .ctrl)
  else if isNet pa && s.winEn pa && !inbound then none
  else some .hole

/-- The checks of R19, in their order. -/
def State.leafCheck (s : State) (vf : Nat) (t : TlbEntry) (va : Word) (a : Access) (inbound : Bool) : Option Cause :=
  match s.frameCheck vf (t.pa va) t.mt inbound with
  | some c => some c
  | none =>
    if a.write && !t.w then some .write
    else if a.exec && !t.x then some .exec
    else if a.atomic && t.mt = .device then some .mtAtom
    else none

/-- The level of the leaf a translation was walked from (R35). -/
def TlbEntry.level (t : TlbEntry) : Nat := if t.bitsLog = 21 then 1 else 0

/-- Translates and checks an access. A permission failure reports the leaf's level, or 0xF when a cached translation was
used and no walk took place (R35). -/
def State.xlate (s : State) (site : Site) (vf : Nat) (va : Word) (a : Access) (inbound : Bool) : State × Xlated :=
  let cached := (s.tlbFind site vf va).isSome
  let r := s.translate site vf va
  match r.2 with
  | .bad c l => (r.1, .bad c l)
  | .ok t =>
    match r.1.leafCheck vf t va a inbound with
    | some c => (r.1, .bad c (if cached then 15 else t.level))
    | none => (r.1, .ok t)

/-- D is set in the leaf of a translation, and in every cached copy of it. -/
def State.setDirty (s : State) (t : TlbEntry) : State :=
  let s1 := s.setPteBit t.leaf 7
  { s1 with mem := { s1.mem with tlb := s1.mem.tlb.map fun x =>
    if x.vf = t.vf && x.leaf = t.leaf && x.page = t.page then { x with d := true, entry := x.entry ||| pteDBit } else x } }

/-- Before a write through a translation whose cached D is 0: the leaf is read again; if it still holds what the
walk read, D is set; if it has changed, the translation starts again from the top (R21). A poisoned entry is not used
(R13). A translation that a tag will stop is `bad`: through it nothing is written, and no D is set (R236, R253). -/
def State.markDirty (s : State) (site : Site) (vf : Nat) (va : Word) (a : Access) (inbound : Bool) (bad : TlbEntry → Bool)
    (t : TlbEntry) : State × Xlated :=
  if t.d || bad t then (s, .ok t)
  else
    let r := s.tableRead t.leaf
    if r.2.2 then (r.1, .bad .walkPsn t.level)
    else if r.2.1 = t.entry then (r.1.setDirty t, .ok { t with d := true })
    else
      let s1 := r.1.tlbForget t
      let r2 := s1.miss site vf va false
      match r2.2 with
      | .bad c l => (r2.1, .bad c l)
      | .ok t2 =>
        match r2.1.leafCheck vf t2 va a inbound with
        | some c => (r2.1, .bad c t2.level)
        | none =>
          if bad t2 then (r2.1, .ok t2)
          else (if t2.d then r2.1 else r2.1.setDirty t2, .ok { t2 with d := true })

/-- Translates, checks and, for a write that no tag will stop, sets D: the whole of one access that is not part of a lane
word. -/
def State.xlateUnless (s : State) (site : Site) (vf : Nat) (va : Word) (a : Access) (inbound : Bool) (bad : TlbEntry → Bool) :
    State × Xlated :=
  let r := s.xlate site vf va a inbound
  match r.2 with
  | .bad c l => (r.1, .bad c l)
  | .ok t => if a.write then r.1.markDirty site vf va a inbound bad t else (r.1, .ok t)

/-- The same of an access that no tag can stop. -/
def State.xlateFull (s : State) (site : Site) (vf : Nat) (va : Word) (a : Access) (inbound : Bool) : State × Xlated :=
  s.xlateUnless site vf va a inbound fun _ => false

/-! ### Invalidation (R30 to R34) -/

/-- Which cached translations a scope drops. -/
inductive InvScope where
  | va (va : Word)
  | space
  | vf
deriving DecidableEq, Repr

/-- Drops the cached translations and walk-cache entries of a scope from every core and die (R30). -/
def State.invalidate (s : State) (vf : Nat) (sc : InvScope) : State :=
  let sp := s.space vf
  let dropT (t : TlbEntry) : Bool := match sc with
    | .va va => t.hits vf sp va
    | .space => t.vf = vf && t.space = some sp
    | .vf => t.vf = vf
  let dropW (w : WalkEntry) : Bool := match sc with
    | .va va => w.vf = vf && w.space = sp && w.pre = vaPrefix va w.level
    | .space => w.vf = vf && w.space = sp
    | .vf => w.vf = vf
  { s with mem := { s.mem with tlb := s.mem.tlb.filter (fun t => !dropT t), walks := s.mem.walks.filter (fun w => !dropW w) } }

/-- A write of a VF's translation root applies to the accesses that follow it: no entry of the old root is used again
(R15). -/
def State.writeRoot (s : State) (vf : Nat) (v : Word) : State :=
  (s.setVfRegs vf { s.vfRegs vf with troot := v }).invalidate vf .vf

/-! ### Fault records (R35) -/

/-- Word +24 of a record: where the hart is, and its task. DEDUCED (log 53). -/
def State.placeWord (s : State) (h : Hart) : Word :=
  at' 48 (h.coreNo % 256) ||| at' 45 (h.part % 8) ||| at' 40 (h.berth % 32) |||
    BitVec.ofNat 64 (match s.unit? h.unit with | some g => g.task % 2 ^ 32 | none => 0)

/-- A fault record (R35). -/
def faultWords (addr : Word) (level cause : Nat) (lanes : Word32) (vf : Nat) (space : BitVec 16) (kind : Nat)
    (iaddr place : Word) : Words :=
  [at' 12 (bits addr 12 52) ||| at' 8 (level % 16) ||| BitVec.ofNat 64 (cause % 256),
   at' 32 lanes.toNat ||| at' 22 (vf % 1024) ||| at' 6 space.toNat ||| BitVec.ofNat 64 (kind % 64), iaddr, place]

/-- The die whose harbourmaster delivers a record: that of the task it names, else die 0. DEDUCED (log 80). -/
def State.recordDie (s : State) (vf : Nat) (w : Words) : Nat :=
  let x := w.getD 1 0
  match s.tcb? vf (if bits x 0 6 = 63 then bits x 32 32 else bits (w.getD 3 0) 0 32) with
  | some t => t.die
  | none => 0

/-- Sends a record to a VF's fault queue (R434); it is held during a take-over (R366). -/
def State.record (s : State) (vf : Nat) (w : Words) : State :=
  if s.harbourOk (s.recordDie vf w) then s.emit (.record vf w) else s.hold (s.recordDie vf w) (.record vf w)

/-- An event record (R434). -/
def State.eventRecord (s : State) (vf event task : Nat) (info data0 data1 : Word) : State :=
  s.record vf [info ||| BitVec.ofNat 64 event, at' 32 (task % 2 ^ 32) ||| at' 22 (vf % 1024) ||| 63, data0, data1]

/-- One failed lane of an access. -/
structure Failure where
  lane : Nat
  addr : Word
  cause : Cause
  level : Nat
deriving DecidableEq, Repr

/-- The distinct pairs of page and cause among failures, in order. -/
def failurePages : List Failure → List Failure
  | [] => []
  | f :: fs => f :: (failurePages fs).filter fun g => !(bits g.addr 12 52 = bits f.addr 12 52 && g.cause = f.cause)

/-- Writes one record for each distinct page and cause, at most 32 (R35, R38). A scalar or engine access has a
lane mask of zero. -/
def State.recordFailures (s : State) (vf : Nat) (fs : List Failure) (lanes : Bool) (kind : AccessKind) (iaddr place : Word) :
    State :=
  ((failurePages fs).take 32).foldl (fun s f =>
    let mask := if lanes then
        maskOf ((fs.filter fun g => bits g.addr 12 52 = bits f.addr 12 52 && g.cause = f.cause).map (·.lane)) else 0
    s.record vf (faultWords f.addr f.level f.cause.code mask vf (s.space vf) (kindCode kind) iaddr place)) s

/-- The failure whose class is highest, in the order address, access, translation (R38). -/
def worstFailure (fs : List Failure) : Option Failure :=
  match fs.find? (fun f => f.cause.trapClass = .address) with
  | some f => some f
  | none => match fs.find? (fun f => f.cause.trapClass ≠ .translation) with
    | some f => some f
    | none => fs.head?

end Sys2Proof.Machine
end

