-- ==== Sys2Proof/Machine/Ops.lean ====
section
/-! DEFINITION. Operations that many meanings share: closing a copy batch, ending and relaunching a task, reading
code and vector words, taking a trap, and losing lanes (R94, R124 to R126, R334, R357 to R362). -/

namespace Sys2Proof.Machine

/-! ### Copy batches (R94) -/

/-- Whether a copy batch of a hart still waits for a copy or for the other slices of one, or is open. -/
def State.batchBusy (s : State) (hid op : Nat) : Bool :=
  (s.copies.any fun p => match p.2 with | some c => c.batches.contains (hid, op) | none => false) ||
  (s.gangs.any fun p => match p.2 with
    | some g => g.gangCopies.any fun x => x.slices.any fun y => y.hart = hid && y.batch = op
    | none => false) ||
  (match s.hart? hid with | some h => h.batchOpen.map Prod.fst = some op | none => false)

/-- Completes a batch of a hart when it is closed and every copy of it has completed (R90). -/
def State.batchCheck (s : State) (hid op : Nat) : State := if s.batchBusy hid op then s else s.completeOp hid .cp op

/-- Closes the open batch of a hart, if it has one (R94). DEDUCED (log 24). -/
def State.closeBatch (s : State) (hid : Nat) : State :=
  match s.hart? hid with
  | some h => match h.batchOpen with
    | some b => (s.modHart hid fun h => { h with batchOpen := none }).batchCheck hid b.1
    | none => s
  | none => s

/-! ### Ending a task (R334, R337) -/

/-- The changes of a batch, positives first (R320). -/
def positivesFirst (cs : List Change) : List Change :=
  (cs.filter fun c => decide (0 < c.amount)) ++ cs.filter fun c => decide (c.amount < 0)

/-- Sends a batch to the aggregator from a die, in order, its positive changes first; an empty batch changes no count
(R320). DEDUCED (log 54). -/
def State.forward (s : State) (die : Nat) (b : Batch) : State :=
  if b.changes.isEmpty && b.msgs.isEmpty then s
  else { s with prog := { s.prog with dieQ := s.prog.dieQ ++ [(die, { b with changes := positivesFirst b.changes })] } }

/-- The number of a member in its unit: waves by gang and index, then crane threads. -/
def Hart.member (h : Hart) : Nat := if h.engine = .crane then 256 + h.index else 32 * h.gang + h.index

/-- A killed hart issues nothing more; its queued stores stay queued (R87). -/
def Hart.kill (h : Hart) : Hart :=
  { h with ended := some (h.ended.getD .killed), wait := none, loads := [], block := none, queue := [], walk := none,
           armed := [], laneTrap := none, trapped := none, batchOpen := none, suspendedFault := false }

/-- A killed hart takes no more results; one that has exited still takes those of its accesses (R87, R110). -/
def Hart.killed (h : Hart) : Bool := h.ended = some .killed

/-- Ends every member of a unit and releases it; its copies and tile operations go on (R113). -/
def State.killUnit (s : State) (u : Nat) : State :=
  (s.forEach (fun s id => s.modHart id Hart.kill) (s.unitHarts u)).modUnit u fun g =>
    { g with st := .released, gangCopies := [], preempt := none, roleMark := none }

/-- Ends every unit of a task. -/
def State.killTask (s : State) (vf task : Nat) : State := s.forEach State.killUnit (s.taskUnits vf task)

/-- The fault code of a class and cause (R357). -/
def faultCode (cls : TrapClass) (cause : Nat) : BitVec 16 := BitVec.ofNat 16 (cls.code * 256 + cause % 256)

/-- Whether a job is marked cancelled (R338). -/
def State.jobCancelled (s : State) (vf job : Nat) : Bool :=
  match s.job? vf job with | some j => j.cancelled | none => false

/-- The change that takes a task's own stamp away (R318). -/
def Tcb.minus (t : Tcb) : Change := ⟨t.node.toNat, t.time, -1⟩

/-- The batch of a task as its die forwards it (R320). DEDUCED (log 54). -/
def Tcb.batchOut (t : Tcb) (vf : Nat) (changes : List Change) : Batch := ⟨vf, t.job.toNat, changes, t.msgs, true, []⟩

/-- Whether some task of a job is RUNNING. -/
def State.jobRunning (s : State) (vf job : Nat) : Bool :=
  s.prog.tasks.any fun p => match p.2 with
    | some t => p.1 / 2 ^ 32 = vf && t.job.toNat = job && t.st = .running
    | none => false

/-- The holds of a cancelled job are dropped once no task of it is RUNNING (R338). DEDUCED (log 55). -/
def State.dropHolds (s : State) (vf job : Nat) : State :=
  match s.job? vf job with
  | some j =>
    if j.cancelled && !j.holds.isEmpty && !s.jobRunning vf job then
      (s.putJob vf job { j with holds := [] }).forward 0
        ⟨vf, job, j.holds.map fun x => ⟨x.loc, x.time, -x.count⟩, [], true, []⟩
    else s
  | none => s

/-- The task becomes FAULTED: its batch goes on without its own −1 (R334). In a cancelled job it is discarded at
once, with CANC and no successor release (R338). During a take-over all of it is held (R366). DEDUCED (log 87). -/
def State.faultTask (s : State) (vf task : Nat) (fcode : BitVec 16) : State :=
  match s.tcb? vf task with
  | none => s
  | some t =>
    if !s.harbourOk t.die then s.hold t.die (.fault vf task fcode)
    else if s.jobCancelled vf t.job.toNat then
      ((s.setTcb vf task none).forward t.die (t.batchOut vf (t.batch ++ [t.minus]))).dropHolds vf t.job.toNat
    else
      (s.putTcb vf task { t with st := .faulted, fcode := fcode, batch := [], spilt := 0, msgs := [] }).forward t.die (t.batchOut vf t.batch)

/-- Ends a task as a faulted task. -/
def State.endTask (s : State) (vf task : Nat) (cls : TrapClass) (cause : Nat) : State :=
  (s.killTask vf task).faultTask vf task (faultCode cls cause)

/-- Record word s57 (R359). -/
def Record.word57 (r : Record) : Word :=
  at' 48 r.detail.toNat ||| at' 40 r.cls.toNat ||| at' 39 r.lane.toNat ||| at' 38 r.lretry.toNat |||
    at' 37 r.wait.toNat ||| BitVec.ofNat 64 r.lanes.toNat

/-- The record window as entry loads it (R359). -/
def Record.window (r : Record) (rpc : Word) : List TV :=
  [⟨rpc, false⟩, ⟨r.word57, false⟩, ⟨r.faddr, false⟩, ⟨r.arg0, false⟩, ⟨r.arg1, false⟩, ⟨r.arg2, false⟩]

/-- The record of a trap whose handler runs, as it goes to the fault queue: one fault record (R35) of the trapping word, its
lanes and its place. No cause and no access kind of R36 and R37 names a trap of a User class: both are free, within what a
record may hold (R361, R434). DESIGN CHOICE (log 18). -/
def State.nestedWords (s : State) (h : Hart) (vf : Nat) (t : Handler) : Words :=
  let x := Config.nestedCode (t.record.cls.toNat * 2 ^ 16 + t.record.detail.toNat)
  faultWords t.record.faddr 15 (1 + x.1 % 0x14) t.record.lanes vf (s.space vf) (x.2 % 16) t.record.faddr (s.placeWord h)

/-- The record of the trap whose handler a hart runs, if it runs one, goes to the fault queue of its VF (R361). -/
def State.firstRecord (s : State) (hid : Nat) : State :=
  match s.hart? hid with
  | some h => match s.unit? h.unit, h.trapped with
    | some g, some t => s.record g.vf (s.nestedWords h g.vf t)
    | _, _ => s
  | none => s

/-- Ends the task of a hart. When one of its handlers runs, this is a nested trap: the first trap's record goes to the
fault queue too (R361). DEDUCED (log 81). -/
def State.endHartTask (s : State) (hid : Nat) (cls : TrapClass) (cause : Nat) : State :=
  match s.hart? hid with
  | some h => match s.unit? h.unit with
    | some g => (s.firstRecord hid).endTask g.vf g.task cls cause
    | none => s
  | none => s

/-- A relaunch count, one higher; it saturates (R333). -/
def relaunched (n : BitVec 16) : BitVec 16 := if n = 0xFFFF then n else n + 1

/-- A TCB ready to be placed from its ENTRY again; the lanes it has lost stay lost (R124, R334). DEDUCED (log 31). -/
def Tcb.ready (t : Tcb) : Tcb :=
  { t with st := .ready, batch := [], spilt := 0, msgs := [], placed := 0, units := 0, carries := [], data := none,
           waited := [] }

/-- A killed task is relaunched from its TCB without an answer (R357, Relaunch); during a take-over this is held (R366).
DEDUCED (log 31). -/
def State.relaunchTask (s : State) (vf task : Nat) (cause : Nat) : State :=
  match s.tcb? vf task with
  | none => s
  | some t =>
    if !s.harbourOk t.die then s.hold t.die (.relaunch vf task cause)
    else if s.jobCancelled vf t.job.toNat then s.faultTask vf task (faultCode .pipeline cause)
    else
      (s.putTcb vf task { t.ready with relaunch := relaunched t.relaunch, fcode := faultCode .pipeline cause }).forward
        t.die (t.batchOut vf t.batch)

/-- The harbourmaster kills a task and relaunches it. -/
def State.selfRelaunch (s : State) (vf task : Nat) (cause : Nat) : State := (s.killTask vf task).relaunchTask vf task cause

/-! ### Reading code and vector words -/

/-- What a read of a few bytes by a hart gives. -/
inductive Fetched where
  | ok (n : Nat)
  | fault (c : Cause) (level : Nat) (va : Word)
  | poison
  | wait
deriving DecidableEq, Repr

/-- Asks for a sector of a network window on behalf of a hart's own fetch, once. -/
def State.askFetch (s : State) (hid : Nat) (h : Hart) (sec : Nat) : State :=
  let f : Flight := ⟨hid, h.core, 0, 0, .netLoad sec⟩
  if s.mem.flights.any fun p => p.2 = some f then s else s.askSector hid h.core 0 sec

/-- Bytes of one sector, translated and checked, read as data at the point of performance with the core's dirty
bytes merged. A network window answers when its sector has come back. -/
def State.fetchPart (s : State) (hid : Nat) (h : Hart) (va : Word) (len : Nat) (a : Access) : State × Fetched :=
  let r := s.xlate h.site (s.hartVf h) va a false
  match r.2 with
  | .bad c l => (r.1, .fault c l va)
  | .ok t =>
    let pa := t.pa va
    let sec := sectorOf pa
    if isCtl pa then (r.1, .ok (r.1.ctlRead (pa - Config.ctlBase) len))
    else if isNet pa then
      match h.netFetch.find? fun p => p.1 = sec with
      | some p => (r.1, .ok (sectorBytes p.2.1 (pa % 128) len))
      | none => (r.1.askFetch hid h sec, .wait)
    else
      let v := r.1.pointView h.core sec
      if v.2.x && !a.exec then (v.1, .poison) else (v.1, .ok (sectorBytes v.2.data (pa % 128) len))

/-- Reads `len` bytes at an address, in one or two sectors (R131). -/
def State.fetchBytes (s : State) (hid : Nat) (h : Hart) (va : Word) (len : Nat) (a : Access) : State × Fetched :=
  let first := 128 - va.toNat % 128
  if len ≤ first then s.fetchPart hid h va len a
  else
    let r1 := s.fetchPart hid h va first a
    match r1.2 with
    | .ok n1 =>
      let r2 := r1.1.fetchPart hid h (va + BitVec.ofNat 64 first) (len - first) a
      match r2.2 with
      | .ok n2 => (r2.1, .ok (n1 + n2 * 2 ^ (8 * first)))
      | other => (r2.1, other)
    | other => (r1.1, other)

/-! ### Taking a trap (R357 to R361) -/

/-- The record of an S-stream trap. -/
def scalarRecord (cls : TrapClass) (detail : Nat) (faddr : Word) (a0 a1 a2 : Word) : Record :=
  ⟨BitVec.ofNat 8 cls.code, BitVec.ofNat 16 detail, false, false, false, 0, faddr, a0, a1, a2⟩

/-- The first address of the user vector table of a hart (R358). -/
def State.vectorBase (s : State) (h : Hart) : Word :=
  (match h.engine with
    | .wave => match s.hartTcb h with | some t => t.entry | none => h.start
    | .crane => h.start) - 256

/-- Writes scalar registers from a list. -/
def Hart.setSs (h : Hart) : List (SReg × TV) → Hart
  | [] => h
  | (r, x) :: rest => (h.setS r x).setSs rest

/-- Enters a handler: s56 to s61 go to the hidden slots, the record takes their place, and the pc goes to the
vector word (R358, R359). A wait the S-stream is in is kept for the return (R435). Operations from number `since` on are the
handler's. -/
def Hart.enter (h : Hart) (r : Record) (slot : Bool) (rpc vector : Word) (since : Nat) : Hart :=
  { h.setSs (windowRegs.zip (r.window rpc)) with
      trapped := some ⟨windowRegs.map h.getS, slot, r, rpc, h.wait, since⟩, wait := none, pc := vector, lastRecord := some r,
      netFetch := [], stallS := none }

/-- The trap class of a code. -/
def classNamed (n : BitVec 8) : TrapClass :=
  ([.illegal, .illegalLane, .tag, .nonConvergence, .missedPromise, .register, .role, .ringMisuse, .barrierMisuse,
    .software, .laneSoftware, .wideOverflow, .manifest, .coverRead, .walker, .timeRegression, .timeOverflow,
    .timeFormat, .translation, .access, .address, .scalarPoison, .pipeline, .divergence, .preemptTimeout,
    .cancelled, .codeGone] : List TrapClass).find? (fun c => c.code = n.toNat) |>.getD .allDead

/-- The vector word of a class, read as data (R358). -/
def State.vectorWord (s : State) (hid : Nat) (h : Hart) (code : Nat) : State × Fetched :=
  s.fetchBytes hid h (s.vectorBase h + BitVec.ofNat 64 (4 * code)) 4 accRead

/-- Ends the task of a hart on the fault of its vector-table read, with the record R35 asks for. -/
def State.vectorFault (s : State) (hid : Nat) (h : Hart) (c : Cause) (level : Nat) (va : Word) : State :=
  let vf := s.hartVf h
  (s.record vf (faultWords va level c.code 0 vf (s.space vf) 0 h.pc (s.placeWord h))).endHartTask hid c.trapClass c.code

/-- A pre-emption request whose save has not taken place is abandoned: stopped members go on (R356). -/
def State.abandonSave (s : State) (u : Nat) : State :=
  (s.forEach (fun s id => s.modHart id fun h => { h with safeMask := none }) (s.unitHarts u)).modUnit u fun g =>
    { g with preempt := none }

/-- A member that faults while its unit waits to be saved abandons the save; a software trap is no fault (R356).
DEDUCED (log 24). -/
def State.abandonFor (s : State) (h : Hart) (cls : TrapClass) : State :=
  if cls = .software || cls = .laneSoftware then s else s.abandonSave h.unit

/-- The handler of a trap class begins: the S-stream's open batch is closed, and a save under way is abandoned (R356). -/
def State.enterHandler (s : State) (hid : Nat) (h : Hart) (cls : TrapClass) (r : Record) (slot : Bool) (rpc : Word) : State :=
  (((s.abandonFor h cls).closeBatch hid).modHart hid fun h =>
    h.enter r slot rpc (s.vectorBase h + BitVec.ofNat 64 (4 * cls.code)) s.nextId).moveUpsets hid (·.toNat) hiddenSlot

/-- A trap of a User class: to the handler when the program supplies one, else the task ends (R357, R358).
A network-window table word that has not come back leaves everything as it was, and the trap is met again. -/
def State.userTrap (s : State) (hid : Nat) (h : Hart) (cls : TrapClass) (r : Record) (slot : Bool) (rpc : Word) : State :=
  let v := s.vectorWord hid h cls.code
  match v.2 with
  | .ok n =>
    if n = 0 then v.1.endHartTask hid cls (r.detail.toNat % 256)
    else v.1.enterHandler hid h cls r slot rpc
  | .fault c level va => v.1.vectorFault hid h c level va
  | .poison => v.1.endHartTask hid .scalarPoison 0
  | .wait => v.1

/-- A hart stopped by the cancelled trap; the task retires with CANC (R334, R338). -/
def State.cancelHart (s : State) (hid : Nat) (h : Hart) : State :=
  let s1 := match s.unit? h.unit with
    | some g => match s.tcb? g.vf g.task with
      | some t => s.putTcb g.vf g.task { t with canc := true }
      | none => s
    | none => s
  (s1.closeBatch hid).modHart hid fun h =>
    { h with ended := some .exited, wait := none, block := none, queue := [], armed := [], laneTrap := none,
             trapped := none, walk := none }

/-- Takes an S-stream trap at the word at the pc; `wait` says that this word is in a wait, which goes on after the return (R357
to R361, R435). DEDUCED (log 19). -/
def State.trapAs (s : State) (hid : Nat) (cls : TrapClass) (wait : Bool) (detail : Nat) (a0 a1 a2 : Word) (rpc : Word) :
    State :=
  match s.hart? hid with
  | none => s
  | some h =>
    let r := { scalarRecord cls detail h.pc a0 a1 a2 with wait := wait }
    match h.trapped with
    | some _ => s.endHartTask hid cls (detail % 256)
    | none =>
      if cls.user then s.userTrap hid h cls r false rpc
      else if cls = .cancelled then s.cancelHart hid h
      else if cls = .pipeline then (match s.unit? h.unit with
        | some g => s.selfRelaunch g.vf g.task detail
        | none => s)
      else (s.modHart hid fun h => { h with lastRecord := some r }).endHartTask hid cls (detail % 256)

/-- A trap of a word that has issued and is in no wait. -/
def State.trapWith (s : State) (hid : Nat) (cls : TrapClass) (detail : Nat) (a0 a1 a2 : Word) (rpc : Word) : State :=
  s.trapAs hid cls false detail a0 a1 a2 rpc

/-- An S-stream trap whose return is Retry, without arguments (R357). -/
def State.trap (s : State) (hid : Nat) (cls : TrapClass) (detail : Nat) : State :=
  s.trapWith hid cls detail 0 0 0 (match s.hart? hid with | some h => h.pc | none => 0)

/-- The trap of a word that fails decode or breaks a rule of its form (R145, R146). -/
def State.illegal (s : State) (hid : Nat) (e : DecodeError) : State := s.trap hid .illegal e.detail.toNat

/-- A tag fault of an S-stream word, cause 0 (R178, R357). -/
def State.tagTrap (s : State) (hid : Nat) : State := s.trap hid .tag 0

/-! ### Lane traps -/

/-- Whether the body of a `wloop` batch runs. -/
def Hart.walking (h : Hart) : Bool := h.walk.any (·.inBody)

/-- A batch of a `wloop` stops without committing anything; it starts again from the manifest's lanes (R290). -/
def Hart.abortBatch (h : Hart) : Hart :=
  { h.loads.foldl (fun h q => h.complete .ld q.op) { h with loads := [] } with
      block := none, older := [], walk := h.walk.map fun w => { w with inBody := false, stores := [] } }

/-- The record of a trap or fault met inside `wloop` saves the batch index and both counts so far (R290).
DESIGN CHOICE (log 94). -/
def Record.walked (r : Record) (h : Hart) : Record :=
  match h.walk with
  | some w => { r with arg0 := BitVec.ofNat 64 (w.batch - 1), arg1 := BitVec.ofNat 64 w.exe, arg2 := BitVec.ofNat 64 w.skp }
  | none => r

/-- A trap taken at a batch boundary of `wloop`, or at the instruction: it ends the task, whatever its class. The
record holds the `wloop` address, the batch index, the counts and the lanes (R289, R290); a manifest violation is of the
S-stream (R357). -/
def State.walkTrap (s : State) (hid : Nat) (cls : TrapClass) (cause : Nat) (lanes : Word32) : State :=
  (s.modHart hid fun h =>
    { h with lastRecord := some (Record.walked ⟨BitVec.ofNat 8 cls.code, BitVec.ofNat 16 cause, cls ≠ .manifest, false, false,
        lanes, h.pc, 0, 0, 0⟩ h) }).endHartTask hid cls (cause % 256)

/-- The record of a lane trap. -/
def laneRecord (cls : TrapClass) (detail : Nat) (retry : Bool) (lanes : Word32) (faddr a0 : Word) : Record :=
  ⟨BitVec.ofNat 8 cls.code, BitVec.ofNat 16 detail, true, retry, false, lanes, faddr, a0, 0, 0⟩

/-- A trap met by a lane slot: a User class freezes the lane queue until the S-stream's next boundary, and while the handler of
an S-stream trap runs until its `rte` (R359, DESIGN CHOICE (log 120)); any other ends the task (R357), a pipeline error only
while a trap handler runs (R361): else the unit is relaunched. -/
def State.laneTrap (s : State) (hid : Nat) (slot : Bool) (cls : TrapClass) (detail : Nat) (retry : Bool)
    (lanes : Word32) (a0 : Word) : State :=
  match s.hart? hid with
  | none => s
  | some h =>
    let r := laneRecord cls detail retry lanes (h.laneAddr slot) a0
    if h.walking then s.walkTrap hid cls detail lanes
    else if cls.user then s.modHart hid fun h => { h with frozen := true, laneTrap := some ⟨slot, r⟩ }
    else if cls = .pipeline && h.trapped.isNone then (match s.unit? h.unit with
      | some g => s.selfRelaunch g.vf g.task (detail % 256)
      | none => s)
    else (s.modHart hid fun h => { h with lastRecord := some r }).endHartTask hid cls (detail % 256)

/-- The slot moves on to its next lane word. -/
def Hart.laneNext (h : Hart) (slot : Bool) : Hart :=
  h.setSlot slot { h.slot slot with off := (h.slot slot).off + 1 }

def State.laneNext (s : State) (hid : Nat) (slot : Bool) : State := s.modHart hid (·.laneNext slot)

/-- Delivers a waiting lane trap at an S-stream boundary or in a wait (R359, LANE_TRAP_DELIVERY). -/
def State.deliverLaneTrap (s : State) (hid : Nat) (h : Hart) (t : LaneTrap) : State :=
  let cls := classNamed t.record.cls
  let r := { t.record with wait := h.wait.isSome }
  let v := s.vectorWord hid h cls.code
  match v.2 with
  | .ok n =>
    if n = 0 then v.1.endHartTask hid cls (r.detail.toNat % 256)
    else (v.1.enterHandler hid h cls r t.slot h.pc).modHart hid fun h => { h with laneTrap := none }
  | .fault c level va => v.1.vectorFault hid h c level va
  | .poison => v.1.endHartTask hid .scalarPoison 0
  | .wait => v.1

/-! ### Suspension (R39) -/

/-- A translation fault suspends the hart until the host answers; its record is kept. While a trap handler runs it is a nested
trap, on either stream (R361). DEDUCED (log 81). -/
def State.suspend (s : State) (hid : Nat) (r : Record) : State :=
  match s.hart? hid with
  | none => s
  | some h =>
    let stop : State :=
      (s.putHart hid { (if h.walking then h.abortBatch else h) with suspendedFault := true, lastRecord := some r }).abandonSave
        h.unit
    match h.trapped with
    | some _ => s.endHartTask hid .translation (r.detail.toNat % 256)
    | none => stop

/-! ### Lost lanes (R124, R126) -/

/-- Notes the lanes that a member of a task has lost: they stay lost when it is relaunched (R124). DEDUCED (log 31). -/
def State.noteDead (s : State) (h : Hart) (lanes : Word32) : State :=
  match s.unit? h.unit with
  | some g => match s.tcb? g.vf g.task with
    | some t => s.putTcb g.vf g.task { t with dead := t.dead ++ [(g.index, h.member, lanes)] }
    | none => s
  | none => s

/-- The lanes of a hart die: m0 loses them and ANYDEAD is set; when none is left the wave's task ends (R124 to
R127). `faddr` is the lane word that killed them, and `prior` the lanes it had killed before. A walker traps instead
(R289). DEDUCED (log 34, 87). -/
def State.loseLanes (s : State) (hid : Nat) (prior lanes : Word32) (faddr : Word) : State :=
  match s.hart? hid with
  | none => s
  | some h =>
    let hit := h.m0 &&& lanes
    if hit = 0 || h.killed then s
    else
      let m := h.getM 0
      let left := m.bits &&& ~~~hit
      let s1 := (s.modHart hid fun h =>
        { h.setM 0 { m with bits := left } with wstat := h.wstat ||| 2 }).noteDead h hit
      if h.walk.isSome then s1.walkTrap hid .walker 2 hit
      else if left ≠ 0 then s1
      else
        let vf := s.hartVf h
        (s1.record vf (faultWords faddr 15 Cause.allDead.code (prior ||| hit) vf (s.space vf) (kindCode .allDead) faddr
          (s.placeWord h))).endHartTask hid .allDead Cause.allDead.code

/-- The key in `Hart.kills` of the lane word at which a slot stands. -/
def wordKills (slot : Bool) : Nat := if slot then 1 else 0

/-- The key in `Hart.kills` of an operation that a lane word has issued. -/
def opKills (op : Nat) : Nat := op + 2

/-- Lanes that a word, or an operation of one, kills: after those it has already killed (R124, R126). -/
def State.killLanes (s : State) (hid key : Nat) (lanes : Word32) (faddr : Word) : State :=
  match s.hart? hid with
  | none => s
  | some h =>
    let hit := h.m0 &&& lanes
    if hit = 0 || h.killed then s
    else
      let prior := SMapOps.get 0 h.kills key
      (s.modHart hid fun h => { h with kills := SMapOps.set 0 h.kills key (prior ||| hit) }).loseLanes hid prior lanes faddr

/-- An operation that the acting slot's word issues knows the lanes which that word has killed so far (R126). -/
def State.heirOf (s : State) (op : Nat) (h : Hart) : Hart :=
  match s.cur with
  | .scalar _ => h
  | .lane _ slot =>
    let n := SMapOps.get 0 h.kills (wordKills slot)
    if n = 0 then h else { h with kills := SMapOps.set 0 h.kills (opKills op) n }

/-- The lanes a word or an operation has killed are forgotten once it is over. -/
def Hart.killsOver (h : Hart) (key : Nat) : Hart := { h with kills := SMapOps.set 0 h.kills key 0 }

end Sys2Proof.Machine
end

