-- ==== Sys2Proof/Machine/Access.lean ====
section
/-! DEFINITION. Memory accesses in order: the store queue and what leaves it, accesses in flight, atomics, loads,
releases and acquires (R47 to R49, R56 to R63, R67 to R87, R233 to R244). -/

namespace Sys2Proof.Machine

/-! ### Registers a memory access writes -/

/-- Writes one lane register of a hart. -/
def State.writeV (s : State) (hid r lane : Nat) (x : LV) : State :=
  (s.modHart hid fun h => h.setV r lane x).clearUpset (.laneReg hid r lane)

/-- Writes a lane value of 32 bits, or of 64 bits into a pair (R42). -/
def State.writeLane (s : State) (hid r lane : Nat) (wide : Bool) (n : Nat) (tag : Bool) : State :=
  if wide then
    ((s.modHart hid fun h => h.setV64 r lane ⟨BitVec.ofNat 64 n, tag⟩).clearUpset (.laneReg hid r lane)).clearUpset
      (.laneReg hid (r + 1) lane)
  else s.writeV hid r lane ⟨BitVec.ofNat 32 n, tag⟩

/-- Sets sticky status bits: bits 5:0 of FSTAT, and PROP with them when the result is a proposal (R163).
DEDUCED (log 42). -/
def Hart.orStat (h : Hart) (st : Stat) (prop : Bool) : Hart :=
  if st = 0 then h
  else { h with fstat := h.fstat ||| BitVec.ofNat 64 st.toNat ||| (if prop then 64 else 0) }

/-! ### Completing counted operations (R90, R92) -/

/-- What a hart has noted of an operation is forgotten once it is over. -/
def Hart.opOver (h : Hart) (op : Nat) : Hart :=
  { h.killsOver (opKills op) with floats := SMapOps.set (false, false) h.floats op (false, false) }

/-- Whether an st operation still has an entry in a store queue or an access in flight. -/
def State.opPending (s : State) (hid op : Nat) : Bool :=
  (s.mem.flights.any fun p => match p.2 with | some f => f.hart = hid && f.op = op | none => false) ||
  (match s.hart? hid with | some h => h.storeQ.any fun e => e.op = op | none => false)

/-- Completes an st operation, and the ld operation of an atomic with it, once nothing of it remains. -/
def State.opCheck (s : State) (hid op ld : Nat) : State :=
  if s.opPending hid op then s
  else ((s.modHart hid (·.opOver op)).completeOp hid .st op).completeOp hid .ld ld

/-! ### Atomics (R48, R193, R241, R242) -/

/-- The new value an atomic leaves, and its floating status (R193, R241). -/
def atomApply (op : AtomOp) (size old v new : Nat) : Nat × Stat :=
  let w := 8 * size
  let sgn (n : Nat) : Int := signedOf w n
  let t : Fmt := if size = 8 then fmtF64 else fmtF32
  match op with
  | .add => ((old + v) % 2 ^ w, 0)
  | .and => (old &&& v, 0)
  | .or => (old ||| v, 0)
  | .xor => (old ^^^ v, 0)
  | .smin => (if sgn v < sgn old then v else old, 0)
  | .smax => (if sgn old < sgn v then v else old, 0)
  | .umin => (if v < old then v else old, 0)
  | .umax => (if old < v then v else old, 0)
  | .swap => (v, 0)
  | .cas => (if old = v then new else old, 0)
  | .fadd rnd =>
    let r := FVal.add rnd (t.decode old) (t.decode v)
    let q := t.round rnd r.1
    (t.encode q.1, r.2 ||| q.2)
  | .fmin => (t.encode ((t.decode old).min (t.decode v)), 0)
  | .fmax => (t.encode ((t.decode old).max (t.decode v)), 0)

/-- A lane of a floating atomic returns: PROP is set once a lane of the word has raised a status and a lane of it has returned a
proposal (R163, R241). DEDUCED (log 106). -/
def Hart.orAtom (h : Hart) (op : Nat) (st : Stat) (tag : Bool) : Hart :=
  let was := SMapOps.get (false, false) h.floats op
  let raised := was.1 || st ≠ 0
  let prop := was.2 || tag
  { h with
      fstat := h.fstat ||| BitVec.ofNat 64 st.toNat ||| (if raised && prop then 64 else 0),
      floats := SMapOps.set (false, false) h.floats op (raised, prop) }

/-- Whether an atomic can raise floating status (R241). -/
def AtomOp.floats : AtomOp → Bool
  | .fadd _ | .fmin | .fmax => true
  | _ => false

/-- The status of a lane of an atomic reaches its hart. -/
def State.atomStatus (s : State) (hid op : Nat) (a : AtomOp) (st : Stat) (tag : Bool) : State :=
  if a.floats then s.modHart hid fun h => h.orAtom op st tag else s

/-- Hands an atomic's old value and tag back to its hart: a dead or ended one takes nothing (R48, R242). -/
def State.atomReturn (s : State) (hid op : Nat) (r : AtomReq) (old : Nat) (tag : Bool) (st : Stat) : State :=
  match s.hart? hid with
  | none => s
  | some h =>
    if h.killed then s
    else match r.lane with
      | none => s.returnS hid op (sreg r.dst) ⟨BitVec.ofNat 64 old, tag⟩
      | some l =>
        if h.m0.getLsbD l then
          (s.writeLane hid r.dst l (r.size = 8) old tag).atomStatus hid op r.op st tag
        else s

/-- A hart's access met poison: a lane dies, and a scalar access ends the task (R49, R124, R192). -/
def State.consumePoison (s : State) (hid op : Nat) (lane : Option Nat) (iaddr : Word) : State :=
  match lane with
  | some l => s.killLanes hid (opKills op) (1#32 <<< l) iaddr
  | none => match s.hart? hid with
    | some h =>
      if h.killed then s
      else (s.modHart hid fun h => { h with lastRecord := some (scalarRecord .scalarPoison 0 iaddr 0 0 0) }).endHartTask
        hid .scalarPoison 0
    | none => s

/-- Applies an atomic to a sector tuple (R48): the new tuple, the old value, its tag and the status. -/
def atomTuple (d : DsSector) (r : AtomReq) : DsSector × Nat × Bool × Stat :=
  let off := r.addr % 128
  let old := sectorBytes d.data off r.size
  let n := atomApply r.op r.size old r.v r.new
  let data := mergeBytes (byteRun off r.size) d.data (sectorPlace n.1 off r.size)
  (⟨true, data, d.p || r.opTag || r.s, d.x⟩, old, d.p || r.s, n.2)

/-- Performs one atomic at the home die store. -/
def State.atomHome (s : State) (hid op : Nat) (r : AtomReq) : State :=
  let q := s.homeRead (sectorOf r.addr)
  if q.2.x then q.1.consumePoison hid op r.lane r.iaddr
  else
    let t := atomTuple q.2 r
    (q.1.dsSet (sectorOf r.addr) (some t.1)).atomReturn hid op r t.2.1 t.2.2.1 t.2.2.2

/-- Performs one atomic at the slice of a granule. -/
def State.atomCluster (s : State) (hid op unit : Nat) (r : AtomReq) : State :=
  match s.unit? unit with
  | none => s
  | some g =>
    let n := sectorOf r.addr
    let tags := g.granuleTags n
    if tags.2 then s.consumePoison hid op r.lane r.iaddr
    else
      let t := atomTuple ⟨true, g.granule n, tags.1, tags.2⟩ r
      let w : SWrite := ⟨n, byteRun (r.addr % 128) r.size, t.1.data, t.1.p, false, false⟩
      (s.putUnit unit (g.clusterWrite w)).atomReturn hid op r t.2.1 t.2.2.1 t.2.2.2

/-! ### Accesses in flight -/

/-- The numbers of the accesses in flight that satisfy a test, oldest first. -/
def State.flightIds (s : State) (f : Flight → Bool) : List Nat :=
  (s.mem.flights.filter fun p => match p.2 with | some x => f x | none => false).map Prod.fst

/-- Whether an access in flight writes a sector of memory outside the cluster store. -/
def FlightKind.touches (k : FlightKind) (sec : Nat) : Bool :=
  match k with
  | .home w | .netWrite w | .netRelease w | .netDevice _ w => w.sector = sec
  | .atomics rs | .netAtomics _ rs => rs.any fun r => sectorOf r.addr = sec
  | _ => false

/-- Whether an access in flight writes a granule of a unit's reservation. -/
def FlightKind.touchesGranule (k : FlightKind) (unit gran : Nat) : Bool :=
  match k with
  | .posted u w => u = unit && w.sector = gran
  | .clusterAtomics u rs => u = unit && rs.any fun r => sectorOf r.addr = gran
  | _ => false

/-- Whether an access in flight awaits the transport. -/
def FlightKind.remote : FlightKind → Bool
  | .netWrite _ | .netRelease _ | .netDevice _ _ | .netAtomics _ _ => true
  | _ => false

/-- Whether an access in flight is a read that awaits the transport. -/
def FlightKind.asks : FlightKind → Bool
  | .netLoad _ => true
  | _ => false

/-- Whether an access in flight is a device store into a network window. -/
def FlightKind.device : FlightKind → Bool
  | .netDevice _ _ => true
  | _ => false

/-- Whether an access in flight writes the cluster store. -/
def FlightKind.cluster : FlightKind → Bool
  | .posted _ _ | .clusterAtomics _ _ => true
  | _ => false

/-- Whether an access in flight writes a unit's reservation. -/
def FlightKind.inUnit (k : FlightKind) (unit : Nat) : Bool :=
  match k with
  | .posted u _ | .clusterAtomics u _ => u = unit
  | _ => false

/-- Whether an access in flight is a posted write to a unit's granule in the slice of another: granules of one slice are
four apart (R62). -/
def FlightKind.postedTo (k : FlightKind) (unit gran : Nat) : Bool :=
  match k with
  | .posted u w => u = unit && w.sector % 4 = gran % 4
  | _ => false

/-- Performs a posted cluster-store write at its slice (POSTED_CLUSTER_WRITE, R63). -/
def State.performPosted (s : State) (id : Nat) : State :=
  match s.flight? id with
  | some ⟨hid, _, op, ld, .posted u w⟩ => ((s.setFlight id none).modUnit u fun g => g.clusterWrite w).opCheck hid op ld
  | _ => s

/-- Performs one lane of an atomic in flight, the one at an index of its list (ATOMIC_AT_HOME). -/
def State.performAtomic (s : State) (id index : Nat) : State :=
  match s.flight? id with
  | some ⟨hid, core, op, ld, .atomics rs⟩ =>
    match rs[index]? with
    | none => s
    | some r =>
      let rest := rs.eraseIdx index
      let s1 := s.setFlight id (if rest.isEmpty then none else some ⟨hid, core, op, ld, .atomics rest⟩)
      (s1.atomHome hid op r).opCheck hid op ld
  | some ⟨hid, core, op, ld, .clusterAtomics u rs⟩ =>
    match rs[index]? with
    | none => s
    | some r =>
      let rest := rs.eraseIdx index
      let s1 := s.setFlight id (if rest.isEmpty then none else some ⟨hid, core, op, ld, .clusterAtomics u rest⟩)
      (s1.atomCluster hid op u r).opCheck hid op ld
  | _ => s

/-- The position of the request with the least rank: the unspecified order of R71. DESIGN CHOICE (log 14). -/
def leastRank (n : Nat) : List AtomReq → Nat
  | [] => 0
  | r :: rs =>
    let rank (r : AtomReq) := Config.laneRank n (r.lane.getD 0)
    let k := leastRank n rs
    match rs[k]? with
    | none => 0
    | some q => if rank r ≤ rank q then 0 else k + 1

/-- Performs what is left of an atomic in flight: `fuel` lanes at most. DESIGN CHOICE (log 14). -/
def State.performAtomics (s : State) (id : Nat) : Nat → State
  | 0 => s
  | fuel + 1 =>
    match s.flight? id with
    | some ⟨_, _, _, _, .atomics rs⟩ | some ⟨_, _, _, _, .clusterAtomics _ rs⟩ =>
      (s.performAtomic id (leastRank id rs)).performAtomics id fuel
    | _ => s

/-- Performs a write at its home die store (HOME_SECTOR_WRITE). -/
def State.performHome (s : State) (id : Nat) : State :=
  match s.flight? id with
  | some ⟨hid, _, op, ld, .home w⟩ => ((s.setFlight id none).homeWrite w).opCheck hid op ld
  | _ => s

/-- Performs whatever an access in flight does on this module. -/
def State.performFlight (s : State) (id : Nat) : State :=
  match s.flight? id with
  | some ⟨_, _, _, _, .home _⟩ => s.performHome id
  | some ⟨_, _, _, _, .posted _ _⟩ => s.performPosted id
  | some ⟨_, _, _, _, .atomics _⟩ | some ⟨_, _, _, _, .clusterAtomics _ _⟩ => s.performAtomics id 32
  | _ => s

/-- Performs every write and atomic of a core in flight to a sector, in order: a load of that core that meets them
waits for them (R73). -/
def State.settleSector (s : State) (core sec : Nat) : State :=
  (s.flightIds fun f => f.core = core && f.kind.touches sec && !f.kind.remote).foldl State.performFlight s

/-- Performs the cluster accesses of a core to a unit's reservation numbered below a limit, in their order, which keeps
that of every wave at every slice (R63, R73). -/
def State.settleCluster (s : State) (core unit limit : Nat) : State :=
  ((s.flightIds fun f => f.core = core && f.kind.inUnit unit).filter (· < limit)).foldl State.performFlight s

/-- Performs an access in flight after those of its core that must be performed before it. -/
def State.performOrdered (s : State) (id : Nat) : State :=
  match s.flight? id with
  | some f => (match f.kind with
    | .home w => s.settleSector f.core w.sector
    | .posted u _ | .clusterAtomics u _ => s.settleCluster f.core u (id + 1)
    | _ => s.performFlight id)
  | none => s

/-- Performs what a hart's operation has in flight on this module. -/
def State.performOp (s : State) (hid op : Nat) : State :=
  (s.flightIds fun f => f.hart = hid && f.op = op).foldl State.performOrdered s

/-- A core's L1 evicts a sector: what it holds dirty goes to the home, after the writes already on their way there.
DESIGN CHOICE (log 5). -/
def State.l1Evict (s : State) (core sec : Nat) : State := (s.settleSector core sec).writeBack core sec true

/-- The line a sector's allocation displaces in its core's L1: one of its set when all sixteen ways are taken (R40).
DESIGN CHOICE (log 5). -/
def State.l1Victim (s : State) (core sec : Nat) : Option Nat :=
  if s.mem.l1.length < Config.ways then none
  else
    let own := (((s.l1Sectors core).map (· / 4)).eraseDups).filter fun n =>
      n ≠ sec / 4 && n % Config.l1Sets = sec / 4 % Config.l1Sets
    if Config.ways ≤ own.length then own.head? else none

/-- Makes room for a sector in a core's L1. DESIGN CHOICE (log 5). -/
def State.l1Room (s : State) (core sec : Nat) : State :=
  match s.l1Victim core sec with
  | some n => [4 * n, 4 * n + 1, 4 * n + 2, 4 * n + 3].foldl (fun s x => s.l1Evict core x) s
  | none => s

/-- Whether a write of a core into a sector of a network window has still to be reported complete. -/
def State.netBusy (s : State) (core sec : Nat) : Bool :=
  !(s.flightIds fun f => f.core = core && f.kind.touches sec && f.kind.remote).isEmpty

/-! ### What leaves a store queue (R73, R240) -/

/-- A plain store under MT = 00 enters L1 (R57). -/
def State.l1Store (s : State) (core : Nat) (w : SWrite) : State :=
  let s := s.l1Room core w.sector
  s.l1Set core w.sector (some (((s.l1Get core w.sector).getD L1Sector.empty).store w))

/-- A write-through updates an allocated copy (R60). -/
def State.l1Through (s : State) (core : Nat) (w : SWrite) : State :=
  match s.l1Get core w.sector with
  | some l => s.l1Set core w.sector (some (l.through w))
  | none => s

/-- A write-through goes to its home, or through the network interface (R60, R68). -/
def State.sendThrough (s : State) (hid core op : Nat) (release : Bool) (w : SWrite) : State :=
  let s1 := s.l1Through core w
  if isNet (128 * w.sector) then s1.sendWrite hid core op release w else s1.launch ⟨hid, core, op, 0, .home w⟩

/-- A sector write of `len` bytes at a physical address. -/
def smallWrite (a len n : Nat) : SWrite :=
  ⟨sectorOf a, byteRun (a % 128) len, sectorPlace n (a % 128) len, false, false, len = 128⟩

/-- One lane's device store: performed once, in its own size (R20, R84, R431). -/
def State.deviceStore (s : State) (hid : Nat) (h : Hart) (op : Nat) (release : Bool) (x : Nat × Nat × Nat) : State :=
  let a := x.1
  let w := smallWrite a x.2.1 x.2.2
  if isCtl a then
    (s.ctlWrite (.task (s.hartVf h) (s.privileged h)) (a - Config.ctlBase) x.2.1 (BitVec.ofNat 64 x.2.2)).1
  else if isNet a then (s.emitWrite w).launch ⟨hid, h.core, op, 0, .netDevice release w⟩
  else (s.settleSector h.core w.sector).homeWrite w

/-- Whether a device store of a hart into a network window has still to be reported complete. -/
def State.deviceFlying (s : State) (hid : Nat) : Bool :=
  !(s.flightIds fun f => f.hart = hid && f.kind.device).isEmpty

/-- The lanes of a device entry leave the queue in ascending order, up to the first that a peer must report complete; the
others stay at its head (R84). -/
def State.drainDevice (s : State) (hid : Nat) (h : Hart) (e : SqEntry) : State :=
  let n := (e.sized.takeWhile fun x => !isNet x.1).length + 1
  let s1 := (e.sized.take n).foldl (fun s x => s.deviceStore hid h e.op e.rel x) s
  let later := e.sized.drop n
  if later.isEmpty then s1 else s1.modHart hid fun h => { h with storeQ := { e with sized := later } :: h.storeQ }

/-- The sectors of atomic requests, each once. -/
def atomSectors (rs : List AtomReq) : List Nat := (rs.map fun r => sectorOf r.addr).eraseDups

/-- An atomic leaves the queue: the core writes back its dirty bytes of each sector first, and the sector becomes
I (R60). Requests into network windows are performed at the peer. -/
def State.launchAtomics (s : State) (hid core op ld : Nat) (release : Bool) (rs : List AtomReq) : State :=
  let s1 := (atomSectors rs).foldl (fun s sec => (s.settleSector core sec).writeBack core sec true) s
  let here := rs.filter fun r => !isNet r.addr
  let far := rs.filter fun r => isNet r.addr
  let s2 := if here.isEmpty then s1 else s1.launch ⟨hid, core, op, ld, .atomics here⟩
  far.foldl (fun s r =>
    (s.emit (.netAtomic (s.remoteOf r.addr).1 { r with addr := (s.remoteOf r.addr).2 })).launch
      ⟨hid, core, op, ld, .netAtomics release [r]⟩) s2

/-- Whether some hart's store queue still holds the command of a copy. -/
def State.cmdQueued (s : State) (copy : Nat) : Bool :=
  s.harts.any fun p => match p.2 with
    | some h => h.storeQ.any fun e => e.kind = .copyCmd && e.copy = copy
    | none => false

/-- An entry leaves the store queue of a hart (STORE_QUEUE_DRAIN). The own access of a release is performed at its point
as it leaves, and is never left dirty in L1 (R78). -/
def State.drainEntry (s : State) (hid : Nat) (h : Hart) (e : SqEntry) : State :=
  let s1 : State := match e.kind with
    | .l1 => e.writes.foldl (fun s w => s.l1Store h.core w) s
    | .through => e.writes.foldl (fun s w => s.sendThrough hid h.core e.op e.rel w) s
    | .cluster => e.writes.foldl (fun s w => s.launch ⟨hid, h.core, e.op, 0, .posted h.unit w⟩) s
    | .device => s.drainDevice hid h e
    | .atomics => s.launchAtomics hid h.core e.op e.ld e.rel e.atoms
    | .clusterAtomics => s.launch ⟨hid, h.core, e.op, e.ld, .clusterAtomics h.unit e.atoms⟩
    | .copyCmd => match s.copy? e.copy with
      | some c => if s.cmdQueued e.copy then s else s.putCopy e.copy { c with active := true }
      | none => s
    | .tileCmd => match s.tileOp? e.copy with
      | some t => s.putTileOp e.copy { t with active := true }
      | none => s
  (if e.rel then s1.performOp hid e.op else s1).opCheck hid e.op e.ld

/-- Whether a release store or atomic of the hart into a network window has still to be reported complete: until
then nothing that follows it leaves the queue (R78). -/
def State.queueHeld (s : State) (hid : Nat) : Bool :=
  !(s.flightIds fun f => f.hart = hid && (match f.kind with
    | .netRelease _ | .netAtomics true _ | .netDevice true _ => true
    | _ => false)).isEmpty

/-- The head of a hart's store queue leaves it; a device store waits for the one before it (R84). -/
def State.drainHead (s : State) (hid : Nat) : State :=
  match s.hart? hid with
  | some h => match h.storeQ with
    | e :: rest =>
      if s.queueHeld hid || (e.kind = .device && s.deviceFlying hid) then s
      else (s.putHart hid { h with storeQ := rest }).drainEntry hid h e
    | [] => s
  | none => s

/-- Drains a hart's store queue: `fuel` entries at most. -/
def State.drainMany (s : State) (hid : Nat) : Nat → State
  | 0 => s
  | fuel + 1 => (s.drainHead hid).drainMany hid fuel

/-- Drains a hart's store queue as far as it goes. -/
def State.drainQueue (s : State) (hid : Nat) : State :=
  match s.hart? hid with
  | some h => s.drainMany hid h.storeQ.length
  | none => s

/-- Whether a hart's store queue is empty. -/
def State.queueEmpty (s : State) (hid : Nat) : Bool :=
  match s.hart? hid with | some h => h.storeQ.isEmpty | none => true

/-! ### Loads (R72, R237, R238) -/

/-- Whether a load form addresses the cluster store. -/
def LoadForm.cluster : LoadForm → Bool
  | .ldc | .sldc => true
  | _ => false

/-- Whether a load form reads tags alone (R244). -/
def LoadForm.readsTags : LoadForm → Bool
  | .tagP | .tagX => true
  | _ => false

/-- Whether a load makes device accesses: a tag read of device memory makes none (R20, R244). -/
def LoadReq.device (q : LoadReq) : Bool := !q.form.readsTags && q.lanes.any fun a => a.mt = .device

/-- The load never uses an L1 copy as its source (R60, R79, R238). -/
def LoadReq.direct (q : LoadReq) (a : LaneAcc) : Bool := q.acq.isSome || q.form = .ldd || a.mt = .streaming

/-- The key under which a network-window access of a load comes back: its sector, or its lane for a device access,
which is made once in its own size (R20). -/
def LaneAcc.netKey (a : LaneAcc) : Nat := if a.mt = .device then 2 ^ 60 + a.lane else sectorOf a.pa

/-- The bytes of its sector that one lane of a load reads. -/
def LoadReq.bytes (q : LoadReq) (a : LaneAcc) : BitVec 128 := byteRun (a.pa % 128) (q.esize * q.count)

/-- Whether a load reads a location, one byte of one space (R67), among `m` of a sector. -/
def LoadReq.reads (q : LoadReq) (cluster : Bool) (sec : Nat) (m : BitVec 128) : Bool :=
  q.form.cluster = cluster && q.lanes.any fun a => sectorOf a.pa = sec && decide (q.bytes a &&& m ≠ 0)

/-- Whether two loads read one location (R67, R74). -/
def LoadReq.overlaps (q r : LoadReq) : Bool := r.lanes.any fun b => q.reads r.form.cluster (sectorOf b.pa) (r.bytes b)

/-- Whether a queued entry touches a sector of a space. -/
def SqEntry.touches (e : SqEntry) (cluster : Bool) (sec : Nat) : Bool :=
  match e.kind with
  | .l1 | .through => !cluster && e.writes.any fun w => w.sector = sec
  | .cluster => cluster && e.writes.any fun w => w.sector = sec
  | .device => !cluster && e.sized.any fun x => sectorOf x.1 = sec
  | .atomics => !cluster && e.atoms.any fun r => sectorOf r.addr = sec
  | .clusterAtomics => cluster && e.atoms.any fun r => sectorOf r.addr = sec
  | .copyCmd | .tileCmd => false

/-- Whether a queued entry forwards to a load (R72); an atomic or a device store must leave the queue first.
DEDUCED (log 37). -/
def SqEntry.forwards (e : SqEntry) : Bool :=
  match e.kind with
  | .l1 | .through | .cluster => true
  | _ => false

/-- The bytes of a sector that a queued entry writes and forwards. -/
def SqEntry.mask (e : SqEntry) (cluster : Bool) (sec : Nat) : ByteMask :=
  if e.forwards && e.touches cluster sec then
    (e.writes.filter fun w => w.sector = sec).foldl (fun m w => m ||| w.mask) 0
  else 0

/-- Whether an entry belongs to a lane word: its sector writes are unordered (R71). -/
def SqEntry.ofLane (e : SqEntry) : Bool :=
  match e.src with
  | .lane _ => true
  | _ => false

/-- One sector write of the lane word at the head of a hart's store queue leaves ahead of the others, which are unordered (R71):
write `i` of the word's entry `j`. DEDUCED (log 92). -/
def State.drainPart (s : State) (hid j i : Nat) : State :=
  match s.hart? hid with
  | some h =>
    let word := h.storeQ.takeWhile fun e => some e.op = (h.storeQ.head?).map (·.op)
    match word[j]? with
    | some e => match e.writes[i]? with
      | some w =>
        let rest := e.writes.eraseIdx i
        let q := if rest.isEmpty then h.storeQ.eraseIdx j else h.storeQ.set j { e with writes := rest }
        if s.queueHeld hid || !e.forwards || !e.ofLane then s
        else (s.putHart hid { h with storeQ := q }).drainEntry hid h { e with writes := [w] }
      | none => s
    | none => s
  | none => s

/-- Entries of a queue that must leave before a load of the bytes `m` of a sector: up to and including the last that
touches the sector and does not forward, and the youngest that writes loaded bytes when it covers only some of them
(R72). DEDUCED (log 37). -/
def heldPrefix (cluster : Bool) (sec : Nat) (m : ByteMask) : List SqEntry → Nat
  | [] => 0
  | e :: es =>
    let n := heldPrefix cluster sec m es
    let b := e.mask cluster sec &&& m
    if n ≠ 0 then n + 1
    else if e.touches cluster sec && !e.forwards then 1
    else if b ≠ 0 && b ≠ m && es.all (fun x => x.mask cluster sec &&& m = 0) then 1
    else 0

/-- Entries of a queue up to and including the last device store, which a device load follows (R84). -/
def deviceEntries : List SqEntry → Nat
  | [] => 0
  | e :: es =>
    let n := deviceEntries es
    if n ≠ 0 then n + 1 else if e.kind = .device then 1 else 0

/-- The entries of a hart's queue that were queued before an operation was issued. -/
def Hart.ahead (h : Hart) (op : Nat) : List SqEntry := h.storeQ.takeWhile fun e => decide (e.op < op)

/-- How many entries of a hart's queue must leave before one lane of a load reads (R72). -/
def LoadReq.heldBy (q : LoadReq) (h : Hart) (a : LaneAcc) : Nat :=
  heldPrefix q.form.cluster (sectorOf a.pa) (q.bytes a) (h.ahead q.op)

/-- What one lane of a load sees: the hart's older queued sector writes over a view when one of them writes a byte it
reads, tag and poison included (R72, R237); else the view. DEDUCED (log 37). -/
def LoadReq.forward (q : LoadReq) (h : Hart) (a : LaneAcc) (v : View) : View :=
  let sec := sectorOf a.pa
  let ws := ((h.ahead q.op).filter fun e => e.forwards && e.touches q.form.cluster sec).flatMap fun e =>
    e.writes.filter fun w => w.sector = sec
  if ws.any fun w => w.mask &&& q.bytes a ≠ 0 then ws.foldl View.covered v else v

/-- The key under which a lane of a load is kept that was performed ahead of the others (R71). -/
def lanesKey (lane : Nat) : Nat := 2 ^ 61 + lane

/-- What one lane of a load sees, or that it must wait for the network. -/
def State.laneView (s : State) (hid : Nat) (q : LoadReq) (a : LaneAcc) : State × Option View :=
  match s.hart? hid with
  | none => (s, none)
  | some h0 =>
    let sec := sectorOf a.pa
    match q.remote.find? fun p => p.1 = lanesKey a.lane with
    | some p => (s, some ⟨p.2.1, p.2.2.1, p.2.2.2⟩)
    | none =>
    if a.mt = .device then
      (s, if q.form.readsTags then some ⟨0, false, false⟩
        else (q.remote.find? fun p => p.1 = a.netKey).map fun p => ⟨p.2.1, false, p.2.2.2⟩)
    else
    let s1 := s.drainMany hid (q.heldBy h0 a)
    match s1.hart? hid with
    | none => (s1, none)
    | some h =>
      if q.heldBy h a ≠ 0 then (s1, none)
      else if q.form.cluster then
        let s2 := match (s1.flightIds fun f => f.core = h.core && f.kind.touchesGranule h.unit sec).getLast? with
          | some id => s1.settleCluster h.core h.unit (id + 1)
          | none => s1
        match s2.unit? h.unit with
        | some g =>
          let t := g.granuleTags sec
          (s2, some (q.forward h a ⟨g.granule sec, t.1, t.2⟩))
        | none => (s2, none)
      else
        let s2 := s1.settleSector h.core sec
        if isNet a.pa then
          if s2.netBusy h.core sec then (s2, none)
          else if a.mt = .normal && !q.direct a && s2.l1Hit h.core sec then
            let r := s2.l1View h.core sec
            (r.1, some (q.forward h a r.2))
          else (s2, (q.remote.find? fun p => p.1 = a.netKey).map fun p =>
            q.forward h a (s2.mergeDirty h.core sec ⟨p.2.1, p.2.2.1 && s2.winProp a.pa, false⟩))
        else
          let r := if q.direct a then s2.pointView h.core sec else (s2.l1Room h.core sec).l1View h.core sec
          (r.1, some (q.forward h a r.2))

/-- Lets the queue entries leave that a load must follow and cannot forward from (R72). DEDUCED (log 37). -/
def State.drainHeld (s : State) (hid : Nat) (q : LoadReq) : State :=
  q.lanes.foldl (fun s a => match s.hart? hid with
    | some h => s.drainMany hid (if a.mt = .device then (if q.device then deviceEntries h.storeQ else 0)
        else q.heldBy h a)
    | none => s) s

/-- Asks the network for what a load needs and has neither asked nor received, once nothing the load must follow is
queued or in flight (R72, R238). Device accesses are made in `deviceLanes`. DESIGN CHOICE (log 84). -/
def State.askFor (s : State) (hid : Nat) (h : Hart) (q : LoadReq) : State :=
  q.lanes.foldl (fun s a =>
    let sec := sectorOf a.pa
    if q.form.cluster || a.mt = .device || !isNet a.pa || s.netBusy h.core sec || q.heldBy h a ≠ 0 || s.asked q.op a.netKey ||
        q.remote.any (fun p => p.1 = a.netKey) || (a.mt = .normal && !q.direct a && s.l1Hit h.core sec) then s
    else s.askSector hid h.core q.op sec) s

/-- Keeps what a load has read under a key. -/
def State.keepRemote (s : State) (hid op key : Nat) (data : SectorData) (p x : Bool) : State :=
  s.modHart hid fun h =>
    { h with loads := h.loads.map fun q => if q.op = op then { q with remote := q.remote ++ [(key, data, p, x)] } else q }

/-- Whether a load takes a sector of a network window through L1: such a sector is filled when it comes back, as a home's is
(R57, R58), and the load is performed on the copy. -/
def LoadReq.fills (q : LoadReq) (key : Nat) : Bool := q.lanes.any fun a => a.netKey = key && a.mt = .normal && !q.direct a

/-- Whether a load keeps what comes back under a key for itself. -/
def LoadReq.keeps (q : LoadReq) (key : Nat) : Bool := q.lanes.any fun a => a.netKey = key && (a.mt ≠ .normal || q.direct a)

/-- A sector that came back for a load fills the core's L1 (R57, R58). -/
def State.fillNet (s : State) (core sec : Nat) (data : SectorData) (p : Bool) : State :=
  let s1 := s.l1Room core sec
  s1.l1Set core sec (some (((s1.l1Get core sec).getD L1Sector.empty).fill data (s1.netTag sec p) false (s1.cgOf core)))

/-- The request of a hart's pending load as it stands now. -/
def State.reqNow (s : State) (hid : Nat) (q : LoadReq) : LoadReq :=
  match s.hart? hid with
  | some h => (h.loads.find? fun r => r.op = q.op).getD q
  | none => q

/-- A device read of `len` bytes on this module. -/
def State.deviceView (s : State) (core pa len : Nat) : State × View :=
  if isCtl pa then (s, ⟨sectorPlace (s.ctlRead (pa - Config.ctlBase) len) (pa % 128) len, false, false⟩)
  else
    let r := (s.settleSector core (sectorOf pa)).homeRead (sectorOf pa)
    (r.1, ⟨r.2.data, false, r.2.x⟩)

/-- Makes the device accesses of a load in ascending lane order, each once (R20, R84); one into a network window is asked
and waited for before the next. -/
def State.deviceLanes (s : State) (hid : Nat) (h : Hart) (q : LoadReq) : List LaneAcc → State × Bool
  | [] => (s, true)
  | a :: rest =>
    let len := q.esize * q.count
    if a.mt ≠ .device || (s.reqNow hid q).remote.any (fun p => p.1 = a.netKey) then s.deviceLanes hid h q rest
    else if isNet a.pa then
      (if s.asked q.op a.netKey then s else s.askBytes hid h.core q.op a.netKey a.pa len, false)
    else
      let r := s.deviceView h.core a.pa len
      (r.1.keepRemote hid q.op a.netKey r.2.data false r.2.x).deviceLanes hid h q rest

/-- The device accesses of a load, after the hart's device stores (R84). The second component says whether all have been
made. -/
def State.deviceAccess (s : State) (hid : Nat) (q : LoadReq) : State × Bool :=
  if !q.device then (s, true)
  else
    let s1 := s.drainHeld hid q
    match s1.hart? hid with
    | none => (s1, false)
    | some h =>
      if deviceEntries h.storeQ ≠ 0 || s1.deviceFlying hid then (s1, false) else s1.deviceLanes hid h q q.lanes

/-- The views of all lanes of a load, in ascending lane order. -/
def State.laneViews (s : State) (hid : Nat) (q : LoadReq) : List LaneAcc → State × Option (List (LaneAcc × View))
  | [] => (s, some [])
  | a :: rest =>
    let r := s.laneView hid q a
    match r.2 with
    | none => (r.1, none)
    | some v =>
      let t := r.1.laneViews hid q rest
      (t.1, t.2.map fun l => (a, v) :: l)

/-- The value of one element as a register holds it: extended as the type says (R234). -/
def extendTo (signed : Bool) (esize n : Nat) : Nat := if signed then wrap 32 (signedOf (8 * esize) n) else n

/-- Writes the elements a lane loaded (R234). -/
def State.writeElems (s : State) (hid : Nat) (q : LoadReq) (a : LaneAcc) (v : View) (tag : Bool) : State :=
  (List.range q.count).foldl (fun s i =>
    let n := sectorBytes v.data ((a.pa + i * q.esize) % 128) q.esize
    if q.esize = 8 then s.writeLane hid (q.dst + 2 * i) a.lane true n tag
    else s.writeLane hid (q.dst + i) a.lane false (if q.esize < 4 then extendTo q.signed q.esize n else n) tag) s

/-- Writes a mask bit with its tag. -/
def MaskReg.setLane (m : MaskReg) (l : Nat) (b t : Bool) : MaskReg := ⟨setBit32 m.bits l b, setBit32 m.tags l t⟩

/-- Hands a lane of a load its value, or collects that it died (R49, R237, R244). -/
def State.giveLane (s : State) (hid : Nat) (h : Hart) (q : LoadReq) (a : LaneAcc) (v : View) : State :=
  match q.form with
  | .pref | .acqS | .acqL => s
  | .sld | .sldc =>
    if v.x then s.consumePoison hid q.op none q.iaddr
    else s.returnS hid q.op (sreg q.dst) ⟨BitVec.ofNat 64 (sectorBytes v.data (a.pa % 128) q.esize), v.p || a.tag⟩
  | .tagP | .tagX =>
    let b := if a.mt = .device || (isNet a.pa && !s.winProp a.pa) then false else if q.form = .tagP then v.p else v.x
    s.modHart hid fun h => h.setM q.dst ((h.getM q.dst).setLane a.lane b a.tag)
  | _ => if v.x || !h.m0.getLsbD a.lane then s else s.writeElems hid q a v (v.p || a.tag)

/-- The lanes of a load whose sector is poisoned. -/
def poisoned (q : LoadReq) (vs : List (LaneAcc × View)) : Word32 :=
  match q.form with
  | .ld | .ldd | .ldc => maskOf ((vs.filter fun p => p.2.x).map fun p => p.1.lane)
  | _ => 0

/-- The fill-generation step of a hart's acquire whose own access is numbered `op` (R79). A load before it in wave order that it
passes is noted: it is performed before what follows the acquire (F13, F14). -/
def State.acquireAt (s : State) (hid op : Nat) (src : Hart → Source) (o : BitVec 5) : State :=
  match s.hart? hid with
  | some h =>
    (if obsGlobal o && !h.loads.isEmpty then s.putHart hid
        { h with loads := h.loads.map fun q =>
            if q.op < op && q.src.precedes q.op (src h) then { q with late := q.late + 1 } else q }
      else s).acquireGen h.core o
  | none => s

/-- An acquire of the acting word, after every access that its hart has issued (R79). -/
def State.acquire (s : State) (hid : Nat) (o : BitVec 5) : State := s.acquireAt hid s.nextId s.source o

/-- Lanes of one load that read the same bytes receive the same value (R71): an access is as wide as it is aligned (R233), so two
lanes read the same bytes or none in common. -/
def agree (vs : List (LaneAcc × View)) : List (LaneAcc × View) :=
  vs.map fun p => match vs.find? fun q => q.1.pa = p.1.pa && q.1.mt ≠ .device && p.1.mt ≠ .device with
    | some q => (p.1, q.2)
    | none => p

/-- Performs one pending load whose sectors are all at hand: writes its registers, kills the lanes that consumed
poison, and completes it (LOAD_RETURN). The second component says whether it was performed. Lanes that have not been
performed ahead of the others are all performed in this step (R71). After a load that an acquire had passed, the core
refetches (F13). DEDUCED (log 83, 92). -/
def State.performReq (s : State) (hid : Nat) (q : LoadReq) : State × Bool :=
  match s.hart? hid with
  | none => (s, false)
  | some _ =>
    if (q.form = .acqS || q.form = .acqL) && s.opPending hid q.op then (s, false) else
    let s0 := match q.acq with | some o => s.acquireAt hid q.op (fun _ => q.src) o | none => s
    let d := s0.deviceAccess hid q
    if !d.2 then d
    else
    let q := d.1.reqNow hid q
    let r := d.1.laneViews hid q q.lanes
    match r.2 with
    | none =>
      let s1 := s.drainHeld hid q
      (match s1.hart? hid with | some h => s1.askFor hid h q | none => s1, false)
    | some vs =>
      match r.1.hart? hid with
      | none => (r.1, false)
      | some h =>
        let vs := agree vs
        let s1 := r.1.putHart hid { h with loads := h.loads.filter fun x => x.op ≠ q.op }
        let s2 := vs.foldl (fun s p => s.giveLane hid h q p.1 p.2) s1
        let s3 := if q.form = .acqS || q.form = .acqL then s2 else s2.completeOp hid .ld q.op
        let s4 := if 0 < q.late && !q.form.cluster then s3.acquireGen h.core letterK else s3
        ((s4.killLanes hid (opKills q.op) (poisoned q vs) q.iaddr).modHart hid (·.killsOver (opKills q.op)), true)

/-- Whether an older pending load is performed before another that it precedes in wave order: they read one location (F13,
R74), both access a device (R84), or an acquire lies between them (F14). -/
def LoadReq.before (r q : LoadReq) : Bool :=
  r.src.precedes r.op q.src && (r.overlaps q || (r.device && q.device) || decide (q.late < r.late))

/-- The older pending loads, newest first, that must be performed before a set of loads, added to it. -/
def olderFirst : List LoadReq → List LoadReq → List LoadReq
  | [], need => need
  | r :: older, need => olderFirst older (if need.any r.before then r :: need else need)

/-- Performs loads in order, stopping at one that must wait. -/
def State.performReqs (s : State) (hid : Nat) : List LoadReq → State × Bool
  | [] => (s, true)
  | q :: qs =>
    let r := s.performReq hid q
    if r.2 then r.1.performReqs hid qs else r

/-- Performs a pending load after the older loads of its hart that it follows (F13, F14, R84). DEDUCED (log 33). -/
def State.performLoad (s : State) (hid op : Nat) : State × Bool :=
  match s.hart? hid with
  | none => (s, true)
  | some h =>
    match h.loads.find? fun q => q.op = op with
    | none => (s, true)
    | some q =>
      let older := (h.loads.takeWhile fun r => r.op ≠ op).reverse
      s.performReqs hid (olderFirst older [q])

/-- Performs one lane of a pending load, with those that read the same bytes, ahead of the others, which are unordered (R71),
once no older load has to be performed before. Device accesses keep their own order (R84). DEDUCED (log 92). -/
def State.performLane (s : State) (hid op lane : Nat) : State :=
  match s.hart? hid with
  | none => s
  | some h =>
    match h.loads.find? fun q => q.op = op with
    | none => s
    | some q =>
      match q.lanes.find? fun a => a.lane = lane && a.mt ≠ .device with
      | none => s
      | some a =>
        if (h.loads.takeWhile fun r => r.op ≠ op).any (·.before q) || q.remote.any (fun p => p.1 = lanesKey lane) then s
        else
          let r := s.laneView hid q a
          match r.2 with
          | some v => (q.lanes.filter fun b => b.pa = a.pa && b.mt ≠ .device).foldl
              (fun s b => s.keepRemote hid op (lanesKey b.lane) v.data v.p v.x) r.1
          | none => r.1

/-- Performs every pending load of a hart that a test selects, oldest first. -/
def State.performLoads (s : State) (hid : Nat) (f : LoadReq → Bool) : State × Bool :=
  match s.hart? hid with
  | none => (s, true)
  | some h => ((h.loads.filter f).map (·.op)).foldl (fun (r : State × Bool) op =>
      if r.2 then r.1.performLoad hid op else r) (s, true)

/-- Issues a load: counted in ld, and pending until it returns (R90). A network window is asked at once, unless an older
load has to be performed before. -/
def State.issueLoad (s : State) (hid : Nat) (counted : Bool) (mk : Nat → LoadReq) : State × Nat :=
  let r := s.fresh
  let q := mk r.1
  let s1 := r.2.modHart hid fun h =>
    { r.2.heirOf q.op (if counted then h.issue .ld q.op else h) with loads := h.loads ++ [{ q with src := s.source h }] }
  (match s1.hart? hid with
    | some h =>
      if (h.loads.takeWhile fun x => x.op ≠ q.op).any (·.before { q with src := s.source h }) then s1 else s1.askFor hid h q
    | none => s1, q.op)

/-! ### Release (R78, R80) -/

/-- Whether a release waits for an access to come back from a window: the core's writes into peer windows for p, into host
windows for h, and in any case the wave's own device accesses and atomics. No other letter covers writes into windows (R78,
R84, R110, R398). DEDUCED (log 46). -/
def releaseWaits (s : State) (hid core : Nat) (o : BitVec 5) (f : Flight) : Bool :=
  let covers (a : Nat) : Bool := if s.winHost a then obsH o else obsP o
  f.core = core &&
    (match f.kind with
      | .netWrite w | .netRelease w => covers (128 * w.sector)
      | .netDevice _ w => f.hart = hid || covers (128 * w.sector)
      | .netAtomics _ rs => f.hart = hid || rs.any fun r => covers r.addr
      | _ => false)

/-- Entries of a queue up to and including the last that precedes an access from `src` in wave order. -/
def entriesBefore (src : Source) : List SqEntry → Nat
  | [] => 0
  | e :: es =>
    let n := entriesBefore src es
    if n ≠ 0 then n + 1 else if e.src.precedes e.op src then 1 else 0

/-- One attempt at a release that comes from `src`: everything it covers that can be performed now is performed; the second
component says whether nothing is left to wait for (R78). It covers the stores of the whole core that have left its queues
(R81), and of the wave what precedes it in wave order (R82). DEDUCED (log 45, 91). -/
def State.releaseFrom (s : State) (hid : Nat) (src : Source) (o : BitVec 5) : State × Bool :=
  let r := s.performLoads hid fun q => q.src.precedes q.op src
  if !r.2 then r
  else
    let s1 := r.1.drainMany hid (match r.1.hart? hid with | some h => entriesBefore src h.storeQ | none => 0)
    match s1.hart? hid with
    | none => (s1, true)
    | some h =>
      if entriesBefore src h.storeQ ≠ 0 then (s1, false)
      else
        let s2 := if obsGlobal o then
            (s1.flightIds fun f => f.core = h.core && (match f.kind with | .home _ | .atomics _ => true | _ => false)).foldl
              State.performOrdered s1
          else s1
        let s3 := if obsGlobal o then
            (s2.dirtySectors h.core).foldl (fun s sec => (s.settleSector h.core sec).writeBack h.core sec false) s2
          else s2
        let s4 := if obsY o || obsM o then
            (s3.flightIds fun f => f.core = h.core && f.kind.cluster).foldl State.performFlight s3
          else s3
        let far := if obsGlobal o then s4.flightIds (releaseWaits s4 hid h.core o) else []
        (s4, far.isEmpty)

/-- An attempt at the release of the acting word (R78, R82). -/
def State.release (s : State) (hid : Nat) (o : BitVec 5) : State × Bool :=
  s.releaseFrom hid (match s.hart? hid with | some h => s.source h | none => .walker) o

/-- An attempt at a release that covers all that a hart has issued, of either stream: that of a save, a phase or a retirement
(R86). -/
def State.releaseWhole (s : State) (hid : Nat) (o : BitVec 5) : State × Bool := s.releaseFrom hid .walker o

/-! ### Translating the lanes of a word (R28, R236) -/

/-- A lane and its address, before translation. -/
structure LaneEa where
  lane : Nat
  ea : Word
  tag : Bool
deriving DecidableEq, Repr

/-- A translated lane, or its failure. -/
abbrev LaneX := LaneEa × TlbEntry

/-- A lane's access once translated. -/
def LaneX.acc (x : LaneX) : LaneAcc := ⟨x.1.lane, x.1.ea, x.2.pa x.1.ea, x.2.mt, x.1.tag⟩

/-- Translates and checks every lane (R28): the lanes that translate, and the failures. -/
def State.xlateLanes (s : State) (site : Site) (vf : Nat) (a : Access) :
    List LaneEa → State × List LaneX × List Failure
  | [] => (s, [], [])
  | l :: ls =>
    let r := s.xlate site vf l.ea a false
    let t := r.1.xlateLanes site vf a ls
    match r.2 with
    | .ok e => (t.1, (l, e) :: t.2.1, t.2.2)
    | .bad c lv => (t.1, t.2.1, ⟨l.lane, l.ea, c, lv⟩ :: t.2.2)

/-- Sets D for each lane of a write; a lane whose restarted translation fails is a failure (R21). -/
def State.dirtyLanes (s : State) (site : Site) (vf : Nat) (a : Access) (bad : LaneAcc → Bool) :
    List LaneX → State × List LaneX × List Failure
  | [] => (s, [], [])
  | (l, e) :: ls =>
    let r := s.markDirty site vf l.ea a false (fun t => bad (LaneX.acc (l, t))) ((s.tlbFind site vf l.ea).getD e)
    let t := r.1.dirtyLanes site vf a bad ls
    match r.2 with
    | .ok e' => (t.1, (l, e') :: t.2.1, t.2.2)
    | .bad c lv => (t.1, t.2.1, ⟨l.lane, l.ea, c, lv⟩ :: t.2.2)

/-- The checks of all lanes of a word or of a scalar access: translations, then the D updates of a write, none
made unless every lane passed (R21, R28). An access that a tag will stop is `bad`: then none is made either, and a leaf that
has become bad gets none, since a failed word performs nothing (R236). -/
def State.checkLanes (s : State) (site : Site) (vf : Nat) (a : Access) (bad : LaneAcc → Bool) (ls : List LaneEa) :
    State × List LaneX × List Failure :=
  let r := s.xlateLanes site vf a ls
  if r.2.2.isEmpty && a.write && !(r.2.1.any fun x => bad (LaneX.acc x)) then r.1.dirtyLanes site vf a bad r.2.1
  else r

/-- A failed access of a hart: its records go to the VF's fault queue; a translation fault suspends, the others end
the task (R35 to R39). -/
def State.failAccess (s : State) (hid : Nat) (lanes : Bool) (kind : AccessKind) (iaddr : Word) (fs : List Failure) : State :=
  match s.hart? hid, worstFailure fs with
  | some h, some f =>
    let s1 := s.recordFailures (s.hartVf h) fs lanes kind iaddr (s.placeWord h)
    let cls := f.cause.trapClass
    let mask := if lanes then maskOf (fs.map (·.lane)) else 0
    let r : Record := Record.walked
      ⟨BitVec.ofNat 8 cls.code, BitVec.ofNat 16 f.cause.code, lanes, false, false, mask, iaddr, 0, 0, 0⟩ h
    if cls = .translation then s1.suspend hid r
    else (s1.modHart hid fun h => { h with lastRecord := some r }).endHartTask hid cls f.cause.code
  | _, _ => s

/-- The check of a cluster access of `len` bytes at an offset (R9). -/
def clusterCheck (size : Nat) (ea : Word) (len : Nat) : Option Cause :=
  if bits ea 21 43 ≠ 0 then some .cRange else if size < ea.toNat + len then some .cBound else none

/-- A store lane that carries a tag into a place that holds none: a network window that is no proposal window, or
device memory (R65, R236). -/
def State.tagless (s : State) (a : LaneAcc) : Bool := a.mt = .device || (isNet a.pa && !s.winProp a.pa)

/-! ### Stores (R47, R239, R240) -/

/-- One lane's stored bytes: physical address or offset, length, value, and its s. -/
structure StorePart where
  addr : Nat
  len : Nat
  val : Nat
  s : Bool
deriving DecidableEq, Repr

/-- Adds a lane's bytes to a sector write: a later, higher lane wins each byte (R71). -/
def SWrite.add (w : SWrite) (p : StorePart) : SWrite :=
  let m := byteRun (p.addr % 128) p.len
  let mask := w.mask ||| m
  { w with mask := mask, data := mergeBytes m w.data (sectorPlace p.val (p.addr % 128) p.len), s := w.s || p.s,
           fc := mask = BitVec.allOnes 128 }

/-- The sector writes of a store word: one for each sector, with the OR of its lanes' s (R239). -/
def sectorWrites (ps : List StorePart) : List SWrite :=
  ((ps.map fun p => sectorOf p.addr).eraseDups).map fun sec =>
    (ps.filter fun p => sectorOf p.addr = sec).foldl SWrite.add ⟨sec, 0, 0, false, false, false⟩

/-- An entry of sector writes for the queue. -/
def writeEntry (op : Nat) (kind : SqKind) (rel : Bool) (ws : List SWrite) : SqEntry := ⟨op, 0, kind, rel, [], ws, [], 0, .scalar 0⟩

/-- An entry of device stores for the queue. -/
def deviceEntry (op : Nat) (rel : Bool) (ps : List StorePart) : SqEntry :=
  ⟨op, 0, .device, rel, ps.map fun p => (p.addr, p.len, p.val), [], [], 0, .scalar 0⟩

/-- The queue entries of a global store: L1, write-through and device parts (R240). A sector that one lane reaches as
write-through is written through whole, since a word makes one write of a sector (R239). DESIGN CHOICE (log 116). -/
def storeEntries (op : Nat) (direct : Bool) (ps : List (MemType × StorePart)) : List SqEntry :=
  let pick (f : MemType → Bool) : List StorePart := (ps.filter fun p => f p.1).map Prod.snd
  let through := (pick fun m => m = .streaming || (m = .normal && direct)).map fun p => sectorOf p.addr
  let ws := sectorWrites (pick fun m => m ≠ .device)
  let l1 := ws.filter fun w => !through.contains w.sector
  let thru := ws.filter fun w => through.contains w.sector
  let dev := pick fun m => m = .device
  (if l1.isEmpty then [] else [writeEntry op .l1 false l1]) ++
  (if thru.isEmpty then [] else [writeEntry op .through false thru]) ++
  (if dev.isEmpty then [] else [deviceEntry op false dev])

/-- The queue entries of a release store: each is performed as it leaves the queue, never left dirty in L1 (R78). -/
def releaseEntries (op : Nat) (cluster : Bool) (ps : List (MemType × StorePart)) : List SqEntry :=
  let plain := (ps.filter fun p => p.1 ≠ .device).map Prod.snd
  let dev := (ps.filter fun p => p.1 = .device).map Prod.snd
  (if plain.isEmpty then [] else [writeEntry op (if cluster then .cluster else .through) true (sectorWrites plain)]) ++
  (if dev.isEmpty then [] else [deviceEntry op true dev])

/-- Performs the pending loads of a hart that a new store of `len` bytes a lane follows in wave order: those that read a location it writes
(F1), and the device loads when it writes to a device (R84). -/
def State.loadsBefore (s : State) (hid : Nat) (cluster : Bool) (len : Nat) (accs : List LaneAcc) : State × Bool :=
  let dev := accs.any fun a => a.mt = .device
  s.performLoads hid fun q =>
    (match s.hart? hid with | some h => q.src.precedes q.op (s.source h) | none => false) &&
    ((accs.any fun a => q.reads cluster (sectorOf a.pa) (byteRun (a.pa % 128) len)) || (dev && q.device))

/-- An entry as it enters the queue: it comes from the acting word, but for the walker's own. -/
def SqEntry.sentBy (e : SqEntry) (src : Source) : SqEntry :=
  match e.src with
  | .walker => e
  | _ => { e with src := src }

/-- Puts entries into a hart's store queue as one st operation, counted (R72, R90). -/
def State.enqueue (s : State) (hid op : Nat) (es : List SqEntry) : State :=
  let s1 := s.modHart hid fun h => { h.issue .st op with storeQ := h.storeQ ++ es.map (·.sentBy (s.source h)) }
  s1.opCheck hid op 0

/-- A release store, its release part performed: it enters the queue like any store, so that a later load may still be
performed before it (R78, R89). DEDUCED (log 45). -/
def State.storeRelease (s : State) (hid op : Nat) (cluster : Bool) (ps : List (MemType × StorePart)) : State :=
  s.enqueue hid op (releaseEntries op cluster ps)

/-! ### Atomics of a stream -/

/-- Whether an atomic of a hart has still to be performed. -/
def State.atomicsPending (s : State) (hid op : Nat) : Bool := s.opPending hid op

/-- Queues an atomic word, counted in ld and st (R72, R90). -/
def State.enqueueAtomic (s : State) (hid op : Nat) (cluster release : Bool) (rs : List AtomReq) : State :=
  let e (x : Source) : SqEntry := ⟨op, op, if cluster then .clusterAtomics else .atomics, release, [], [], rs, 0, x⟩
  (s.modHart hid fun h => { s.heirOf op ((h.issue .ld op).issue .st op) with
    storeQ := h.storeQ ++ (if rs.isEmpty then [] else [e (s.source h)]) }).opCheck hid op op

/-- Performs an atomic of a hart at once: everything ahead of it leaves the queue, then its lanes are applied. A
request into a network window stays in flight. -/
def State.performNow (s : State) (hid op : Nat) : State :=
  (s.drainQueue hid).performOp hid op

/-- The acquire part of an atomic (R80): at once when it has been performed, else once it has. -/
def State.atomAcquire (s : State) (hid op : Nat) (scalar : Bool) (o : BitVec 5) (iaddr : Word) : State :=
  let s1 := s.performNow hid op
  if s1.opPending hid op then
    s1.modHart hid fun h => { h with loads := h.loads ++
      [⟨op, if scalar then .acqS else .acqL, [], 0, 0, false, 0, some o, iaddr, .scalarAtomic, [], 0, s1.source h⟩] }
  else s1.acquireAt hid op s1.source o

/-- What follows the queueing of an atomic of some strength: a release waits in the queue like a release store, an
acquire completes with its acquire part (R78, R80). -/
def State.atomFinish (s : State) (hid op : Nat) (scalar : Bool) (o : Ord) (iaddr : Word) : State :=
  match o.str with
  | .plain | .rel => s
  | _ => s.atomAcquire hid op scalar o.obs iaddr

/-- Runs the release part of a word, then the rest of it. While the release waits, the word stays where it is, and
an S-stream is not interrupted there (R78, R435). DEDUCED (log 45). -/
def State.withRelease (s : State) (hid : Nat) (o : Ord) (scalar : Bool) (k : State → State) : State :=
  if o.str = .rel || o.str = .ar then
    let r := s.release hid o.obs
    if r.2 then k (r.1.modHart hid fun h => { h with busy := false })
    else if scalar then r.1.modHart hid fun h => { h with busy := true } else r.1
  else k s

end Sys2Proof.Machine
end

