-- ==== Sys2Proof/Machine/Flags.lean ====
section
/-! DEFINITION. Conditions, comparisons and the status registers FSTAT and WSTAT (R127, R163, R182, R205, R208,
R213). -/

namespace Sys2Proof.Machine

/-- The condition codes of R182 and R208: eq, ne, lt, ge, le, gt on integers, in code order; the scalar forms add
the two unsigned orders. -/
def holds (cc : Nat) (x y : Int) : Bool :=
  match cc with
  | 0 => x = y
  | 1 => x ≠ y
  | 2 => x < y
  | 3 => y ≤ x
  | 4 => x ≤ y
  | _ => y < x

/-- The conditions of `fcmp` (R213): a NaN makes every one false but `.ne` and `.un`. -/
def fholds (cc : Nat) (x y : FVal) : Bool :=
  let nan := x.isNaN || y.isNaN
  match cc with
  | 0 => !nan && x.eqv y
  | 1 => nan || !x.eqv y
  | 2 => !nan && x.lt y
  | 3 => !nan && !x.lt y
  | 4 => !nan && !y.lt x
  | 5 => !nan && y.lt x
  | 6 => nan
  | _ => !nan

/-- The smallest normal value of a format (R156). -/
def leastNormal (t : Fmt) : FVal := .fin false 1 (1 - (t.bias : Int))

/-- The one bit `fclass` sets (R215). -/
def fclassBits (t : Fmt) (x : FVal) : Nat :=
  match x with
  | .nan => 2 ^ 8
  | .inf neg => if neg then 1 else 2 ^ 7
  | .fin neg m _ =>
    if m = 0 then (if neg then 2 ^ 3 else 2 ^ 4)
    else if x.abs.lt (leastNormal t) then (if neg then 2 ^ 2 else 2 ^ 5)
    else (if neg then 2 ^ 1 else 2 ^ 6)

/-- A shuffle or permute read a dead lane (R127). -/
def Hart.setDeadSrc (h : Hart) : Hart := { h with wstat := h.wstat ||| 1 }

/-- The value a read of FSTAT gives: a proposal while PROP is set (R163). -/
def Hart.fstatValue (h : Hart) : TV := ⟨h.fstat, bitOf h.fstat 6⟩

/-- The bits a write of FSTAT and of WSTAT keeps (R127, R163). DEDUCED (log 82). -/
def fstatWritten (v : Word) : Word := v &&& 0x7F
def wstatWritten (v : Word) : Word := v &&& 3

end Sys2Proof.Machine
end

