-- ==== Sys2Proof/Machine/Operands.lean ====
section
/-! DEFINITION. The operands of both streams: which registers a word names, the waits for registers that a pending
load or atomic will write, the checks before a word executes, and the values it reads and writes (R42 to R45,
R117, R119, R136 to R138, R202 to R204). -/

namespace Sys2Proof.Machine

/-! ### Registers that are still to be written -/

/-- A register a pending access will write. -/
inductive RegName where
  | s (n : Nat)
  | v (n : Nat)
  | m (n : Nat)
deriving DecidableEq, Repr

/-- The registers a pending load will write (R234). DEDUCED (log 86). -/
def LoadReq.targets (q : LoadReq) : List RegName :=
  match q.form with
  | .sld | .sldc => if q.dst = 0 then [] else [.s q.dst]
  | .tagP | .tagX => [.m q.dst]
  | .pref | .acqS | .acqL => []
  | _ => (List.range (if q.esize = 8 then 2 * q.count else q.count)).map fun i => .v (q.dst + i)

/-- The registers an atomic will write. DEDUCED (log 86). -/
def AtomReq.targets (r : AtomReq) : List RegName :=
  match r.lane with
  | none => if r.dst = 0 then [] else [.s r.dst]
  | some _ => if r.size = 8 then [.v r.dst, .v (r.dst + 1)] else [.v r.dst]

/-- The atomics of a hart that have not been performed, with their operations. -/
def State.openAtomics (s : State) (hid : Nat) (h : Hart) : List (Nat × AtomReq) :=
  (h.storeQ.flatMap fun e => e.atoms.map fun r => (e.op, r)) ++
  (s.mem.flights.flatMap fun p => match p.2 with
    | some f =>
      if f.hart = hid then (match f.kind with
        | .atomics rs | .clusterAtomics _ rs | .netAtomics _ rs => rs.map fun r => (f.op, r)
        | _ => [])
      else []
    | none => [])

/-- Whether a load belongs to the S-stream. -/
def LoadReq.scalar (q : LoadReq) : Bool := q.form = .sld || q.form = .sldc || q.form = .acqS

/-- Whether poison has taken something from a hart between two states: a lane, or its task (R124, R192).
DEDUCED (log 34). -/
def lostTo (hid : Nat) (s t : State) : Bool :=
  match s.hart? hid, t.hart? hid with
  | some h, some k => decide (h.m0 ≠ k.m0 ∨ h.ended ≠ k.ended)
  | _, _ => false

/-- When a pending access of a stream finds poison as memory stands, the stream's accesses are performed before its
next word, loads in their order: from that word on a lane it kills executes nothing (R124). DEDUCED (log 34). -/
def State.consumePending (s : State) (hid : Nat) (h : Hart) (scalar : Bool) : Option State :=
  let loads := h.loads.filter fun q => q.scalar = scalar
  if loads.any fun q => lostTo hid s (s.performLoad hid q.op).1 then
    loads.head?.map fun q => (s.performLoad hid q.op).1
  else (((s.openAtomics hid h).filter fun p => p.2.lane.isNone = scalar).map fun p => s.performNow hid p.1).find? (lostTo hid s)

/-- The wait of a word that names a register a pending access will write, or that follows a pending acquire of its
own stream (R79), or an access that finds poison: the state after that access has been tried. None when nothing is
awaited. DEDUCED (log 86). -/
def State.awaitRegs (s : State) (hid : Nat) (h : Hart) (scalar : Bool) (names : List RegName) : Option State :=
  if h.loads.isEmpty && h.storeQ.isEmpty && s.mem.flights.isEmpty then none
  else match h.loads.find? fun q => (q.acq.isSome && q.scalar = scalar) || q.targets.any names.contains with
    | some q => some (s.performLoad hid q.op).1
    | none => match (s.openAtomics hid h).find? fun p => p.2.targets.any names.contains with
      | some p => some (s.performNow hid p.1)
      | none => s.consumePending hid h scalar

/-! ### The S-stream -/

/-- A word of the S-stream first waits for the registers it names, then checks those it reads for an uncorrectable error (R45);
then it goes on. -/
def State.withRegs (s : State) (hid : Nat) (h : Hart) (reads writes : List SReg) (k : State) : State :=
  match s.awaitRegs hid h true ((reads ++ writes).map fun r => .s r.toNat) with
  | some s1 => s1
  | none => if reads.any fun r => s.upsetAt (.scalarReg hid r.toNat) then s.trap hid .scalarPoison 0 else k

/-- A meaning of an S-stream form: the acting agent's stream, its registers there. -/
def onScalar (s : State) (reads writes : List SReg) (f : Nat → Hart → State) : Out :=
  match s.cur with
  | .scalar hid =>
    match s.hart? hid with
    | some h => .next (s.withRegs hid h reads writes (f hid h))
    | none => .fault .noAgent
  | .lane _ _ => .fault .noAgent

/-- As `onScalar`, for a form whose registers must be settled (R178): a proposal takes the tag fault. -/
def onSettled (s : State) (reads writes : List SReg) (f : Nat → Hart → State) : Out :=
  onScalar s reads writes fun hid h => if reads.any fun r => (h.getS r).tag then s.tagTrap hid else f hid h

/-- The registers of a group of `n` from a base. -/
def group (base : SReg) (n : Nat) : List SReg := (List.range n).map fun i => sreg (base.toNat + i)

/-! ### Registers a lane word names -/

/-- The lane registers a field names. -/
def fieldRegs (k : FieldKind) (ty : LType) (ksel : Bool) (x : BitVec 10) : List Nat :=
  if ksel then []
  else match k with
    | .reg => regsOf ty.pair x
    | .reg32 => [x.toNat]
    | .even => [x.toNat, x.toNat + 1]
    | _ => []

/-- Elements per lane of a memory word (R232, R233). -/
def memCount (op : Nat) (w : LaneFields) : Nat :=
  if op ≤ 0x5D then (match w.aux.toNat / 128 % 4 with | 1 => 2 | 2 => 4 | _ => 1) else 1

/-- A run of `n` registers. -/
def run (x : BitVec 10) (n : Nat) : List Nat := (List.range n).map (x.toNat + ·)

/-- Registers that hold the elements of a memory word's data (R234). -/
def memRegs (op : Nat) (w : LaneFields) : Nat := memCount op w * (if w.ty.pair then 2 else 1)

/-- Whether a lane atomic is `.cas` (R241). -/
def isCas (w : LaneFields) : Bool := w.ty.isInt && w.aux.toNat / 128 % 4 = 3

/-- The second type of a conversion (R167). -/
def type2 (w : LaneFields) : LType := (LType.ofCode (w.aux.toNat % 32)).getD .b32

/-- Whether a defect form names a lane register, a mask or a wide accumulator by its kind bits is told by its rule;
the lane registers a word reads, and those it writes (R43, R167, R206, R210, R218, R231, R234, R273). -/
def laneReads (op : Nat) (w : LaneFields) : List Nat :=
  match laneRule op w with
  | none => []
  | some r =>
    let b := if w.imm then [] else fieldRegs r.b w.ty w.kb w.b
    let a := fieldRegs r.a w.ty w.ka w.a
    let c := fieldRegs r.c w.ty w.kc w.c
    match op with
    | 0x11 => regsOf w.ty.pair w.d ++ a ++ b
    | 0x40 => run w.a (cvtCount (type2 w) w.ty)
    | 0x42 => run w.a w.ty.elems ++ b
    | 0x59 | 0x5B | 0x5D => a ++ b ++ (if w.kc then [] else run w.c (memRegs op w))
    | 0x5E | 0x5F => a ++ b ++ (if isCas w then run w.c (2 * (if w.ty.pair then 2 else 1)) else c)
    | _ => a ++ b ++ c

def laneWrites (op : Nat) (w : LaneFields) : List Nat :=
  match laneRule op w with
  | none => []
  | some r =>
    match op with
    | 0x40 => run w.d (cvtCount w.ty (type2 w))
    | 0x43 => run w.d (type2 w).elems
    | 0x58 | 0x5A | 0x5C => run w.d (memRegs op w)
    | 0x74 => if w.aux.toNat % 4 = 1 then run w.d 4 else []
    | _ => fieldRegs r.d w.ty false w.d

/-- The mask registers a word names (R136). -/
def laneMasks (op : Nat) (w : LaneFields) : List Nat :=
  match laneRule op w with
  | none => []
  | some r =>
    (if r.d = .mask then [w.d.toNat] else []) ++ (if r.a = .mask then [w.a.toNat] else []) ++
    (if r.msel then [w.msel.toNat] else [])

/-- The wide accumulators a word names (R273). -/
def laneWides (op : Nat) (w : LaneFields) : List Nat :=
  match laneRule op w with
  | none => []
  | some r =>
    (if r.d = .wide then [w.d.toNat] else []) ++ (if r.a = .wide then [w.a.toNat] else []) ++
    (if r.b = .wide then [w.b.toNat] else [])

/-! ### Executing a lane word -/

/-- What a lane meaning works on: its hart, slot, executed lanes, shadow bit, declared registers, and the counter of free
values. -/
structure LaneCtx where
  hid : Nat
  slot : Bool
  h : Hart
  lanes : List Nat
  shadow : Bool
  declared : Nat
  free : Nat

/-- The context of a slot. -/
def State.laneCtx (s : State) (hid : Nat) (h : Hart) (slot : Bool) : LaneCtx :=
  ⟨hid, slot, h, lanesOf (h.live slot), (h.slot slot).shadow, s.declared h, s.free⟩

/-- The mask of the executed lanes. -/
def LaneCtx.mask (c : LaneCtx) : Word32 := c.h.live c.slot

/-- The least of a list of numbers. -/
def least : List Nat → Option Nat
  | [] => none
  | n :: ns => match least ns with
    | none => some n
    | some m => some (min n m)

/-- The registers a word names at or beyond the declared count, a wide accumulator that is not enabled counting as
declared count plus 12 n (R43, R44). -/
def State.indexFault (s : State) (h : Hart) (regs wides : List Nat) : Option Nat :=
  let d := s.declared h
  least ((regs.filter fun r => d ≤ r) ++ (if s.wideOn h then [] else wides.map (wideBase d)))

/-- The executed lanes that read a register holding an uncorrectable error (R45). -/
def State.struck (s : State) (hid : Nat) (regs : List Nat) (lanes : Word32) : Word32 :=
  if s.mem.upsets.isEmpty then 0
  else maskOf ((lanesOf lanes).filter fun l => regs.any fun r => s.upsetAt (.laneReg hid r l))

/-- The hidden registers of a wide accumulator that hold its integer and its exponent word (R44, R270). -/
def valueRegs : List Nat := List.range 9

/-- Those that hold its correction record (R271). -/
def recordRegs : List Nat := [9, 10, 11]

/-- The wide accumulators a word reads, each with the registers it reads there (R273): `dinit` and a reset read none. -/
def wideReads (op : Nat) (w : LaneFields) : List (Nat × List Nat) :=
  match op with
  | 0x71 => [(w.d.toNat, valueRegs)]
  | 0x72 => [(w.a.toNat, valueRegs)]
  | 0x73 => [(w.b.toNat, valueRegs ++ recordRegs)]
  | 0x74 => if w.aux.toNat % 4 = 0 then [] else [(w.a.toNat, 8 :: recordRegs)]
  | 0x75 | 0x76 => if w.aux.toNat % 4 = 2 then [(w.a.toNat, [8])] else []
  | _ => []

/-- Whether a restored hart has a named register in a granule not yet filled (R355). -/
def Hart.absentAny (h : Hart) (regs : List Nat) : Bool :=
  !h.absent.isEmpty && regs.any fun r => h.absent.contains (r / 16)

/-- The registers in which each executed lane of a word reads its own lane, beside a declared count: a shuffle or permute
reads its data in other lanes (R218). -/
def laneOwn (op : Nat) (w : LaneFields) (declared : Nat) : List Nat :=
  match op, laneRule op w with
  | 0x50, some r => if w.imm then [] else fieldRegs r.b w.ty w.kb w.b
  | 0x51, some r => fieldRegs r.c w.ty w.kc w.c
  | _, _ => laneReads op w ++ (wideReads op w).flatMap fun p => p.2.map (wideBase declared p.1 + ·)

/-- The lanes in which a word may read: a memory word's guard excludes the others (R235). -/
def laneGuard (op : Nat) (w : LaneFields) (h : Hart) : Word32 :=
  if 0x58 ≤ op ∧ op ≤ 0x61 then (h.getM w.msel.toNat).bits else BitVec.allOnes 32

/-- A lane word on registers named by lists: waits for what is still to be written or filled; the register-index
check (R43); lanes that read an uncorrectable error die first (R45), `own` being what each lane of `guard` reads of its own;
then the meaning. -/
def laneWith (s : State) (reads writes masks wides : List Nat) (own : Nat → List Nat) (guard : Hart → Word32)
    (f : LaneCtx → State → State) : Out :=
  match s.cur with
  | .lane hid slot =>
    match s.hart? hid with
    | some h =>
      match s.indexFault h (reads ++ writes) wides with
      | some i => .next (s.laneTrap hid slot .register 0 true h.m0 (BitVec.ofNat 64 i))
      | none =>
        if h.absentAny (reads ++ writes) then .next s
        else match s.awaitRegs hid h false ((reads ++ writes).map .v ++ masks.map .m) with
          | some s1 => .next s1
          | none =>
            let hit := s.struck hid (own (s.declared h)) (h.live slot &&& guard h)
            if hit = 0 then .next (f (s.laneCtx hid h slot) s)
            else
              let s1 := s.killLanes hid (wordKills slot) hit (h.laneAddr slot)
              match s1.hart? hid with
              | some h1 => if h1.ended.isSome then .next s1 else .next (f (s1.laneCtx hid h1 slot) s1)
              | none => .next s1
    | none => .fault .noAgent
  | .scalar _ => .fault .noAgent

/-- A single lane word (R135): the registers its fields name, then its meaning. -/
def laneWord (op : Nat) (w : LaneFields) (s : State) (f : LaneCtx → State → State) : Out :=
  laneWith s (laneReads op w) (laneWrites op w) (laneMasks op w) (laneWides op w) (laneOwn op w) (laneGuard op w) f

/-! ### Values -/

/-- A value of up to 64 bits with its tag. -/
structure Val where
  n : Nat
  tag : Bool
deriving DecidableEq, Repr

/-- A lane register or pair. -/
def LaneCtx.reg (c : LaneCtx) (wide : Bool) (r l : Nat) : Val :=
  if wide then ⟨(c.h.getV64 r l).val.toNat, (c.h.getV64 r l).tag⟩ else ⟨(c.h.getV r l).val.toNat, (c.h.getV r l).tag⟩

/-- An entry of the block's k snapshot: all 64 bits, or bits 31:0 (R117, R136). -/
def LaneCtx.ksnap (c : LaneCtx) (wide : Bool) (k : Nat) : Val :=
  match c.h.block with
  | some b =>
    let x := SMapOps.get TV.zero b.ksnap k
    ⟨if wide then x.val.toNat else x.val.toNat % 2 ^ 32, x.tag⟩
  | none => ⟨0, false⟩

/-- A source operand: a register, a pair, or a k snapshot entry. -/
def LaneCtx.src (c : LaneCtx) (wide ksel : Bool) (x : BitVec 10) (l : Nat) : Val :=
  if ksel then c.ksnap wide (x.toNat % 16) else c.reg wide x.toNat l

/-- The value imm16 gives operand b (R138). -/
def immValue (ty : LType) (i : BitVec 16) : Nat :=
  match ty with
  | .b32 | .n32 | .b64 | .n64 => i.toNat
  | .i32 => wrap 32 (signedOf 16 i.toNat)
  | .i64 => wrap 64 (signedOf 16 i.toNat)
  | .i8 | .n8 => (i.toNat % 256) * 0x01010101
  | .f32 | .a26 => i.toNat * 0x10000
  | .f64 => fmtF64.encode (fmtBf16.decode i.toNat)
  | _ => i.toNat * 0x10001

/-- Operands a, b and c in the word's type. -/
def LaneCtx.a (c : LaneCtx) (w : LaneFields) (l : Nat) : Val := c.src w.ty.pair w.ka w.a l
def LaneCtx.b (c : LaneCtx) (w : LaneFields) (l : Nat) : Val :=
  if w.imm then ⟨immValue w.ty w.imm16, false⟩ else c.src w.ty.pair w.kb w.b l
def LaneCtx.c (c : LaneCtx) (w : LaneFields) (l : Nat) : Val := c.src w.ty.pair w.kc w.c l

/-- Operand b read as 32 bits, imm16 as the type `ty` reads it (R210, R219). -/
def LaneCtx.b32 (c : LaneCtx) (ty : LType) (w : LaneFields) (l : Nat) : Val :=
  if w.imm then ⟨immValue ty w.imm16, false⟩ else c.src false w.kb w.b l

/-- Bit and tag of a mask register. -/
def MaskReg.bit (m : MaskReg) (l : Nat) : Bool := m.bits.getLsbD l
def MaskReg.tag (m : MaskReg) (l : Nat) : Bool := m.tags.getLsbD l

/-- The selector or guard of a word. -/
def LaneCtx.msel (c : LaneCtx) (w : LaneFields) : MaskReg := c.h.getM w.msel.toNat

/-- Element `i` of a packed value (R137). -/
def elemOf (t : LType) (n i : Nat) : Nat := (n >>> (t.width * i)) % 2 ^ t.width

/-- The elements of one register or pair, in order. -/
def unpack (t : LType) (n : Nat) : List Nat := (List.range t.elems).map (elemOf t n)

/-- Elements packed into a register, element 0 lowest. -/
def pack (t : LType) : List Nat → Nat
  | [] => 0
  | x :: xs => x % 2 ^ t.width + pack t xs * 2 ^ t.width

/-! ### Results -/

/-- One lane's write of a register or pair. -/
structure RegWrite where
  reg : Nat
  lane : Nat
  wide : Bool
  n : Nat
  tag : Bool
deriving DecidableEq, Repr

/-- One lane's write of a mask bit. -/
structure MaskWrite where
  lane : Nat
  bit : Bool
  tag : Bool
deriving DecidableEq, Repr

/-- What a word writes: registers, bits of one mask register, sticky status, and whether it read a dead lane. -/
structure LaneOut where
  regs : List RegWrite
  mask : Option (Nat × List MaskWrite)
  st : Stat
  dead : Bool
deriving DecidableEq, Repr

def LaneOut.none : LaneOut := ⟨[], Option.none, 0, false⟩

/-- Register writes alone, with their status. -/
def LaneOut.ofRegs (rs : List (RegWrite × Stat)) : LaneOut :=
  ⟨rs.map Prod.fst, Option.none, rs.foldl (fun st r => st ||| r.2) 0, false⟩

/-- Mask writes alone. -/
def LaneOut.ofMask (m : Nat) (ws : List MaskWrite) : LaneOut := ⟨[], some (m, ws), 0, false⟩

/-- Two words' worth of register writes. -/
def LaneOut.both (x y : LaneOut) : LaneOut := ⟨x.regs ++ y.regs, x.mask.orElse fun _ => y.mask, x.st ||| y.st, x.dead || y.dead⟩

/-- Whether the word's result is a proposal (R163). DEDUCED (log 42). -/
def LaneOut.prop (o : LaneOut) : Bool := o.regs.any (·.tag)

/-- Applies register writes to a hart. -/
def Hart.putRegs (h : Hart) (rs : List RegWrite) : Hart :=
  h.atOnce fun h => rs.foldl (fun h r =>
    if r.wide then (h.setV r.reg r.lane ⟨BitVec.ofNat 32 r.n, r.tag⟩).setV (r.reg + 1) r.lane ⟨BitVec.ofNat 32 (r.n >>> 32), r.tag⟩
    else h.setV r.reg r.lane ⟨BitVec.ofNat 32 r.n, r.tag⟩) h

/-- Applies mask writes to a hart. -/
def Hart.putMask (h : Hart) (m : Nat) (ws : List MaskWrite) : Hart :=
  h.setM m (ws.foldl (fun r w => r.setLane w.lane w.bit w.tag) (h.getM m))

/-- Everything a word writes, to a hart. -/
def Hart.putOut (h : Hart) (o : LaneOut) : Hart :=
  let h1 := (h.putRegs o.regs).orStat o.st o.prop
  let h2 := match o.mask with | some (m, ws) => h1.putMask m ws | none => h1
  if o.dead then h2.setDeadSrc else h2

/-- The registers and lanes that writes replace. -/
def RegWrite.targets (r : RegWrite) : List (Nat × Nat) :=
  if r.wide then [(r.reg, r.lane), (r.reg + 1, r.lane)] else [(r.reg, r.lane)]

/-- Writes a word's results (R202); an upset under a written register is gone. -/
def State.commit (s : State) (hid : Nat) (o : LaneOut) : State :=
  let s1 := s.modHart hid (·.putOut o)
  if s.mem.upsets.isEmpty then s1
  else (o.regs.flatMap RegWrite.targets).foldl (fun s p => s.clearUpset (.laneReg hid p.1 p.2)) s1

/-- Writes the results of two operations that issue as one word: one moment (R143, R226). -/
def State.commitBoth (s : State) (hid : Nat) (x y : LaneOut) : State :=
  let s1 := s.modHart hid (·.atOnce fun h => (h.putOut x).putOut y)
  if s.mem.upsets.isEmpty then s1
  else ((x.regs ++ y.regs).flatMap RegWrite.targets).foldl (fun s p => s.clearUpset (.laneReg hid p.1 p.2)) s1

/-- A lane word that computes: it writes what `f` gives and moves on (R202). -/
def laneCompute (op : Nat) (w : LaneFields) (s : State) (f : LaneCtx → LaneFields → LaneOut) : Out :=
  laneWord op w s fun c s => (s.commit c.hid (f c w)).laneNext c.hid c.slot

/-- One result for each executed lane, in the word's type. -/
def LaneCtx.each (c : LaneCtx) (w : LaneFields) (f : Nat → Val × Stat) : LaneOut :=
  LaneOut.ofRegs (c.lanes.map fun l => let r := f l; (⟨w.d.toNat, l, w.ty.pair, r.1.n, r.1.tag⟩, r.2))

/-- One mask bit for each executed lane. -/
def LaneCtx.eachBit (c : LaneCtx) (w : LaneFields) (f : Nat → Bool × Bool) : LaneOut :=
  LaneOut.ofMask w.d.toNat (c.lanes.map fun l => ⟨l, (f l).1, (f l).2⟩)

end Sys2Proof.Machine
end

