-- ==== Sys2Proof/Machine/ScalarMem.lean ====
section
/-! DEFINITION. Scalar memory accesses and fences (R191 to R193, R195). -/

namespace Sys2Proof.Machine

/-- An address with its low bits cleared to a size, which is a power of two (R192). -/
def alignTo (a : Word) (size : Nat) : Word := BitVec.ofNat 64 (a.toNat / size * size)

/-- The effective address of `sld` and `sst` (R192). -/
def scalarEa (a : Word) (sz : Size) (off : BitVec 5) : Word :=
  alignTo (a + BitVec.ofNat 64 (off.toNat * sz.bytes)) sz.bytes

/-- Checks a scalar access (R28): its place, or the state its failure leaves. `tag` is that of the data, which a tagless
place refuses before D is set (R21, R65). -/
def State.scalarCheck (s : State) (hid : Nat) (h : Hart) (a : Access) (kind : AccessKind) (tag : Bool) (ea : Word) :
    State × Option LaneAcc :=
  let r := s.checkLanes h.site (s.hartVf h) a (fun x => tag && s.tagless x) [⟨0, ea, false⟩]
  match r.2.1, r.2.2 with
  | [x], [] => (r.1, some (LaneX.acc x))
  | _, fs => (r.1.failAccess hid false kind h.pc fs, none)

/-- Checks a scalar access to the cluster store (R9). -/
def State.scalarClusterCheck (s : State) (hid : Nat) (h : Hart) (kind : AccessKind) (ea : Word) (len : Nat) :
    State × Option LaneAcc :=
  let size := match s.unit? h.unit with | some g => g.csize | none => 0
  match clusterCheck size ea len with
  | some c => (s.failAccess hid false kind h.pc [⟨0, ea, c, 15⟩], none)
  | none => (s, some ⟨0, ea, ea.toNat, .normal, false⟩)

/-- Issues a scalar load and moves on; an acquire load is performed at once where it can be (R79, R192). -/
def State.scalarLoad (s : State) (hid : Nat) (h : Hart) (form : LoadForm) (acc : LaneAcc) (d : SReg) (o : Ord) (sz : Size) :
    State :=
  let acq := if o.str = .plain then none else some o.obs
  let r := s.issueLoad hid true fun op =>
    ⟨op, form, [acc], sz.bytes, 1, false, d.toNat, acq, h.pc, .scalarLoad, [], 0, .walker⟩
  let s1 := r.1.nextPc hid
  if acq.isSome then (s1.performLoad hid r.2).1 else s1

/-- `sld` (R192). -/
def execSld (d a : SReg) (o : Ord) (sz : Size) (off : BitVec 5) (s : State) : Out :=
  onSettled s [a] [d] fun hid h =>
    if h.full .ld then s.stallsOn hid true .ld
    else
      let r := s.scalarCheck hid h accRead .scalarLoad false (scalarEa (h.getS a).val sz off)
      match r.2 with
      | none => r.1
      | some acc => r.1.scalarLoad hid h .sld acc d o sz

/-- `sldc` (R192). -/
def execSldc (d a : SReg) (o : Ord) (sz : Size) (s : State) : Out :=
  onSettled s [a] [d] fun hid h =>
    if h.full .ld then s.stallsOn hid true .ld
    else
      let r := s.scalarClusterCheck hid h .scalarLoad (alignTo (h.getS a).val sz.bytes) sz.bytes
      match r.2 with
      | none => r.1
      | some acc => r.1.scalarLoad hid h .sldc acc d o sz

/-- A checked scalar store: after the pending loads that read its location, its release part, then the store
(R72, R78, R192). -/
def State.scalarStore (s : State) (hid : Nat) (cluster : Bool) (acc : LaneAcc) (x : TV) (o : Ord) (sz : Size) : State :=
  let r := s.loadsBefore hid cluster sz.bytes [acc]
  if !r.2 then r.1
  else r.1.withRelease hid o true fun s =>
    let part : StorePart := ⟨acc.pa, sz.bytes, x.val.toNat % 2 ^ (8 * sz.bytes), x.tag⟩
    let f := s.fresh
    let s1 := if o.str = .rel then f.2.storeRelease hid f.1 cluster [(acc.mt, part)]
      else if cluster then f.2.enqueue hid f.1 [writeEntry f.1 .cluster false (sectorWrites [part])]
      else f.2.enqueue hid f.1 (storeEntries f.1 false [(acc.mt, part)])
    s1.nextPc hid

/-- `sst` (R192): a proposal stored where no tag can be held takes the tag fault (R65). -/
def execSst (d a : SReg) (o : Ord) (sz : Size) (off : BitVec 5) (s : State) : Out :=
  onScalar s [d, a] [] fun hid h =>
    if (h.getS a).tag then s.tagTrap hid
    else if h.full .st then s.stallsOn hid true .st
    else
      let r := s.scalarCheck hid h accWrite .scalarStore (h.getS d).tag (scalarEa (h.getS a).val sz off)
      match r.2 with
      | none => r.1
      | some acc =>
        if (h.getS d).tag && r.1.tagless acc then r.1.tagTrap hid
        else r.1.scalarStore hid false acc (h.getS d) o sz

/-- `sstc` (R192). -/
def execSstc (d a : SReg) (o : Ord) (sz : Size) (s : State) : Out :=
  onScalar s [d, a] [] fun hid h =>
    if (h.getS a).tag then s.tagTrap hid
    else if h.full .st then s.stallsOn hid true .st
    else
      let r := s.scalarClusterCheck hid h .scalarStore (alignTo (h.getS a).val sz.bytes) sz.bytes
      match r.2 with
      | none => r.1
      | some acc => r.1.scalarStore hid true acc (h.getS d) o sz

/-- The operation of a scalar or inbound atomic's AOP (R193). -/
def scalarAop (n : BitVec 4) : AtomOp :=
  match n.toNat with
  | 0 => .add | 1 => .and | 2 => .or | 3 => .xor | 4 => .smin | 5 => .smax | 6 => .umin | 7 => .umax | 8 => .swap
  | _ => .cas

/-- `satom` (R193). -/
def execSatom (d a : SReg) (o : Ord) (wide : Bool) (aop : BitVec 4) (s : State) : Out :=
  let cas := decide (scalarAop aop = .cas)
  let d1 := sreg (d.toNat + 1)
  onScalar s (if cas then [d, d1, a] else [d, a]) [d] fun hid h =>
    if (h.getS a).tag then s.tagTrap hid
    else if h.full .ld || h.full .st then s.stallsOn hid true (if h.full .ld then .ld else .st)
    else
      let size := if wide then 8 else 4
      let tag := (h.getS d).tag || (cas && (h.getS d1).tag)
      let r := s.scalarCheck hid h accAtomic .scalarAtomic tag (alignTo (h.getS a).val size)
      match r.2 with
      | none => r.1
      | some acc =>
        if tag && r.1.tagless acc then r.1.tagTrap hid
        else
          let p := r.1.loadsBefore hid false size [acc]
          if !p.2 then p.1
          else p.1.withRelease hid o true fun s =>
            let f := s.fresh
            let n := 2 ^ (8 * size)
            let req : AtomReq := ⟨none, acc.pa, size, scalarAop aop, (h.getS d).val.toNat % n, (h.getS d1).val.toNat % n,
              tag, false, d.toNat, h.pc⟩
            ((f.2.enqueueAtomic hid f.1 false (o.str = .rel || o.str = .ar) [req]).nextPc hid).atomFinish hid f.1 true o h.pc

/-- `sfence` (R78 to R82, R195). -/
def execSfence (o : Ord) (s : State) : Out :=
  onScalar s [] [] fun hid _ =>
    s.withRelease hid o true fun s =>
      (if o.str = .rel then s else s.acquire hid o.obs).nextPc hid

end Sys2Proof.Machine
end

