-- ==== Sys2Proof/Machine/FloatFns.lean ====
section
/-! DEFINITION. The correctly rounded functions of f32 (R165, R211, R214). Each is evaluated in fixed point with
`P` fraction bits and an error bound; the result is taken once both ends of the interval round alike, so what is
returned is the exact value rounded once. Exact cases are handled apart: elsewhere the functions are irrational
on the finite operands. -/

namespace Sys2Proof

open Machine

/-- An approximation in fixed point: the true value times `2^P` lies within `err` of `v`. -/
structure Approx where
  v : Int
  err : Nat
deriving DecidableEq, Repr

/-- Terms `c, c*z/d, …` of a series summed in fixed point: `k` terms of `t_{i+1} = t_i * z2 / 2^P`, each divided
by `2i + 1`, with alternating sign where `alt`. -/
def atanSeries (P : Nat) (alt : Bool) (z2 : Nat) : Nat → Nat → Nat → Int
  | 0, _, _ => 0
  | k + 1, i, t =>
    let term : Int := (t / (2 * i + 1) : Nat)
    (if alt && i % 2 = 1 then -term else term) + atanSeries P alt z2 k (i + 1) ((t * z2) >>> P)

/-- `atanh` or `atan` of `a / b` at most 1/3, in fixed point with `P` bits. -/
def atanSmall (P : Nat) (alt : Bool) (a b : Nat) : Approx :=
  let z := (a <<< P) / b
  let z2 := (z * z) >>> P
  ⟨atanSeries P alt z2 (P / 3 + 2) 0 z, 4 * P + 16⟩

/-- The natural logarithm of 2, as 2 atanh(1/3). -/
def ln2 (P : Nat) : Approx :=
  let a := atanSmall P false 1 3
  ⟨2 * a.v, 2 * a.err⟩

/-- π, by Machin's formula. -/
def piFix (P : Nat) : Approx :=
  let a := atanSmall P true 1 5
  let b := atanSmall P true 1 239
  ⟨16 * a.v - 4 * b.v, 16 * a.err + 4 * b.err⟩

/-- The sum of `t^i / i!` over `i` from `i` on, `k` terms, in fixed point; `sgn` gives the sign of term `i`, or
none to leave it out. -/
def expSeries (P : Nat) (t : Nat) (sgn : Nat → Option Bool) : Nat → Nat → Nat → Int
  | 0, _, _ => 0
  | k + 1, i, term =>
    (match sgn i with
     | none => 0
     | some n => if n then -(term : Int) else term) +
      expSeries P t sgn k (i + 1) ((term * t / (i + 1)) >>> P)

/-- Enough terms of an exponential series below 2 for `P` bits. -/
def expTerms (P : Nat) : Nat := P / 4 + 40

/-- An exponential, sine or cosine series at `t`, itself within `terr` of its true value below 2. -/
def seriesAt (P : Nat) (t : Nat) (terr : Nat) (sgn : Nat → Option Bool) : Approx :=
  ⟨expSeries P t sgn (expTerms P) 0 (2 ^ P), 16 * terr + 16 * expTerms P + 64⟩

/-- The value `v / 2^P`, never exact: a sticky bit is set below it. -/
def jam (neg : Bool) (v : Nat) (k : Int) : FVal := .fin neg (2 * v + 1) (k - 1)

/-- Rounds an irrational value known to lie within an interval, at `2^k` units: none when the ends differ.
DEDUCED (log 88). -/
def roundBoth (md : Rnd) (neg : Bool) (a : Approx) (k : Int) : Option (FVal × Stat) :=
  let lo := a.v - (a.err : Int)
  let hi := a.v + (a.err : Int)
  if lo ≤ 0 then none
  else
    let p := fmtF32.round md (jam neg lo.toNat k)
    let q := fmtF32.round md (jam neg hi.toNat k)
    if fmtF32.encode p.1 = fmtF32.encode q.1 ∧ p.2 = q.2 then some p else none

/-- Tries precisions in turn. DEDUCED (log 88). -/
def refine (try' : Nat → Option (FVal × Stat)) : List Nat → FVal × Stat
  | [] => (.nan, stNone)
  | P :: Ps => match try' P with
    | some r => r
    | none => refine try' Ps

/-- The precisions tried; f32 results are decided well before the last. DEDUCED (log 88). -/
def precisions : List Nat := [128, 256, 512, 1024]

/-- Whole part, downward, and fraction in `P` bits, of `m * 2^e` with a sign; the fraction is exact when
`-e` is at most `P`. -/
def splitAt (P : Nat) (neg : Bool) (m : Nat) (e : Int) : Int × Nat :=
  let z := shiftInt m (e + (P : Int))
  let exact := 0 ≤ e + (P : Int) || m % 2 ^ (-(e + (P : Int))).toNat = 0
  let w : Int := if neg then -((z : Int) + (if exact then 0 else 1)) else z
  (w / ((2 ^ P : Nat) : Int), (w % ((2 ^ P : Nat) : Int)).toNat)

/-- Whether a finite value is an integer, and which. -/
def intOf (neg : Bool) (m : Nat) (e : Int) : Option Int :=
  let s (n : Nat) : Int := if neg then -(n : Int) else n
  if 0 ≤ e then some (s (m <<< e.toNat))
  else if m % 2 ^ (-e).toNat = 0 then some (s (m >>> (-e).toNat)) else none

/-- `2^x` (R214). DEDUCED (log 88). -/
def fexp2Of (md : Rnd) (x : FVal) : FVal × Stat :=
  match x with
  | .nan => (.nan, stNone)
  | .inf n => ((if n then .fin false 0 0 else x), stNone)
  | .fin neg m e =>
    match intOf neg m e with
    | some n => fmtF32.round md (.fin false 1 n)
    | none =>
      refine (fun P =>
        let q := splitAt P neg m e
        let l := ln2 P
        let t := (q.2 * l.v.toNat) >>> P
        let a := seriesAt P t (l.err + 4) (fun _ => some false)
        roundBoth md false a (q.1 - (P : Int))) precisions

/-- `log2 x` (R214). DEDUCED (log 88). -/
def flog2Of (md : Rnd) (x : FVal) : FVal × Stat :=
  match x with
  | .nan => (.nan, stNone)
  | .inf n => if n then (.nan, stNV) else (x, stNone)
  | .fin neg m e =>
    if m = 0 then (.inf true, stDZ)
    else if neg then (.nan, stNV)
    else
      let k := e + (bitLen m : Int) - 1
      if m = 2 ^ (bitLen m - 1) then fmtF32.round md (FVal.ofInt k)
      else
        refine (fun P =>
          let one := 2 ^ (bitLen m - 1)
          let a := atanSmall P false (m - one) (m + one)
          let l := ln2 P
          let fr := (2 * a.v * ((2 ^ P : Nat) : Int)) / l.v
          let total := k * ((2 ^ P : Nat) : Int) + fr
          let err := 4 * a.err + 4 * l.err + 8
          roundBoth md (decide (k < 0)) ⟨(if k < 0 then -total else total), err⟩ (-(P : Int))) precisions

/-- `1 / x` (R214). -/
def frcpOf (md : Rnd) (x : FVal) : FVal × Stat :=
  let r := (FVal.fin false 1 0).div x
  let q := fmtF32.round md r.1
  (q.1, r.2 ||| q.2)

/-- `1 / √x` (R214): the root of a reciprocal taken to twice the bits kept, with a sticky bit. -/
def frsqOf (md : Rnd) (x : FVal) : FVal × Stat :=
  match x with
  | .nan => (.nan, stNone)
  | .inf n => if n then (.nan, stNV) else (.fin false 0 0, stNone)
  | .fin neg m e =>
    if m = 0 then (.inf neg, stDZ)
    else if neg then (.nan, stNV)
    else
      let odd := decide (e % 2 ≠ 0)
      let m1 := if odd then 2 * m else m
      let e1 := if odd then e - 1 else e
      let top := 2 ^ (2 * guardBits + 2 * bitLen m1)
      let r := isqrt (top / m1)
      fmtF32.round md (.fin false (2 * r + (if r * r * m1 = top then 0 else 1))
        (-(e1 / 2) - ((guardBits + bitLen m1 : Nat) : Int) - 1))

def sinSign (i : Nat) : Option Bool := if i % 2 = 0 then none else some (decide (i % 4 = 3))
def cosSign (i : Nat) : Option Bool := if i % 2 = 1 then none else some (decide (i % 4 = 2))

/-- The magnitude of sin or cos of `π q` for a fraction `q` of a half turn's quarter, in fixed point. -/
def trigAt (P : Nat) (q : Nat) (sgn : Nat → Option Bool) : Approx :=
  let p := piFix P
  seriesAt P ((q * p.v.toNat) >>> P) (2 * p.err + 4) sgn

/-- `sin(πr)` for `0 < r < 1`, `r` a fraction of `P` bits, folded to at most one half and then one quarter.
DEDUCED (log 88). -/
def sinPiAt (P : Nat) (r : Nat) : Approx :=
  let half := 2 ^ (P - 1)
  let q := if half < r then 2 ^ P - r else r
  if 2 * q ≤ half then trigAt P q sinSign else trigAt P (half - q) cosSign

/-- `sin(πx)` (R214): zero at the integers, ±1 at the half integers, irrational elsewhere. -/
def fsinpiOf (md : Rnd) (x : FVal) : FVal × Stat :=
  match x with
  | .nan => (.nan, stNone)
  | .inf _ => (.nan, stNV)
  | .fin neg m e =>
    if m = 0 ∨ (intOf false m e).isSome then (.fin neg 0 0, stNone)
    else
      match intOf neg m (e + 1) with
      | some h => (.fin (decide (h % 4 = 3)) 1 0, stNone)
      | none =>
        refine (fun P =>
          let q := splitAt P false m e
          let a := sinPiAt P q.2
          roundBoth md (neg != decide (q.1 % 2 = 1)) { a with err := a.err + 8 } (-(P : Int))) precisions

/-- `cos(πx)` (R214): zero at the half integers, ±1 at the integers, irrational elsewhere. -/
def fcospiOf (md : Rnd) (x : FVal) : FVal × Stat :=
  match x with
  | .nan => (.nan, stNone)
  | .inf _ => (.nan, stNV)
  | .fin _ m e =>
    match intOf false m e with
    | some n => (.fin (decide (n % 2 = 1)) 1 0, stNone)
    | none =>
      match intOf false m (e + 1) with
      | some _ => (.fin false 0 0, stNone)
      | none =>
        refine (fun P =>
          let q := splitAt P false m e
          let half := 2 ^ (P - 1)
          let below := decide (q.2 < half)
          let d := if below then half - q.2 else q.2 - half
          let a := if d = half then trigAt P q.2 cosSign else sinPiAt P d
          roundBoth md (decide (q.1 % 2 = 1) != !below) { a with err := a.err + 8 } (-(P : Int))) precisions

/-- Squares an approximation below 1, `k` times. -/
def squareFix (P : Nat) : Nat → Approx → Approx
  | 0, a => a
  | k + 1, a => squareFix P k ⟨a.v * a.v / ((2 ^ P : Nat) : Int), 2 * a.err + 2⟩

/-- `tanh x` (R214). With `u = e^(-2|x|)`, the magnitude is `(1 - u) / (1 + u)`; a tiny operand gives just less
than itself, a large one just less than 1. DEDUCED (log 88). -/
def ftanhOf (md : Rnd) (x : FVal) : FVal × Stat :=
  match x with
  | .nan => (.nan, stNone)
  | .inf n => (.fin n 1 0, stNone)
  | .fin neg m e =>
    if m = 0 then (x, stNone)
    else
      let top := e + (bitLen m : Int)
      if top < -40 then fmtF32.round md (.fin neg (m <<< 64 - 1) (e - 64))
      else if 6 < top then fmtF32.round md (.fin neg (2 ^ 100 - 1) (-100))
      else
        refine (fun P =>
          let y := shiftInt m (e + 1 + (P : Int) - 7)
          let a := squareFix P 7 (seriesAt P y 1 (fun i => some (decide (i % 2 = 1))))
          let one : Int := ((2 ^ P : Nat) : Int)
          let v := (one - a.v) * one / (one + a.v)
          roundBoth md neg ⟨v, 4 * a.err + 4⟩ (-(P : Int))) precisions

end Sys2Proof
end

