-- ==== Sys2Proof/Machine/Scalar.lean ====
section
/-! DEFINITION. S-stream arithmetic, logic, immediates, constants and control transfer (R177 to R187). -/

namespace Sys2Proof.Machine

/-! ### Shared shapes -/

/-- Writes a result and moves on. -/
def State.result (s : State) (hid : Nat) (d : SReg) (x : TV) : State := (s.setS hid d x).nextPc hid

/-- A two-source form: d := f a b, tagged by both (R177). -/
def alu (s : State) (d a b : SReg) (f : Word → Word → Word) : Out :=
  onScalar s [a, b] [d] fun hid h =>
    s.result hid d ⟨f (h.getS a).val (h.getS b).val, (h.getS a).tag || (h.getS b).tag⟩

/-- A one-source form, and a form with an immediate: d := f a, tagged by a (R177, R183). -/
def alu1 (s : State) (d a : SReg) (f : Word → Word) : Out :=
  onScalar s [a] [d] fun hid h => s.result hid d ⟨f (h.getS a).val, (h.getS a).tag⟩

/-- A branch: to the target when taken, else to the next word (R185). -/
def State.branch (s : State) (hid : Nat) (taken : Bool) (target : Word) : State :=
  s.modHart hid fun h => { h with pc := if taken then target else h.pc + 4 }

/-- A word offset from the address of this word (R133, R185). -/
def wordTarget (pc : Word) (off : Int) : Word := pc + BitVec.ofInt 64 (4 * off)

/-- An address from a register: bits 1:0 ignored (R131). -/
def codeTarget (a : Word) : Word := a &&& ~~~3#64

/-- A sign-extended immediate (R183, R184). -/
def simm {n : Nat} (i : BitVec n) : Word := i.signExtend 64

/-! ### Values (R180 to R182) -/

/-- The high half of a product of integers (R180). -/
def mulHigh (x y : Int) : Word := BitVec.ofInt 64 (x * y / (2 ^ 64 : Nat))

/-- Signed quotient and remainder, with the corners of R181. -/
def sdivOf (a b : Word) : Word := if b = 0 then 0 else BitVec.ofInt 64 (a.toInt.tdiv b.toInt)
def sremOf (a b : Word) : Word := if b = 0 then a else BitVec.ofInt 64 (a.toInt.tmod b.toInt)
def sdivnOf (a b : Word) : Word := if b = 0 then 0 else BitVec.ofNat 64 (a.toNat / b.toNat)
def sremnOf (a b : Word) : Word := if b = 0 then a else BitVec.ofNat 64 (a.toNat % b.toNat)

/-- The shift count: bits 5:0 (R180). -/
def shiftCount (b : Word) : Nat := b.toNat % 64

def sraOf (a b : Word) : Word := a.sshiftRight (shiftCount b)

/-- The conditions of `scmp`: the signed orders of `holds`, then the two unsigned ones (R182). -/
def scmpHolds (cc : BitVec 3) (a b : Word) : Bool :=
  match cc.toNat with
  | 6 => a.toNat < b.toNat
  | 7 => b.toNat ≤ a.toNat
  | n => holds n a.toInt b.toInt

/-- The field of R181 that b names, clipped to the register's end: offset and width; none when it is empty. -/
def fieldOf (w : Nat) (b : Nat) : Option (Nat × Nat) :=
  let o := b % 256
  let n := b / 256 % 256
  if n = 0 ∨ w ≤ o then none else some (o, min n (w - o))

/-- A field taken from a, zero- or sign-extended (R181, R209). -/
def extractField (w : Nat) (a b : Nat) (signed : Bool) : Nat :=
  match fieldOf w b with
  | none => 0
  | some (o, n) =>
    let f := (a >>> o) % 2 ^ n
    if signed then wrap w (signedOf n f) else f

/-- `d` with the field b names replaced by the low bits of a (R181, R209). -/
def insertField (w : Nat) (d a b : Nat) : Option Nat :=
  (fieldOf w b).map fun (o, n) => d - ((d >>> o) % 2 ^ n) <<< o + (a % 2 ^ n) <<< o

/-- The conditions of `sbr` (R185). -/
def sbrTaken (cond : BitVec 4) (a : Word) : Bool :=
  match cond.toNat with
  | 0 => a = 0
  | 1 => a ≠ 0
  | 2 => a.toInt < 0
  | 3 => 0 ≤ a.toInt
  | 4 => a.toInt ≤ 0
  | _ => 0 < a.toInt

/-- `sext` (R180): the kinds i8, i16, i32, n8, n16, n32. -/
def sextOf (kind : BitVec 3) (a : Word) : Word :=
  match kind.toNat with
  | 0 => (a.extractLsb' 0 8).signExtend 64
  | 1 => (a.extractLsb' 0 16).signExtend 64
  | 2 => (a.extractLsb' 0 32).signExtend 64
  | 3 => (a.extractLsb' 0 8).zeroExtend 64
  | 4 => (a.extractLsb' 0 16).zeroExtend 64
  | _ => (a.extractLsb' 0 32).zeroExtend 64

/-! ### Arithmetic and logic (R180) -/

def execSadd (d a b : SReg) (s : State) : Out := alu s d a b (· + ·)
def execSsub (d a b : SReg) (s : State) : Out := alu s d a b (· - ·)
def execSmul (d a b : SReg) (s : State) : Out := alu s d a b (· * ·)
def execSmulh (d a b : SReg) (s : State) : Out := alu s d a b fun x y => mulHigh x.toInt y.toInt
def execSmulhn (d a b : SReg) (s : State) : Out := alu s d a b fun x y => mulHigh x.toNat y.toNat
def execSdiv (d a b : SReg) (s : State) : Out := alu s d a b sdivOf
def execSdivn (d a b : SReg) (s : State) : Out := alu s d a b sdivnOf
def execSrem (d a b : SReg) (s : State) : Out := alu s d a b sremOf
def execSremn (d a b : SReg) (s : State) : Out := alu s d a b sremnOf
def execSand (d a b : SReg) (s : State) : Out := alu s d a b (· &&& ·)
def execSor (d a b : SReg) (s : State) : Out := alu s d a b (· ||| ·)
def execSxor (d a b : SReg) (s : State) : Out := alu s d a b (· ^^^ ·)
def execSshl (d a b : SReg) (s : State) : Out := alu s d a b fun x y => x <<< shiftCount y
def execSshr (d a b : SReg) (s : State) : Out := alu s d a b fun x y => x >>> shiftCount y
def execSsra (d a b : SReg) (s : State) : Out := alu s d a b sraOf
def execSmin (d a b : SReg) (s : State) : Out := alu s d a b fun x y => if x.toInt ≤ y.toInt then x else y
def execSmax (d a b : SReg) (s : State) : Out := alu s d a b fun x y => if x.toInt ≤ y.toInt then y else x
def execSminn (d a b : SReg) (s : State) : Out := alu s d a b fun x y => if x.toNat ≤ y.toNat then x else y
def execSmaxn (d a b : SReg) (s : State) : Out := alu s d a b fun x y => if x.toNat ≤ y.toNat then y else x

def execScmp (d a b : SReg) (cc : BitVec 3) (s : State) : Out := alu s d a b fun x y => wordOfBool (scmpHolds cc x y)

/-- `scmov`: the tag takes in the old d in both cases (R180). -/
def execScmov (d a b : SReg) (nz : Bool) (s : State) : Out :=
  onScalar s [a, b, d] [d] fun hid h =>
    let x := h.getS a; let y := h.getS b; let old := h.getS d
    s.result hid d ⟨if decide (y.val = 0) = nz then old.val else x.val, x.tag || y.tag || old.tag⟩

def execSbfx (d a b : SReg) (signed : Bool) (s : State) : Out :=
  alu s d a b fun x y => BitVec.ofNat 64 (extractField 64 x.toNat y.toNat signed)

/-- `sbfi`: an empty field writes nothing, value and tag staying (R181). -/
def execSbfi (d a b : SReg) (s : State) : Out :=
  onScalar s [a, b, d] [d] fun hid h =>
    let x := h.getS a; let y := h.getS b; let old := h.getS d
    match insertField 64 old.val.toNat x.val.toNat y.val.toNat with
    | some n => s.result hid d ⟨BitVec.ofNat 64 n, x.tag || y.tag || old.tag⟩
    | none => s.nextPc hid

def execSclz (d a : SReg) (s : State) : Out := alu1 s d a fun x => BitVec.ofNat 64 (clzBelow x.toNat 64)
def execSpop (d a : SReg) (s : State) : Out := alu1 s d a fun x => BitVec.ofNat 64 (popBelow x.toNat 64)
def execSext (d a : SReg) (kind : BitVec 3) (s : State) : Out := alu1 s d a (sextOf kind)
def execSlea (d a b : SReg) (sh : BitVec 3) (s : State) : Out := alu s d a b fun x y => x + (y <<< sh.toNat)

/-! ### Immediates and constants (R183, R184) -/

def execSaddi (d a : SReg) (i : BitVec 14) (s : State) : Out := alu1 s d a (· + simm i)
def execSandi (d a : SReg) (i : BitVec 14) (s : State) : Out := alu1 s d a (· &&& simm i)
def execSori (d a : SReg) (i : BitVec 14) (s : State) : Out := alu1 s d a (· ||| simm i)
def execSxori (d a : SReg) (i : BitVec 14) (s : State) : Out := alu1 s d a (· ^^^ simm i)
def execSshli (d a : SReg) (i : BitVec 6) (s : State) : Out := alu1 s d a (· <<< i.toNat)
def execSshri (d a : SReg) (i : BitVec 6) (s : State) : Out := alu1 s d a (· >>> i.toNat)
def execSsrai (d a : SReg) (i : BitVec 6) (s : State) : Out := alu1 s d a fun x => x.sshiftRight i.toNat
def execScmpi (d a : SReg) (cc : BitVec 3) (i : BitVec 11) (s : State) : Out :=
  alu1 s d a fun x => wordOfBool (scmpHolds cc x (simm i))

def execSmovl (d : SReg) (i : BitVec 20) (s : State) : Out :=
  onScalar s [] [d] fun hid _ => s.result hid d ⟨simm i, false⟩

def execSshor (d : SReg) (i : BitVec 20) (s : State) : Out :=
  alu1 s d d fun x => (x <<< 20) ||| i.zeroExtend 64

/-! ### Control transfer (R185 to R187) -/

def execSbr (cond : BitVec 4) (a : SReg) (off : BitVec 16) (s : State) : Out :=
  onSettled s [a] [] fun hid h => s.branch hid (sbrTaken cond (h.getS a).val) (wordTarget h.pc off.toInt)

def execSjmp (off : BitVec 26) (s : State) : Out :=
  onScalar s [] [] fun hid h => s.branch hid true (wordTarget h.pc off.toInt)

def execScall (off : BitVec 26) (s : State) : Out :=
  onScalar s [] [63] fun hid h => (s.setS hid 63 ⟨h.pc + 4, false⟩).branch hid true (wordTarget h.pc off.toInt)

def execSret (s : State) : Out :=
  onSettled s [63] [] fun hid h => s.branch hid true (codeTarget (h.getS 63).val)

def execSjmpr (a : SReg) (s : State) : Out :=
  onSettled s [a] [] fun hid h => s.branch hid true (codeTarget (h.getS a).val)

def execScallr (a : SReg) (s : State) : Out :=
  onSettled s [a] [63] fun hid h => (s.setS hid 63 ⟨h.pc + 4, false⟩).branch hid true (codeTarget (h.getS a).val)

/-- `sloop`: decrement, then test (R187). With s0 the decrement is discarded and the branch taken. -/
def execSloop (a : SReg) (off : BitVec 16) (s : State) : Out :=
  onSettled s [a] [a] fun hid h =>
    let n := (h.getS a).val - 1
    (s.setS hid a ⟨n, false⟩).branch hid (n ≠ 0) (wordTarget h.pc off.toInt)

end Sys2Proof.Machine
end

