-- ==== Sys2Proof/Machine/LaneInt.lean ====
section
/-! DEFINITION. Lane integer forms, select and mask operations (R206 to R209, R216, R217). -/

namespace Sys2Proof.Machine

/-- The tag of a lane result: the sources, the shadow bit and the type (R203). -/
def LaneCtx.tagOf (c : LaneCtx) (w : LaneFields) (src : Bool) : Bool := src || c.shadow || w.ty.narrow

/-- An exact result brought into the type: clamped under sat, else wrapped (R207). -/
def intFinish (w : LaneFields) (z : Int) : Nat := wrap w.ty.width (if w.sat then w.ty.clamp z else z)

/-- A two-source integer form on exact element values (R207). -/
def intOp2 (f : Int → Int → Int) (c : LaneCtx) (w : LaneFields) : LaneOut :=
  c.each w fun l =>
    let x := c.a w l; let y := c.b w l
    (⟨pack w.ty (List.zipWith (fun p q => intFinish w (f (w.ty.intValue p) (w.ty.intValue q))) (unpack w.ty x.n) (unpack w.ty y.n)),
      c.tagOf w (x.tag || y.tag)⟩, 0)

/-- A two-source form on the bits of each element (R207). -/
def bitOp2 (f : Nat → Nat → Nat) (c : LaneCtx) (w : LaneFields) : LaneOut :=
  c.each w fun l =>
    let x := c.a w l; let y := c.b w l
    (⟨pack w.ty (List.zipWith f (unpack w.ty x.n) (unpack w.ty y.n)), c.tagOf w (x.tag || y.tag)⟩, 0)

/-- A one-source form on the bits of a 32- or 64-bit value (R207). -/
def bitOp1 (f : Nat → Nat → Nat) (c : LaneCtx) (w : LaneFields) : LaneOut :=
  c.each w fun l => let x := c.a w l; (⟨f w.ty.width x.n, c.tagOf w x.tag⟩, 0)

/-- The high half of an exact product: its floor (R207). -/
def mulhOf (w : LaneFields) (x y : Int) : Int := x * y / (2 ^ w.ty.width : Nat)

def laneAdd : LaneCtx → LaneFields → LaneOut := intOp2 (· + ·)
def laneSub : LaneCtx → LaneFields → LaneOut := intOp2 (· - ·)
def laneMul : LaneCtx → LaneFields → LaneOut := intOp2 (· * ·)
def laneMulh (c : LaneCtx) (w : LaneFields) : LaneOut := intOp2 (mulhOf w) c w

/-- `mad`: one clamp or wrap of the exact value (R207). -/
def laneMad (c : LaneCtx) (w : LaneFields) : LaneOut :=
  c.each w fun l =>
    let x := c.a w l; let y := c.b w l; let z := c.c w l
    let ps := List.zipWith (fun p q => w.ty.intValue p * w.ty.intValue q) (unpack w.ty x.n) (unpack w.ty y.n)
    (⟨pack w.ty (List.zipWith (fun p r => intFinish w (p + w.ty.intValue r)) ps (unpack w.ty z.n)),
      c.tagOf w (x.tag || y.tag || z.tag)⟩, 0)

def laneAnd : LaneCtx → LaneFields → LaneOut := bitOp2 (· &&& ·)
def laneOr : LaneCtx → LaneFields → LaneOut := bitOp2 (· ||| ·)
def laneXor : LaneCtx → LaneFields → LaneOut := bitOp2 (· ^^^ ·)
def laneShl (c : LaneCtx) (w : LaneFields) : LaneOut := bitOp2 (fun x y => x <<< (y % w.ty.width)) c w
def laneShr (c : LaneCtx) (w : LaneFields) : LaneOut := bitOp2 (fun x y => x >>> (y % w.ty.width)) c w
def laneSra (c : LaneCtx) (w : LaneFields) : LaneOut :=
  bitOp2 (fun x y => wrap w.ty.width (w.ty.intValue x / (2 ^ (y % w.ty.width) : Nat))) c w
def laneMin : LaneCtx → LaneFields → LaneOut := intOp2 fun x y => if x ≤ y then x else y
def laneMax : LaneCtx → LaneFields → LaneOut := intOp2 fun x y => if x ≤ y then y else x

/-- `abs` (R207). -/
def laneAbs (c : LaneCtx) (w : LaneFields) : LaneOut :=
  c.each w fun l =>
    let x := c.a w l
    (⟨pack w.ty ((unpack w.ty x.n).map fun p => intFinish w ((w.ty.intValue p).natAbs : Int)), c.tagOf w x.tag⟩, 0)

/-- `cmp` (R208). -/
def laneCmp (c : LaneCtx) (w : LaneFields) : LaneOut :=
  c.eachBit w fun l =>
    let x := c.a w l; let y := c.b w l
    (holds (w.aux.toNat % 8) (w.ty.intValue x.n) (w.ty.intValue y.n), x.tag || y.tag || c.shadow)

/-- `bfx` (R209). -/
def laneBfx (c : LaneCtx) (w : LaneFields) : LaneOut :=
  c.each w fun l =>
    let x := c.a w l; let y := c.b w l
    (⟨extractField w.ty.width x.n y.n w.ty.signed, c.tagOf w (x.tag || y.tag)⟩, 0)

/-- `bfi`: an empty field writes nothing in its lane (R209). -/
def laneBfi (c : LaneCtx) (w : LaneFields) : LaneOut :=
  LaneOut.ofRegs (c.lanes.filterMap fun l =>
    let x := c.a w l; let y := c.b w l; let old := c.reg w.ty.pair w.d.toNat l
    (insertField w.ty.width old.n x.n y.n).map fun n =>
      (⟨w.d.toNat, l, w.ty.pair, n, x.tag || y.tag || old.tag || c.shadow⟩, 0))

def laneClz : LaneCtx → LaneFields → LaneOut := bitOp1 fun w x => clzBelow x w
def lanePop : LaneCtx → LaneFields → LaneOut := bitOp1 fun w x => popBelow x w
def laneBrev : LaneCtx → LaneFields → LaneOut := bitOp1 fun w x => revBelow x w w

/-- `sel`: the source not chosen adds nothing to the tag (R216). -/
def laneSel (c : LaneCtx) (w : LaneFields) : LaneOut :=
  c.each w fun l =>
    let m := c.msel w
    let v := if m.bit l then c.a w l else c.b w l
    (⟨v.n, v.tag || m.tag l || c.shadow⟩, 0)

/-- A mask operation of two masks (R217). -/
def maskOp (f : Bool → Bool → Bool) (c : LaneCtx) (w : LaneFields) : LaneOut :=
  c.eachBit w fun l =>
    let x := c.h.getM w.a.toNat; let y := c.msel w
    (f (x.bit l) (y.bit l), x.tag l || y.tag l || c.shadow)

def laneMand : LaneCtx → LaneFields → LaneOut := maskOp and
def laneMor : LaneCtx → LaneFields → LaneOut := maskOp or
def laneMxor : LaneCtx → LaneFields → LaneOut := maskOp xor
def laneMnot (c : LaneCtx) (w : LaneFields) : LaneOut :=
  c.eachBit w fun l => (!(c.msel w).bit l, (c.msel w).tag l || c.shadow)

/-- `mmov`: mask to mask, register to mask, mask to register (R217). -/
def laneMmov (c : LaneCtx) (w : LaneFields) : LaneOut :=
  match w.aux.toNat % 4 with
  | 0 => c.eachBit w fun l => ((c.msel w).bit l, (c.msel w).tag l || c.shadow)
  | 1 => c.eachBit w fun l => let x := c.a w l; (x.n ≠ 0, x.tag || c.shadow)
  | _ => c.each w fun l => (⟨((c.msel w).bit l).toNat, (c.msel w).tag l || c.shadow⟩, 0)

/-! ### The meanings -/

def execAdd (w : LaneFields) (s : State) : Out := laneCompute 0x01 w s laneAdd
def execSub (w : LaneFields) (s : State) : Out := laneCompute 0x02 w s laneSub
def execMul (w : LaneFields) (s : State) : Out := laneCompute 0x03 w s laneMul
def execMulh (w : LaneFields) (s : State) : Out := laneCompute 0x04 w s laneMulh
def execMad (w : LaneFields) (s : State) : Out := laneCompute 0x05 w s laneMad
def execAnd (w : LaneFields) (s : State) : Out := laneCompute 0x06 w s laneAnd
def execOr (w : LaneFields) (s : State) : Out := laneCompute 0x07 w s laneOr
def execXor (w : LaneFields) (s : State) : Out := laneCompute 0x08 w s laneXor
def execShl (w : LaneFields) (s : State) : Out := laneCompute 0x09 w s laneShl
def execShr (w : LaneFields) (s : State) : Out := laneCompute 0x0A w s laneShr
def execSra (w : LaneFields) (s : State) : Out := laneCompute 0x0B w s laneSra
def execMin (w : LaneFields) (s : State) : Out := laneCompute 0x0C w s laneMin
def execMax (w : LaneFields) (s : State) : Out := laneCompute 0x0D w s laneMax
def execAbs (w : LaneFields) (s : State) : Out := laneCompute 0x0E w s laneAbs
def execCmp (w : LaneFields) (s : State) : Out := laneCompute 0x0F w s laneCmp
def execBfx (w : LaneFields) (s : State) : Out := laneCompute 0x10 w s laneBfx
def execBfi (w : LaneFields) (s : State) : Out := laneCompute 0x11 w s laneBfi
def execClz (w : LaneFields) (s : State) : Out := laneCompute 0x12 w s laneClz
def execPop (w : LaneFields) (s : State) : Out := laneCompute 0x13 w s lanePop
def execBrev (w : LaneFields) (s : State) : Out := laneCompute 0x14 w s laneBrev
def execSel (w : LaneFields) (s : State) : Out := laneCompute 0x48 w s laneSel
def execMand (w : LaneFields) (s : State) : Out := laneCompute 0x49 w s laneMand
def execMor (w : LaneFields) (s : State) : Out := laneCompute 0x4A w s laneMor
def execMxor (w : LaneFields) (s : State) : Out := laneCompute 0x4B w s laneMxor
def execMnot (w : LaneFields) (s : State) : Out := laneCompute 0x4C w s laneMnot
def execMmov (w : LaneFields) (s : State) : Out := laneCompute 0x4D w s laneMmov

end Sys2Proof.Machine
end

