-- ==== Sys2Proof/Machine/LaneFp.lean ====
section
/-! DEFINITION. Lane floating forms, conversions, scaling and packing (R167 to R172, R210 to R215). -/

namespace Sys2Proof.Machine

/-! ### Arithmetic (R211) -/

/-- Operands a and b as values, after their modifiers; c takes none (R210). -/
def valA (w : LaneFields) (n : Nat) : FVal := (w.ty.value n).modify w.nega w.absa
def valB (w : LaneFields) (n : Nat) : FVal := (w.ty.value n).modify w.negb w.absb

/-- An exact result rounded once, with sat and the status (R211): `fin` says that every operand is finite. -/
def fpRound (w : LaneFields) (fin : Bool) (v : FVal × Stat) : Nat × Stat :=
  let r := w.ty.fmt.round w.rnd v.1
  let e := if w.sat && fin && r.1.isInf && r.2 &&& stOF ≠ 0 then w.ty.fmt.max r.1.sign else r.1
  (w.ty.image e, v.2 ||| r.2)

/-- Status bits of all elements, and their codes packed. -/
def packStat (ty : LType) (rs : List (Nat × Stat)) : Nat × Stat :=
  (pack ty (rs.map Prod.fst), rs.foldl (fun st r => st ||| r.2) 0)

/-- A two-source floating form whose exact result is `f` (R211). -/
def fpOp2 (f : Rnd → FVal → FVal → FVal × Stat) (c : LaneCtx) (w : LaneFields) : LaneOut :=
  c.each w fun l =>
    let x := c.a w l; let y := c.b w l
    let r := packStat w.ty (List.zipWith (fun p q =>
      let u := valA w p; let v := valB w q
      fpRound w (u.isFin && v.isFin) (f w.rnd u v)) (unpack w.ty x.n) (unpack w.ty y.n))
    (⟨r.1, c.tagOf w (x.tag || y.tag)⟩, r.2)

/-- A one-source floating form that gives a rounded value itself (R211, R214). -/
def fpOp1 (f : LaneFields → FVal → FVal × Stat) (c : LaneCtx) (w : LaneFields) : LaneOut :=
  c.each w fun l =>
    let x := c.a w l
    let r := packStat w.ty ((unpack w.ty x.n).map fun p => let v := f w (valA w p); (w.ty.image v.1, v.2))
    (⟨r.1, c.tagOf w x.tag⟩, r.2)

def laneFadd : LaneCtx → LaneFields → LaneOut := fpOp2 FVal.add
def laneFsub : LaneCtx → LaneFields → LaneOut := fpOp2 fun md x y => x.add md y.negate
def laneFmul : LaneCtx → LaneFields → LaneOut := fpOp2 fun _ x y => x.mul y
def laneFdiv : LaneCtx → LaneFields → LaneOut := fpOp2 fun _ x y => x.div y

/-- `fma` (R211). -/
def laneFma (c : LaneCtx) (w : LaneFields) : LaneOut :=
  c.each w fun l =>
    let x := c.a w l; let y := c.b w l; let z := c.c w l
    let ps := List.zipWith (fun p q => (valA w p, valB w q)) (unpack w.ty x.n) (unpack w.ty y.n)
    let r := packStat w.ty (List.zipWith (fun p q =>
      let v := w.ty.value q
      fpRound w (p.1.isFin && p.2.isFin && v.isFin) (FVal.fma w.rnd p.1 p.2 v)) ps (unpack w.ty z.n))
    (⟨r.1, c.tagOf w (x.tag || y.tag || z.tag)⟩, r.2)

/-- A form that returns one of its operands exactly, with no status (R212). -/
def fpPick (f : FVal → FVal → FVal) (c : LaneCtx) (w : LaneFields) : LaneOut :=
  c.each w fun l =>
    let x := c.a w l; let y := c.b w l
    (⟨pack w.ty (List.zipWith (fun p q => w.ty.image (f (valA w p) (valB w q))) (unpack w.ty x.n) (unpack w.ty y.n)),
      c.tagOf w (x.tag || y.tag)⟩, 0)

def laneFmin : LaneCtx → LaneFields → LaneOut := fpPick FVal.min
def laneFmax : LaneCtx → LaneFields → LaneOut := fpPick FVal.max

/-- `fcmp` (R213). -/
def laneFcmp (c : LaneCtx) (w : LaneFields) : LaneOut :=
  c.eachBit w fun l =>
    let x := c.a w l; let y := c.b w l
    (fholds (w.aux.toNat % 8) (valA w x.n) (valB w y.n), x.tag || y.tag || c.shadow)

/-- The square root, rounded (R214). -/
def sqrtRounded (w : LaneFields) (x : FVal) : FVal × Stat :=
  let v := x.sqrt
  let r := w.ty.fmt.round w.rnd v.1
  (r.1, v.2 ||| r.2)

def laneFsqrt : LaneCtx → LaneFields → LaneOut := fpOp1 sqrtRounded
def laneFexp2 : LaneCtx → LaneFields → LaneOut := fpOp1 fun w => fexp2Of w.rnd
def laneFlog2 : LaneCtx → LaneFields → LaneOut := fpOp1 fun w => flog2Of w.rnd
def laneFrcp : LaneCtx → LaneFields → LaneOut := fpOp1 fun w => frcpOf w.rnd
def laneFrsq : LaneCtx → LaneFields → LaneOut := fpOp1 fun w => frsqOf w.rnd
def laneFsinpi : LaneCtx → LaneFields → LaneOut := fpOp1 fun w => fsinpiOf w.rnd
def laneFcospi : LaneCtx → LaneFields → LaneOut := fpOp1 fun w => fcospiOf w.rnd
def laneFtanh : LaneCtx → LaneFields → LaneOut := fpOp1 fun w => ftanhOf w.rnd

/-- `frnd` never sets NX (R211). -/
def laneFrnd : LaneCtx → LaneFields → LaneOut := fpOp1 fun w x => (x.integral w.rnd, 0)

/-- `fclass` writes one register (R215). -/
def laneFclass (c : LaneCtx) (w : LaneFields) : LaneOut :=
  LaneOut.ofRegs (c.lanes.map fun l =>
    let x := c.a w l
    (⟨w.d.toNat, l, false, fclassBits w.ty.fmt (w.ty.value x.n), x.tag || c.shadow⟩, 0))

/-- `fscale`: n is the i32 element of b (R210, R211). -/
def laneFscale (c : LaneCtx) (w : LaneFields) : LaneOut :=
  c.each w fun l =>
    let x := c.a w l; let y := c.b32 .i32 w l
    let u := valA w x.n
    let r := fpRound w u.isFin (u.scale (signedOf 32 y.n), 0)
    (⟨r.1, c.tagOf w (x.tag || y.tag)⟩, r.2)

/-! ### Conversions (R167 to R172) -/

/-- The values of a run of registers or pairs, and the OR of their tags. -/
def LaneCtx.runOf (c : LaneCtx) (wide : Bool) (first n l : Nat) : List Val :=
  (List.range n).map fun i => c.reg wide (first + (if wide then 2 * i else i)) l

/-- Groups of `k` from a list, `fuel` at most. -/
def chunks {α : Type} (k : Nat) : Nat → List α → List (List α)
  | 0, _ => []
  | fuel + 1, xs => if xs.isEmpty then [] else xs.take k :: chunks k fuel (xs.drop k)

/-- `cvt` (R168). DEDUCED (log 38). -/
def laneCvt (c : LaneCtx) (w : LaneFields) : LaneOut :=
  let t := w.ty
  let u := type2 w
  let n := Nat.max 1 (32 / Nat.min t.width u.width)
  let rs := c.lanes.flatMap fun l =>
    let src := c.runOf u.pair w.a.toNat (if u.pair then n else cvtCount u t) l
    let tag := anyTag (·.tag) src || c.shadow || t.narrow || u.narrow
    let xs := (src.flatMap fun v => unpack u v.n).take n
    let ys := xs.map fun x => convert u t w.rnd w.sat x
    let st := ys.foldl (fun st r => st ||| r.2) 0
    let words := (chunks t.elems n (ys.map Prod.fst)).map (pack t)
    (words.zip (List.range words.length)).map fun p =>
      ((⟨w.d.toNat + (if t.pair then 2 * p.2 else p.2), l, t.pair, p.1, tag⟩ : RegWrite), st)
  LaneOut.ofRegs rs

/-- `qscl` (R169): neither reads nor writes a narrow value. -/
def laneQscl (c : LaneCtx) (w : LaneFields) : LaneOut :=
  LaneOut.ofRegs (c.lanes.map fun l =>
    let x := c.reg false w.a.toNat l
    let r := qsclOf w.ty ((LType.f32.value x.n).abs)
    (⟨w.d.toNat, l, false, r.1, x.tag || c.shadow⟩, r.2))

/-- Scale and spare of a scale register (R170). -/
def scaleOf (b : Nat) : Nat := b % 256
def spareOf (b : Nat) : Nat := b / 256 % 256

/-- `qpack` (R171). -/
def laneQpack (c : LaneCtx) (w : LaneFields) : LaneOut :=
  LaneOut.ofRegs (c.lanes.map fun l =>
    let b := (c.src false w.kb w.b l).n
    let xs := c.runOf false w.a.toNat w.ty.elems l
    let r := packStat w.ty (xs.map fun x => qpackOf w.ty w.rnd w.sat (scaleOf b) (spareOf b) (LType.f32.value x.n))
    (⟨w.d.toNat, l, false, r.1, true⟩, r.2))

/-- `qunp` (R170). -/
def laneQunp (c : LaneCtx) (w : LaneFields) : LaneOut :=
  let et := type2 w
  LaneOut.ofRegs (c.lanes.flatMap fun l =>
    let b := (c.src false w.kb w.b l).n
    let x := c.reg false w.a.toNat l
    (List.range et.elems).map fun i =>
      let r := qunpOf et w.rnd w.sat (scaleOf b) (spareOf b) (elemOf et x.n i)
      (⟨w.d.toNat + i, l, false, r.1, true⟩, r.2))

/-- `qspare` (R172). -/
def laneQspare (c : LaneCtx) (w : LaneFields) : LaneOut :=
  LaneOut.ofRegs (c.lanes.map fun l =>
    let b := (c.src false w.kb w.b l).n
    let x := c.reg false w.a.toNat l
    let r := qspareOf w.rnd w.sat (scaleOf b) (LType.f32.value x.n)
    (⟨w.d.toNat, l, false, r.1 * 256 + scaleOf b, true⟩, r.2))

/-! ### The meanings -/

def execFadd (w : LaneFields) (s : State) : Out := laneCompute 0x20 w s laneFadd
def execFsub (w : LaneFields) (s : State) : Out := laneCompute 0x21 w s laneFsub
def execFmul (w : LaneFields) (s : State) : Out := laneCompute 0x22 w s laneFmul
def execFma (w : LaneFields) (s : State) : Out := laneCompute 0x23 w s laneFma
def execFmin (w : LaneFields) (s : State) : Out := laneCompute 0x24 w s laneFmin
def execFmax (w : LaneFields) (s : State) : Out := laneCompute 0x25 w s laneFmax
def execFcmp (w : LaneFields) (s : State) : Out := laneCompute 0x26 w s laneFcmp
def execFdiv (w : LaneFields) (s : State) : Out := laneCompute 0x27 w s laneFdiv
def execFsqrt (w : LaneFields) (s : State) : Out := laneCompute 0x28 w s laneFsqrt
def execFexp2 (w : LaneFields) (s : State) : Out := laneCompute 0x29 w s laneFexp2
def execFlog2 (w : LaneFields) (s : State) : Out := laneCompute 0x2A w s laneFlog2
def execFrcp (w : LaneFields) (s : State) : Out := laneCompute 0x2B w s laneFrcp
def execFrsq (w : LaneFields) (s : State) : Out := laneCompute 0x2C w s laneFrsq
def execFsinpi (w : LaneFields) (s : State) : Out := laneCompute 0x2D w s laneFsinpi
def execFcospi (w : LaneFields) (s : State) : Out := laneCompute 0x2E w s laneFcospi
def execFtanh (w : LaneFields) (s : State) : Out := laneCompute 0x2F w s laneFtanh
def execFclass (w : LaneFields) (s : State) : Out := laneCompute 0x30 w s laneFclass
def execFrnd (w : LaneFields) (s : State) : Out := laneCompute 0x31 w s laneFrnd
def execFscale (w : LaneFields) (s : State) : Out := laneCompute 0x32 w s laneFscale
def execCvt (w : LaneFields) (s : State) : Out := laneCompute 0x40 w s laneCvt
def execQscl (w : LaneFields) (s : State) : Out := laneCompute 0x41 w s laneQscl
def execQpack (w : LaneFields) (s : State) : Out := laneCompute 0x42 w s laneQpack
def execQunp (w : LaneFields) (s : State) : Out := laneCompute 0x43 w s laneQunp
def execQspare (w : LaneFields) (s : State) : Out := laneCompute 0x44 w s laneQspare

end Sys2Proof.Machine
end

