-- ==== Sys2Proof/Machine/LaneCross.lean ====
section
/-! DEFINITION. Cross-lane forms, special values and indirect register moves (R118, R125, R218 to R227). -/

namespace Sys2Proof.Machine

/-- A form that a walker body may not hold takes the walker-context trap, cause FORM, once a lane executes it.
DEDUCED (log 43). -/
def bodyForm (s : State) (c : LaneCtx) (lanes : List Nat) (k : State) : State :=
  if c.h.walking && !lanes.isEmpty then s.walkTrap c.hid .walker 1 (maskOf lanes) else k

/-! ### The lane-to-scalar FIFO (R118) -/

/-- Pushes one entry. -/
def Hart.push (h : Hart) (x : TV) : Hart := { h with fifo := h.fifo ++ [x] }

/-- Whether the FIFO holds its 8 entries. -/
def Hart.fifoFull (h : Hart) : Bool := decide (8 ≤ h.fifo.length)

/-! ### Shuffles and permutes (R218 to R220) -/

/-- Where a lane of a shuffle or permute reads: an operand (an immediate's value, or whether it is a k register and
its field), and the lane. -/
structure CrossAt where
  imm : Option Nat
  ksel : Bool
  field : BitVec 10
  lane : Nat
deriving DecidableEq, Repr

/-- Where each lane reads. -/
abbrev CrossSrc := Nat → CrossAt

/-- Whether the other slot executes a lane, a split being open (R226). -/
def LaneCtx.otherSlot (c : LaneCtx) (l : Nat) : Bool := !c.h.older.isEmpty && (c.h.slot !c.slot).mask.getLsbD l

/-- A register or pair of a lane of the other slot, at the moment since the split that the word meets in that lane: before any
number of the writes since then (R226). DESIGN CHOICE (log 103). -/
def LaneCtx.aged (c : LaneCtx) (wide : Bool) (r lane : Nat) : Val :=
  let k := Config.laneAge (c.free + lane) % ((c.h.older.headD []).length + 1)
  let lo := c.h.agedV k r lane
  let hi := c.h.agedV k (r + 1) lane
  if wide then ⟨(hi.val ++ lo.val).toNat, lo.tag || hi.tag⟩ else ⟨lo.val.toNat, lo.tag⟩

/-- What a lane finds in another lane: a dead one gives 0, a proposal (R125, R218). -/
def LaneCtx.cross (c : LaneCtx) (wide : Bool) (p : CrossAt) : Val :=
  if c.h.m0.getLsbD p.lane then
    match p.imm with
    | some n => ⟨n, false⟩
    | none => if !p.ksel && c.otherSlot p.lane then c.aged wide p.field.toNat p.lane else c.src wide p.ksel p.field p.lane
  else ⟨0, true⟩

/-- The executed lanes whose source register holds an uncorrectable error (R45). DEDUCED (log 44). -/
def State.crossStruck (s : State) (c : LaneCtx) (wide : Bool) (src : CrossSrc) : Word32 :=
  if s.mem.upsets.isEmpty then 0
  else maskOf (c.lanes.filter fun l =>
    let p := src l
    c.h.m0.getLsbD p.lane && p.imm.isNone && !p.ksel && (regsOf wide p.field).any fun r => s.upsetAt (.laneReg c.hid r p.lane))

/-- What a shuffle or permute writes; `by'` gives the tag of the operand that chose the source. -/
def LaneCtx.gather (c : LaneCtx) (w : LaneFields) (src : CrossSrc) (by' : Nat → Bool) : LaneOut :=
  { c.each w fun l => let v := c.cross w.ty.pair (src l); (⟨v.n, v.tag || by' l || c.shadow⟩, 0) with
    dead := c.lanes.any fun l => !c.h.m0.getLsbD (src l).lane }

/-- The free values of a word's cross-lane reads are used up. -/
def State.agedOnce (s : State) (h : Hart) : State := if h.older.isEmpty then s else { s with free := s.free + 32 }

/-- A word that gathers across lanes. A lane that dies in the word itself, of a struck register of its own or of one that it
gathers, reads as dead to the word's other lanes already. DESIGN CHOICE (log 117). -/
def gatherWord (op : Nat) (w : LaneFields) (s : State) (src : LaneCtx → CrossSrc) (by' : LaneCtx → Nat → Bool) : Out :=
  laneWord op w s fun c s =>
    let hit := s.crossStruck c w.ty.pair (src c)
    let s1 := s.killLanes c.hid (wordKills c.slot) hit (c.h.laneAddr c.slot)
    match s1.hart? c.hid with
    | none => s1
    | some h =>
      if h.ended.isSome then s1
      else
        let c1 := s1.laneCtx c.hid h c.slot
        ((s1.agedOnce h).commit c.hid (c1.gather w (src c1) (by' c1))).laneNext c.hid c.slot

/-- The source lane of a shuffle (R219). -/
def shflLane (mode n l : Nat) : Nat :=
  match mode with
  | 0 => n
  | 1 => if l < n then l else l - n
  | 2 => if 31 < l + n then l else l + n
  | _ => l ^^^ n

def execShfl (w : LaneFields) (s : State) : Out :=
  gatherWord 0x50 w s
    (fun c l => ⟨none, w.ka, w.a, shflLane (w.aux.toNat % 4) ((c.b32 .b32 w l).n % 32) l⟩)
    (fun c l => (c.b32 .b32 w l).tag)

def execPerm (w : LaneFields) (s : State) : Out :=
  gatherWord 0x51 w s
    (fun c l =>
      let j := (c.src false w.kc w.c l).n % 64
      if j < 32 then ⟨none, w.ka, w.a, j⟩
      else ⟨if w.imm then some (immValue w.ty w.imm16) else none, w.kb, w.b, j - 32⟩)
    (fun c l => (c.src false w.kc w.c l).tag)

/-! ### Votes (R221) -/

def execVote (w : LaneFields) (s : State) : Out :=
  laneWord 0x52 w s fun c s =>
    let m := c.msel w
    let tag := (c.lanes.any fun l => m.tag l) || c.shadow
    match w.aux.toNat % 4 with
    | 0 => (s.commit c.hid (c.eachBit w fun _ => (c.lanes.all fun l => m.bit l, tag))).laneNext c.hid c.slot
    | 1 => (s.commit c.hid (c.eachBit w fun _ => (c.lanes.any fun l => m.bit l, tag))).laneNext c.hid c.slot
    | _ =>
      bodyForm s c c.lanes <|
      if c.lanes.isEmpty then s.laneNext c.hid c.slot
      else if c.h.fifoFull then s
      else (s.modHart c.hid fun h => h.push ⟨(m.bits &&& c.mask).zeroExtend 64, tag⟩).laneNext c.hid c.slot

/-! ### Reductions and scans (R222 to R224) -/

/-- One combination of two elements (R222). -/
def combine (w : LaneFields) (x y : Nat) : Nat × Stat :=
  let t := w.ty
  let pick (less : Bool) : Nat :=
    if t.isFloat then
      t.image (if less then (t.value x).min (t.value y) else (t.value x).max (t.value y))
    else if decide (t.intValue x ≤ t.intValue y) = less then x else y
  match w.aux.toNat % 16 with
  | 0 =>
    if t.isFloat then
      let r := FVal.add w.rnd (t.value x) (t.value y)
      let q := t.fmt.round w.rnd r.1
      (t.image q.1, r.2 ||| q.2)
    else ((x + y) % 2 ^ t.width, 0)
  | 1 => (pick true, 0)
  | 2 => (pick false, 0)
  | 3 => (x &&& y, 0)
  | 4 => (x ||| y, 0)
  | _ => (x ^^^ y, 0)

/-- The identity of an operation (R222). -/
def combIdentity (w : LaneFields) : Nat :=
  let t := w.ty
  match w.aux.toNat % 16 with
  | 1 => if t.isFloat then t.image (.inf false) else wrap t.width t.maxInt
  | 2 => if t.isFloat then t.image (.inf true) else wrap t.width t.minInt
  | 3 => 2 ^ t.width - 1
  | _ => 0

/-- `comb` of R222, with the status of its rounding. -/
def comb (w : LaneFields) : Option Val → Option Val → Option Val × Stat
  | none, v => (v, 0)
  | u, none => (u, 0)
  | some u, some v => let r := combine w u.n v.n; (some ⟨r.1, u.tag || v.tag⟩, r.2)

/-- One step of the tree, at distance `k` (R222). -/
def combStep (w : LaneFields) (k : Nat) (x : List (Option Val)) : List (Option Val) × Stat :=
  let r := List.zipWith (comb w) (List.replicate k none ++ x) x
  (r.map Prod.fst, r.foldl (fun st p => st ||| p.2) 0)

/-- The whole tree (R222). -/
def combTree (w : LaneFields) (x : List (Option Val)) : List (Option Val) × Stat :=
  [1, 2, 4, 8, 16].foldl (fun (r : List (Option Val) × Stat) k =>
    let t := combStep w k r.1
    (t.1, r.2 ||| t.2)) (x, 0)

/-- The tree over the executed lanes of a slot. -/
def LaneCtx.tree (c : LaneCtx) (w : LaneFields) : List (Option Val) × Stat :=
  combTree w (allLanes.map fun l => if c.lanes.contains l then some (c.a w l) else none)

/-- What the tree holds at a position, or the identity. -/
def treeAt (w : LaneFields) (x : List (Option Val)) (i : Nat) : Val :=
  match x[i]? with
  | some (some v) => v
  | _ => ⟨combIdentity w, false⟩

def execRedu (w : LaneFields) (s : State) : Out :=
  laneWord 0x53 w s fun c s =>
    let t := c.tree w
    let r := treeAt w t.1 31
    let tag := r.tag || c.shadow
    if w.aux.getLsbD 4 then
      bodyForm s c c.lanes <|
      if c.h.fifoFull then s
      else (s.modHart c.hid fun h => (h.push ⟨BitVec.ofNat 64 r.n, tag⟩).orStat t.2 tag).laneNext c.hid c.slot
    else
      (s.commit c.hid { c.each w (fun _ => (⟨r.n, tag⟩, 0)) with st := t.2 }).laneNext c.hid c.slot

def execScan (w : LaneFields) (s : State) : Out :=
  laneCompute 0x54 w s fun c w =>
    let t := c.tree w
    let excl := w.aux.getLsbD 4
    { c.each w (fun l =>
        let v := if excl then (if l = 0 then ⟨combIdentity w, false⟩ else treeAt w t.1 (l - 1)) else treeAt w t.1 l
        (⟨v.n, v.tag || c.shadow⟩, 0)) with st := t.2 }

/-! ### Special values (R195, R225) -/

/-- The values of `sclk` and `srd` by name: time, wave, gang, core, cluster, die. A crane thread, which is a wave of no gang,
reads its index in its task as its wave and 0 as its gang. DESIGN CHOICE (log 123). -/
def State.special (s : State) (h : Hart) (n : Nat) : Word :=
  match n with
  | 0 => s.time
  | 1 => BitVec.ofNat 64 h.index
  | 2 => BitVec.ofNat 64 h.gang
  | 3 => BitVec.ofNat 64 h.coreNo
  | 4 => BitVec.ofNat 64 h.cluster
  | _ => BitVec.ofNat 64 h.die

def execSrd (w : LaneFields) (s : State) : Out :=
  laneWord 0x55 w s fun c s =>
    let n := w.aux.toNat % 16
    (s.commit c.hid (c.each w fun l =>
      (⟨if n = 6 then l else (s.special c.h n).toNat, c.shadow⟩, 0))).laneNext c.hid c.slot

/-! ### Indirect moves (R10, R43, R227) -/

/-- The register an index names, in 33-bit arithmetic. -/
def LaneCtx.index (c : LaneCtx) (w : LaneFields) (l : Nat) : Nat := (c.src false w.ka w.a l).n + w.imm16.toNat

/-- The registers at an index. -/
def indexRegs (w : LaneFields) (n : Nat) : List Nat := if w.ty.pair then [n, n + 1] else [n]

/-- The lanes whose index is out of range, or odd for a pair. -/
def LaneCtx.indexBad (c : LaneCtx) (w : LaneFields) : List Nat :=
  c.lanes.filter fun l => decide (c.declared ≤ c.index w l) || (w.ty.pair && c.index w l % 2 = 1)

/-- An indirect move: its index check, the wait for the registers it reaches, then the move. -/
def indirect (op : Nat) (w : LaneFields) (s : State) (load : Bool) (f : LaneCtx → LaneOut) : Out :=
  laneWord op w s fun c s =>
    let bad := c.indexBad w
    match least (bad.map (c.index w)) with
    | some i => s.laneTrap c.hid c.slot .register 0 true (maskOf bad) (BitVec.ofNat 64 i)
    | none =>
      let regs := c.lanes.flatMap fun l => indexRegs w (c.index w l)
      if c.h.absentAny regs then s
      else match s.awaitRegs c.hid c.h false (regs.map .v) with
        | some s1 => s1
        | none =>
          let hit := if s.mem.upsets.isEmpty || !load then 0
            else maskOf (c.lanes.filter fun l => (indexRegs w (c.index w l)).any fun r => s.upsetAt (.laneReg c.hid r l))
          let s1 := s.killLanes c.hid (wordKills c.slot) hit (c.h.laneAddr c.slot)
          match s1.hart? c.hid with
          | none => s1
          | some h =>
            if h.ended.isSome then s1
            else (s1.commit c.hid (f (s1.laneCtx c.hid h c.slot))).laneNext c.hid c.slot

def execMovx (w : LaneFields) (s : State) : Out :=
  indirect 0x56 w s true fun c =>
    c.each w fun l =>
      let v := c.reg w.ty.pair (c.index w l) l
      (⟨v.n, v.tag || (c.src false w.ka w.a l).tag || c.shadow⟩, 0)

def execMovxd (w : LaneFields) (s : State) : Out :=
  indirect 0x57 w s false fun c =>
    LaneOut.ofRegs (c.lanes.map fun l =>
      let v := c.b w l
      (⟨c.index w l, l, w.ty.pair, v.n, v.tag || (c.src false w.ka w.a l).tag || c.shadow⟩, 0))

end Sys2Proof.Machine
end

