-- ==== Sys2Proof/Machine/LaneMem.lean ====
section
/-! DEFINITION. Lane memory words (R231 to R245). Inside a `wloop` body, their other rules are those of R288 and
R289. -/

namespace Sys2Proof.Machine

/-! ### Addresses (R233, R235) -/

/-- The lanes of a memory word: executed, and set in the guard (R235). -/
def LaneCtx.memLanes (c : LaneCtx) (w : LaneFields) : List Nat := c.lanes.filter (c.msel w).bit

/-- Bytes of one element (R233). -/
def esizeOf (w : LaneFields) : Nat := w.ty.width / 8

/-- The base, 64 bits or 32 bits zero-extended (R231). -/
def LaneCtx.base (c : LaneCtx) (w : LaneFields) (cluster : Bool) (l : Nat) : Val := c.src (!cluster) w.ka w.a l

/-- The index, 32 bits; none with I (R231). -/
def LaneCtx.idx (c : LaneCtx) (w : LaneFields) (l : Nat) : Val :=
  if w.imm then ⟨0, false⟩ else c.src false w.kb w.b l

/-- The tag that an address and its guard bring (R235, R237). -/
def LaneCtx.addrTag (c : LaneCtx) (w : LaneFields) (cluster : Bool) (l : Nat) : Bool :=
  (c.base w cluster l).tag || (c.idx w l).tag || (c.msel w).tag l || c.shadow

/-- A lane's effective address for an access of `size` bytes (R233). -/
def LaneCtx.ea (c : LaneCtx) (w : LaneFields) (cluster : Bool) (size l : Nat) : Word :=
  let i := signedOf 32 (c.idx w l).n * (2 ^ (w.aux.toNat / 512) : Nat)
  let a := BitVec.ofNat 64 (c.base w cluster l).n + BitVec.ofInt 64 i + w.imm16.signExtend 64
  BitVec.ofNat 64 (a.toNat / size * size)

/-- The addresses of a word's lanes. -/
def LaneCtx.eas (c : LaneCtx) (w : LaneFields) (cluster : Bool) (size : Nat) : List LaneEa :=
  (c.memLanes w).map fun l => ⟨l, c.ea w cluster size l, c.addrTag w cluster l⟩

/-! ### Checks (R236) -/

/-- The address of the word a context runs. -/
def LaneCtx.iaddr (c : LaneCtx) : Word := c.h.laneAddr c.slot

/-- Checks cluster lanes against the unit's reservation (R9). -/
def State.clusterLanes (s : State) (h : Hart) (len : Nat) (es : List LaneEa) : List LaneAcc × List Failure :=
  let size := match s.unit? h.unit with | some g => g.csize | none => 0
  (es.filterMap fun e => match clusterCheck size e.ea len with
      | none => some ⟨e.lane, e.ea, e.ea.toNat, .normal, e.tag⟩
      | some _ => none,
   es.filterMap fun e => (clusterCheck size e.ea len).map fun cause => ⟨e.lane, e.ea, cause, 15⟩)

/-- Steps 2 and 3 of R236: the accesses of a word, or the state its failure leaves. D is set only for a word that step 4
passes too, `dat` giving the tags of its data; a store of a `wloop` body sets D only when the walker writes its page
(R21). -/
def State.memCheck (s : State) (c : LaneCtx) (w : LaneFields) (cluster : Bool) (size : Nat) (a : Access) (kind : AccessKind)
    (dat : Nat → Bool) : State × Option (List LaneAcc) :=
  let es := c.eas w cluster size
  let r : State × List LaneAcc × List Failure :=
    if cluster then (let t := s.clusterLanes c.h size es; (s, t.1, t.2))
    else
      let t := if c.h.walking then s.xlateLanes c.h.site (s.hartVf c.h) a es
        else s.checkLanes c.h.site (s.hartVf c.h) a (fun x => (x.tag || dat x.lane) && s.tagless x) es
      (t.1, t.2.1.map LaneX.acc, t.2.2)
  if r.2.2.isEmpty then (r.1, some r.2.1) else (r.1.failAccess c.hid true kind c.iaddr r.2.2, none)

/-- Step 4 of R236: the lanes that carry a tag to a place that holds none, and the cause byte. `dat` gives the tag
of a lane's data or operand. -/
def State.tagCheck (s : State) (c : LaneCtx) (w : LaneFields) (accs : List LaneAcc) (dat : Nat → Bool) : Option (Word32 × Nat) :=
  let bad := accs.filter fun a => (a.tag || dat a.lane) && s.tagless a
  if bad.isEmpty then none
  else
    let some' (f : Nat → Bool) : Bool := bad.any fun a => f a.lane
    some (maskOf (bad.map (·.lane)),
      if some' dat then 3
      else if some' fun l => (c.base w false l).tag then 1
      else if some' fun l => (c.idx w l).tag then 2 else 0)

/-- The accesses of lanes still live: a load that had to be performed first may have killed some (R124). -/
def State.liveAccs (s : State) (hid : Nat) (accs : List LaneAcc) : List LaneAcc :=
  match s.hart? hid with
  | some h => if h.ended.isSome then [] else accs.filter fun a => h.m0.getLsbD a.lane
  | none => []

/-! ### The walker's body (R289) -/

/-- The cover region of the running loop: first byte and length. -/
def WalkRun.cover (k : WalkRun) : Nat × Nat := ((k.manifest.getD 1 0).toNat, (k.manifest.getD 2 0).toNat)

/-- Whether two byte ranges meet. -/
def rangesMeet (a n b m : Nat) : Bool := decide (a < b + m ∧ b < a + n)

/-- The lanes of a load in a walker body that touch the cover region or the cover map. The region's cells wrap at 2^64, and this
test does not. DESIGN CHOICE (log 118). -/
def Hart.coverHits (h : Hart) (cluster : Bool) (size : Nat) (accs : List LaneAcc) : Word32 :=
  match h.walk with
  | some k =>
    if !k.inBody then 0
    else maskOf ((accs.filter fun a =>
      if cluster then rangesMeet a.pa size (bits h.walker 21 21) (bits h.walker 0 21)
      else rangesMeet a.ea.toNat size k.cover.1 k.cover.2).map (·.lane))
  | none => 0

/-! ### Loads (R237, R244) -/

/-- A load word, or a tag read, of a form. -/
def loadWord (op : Nat) (form : LaneFields → LoadForm) (kind : AccessKind) (w : LaneFields) (s : State) : Out :=
  laneWord op w s fun c s =>
    let f := form w
    let n := memCount op w
    let size := esizeOf w * n
    if c.h.full .ld then s.stallsOn c.hid false .ld
    else
      let r := s.memCheck c w f.cluster size accRead kind fun _ => false
      match r.2 with
      | none => r.1
      | some accs =>
        let hits := c.h.coverHits f.cluster size accs
        if hits ≠ 0 then r.1.walkTrap c.hid .coverRead 0 hits
        else
          let o := w.ord
          let acq := if o.str = .acq then some o.obs else none
          let q := r.1.issueLoad c.hid true fun id =>
            ⟨id, f, accs, esizeOf w, n, w.ty.signed, w.d.toNat, acq, c.iaddr, kind, [], 0, .walker⟩
          let s1 := q.1.laneNext c.hid c.slot
          if acq.isSome then (s1.performLoad c.hid q.2).1 else s1

def execLd (w : LaneFields) (s : State) : Out := loadWord 0x58 (fun _ => .ld) .laneLoad w s
def execLdd (w : LaneFields) (s : State) : Out := loadWord 0x5A (fun _ => .ldd) .laneDirect w s
def execLdc (w : LaneFields) (s : State) : Out := loadWord 0x5C (fun _ => .ldc) .laneDirect w s
def execTagrd (w : LaneFields) (s : State) : Out :=
  loadWord 0x61 (fun w => if w.aux.toNat / 128 % 4 = 0 then .tagP else .tagX) .laneLoad w s

/-! ### Stores (R239, R240) -/

/-- A lane's data: its elements in order, with the OR of their tags (R234). -/
def LaneCtx.data (c : LaneCtx) (w : LaneFields) (n l : Nat) : Val :=
  let e := esizeOf w
  let one (i : Nat) : Val := if w.kc then c.src w.ty.pair true w.c l else c.reg w.ty.pair (w.c.toNat + (if w.ty.pair then 2 * i else i)) l
  (List.range n).foldl (fun v i =>
    let x := one i
    ⟨v.n + (x.n % 2 ^ (8 * e)) * 2 ^ (8 * e * i), v.tag || x.tag⟩) ⟨0, false⟩

/-- What a lane stores, where. -/
def LaneCtx.part (c : LaneCtx) (w : LaneFields) (n : Nat) (a : LaneAcc) : MemType × StorePart :=
  let v := c.data w n a.lane
  (a.mt, ⟨a.pa, esizeOf w * n, v.n, v.tag || a.tag⟩)

/-- The bytes a walker body's store records (R288). -/
def LaneCtx.walkStores (c : LaneCtx) (w : LaneFields) (n : Nat) (a : LaneAcc) : List WStore :=
  let p := (c.part w n a).2
  (List.range p.len).map fun i => ⟨a.lane, (a.ea + BitVec.ofNat 64 i).toNat, p.addr + i, a.mt, byteOf p.val i, p.s⟩

/-- A store word whose checks have passed enters the store queue, after the loads and the release part that precede it. -/
def State.enterStore (s : State) (c : LaneCtx) (w : LaneFields) (n : Nat) (cluster direct : Bool) (accs : List LaneAcc) :
    State :=
  let p := s.loadsBefore c.hid cluster (esizeOf w * n) accs
  if !p.2 then p.1
  else p.1.withRelease c.hid w.ord false fun s =>
    let parts := (s.liveAccs c.hid accs).map (c.part w n)
    let f := s.fresh
    let s1 := if w.ord.str = .rel then f.2.storeRelease c.hid f.1 cluster parts
      else if cluster then f.2.enqueue c.hid f.1
        (if parts.isEmpty then [] else [writeEntry f.1 .cluster false (sectorWrites (parts.map Prod.snd))])
      else f.2.enqueue c.hid f.1 (storeEntries f.1 direct parts)
    s1.laneNext c.hid c.slot

/-- A store word: inside a walker body a plain `st` is recorded; elsewhere it enters the store queue after the loads
and the release part that precede it. A body's `st` that fails records KIND 6, that of `st`; 12 is recorded only when the
walker's own write fails. DESIGN CHOICE (log 93). -/
def storeWord (op : Nat) (cluster direct : Bool) (kind : AccessKind) (w : LaneFields) (s : State) : Out :=
  laneWord op w s fun c s =>
    let n := memCount op w
    let size := esizeOf w * n
    let banned := cluster || direct || w.ord.str ≠ .plain
    if banned && c.h.walking && !(c.memLanes w).isEmpty then s.walkTrap c.hid .walker 1 (maskOf (c.memLanes w))
    else if c.h.full .st && !c.h.walking then s.stallsOn c.hid false .st
    else
      let r := s.memCheck c w cluster size accWrite kind fun l => (c.data w n l).tag
      match r.2 with
      | none => r.1
      | some accs =>
        match (if cluster then none else r.1.tagCheck c w accs fun l => (c.data w n l).tag) with
        | some (lanes, cause) => r.1.laneTrap c.hid c.slot .tag cause true lanes 0
        | none =>
          if c.h.walking && !banned then
            (r.1.modHart c.hid fun h =>
              { h with walk := h.walk.map fun k => { k with stores := k.stores ++ accs.flatMap (c.walkStores w n) } }).laneNext
              c.hid c.slot
          else r.1.enterStore c w n cluster direct accs

def execSt (w : LaneFields) (s : State) : Out := storeWord 0x59 false false .laneStore w s
def execStd (w : LaneFields) (s : State) : Out := storeWord 0x5B false true .laneDirect w s
def execStc (w : LaneFields) (s : State) : Out := storeWord 0x5D true false .laneDirect w s

/-! ### Atomics (R241, R242) -/

/-- The operation of AOP and type (R241). -/
def laneAop (w : LaneFields) : AtomOp :=
  let n := w.aux.toNat / 128 % 4
  match w.ty with
  | .b32 | .b64 => (match n with | 0 => .and | 1 => .or | 2 => .xor | _ => .swap)
  | .f32 | .f64 => (match n with | 0 => .fadd w.rnd | 1 => .fmin | _ => .fmax)
  | t =>
    match n with
    | 0 => .add
    | 1 => if t.signed then .smin else .umin
    | 2 => if t.signed then .smax else .umax
    | _ => .cas

/-- One lane's atomic: the operand, or cmp and new. -/
def LaneCtx.atomReq (c : LaneCtx) (w : LaneFields) (a : LaneAcc) : AtomReq :=
  let v := c.c w a.lane
  let u := if isCas w then c.reg w.ty.pair (w.c.toNat + (if w.ty.pair then 2 else 1)) a.lane else ⟨0, false⟩
  ⟨some a.lane, a.pa, esizeOf w, laneAop w, v.n, u.n, v.tag || u.tag, a.tag, w.d.toNat, c.iaddr⟩

/-- An atomic word. -/
def atomWord (op : Nat) (cluster : Bool) (kind : AccessKind) (w : LaneFields) (s : State) : Out :=
  laneWord op w s fun c s =>
    bodyForm s c (c.memLanes w) <|
    if c.h.full .ld || c.h.full .st then s.stallsOn c.hid false (if c.h.full .ld then .ld else .st)
    else
      let reqTag (l : Nat) : Bool := (c.atomReq w ⟨l, 0, 0, .normal, false⟩).opTag
      let r := s.memCheck c w cluster (esizeOf w) accAtomic kind reqTag
      match r.2 with
      | none => r.1
      | some accs =>
        match (if cluster then none else r.1.tagCheck c w accs reqTag) with
        | some (lanes, cause) => r.1.laneTrap c.hid c.slot .tag cause true lanes 0
        | none =>
          let o := w.ord
          let p := r.1.loadsBefore c.hid cluster (esizeOf w) accs
          if !p.2 then p.1
          else p.1.withRelease c.hid o false fun s =>
            let reqs := (s.liveAccs c.hid accs).map (c.atomReq w)
            let f := s.fresh
            let s1 := f.2.enqueueAtomic c.hid f.1 cluster (o.str = .rel || o.str = .ar) reqs
            (s1.laneNext c.hid c.slot).atomFinish c.hid f.1 false o c.iaddr

def execAtom (w : LaneFields) (s : State) : Out := atomWord 0x5E false .laneAtomic w s
def execAtomc (w : LaneFields) (s : State) : Out := atomWord 0x5F true .laneDirect w s

/-! ### Prefetch (R243) -/

/-- The lanes of a prefetch whose translation and permissions pass; a walk still sets A and installs (R19, R25). -/
def State.prefLanes (s : State) (c : LaneCtx) (es : List LaneEa) : State × List LaneAcc :=
  let t := s.xlateLanes c.h.site (s.hartVf c.h) accRead es
  (t.1, t.2.1.map LaneX.acc)

/-- `pref` (R243): in a walker body, a lane that touches the cover region is dropped before it is translated (R289). -/
def execPref (w : LaneFields) (s : State) : Out :=
  laneWord 0x60 w s fun c s =>
    let r := s.prefLanes c ((c.eas w false 4).filter fun e => c.h.coverHits false 4 [⟨e.lane, e.ea, 0, .normal, false⟩] = 0)
    let accs := r.2
    let level := w.aux.toNat / 128 % 4
    let fills := accs.filter fun a => level = 0 && a.mt = .normal
    let reads := accs.filter fun a => isGddr a.pa && (level = 1 && a.mt ≠ .device || level = 0 && a.mt = .streaming)
    let s1 := reads.foldl (fun s a => (s.homeRead (sectorOf a.pa)).1) r.1
    let s2 := if fills.isEmpty then s1
      else
        let q := s1.issueLoad c.hid false fun id =>
          ⟨id, .pref, fills, 4, 1, false, 0, none, c.iaddr, .laneLoad, [], 0, .walker⟩
        (q.1.performLoad c.hid q.2).1
    s2.laneNext c.hid c.slot

end Sys2Proof.Machine
end

