-- ==== Sys2Proof/Machine/Images.lean ====
section
/-! DEFINITION. Where bulk data lies: the sectors and pieces of copies, tensor maps, operand descriptors and operand
images (R247 to R251, R295 to R298). -/

namespace Sys2Proof.Machine

/-! ### Tensor maps (R249, R250) -/

/-- A tensor map decoded. Lists are in dimension order, one entry for each dimension. -/
structure TMap where
  base : Nat
  esize : Nat
  sizes : List Nat
  strides : List Int
  boxes : List Nat
  fill : Nat
deriving DecidableEq, Repr

/-- Word `i` of a map read as 16 words. -/
def mapWord (m : List Word) (i : Nat) : Word := m.getD i 0

/-- SIZE_i, STRIDE_i and BOX_i of a map. -/
def mapSize (m : List Word) (i : Nat) : Nat := bits (mapWord m (2 + i / 2)) (32 * (i % 2)) 32
def mapStride (m : List Word) (i : Nat) : Word := mapWord m (5 + i)
def mapBox (m : List Word) (i : Nat) : Nat := bits (mapWord m 13) (8 * i) 8

/-- Product of a list. -/
def product (xs : List Nat) : Nat := xs.foldl (· * ·) 1

/-- Decodes a map; none when it breaks a rule of R249. -/
def tmapOf (m : List Word) : Option TMap :=
  let nd := bits (mapWord m 1) 0 3
  let esize := 2 ^ bits (mapWord m 1) 3 2
  let dims := List.range (nd + 1)
  let above := (List.range 8).filter fun i => decide (nd < i)
  let boxes := dims.map fun i => mapBox m i + 1
  let ok := bits (mapWord m 1) 5 59 = 0 && mapWord m 15 = 0 && (dims.all fun i => mapSize m i ≠ 0) &&
    (above.all fun i => mapSize m i = 0 && mapBox m i = 0 && mapStride m i = 0) &&
    decide (product boxes * esize ≤ 2 ^ 18)
  let stride (i : Nat) : Int :=
    if i = 0 then (esize : Int) else (BitVec.ofNat 64 ((mapStride m i).toNat / esize * esize)).toInt
  if ok then
    some ⟨(mapWord m 0).toNat / esize * esize, esize, dims.map (mapSize m), dims.map stride, boxes,
      (mapWord m 14).toNat % 2 ^ (8 * esize)⟩
  else none

/-- Bytes of the box. -/
def TMap.bytes (t : TMap) : Nat := product t.boxes * t.esize

/-- The box index of an element, dimension 0 fastest. -/
def boxIndex : List Nat → Nat → List Nat
  | [], _ => []
  | b :: bs, i => i % b :: boxIndex bs (i / b)

/-- The global address of element `i` of the box at some coordinates, when it lies inside the tensor. -/
def TMap.gaddr (t : TMap) (coords : List Int) (i : Nat) : Option Nat :=
  let g := List.zipWith (fun (c : Int) (j : Nat) => c + j) coords (boxIndex t.boxes i)
  if (List.zipWith (fun (x : Int) (n : Nat) => decide (0 ≤ x ∧ x < n)) g t.sizes).all id then
    some (wrap 64 (t.base + (List.zipWith (· * ·) g t.strides).foldl (· + ·) 0))
  else none

/-! ### The pieces of a copy -/

/-- A sector of a space: whether it is the cluster store, and its number. -/
abbrev SpaceSector := Bool × Nat

/-- A run of bytes moved: its destination, its source or the FILL value, and its length. It lies in one sector on
each side. -/
structure Part where
  dst : Nat
  src : Option (Bool × Nat)
  fill : Nat
  len : Nat
deriving DecidableEq, Repr

/-- The sectors a byte range touches, ascending. -/
def rangeSectors (a n : Nat) : List Nat :=
  if n = 0 then [] else (List.range ((a + n - 1) / 128 + 1 - a / 128)).map (a / 128 + ·)

/-- The destination sectors of a copy (R102). -/
def CopyWork.sectors : CopyWork → List SpaceSector
  | .linear ss =>
    let all := ss.flatMap fun x => (rangeSectors x.dst x.len).map fun n => (x.dstC, n)
    if ss.length = 1 then all else all.eraseDups
  | .tensor map coords out caddr =>
    match tmapOf map with
    | none => []
    | some t =>
      if out then
        ((List.range (product t.boxes)).filterMap fun i => (t.gaddr coords i).map fun a => (false, sectorOf a)).eraseDups
      else (rangeSectors caddr t.bytes).map fun n => (true, n)

/-- The parts of one slice that fall in a destination sector, cut where the source passes into its next sector. -/
def Slice.parts (x : Slice) (sec : SpaceSector) : List Part :=
  let lo := Nat.max x.dst (128 * sec.2)
  let hi := Nat.min (x.dst + x.len) (128 * sec.2 + 128)
  if x.dstC ≠ sec.1 ∨ hi ≤ lo then []
  else
    let src := x.src + (lo - x.dst)
    let n := hi - lo
    let first := 128 - src % 128
    if n ≤ first then [⟨lo, some (x.srcC, src), 0, n⟩]
    else [⟨lo, some (x.srcC, src), 0, first⟩, ⟨lo + first, some (x.srcC, src + first), 0, n - first⟩]

/-- The parts of a copy that fall in a destination sector. -/
def CopyWork.parts (w : CopyWork) (sec : SpaceSector) : List Part :=
  match w with
  | .linear ss => ss.flatMap fun x => x.parts sec
  | .tensor map coords out caddr =>
    match tmapOf map with
    | none => []
    | some t =>
      let n := product t.boxes
      if out then
        (List.range n).filterMap fun i => (t.gaddr coords i).bind fun a =>
          if sectorOf a = sec.2 then some ⟨a, some (true, caddr + t.esize * i), 0, t.esize⟩ else none
      else
        ((List.range n).filter fun i => sectorOf (caddr + t.esize * i) = sec.2).map fun i =>
          ⟨caddr + t.esize * i, (t.gaddr coords i).map fun a => (false, a), t.fill, t.esize⟩

/-- The source sectors of some parts, in order: each is one read. -/
def sourceSectors (ps : List Part) : List SpaceSector :=
  (ps.filterMap fun p => p.src.map fun x => (x.1, sectorOf x.2)).eraseDups

/-- The parts read from a source sector. -/
def partsFrom (ps : List Part) (sec : SpaceSector) : List Part :=
  ps.filter fun p => p.src.map (fun x => (x.1, sectorOf x.2)) = some sec

/-- Bytes of some parts. -/
def partBytes (ps : List Part) : Nat := (ps.map (·.len)).foldl (· + ·) 0

/-- Whether a copy has still to read bytes of the cluster store in a range (R106). -/
def Copy.readsCluster (c : Copy) (a n : Nat) : Bool :=
  (c.work.sectors.zip (List.range c.work.sectors.length)).any fun x =>
    !c.done.contains x.2 &&
    ((sourceSectors (c.work.parts x.1)).zip (List.range 128)).any fun y =>
      !(c.read.any fun r => r.1 = 128 * x.2 + y.2) && y.1.1 &&
      (partsFrom (c.work.parts x.1) y.1).any fun p => match p.src with
        | some q => decide (q.2 < a + n ∧ a < q.2 + p.len)
        | none => false

/-! ### Format state (R295) -/

/-- Element types and lengths of a format word. -/
def fmtA (f : Word) : Option LType := LType.ofCode (bits f 0 5)
def fmtB (f : Word) : Option LType := LType.ofCode (bits f 8 5)
def fmtScaled (f : Word) : Bool := bitOf f 18
/-- K: 32, 64 or 128. -/
def fmtK (f : Word) : Nat := 2 ^ (5 + bits f 16 2)

/-- The types of narrow elements. -/
def narrowTypes : List LType := [.e5m2, .e4m3, .e3m2, .e2m3, .e2m1]

/-- The value a thread starts with. -/
def fmtReset : Word := 0x61111

/-! ### Operand descriptors (R297) -/

def descSrc (x : Word) : Nat := bits x 62 2
def descMc (x : Word) : Bool := bitOf x 61
def descRing (x : Word) : Nat := bits x 55 6
def descStep (x : Word) : Nat := bits x 32 21
def descAddr (x : Word) : Nat := bits x 0 21

/-- Whether a descriptor breaks a rule; `va` is the streamed address, and `last` says that register 63 holds the
descriptor. -/
def descBad (x va : Word) (last : Bool) : Bool :=
  descSrc x = 3 || (descSrc x ≠ 1 && descRing x ≠ 0) || bits x 53 2 ≠ 0 || descStep x % 128 ≠ 0 ||
  (descMc x && descStep x ≠ 0) || bits x 21 11 ≠ 0 ||
  (if descSrc x = 2 then descAddr x ≠ 0 || last || bits va 0 7 ≠ 0 else descAddr x % 128 ≠ 0)

/-- The start of engine `e`'s image. -/
def imageStart (x va : Word) (e : Nat) : Nat :=
  (if descSrc x = 2 then va.toNat else descAddr x) + (if descMc x then 0 else e * descStep x)

/-- Bytes of a row of an operand of a type, for a chunk length (R296). -/
def rowBytes (t : LType) (k : Nat) : Nat := k * t.width / 8

/-- Bytes of an operand image. -/
def imageBytes (f : Word) (t : LType) : Nat := 64 * rowBytes t (fmtK f) + (if fmtScaled f then 128 else 0)

/-- The engines of a mask, ascending. -/
def enginesOf (m : BitVec 4) : List Nat := (List.range 4).filter fun e => m.getLsbD e

/-- The key under which a tile operation keeps sector `n` of operand `o` (0 A, 1 B) as engine `e` reads it; a
multicast image is read once. -/
def readKey (o : Nat) (desc : Word) (e n : Nat) : Nat := (4 * o + (if descMc desc then 0 else e)) * 2 ^ 58 + n

/-- Whether a tile operation has still to read bytes of a range of the cluster store (R106). -/
def TileOp.readsCluster (t : TileOp) (a n : Nat) : Bool :=
  match t.kind with
  | .mma da db va vb f =>
    let one (o : Nat) (x va : Word) (ty : Option LType) : Bool :=
      descSrc x ≠ 2 && (enginesOf t.mask).any fun e =>
        (rangeSectors (imageStart x va e) (imageBytes f (ty.getD .e2m1))).any fun q =>
          decide (128 * q < a + n ∧ a < 128 * q + 128) && !(t.out.any fun w => w.sector = readKey o x e q)
    one 0 da va (fmtA f) || one 1 db vb (fmtB f)
  | _ => false

end Sys2Proof.Machine
end

