-- ==== Sys2Proof/Machine/Defect.lean ====
section
/-! DEFINITION. Wide accumulators, defect correction and the tag tests (R44, R175, R262 to R281). -/

namespace Sys2Proof.Machine

/-! ### Accumulators and records in the hidden registers (R269 to R271) -/

/-- A lane's accumulator with its XT and SH, and its correction record. -/
structure WideReg where
  w : Wide
  xt : Bool
  sh : Bool
  nc : Nat
  pass : Nat
  last : Word
deriving DecidableEq, Repr

/-- The integer W of a lane: eight registers, the lowest first. -/
def Hart.wideInt (h : Hart) (base lane : Nat) : Int :=
  signedOf 256 ((List.range 8).foldl (fun n i => n + (h.getV (base + i) lane).val.toNat * 2 ^ (32 * i)) 0)

/-- The exponent word (R270). -/
def WideReg.word (x : WideReg) : Nat :=
  wrap 12 x.w.e + x.w.nv.toNat * 2 ^ 12 + x.w.st.toNat * 2 ^ 13 + x.w.ov.toNat * 2 ^ 14 + x.xt.toNat * 2 ^ 15 +
    x.sh.toNat * 2 ^ 16

/-- Register +9 of the record (R271). -/
def WideReg.recordWord (x : WideReg) : Nat := x.nc * 2 ^ 16 + x.pass

/-- The accumulator of a lane. -/
def Hart.wide (h : Hart) (base lane : Nat) : WideReg :=
  let x := (h.getV (base + 8) lane).val
  let r := (h.getV (base + 9) lane).val.toNat
  ⟨⟨h.wideInt base lane, signedOf 12 x.toNat, x.getLsbD 12, x.getLsbD 13, x.getLsbD 14⟩, x.getLsbD 15, x.getLsbD 16,
    r / 2 ^ 16 % 256, r % 2 ^ 16, (h.getV (base + 11) lane).val ++ (h.getV (base + 10) lane).val⟩

/-- The twelve registers that hold an accumulator and its record. -/
def WideReg.regs (x : WideReg) : List Nat :=
  (List.range 8).map (fun i => wrap 256 x.w.w / 2 ^ (32 * i)) ++
    [x.word, x.recordWord, x.last.toNat, x.last.toNat / 2 ^ 32]

/-- Writes some of the twelve registers of a lane's accumulator. -/
def State.putWide (s : State) (hid base lane : Nat) (part : List Nat) (x : WideReg) : State :=
  ((x.regs.zip (List.range 12)).filter fun p => part.contains p.2).foldl (fun s p =>
    s.writeV hid (base + p.2) lane ⟨BitVec.ofNat 32 p.1, false⟩) s

/-- The accumulator's tag (R270). -/
def WideReg.tag (x : WideReg) : Bool := x.xt || x.sh

/-- The accumulator a field names, in a lane. -/
def LaneCtx.wide (c : LaneCtx) (n l : Nat) : WideReg := c.h.wide (wideBase c.declared n) l

/-! ### Lane tag faults and the traps after a word (R268, R278, R279) -/

/-- Runs a word unless one of its settled-only operands is a proposal: each operand comes with its field number.
DEDUCED (log 41). -/
def State.settledLanes (s : State) (c : LaneCtx) (ops : List (Nat × (Nat → Bool))) (k : State) : State :=
  match ops.find? fun p => c.lanes.any p.2 with
  | some p => s.laneTrap c.hid c.slot .tag p.1 true (maskOf (c.lanes.filter p.2)) 0
  | none => k

/-- The end of a word that traps after its writes when some lanes ask for it; otherwise the slot moves on. -/
def State.afterWord (s : State) (c : LaneCtx) (cls : TrapClass) (lanes : List Nat) (n : Nat) : State :=
  if lanes.isEmpty then s.laneNext c.hid c.slot
  else s.laneTrap c.hid c.slot cls 0 false (maskOf lanes) (BitVec.ofNat 64 n)

/-- Writes new accumulators, and raises the wide-overflow trap for the lanes whose OV became 1 (R279). -/
def State.putWides (s : State) (c : LaneCtx) (n : Nat) (f : Nat → WideReg) (fresh : Bool) : State :=
  let s1 := c.lanes.foldl (fun s l => s.putWide c.hid (wideBase c.declared n) l valueRegs (f l)) s
  let past := c.lanes.filter fun l =>
    bitOf c.h.corrOvf 0 && (f l).w.ov && (fresh || !(c.wide n l).w.ov)
  s1.afterWord c .wideOverflow past n

/-! ### The forms -/

def execDinit (w : LaneFields) (s : State) : Out :=
  laneWord 0x70 w s fun c s =>
    let ereg := w.aux.getLsbD 0
    let e (l : Nat) : Int := if ereg then signedOf 12 (c.c w l).n else signedOf 12 w.imm16.toNat
    s.settledLanes c ([(2, fun l => (c.b w l).tag)] ++ (if ereg then [(3, fun l => (c.c w l).tag)] else []))
      (s.putWides c w.d.toNat (fun l =>
        { c.wide w.d.toNat l with w := wideInit (w.ty.value (c.b w l).n) (e l), xt := false, sh := c.shadow }) true)

def execDacc (w : LaneFields) (s : State) : Out :=
  laneWord 0x71 w s fun c s =>
    s.settledLanes c [(1, fun l => (c.a w l).tag)]
      (s.putWides c w.d.toNat (fun l =>
        let x := c.wide w.d.toNat l
        let b := c.b w l
        { x with w := wideAcc x.w (w.ty.value (c.a w l).n) (w.ty.value b.n) (!w.aux.getLsbD 0), xt := x.xt || b.tag,
                 sh := x.sh || c.shadow }) false)

def execDrnd (w : LaneFields) (s : State) : Out :=
  laneCompute 0x72 w s fun c w =>
    c.each w fun l =>
      let x := c.wide w.a.toNat l
      let r := wideRound x.w w.ty.fmt w.rnd
      (⟨w.ty.image r.1, x.tag || c.shadow⟩, r.2)

/-- One lane of `dcor` (R277): y, its status, whether it is settled, whether it is accepted, |r| as an f64. -/
structure Corrected where
  y : Nat
  st : Stat
  settle : Bool
  accept : Bool
  m : FVal
deriving DecidableEq, Repr

/-- The lane's correction. DEDUCED (log 40). -/
def LaneCtx.correct (c : LaneCtx) (w : LaneFields) (l : Nat) : Corrected :=
  let x := c.wide w.b.toNat l
  let r := wideRound x.w w.ty.fmt .rne
  let sum := FVal.add .rne (w.ty.value (c.a w l).n) r.1
  let y := w.ty.fmt.round .rne sum.1
  let prod := (w.ty.value (c.c w l).n).mul y.1.abs
  let lim := w.ty.fmt.round .rne prod.1
  let accept := !r.1.isNaN && !y.1.isNaN && !lim.1.isNaN && (r.1.isZero || !lim.1.lt r.1.abs)
  ⟨w.ty.image y.1, r.2 ||| sum.2 ||| y.2 ||| prod.2 ||| lim.2, accept && !x.sh && !c.shadow, accept, r.1.abs⟩

/-- Whether a rejected pass counts as non-contracting (R277). -/
def nonContracting (h : Hart) (x : WideReg) (m : FVal) : Bool :=
  let k := fmtF64.decode h.corrKappa.toNat
  let bound := (fmtF64.round .rne (k.mul (fmtF64.decode x.last.toNat)).1).1
  x.pass ≠ 0 && !k.isNaN && (m.isNaN || bound.lt m)

/-- The lane's record after the pass, and whether the lane asks for the trap. -/
def recordPass (h : Hart) (x : WideReg) (r : Corrected) : WideReg × Bool :=
  if r.accept then ({ x with pass := 0, nc := 0, last := 0 }, false)
  else
    let non := nonContracting h x r.m
    let nc := if non then min (x.nc + 1) 255 else 0
    let limit := bits h.corrLimit 0 8
    ({ x with nc := nc, pass := min (x.pass + 1) 65535, last := BitVec.ofNat 64 (fmtF64.encode r.m) },
      non && limit ≠ 0 && decide (limit ≤ nc))

def execDcor (w : LaneFields) (s : State) : Out :=
  laneWord 0x73 w s fun c s =>
    s.settledLanes c [(3, fun l => (c.c w l).tag)]
      (let n := w.b.toNat
       let s1 := s.commit c.hid (c.each w fun l => let r := c.correct w l; (⟨r.y, !r.settle⟩, r.st))
       let s2 := c.lanes.foldl (fun s l =>
         s.putWide c.hid (wideBase c.declared n) l recordRegs (recordPass c.h (c.wide n l) (c.correct w l)).1) s1
       s2.afterWord c .nonConvergence (c.lanes.filter fun l => (recordPass c.h (c.wide n l) (c.correct w l)).2) n)

def execDrst (w : LaneFields) (s : State) : Out :=
  laneWord 0x74 w s fun c s =>
    if w.aux.toNat % 4 = 0 then
      (c.lanes.foldl (fun s l =>
        s.putWide c.hid (wideBase c.declared w.d.toNat) l recordRegs
          { c.wide w.d.toNat l with pass := 0, nc := 0, last := 0 }) s).laneNext c.hid c.slot
    else
      (s.commit c.hid (LaneOut.ofRegs (c.lanes.flatMap fun l =>
        let x := c.wide w.a.toNat l
        let words := [x.recordWord, x.word, x.last.toNat, x.last.toNat / 2 ^ 32]
        (words.zip (List.range 4)).map fun p => (⟨w.d.toNat + p.2, l, false, p.1, c.shadow⟩, 0)))).laneNext c.hid c.slot

/-- The tag that `ptst` and `pchk` read (R281). -/
def LaneCtx.tested (c : LaneCtx) (w : LaneFields) (l : Nat) : Bool :=
  match w.aux.toNat % 4 with
  | 0 => (c.a w l).tag
  | 1 => (c.h.getM w.a.toNat).tag l
  | _ => (c.wide w.a.toNat l).tag

def execPtst (w : LaneFields) (s : State) : Out :=
  laneCompute 0x75 w s fun c w => c.eachBit w fun l => (c.tested w l, c.shadow)

def execPchk (w : LaneFields) (s : State) : Out :=
  laneWord 0x76 w s fun c s =>
    let hit := c.lanes.filter (c.tested w)
    if hit.isEmpty then s.laneNext c.hid c.slot else s.laneTrap c.hid c.slot .tag 1 false (maskOf hit) 0

end Sys2Proof.Machine
end

