-- ==== Sys2Proof/Machine/LaneCtl.lean ====
section
/-! DEFINITION. Lane control: splits, joins, the end of a block and the lane trap word (R117 to R122, R228 to R230). -/

namespace Sys2Proof.Machine

/-- The target of an `lbr`: T[23:16] in bits 23:16, T[15:0] in imm16 (R228). -/
def lbrTarget (w : LaneFields) : BitVec 24 := w.aux.extractLsb' 0 8 ++ w.imm16

/-- The two sides of a split (R119). -/
def Hart.split (h : Hart) (i : Bool) (m : MaskReg) (target : BitVec 24) : Hart :=
  let si := h.slot i
  let act := h.live i
  let sh := si.shadow || (act &&& m.tags) ≠ 0
  let taken := act &&& m.bits
  let kept := act &&& ~~~m.bits
  let h1 := if (h.slot !i).st ≠ .free then { h with stack := ⟨h.slot !i, h.csh, h.corg⟩ :: h.stack } else h
  let h2 := { h1 with csh := si.shadow, corg := i, older := [] :: h1.older }
  let h3 := h2.setSlot i ⟨si.off + 1, kept, sh, if kept ≠ 0 || act = 0 then .run else .waitAny⟩
  h3.setSlot (!i) ⟨target, taken, sh, if taken ≠ 0 then .run else .waitAny⟩

/-- `lbr` (R119, R228); an entry it pushes is written new (R121). A 65th nested split overflows the stack and changes nothing (R122). -/
def execLbr (w : LaneFields) (s : State) : Out :=
  laneWord 0x78 w s fun c s =>
    if (c.h.slot !c.slot).st ≠ .free && c.h.stack.length = 64 then
      s.laneTrap c.hid c.slot .divergence 0 true c.mask 0
    else
      (s.modHart c.hid fun h => h.split c.slot (c.msel w) (lbrTarget w)).clearUpset (.stack c.hid c.h.stack.length)

/-- The merge of a pair at the join word that slot `i` has reached (R120). -/
def Hart.merge (h : Hart) (w : BitVec 24) : Hart :=
  let k := h.corg
  let h1 := { h with older := h.older.tail }.setSlot k ⟨w + 1, h.slot0.mask ||| h.slot1.mask, h.csh, .run⟩
  match h.stack with
  | [] => h1.setSlot (!k) Slot.zero
  | e :: rest => { h1.setSlot (!k) e.other with stack := rest, csh := e.csh, corg := e.corg }

/-- An illegal-lane-word trap for an unbalanced join, with the slot's executed lanes (R120, R229). -/
def State.badJoin (s : State) (c : LaneCtx) : State :=
  s.laneTrap c.hid c.slot .illegalLane Reason.join.code true c.mask 0

/-- Whether the entry that the next merge of a hart pops reads back bad (R121). -/
def State.popBad (s : State) (hid : Nat) (h : Hart) : Bool := !h.stack.isEmpty && s.upsetAt (.stack hid (h.stack.length - 1))

/-- `ljoin` (R120, R229). A popped stack entry that reads back bad kills the gang (R121). -/
def execLjoin (w : LaneFields) (s : State) : Out :=
  laneWord 0x79 w s fun c s =>
    let me := c.h.slot c.slot
    let other := c.h.slot !c.slot
    match other.st with
    | .free => if c.h.stack.isEmpty then s.badJoin c else s
    | .wait =>
      if other.off ≠ me.off then s.badJoin c
      else if s.popBad c.hid c.h then s.laneTrap c.hid c.slot .pipeline 2 true c.mask 0
      else s.modHart c.hid fun h => h.merge me.off
    | .waitAny =>
      if s.popBad c.hid c.h then s.laneTrap c.hid c.slot .pipeline 2 true c.mask 0
      else s.modHart c.hid fun h => h.merge me.off
    | .run => s.modHart c.hid fun h => h.setSlot c.slot { me with st := .wait }

/-- A wait for earlier blocks has one fewer to wait for (R189). -/
def Wait.blockEnded : Wait → Wait
  | .lsync n => .lsync (n - 1)
  | w => w

/-- Ends the running block (R117). -/
def Hart.endBlock (h : Hart) : Hart :=
  { h with block := none, slot0 := Slot.zero, slot1 := Slot.zero, csh := false, corg := false, stack := [], older := [],
           wait := h.wait.map Wait.blockEnded }

/-- Starts the oldest queued block (R119, LANE_BLOCK_START). -/
def Hart.startBlock (h : Hart) : Hart :=
  match h.block, h.queue with
  | none, b :: rest =>
    if h.frozen || h.walk.isSome then h
    else { h with block := some b, queue := rest, slot0 := ⟨0, h.m0, false, .run⟩, slot1 := Slot.zero, csh := false,
                  corg := false, stack := [], older := [] }
  | _, _ => h

/-- `lend` (R117, R120, R229). -/
def execLend (w : LaneFields) (s : State) : Out :=
  laneWord 0x7A w s fun c s =>
    if (c.h.slot !c.slot).st ≠ .free || !c.h.stack.isEmpty then s.badJoin c
    else s.modHart c.hid Hart.endBlock

def execLnop (w : LaneFields) (s : State) : Out := laneWord 0x7B w s fun c s => s.laneNext c.hid c.slot

/-- `ltrap` (R230). -/
def execLtrap (w : LaneFields) (s : State) : Out :=
  laneWord 0x7C w s fun c s =>
    bodyForm s c c.lanes <|
    if c.lanes.isEmpty then s.laneNext c.hid c.slot
    else s.laneTrap c.hid c.slot .laneSoftware 0 false c.mask (BitVec.ofNat 64 (w.imm16.toNat % 1024))

/-- The LANE_BLOCK_START event: a hart's oldest queued block starts when none runs, no word of the last waits for a load, and
nothing holds the queue. -/
def execLaneBlockStart (hart : Nat) (s : State) : Out :=
  .next (match s.hart? hart with
    | some h => if h.still || s.saved h || !h.late.isEmpty then s else s.putHart hart h.startBlock
    | none => s)

end Sys2Proof.Machine
end

