-- ==== Sys2Proof/Machine/Waits.lean ====
section
/-! DEFINITION. Barriers, rings, the waits of the S-stream, and lane dispatch (R96 to R99, R117, R118, R188 to R190,
R194 to R196, R255 to R261, R435). Each wait has one operation that ends it when what it waits for has come; the
instruction tries it at once, and a hart in its wait tries it again whenever it moves. -/

namespace Sys2Proof.Machine

/-! ### Waits in general -/

/-- The instruction enters its wait. -/
def State.waiting (s : State) (hid : Nat) (w : Wait) : State := s.modHart hid fun h => { h with wait := some w }

/-- The wait ends and the S-stream moves on. -/
def State.endWait (s : State) (hid : Nat) : State := s.modHart hid fun h => { h with wait := none, pc := h.pc + 4 }

/-- Whether the wait is one of R435, in which a lane trap or a user interrupt can be taken. -/
def Wait.interruptible : Wait → Bool
  | .tlbi | .spawn .. | .mscrub .. => false
  | _ => true

/-- Whether the wait is a safe point (R353, R435). -/
def Wait.safe : Wait → Bool
  | .sget _ | .lsync _ | .lrun _ | .tlbi | .spawn .. | .mscrub .. => false
  | _ => true

/-- Whether a wave may not issue a form because of its role (R128). -/
def Hart.roleBad (h : Hart) (need : Role) : Bool := h.engine = .wave && h.role ≠ need

/-- A form that only one role may issue: the role trap comes before every other check. -/
def onRole (s : State) (need : Role) (reads writes : List SReg) (f : Nat → Hart → State) : Out :=
  onScalar s reads writes fun hid h => if h.roleBad need then s.trap hid .role 0 else f hid h

/-- Whether some register of a list holds a proposal. -/
def Hart.anyTag (h : Hart) (rs : List SReg) : Bool := rs.any fun r => (h.getS r).tag

/-! ### Barriers (R96 to R98) -/

/-- Barrier `c` of gang `n` of a unit. -/
def Gang.bar (g : Gang) (n c : Nat) : Barrier := SMapOps.get Barrier.zero g.bars (16 * n + c)
def Gang.setBar (g : Gang) (n c : Nat) (b : Barrier) : Gang :=
  { g with bars := SMapOps.set Barrier.zero g.bars (16 * n + c) b }

/-- The image of a barrier, bits 127:64 and 63:0 (R96). -/
def Barrier.high (b : Barrier) : Word := at' 32 b.gen.toNat ||| at' 0 (b.pend.toNat / 2 ^ 16)
def Barrier.low (b : Barrier) : Word :=
  at' 48 (b.pend.toNat % 2 ^ 16) ||| at' 42 b.exp.toNat ||| at' 36 b.arr.toNat ||| at' 6 b.rsv.toNat ||| at' 2 b.ccause.toNat |||
    at' 1 b.cflt.toNat ||| at' 0 b.init.toNat

/-- Whether a generation is reached (R98). -/
def Barrier.reached (b : Barrier) (g : BitVec 32) : Bool := !(b.gen - g).msb

/-- The phase-completion test; `dec` marks a PEND decrement (R97). -/
def Barrier.test (b : Barrier) (dec : Bool) : Barrier :=
  if b.arr = b.exp && b.pend = 0 && (b.exp ≠ 0 || dec) then { b with gen := b.gen + 1, arr := 0 } else b

/-- An arrival (R97): none when ARR would pass EXP. -/
def Barrier.arrive (b : Barrier) : Option Barrier :=
  if b.exp.toNat ≤ b.arr.toNat then none else some ({ b with arr := b.arr + 1 }.test false)

/-- A copy issues (R97): none when PEND or ARR would pass its bound. DEDUCED (log 25). -/
def Barrier.copyIssues (b : Barrier) (n : Nat) (arv : Bool) : Option Barrier :=
  if 2 ^ 48 ≤ b.pend.toNat + n ∨ (arv ∧ b.exp.toNat ≤ b.arr.toNat) then none
  else some ({ b with pend := b.pend + BitVec.ofNat 48 n, arr := if arv then b.arr + 1 else b.arr }.test false)

/-- Bytes performed (R97). -/
def Barrier.performed (b : Barrier) (n : Nat) : Barrier := { b with pend := b.pend - BitVec.ofNat 48 n }.test true

/-- A copy ends on a fault (R97, R253); one that owes no byte counts as a PEND decrement all the same.
DESIGN CHOICE (log 97). -/
def Barrier.copyFails (b : Barrier) (n : Nat) (cause : BitVec 4) : Barrier :=
  { b with pend := b.pend - BitVec.ofNat 48 n, cflt := true, ccause := cause }.test true

/-- The barrier a form names; none at or beyond the gang's declared count (R256). -/
def State.barrier? (s : State) (h : Hart) (c : Nat) : Option Barrier :=
  match s.unit? h.unit with
  | some g => if c < g.nbar then some (g.bar h.gang c) else none
  | none => none

def State.putBarrier (s : State) (h : Hart) (c : Nat) (b : Barrier) : State := s.modUnit h.unit fun g => g.setBar h.gang c b

/-- The barrier-misuse trap, with the barrier's image (R357). -/
def State.barrierTrap (s : State) (hid : Nat) (b : Option Barrier) : State :=
  let pc := match s.hart? hid with | some h => h.pc | none => 0
  s.trapWith hid .barrierMisuse 0 (b.map Barrier.high |>.getD 0) (b.map Barrier.low |>.getD 0) 0 pc

/-- A form on a barrier: its registers are settled, the tag check coming first; then the count and INIT (R256). -/
def onBarrier (s : State) (reads writes : List SReg) (c : BitVec 4) (f : Nat → Hart → Barrier → State) : Out :=
  onSettled s reads writes fun hid h =>
    match s.barrier? h c.toNat with
    | some b => if b.init then f hid h b else s.barrierTrap hid (some b)
    | none => s.barrierTrap hid none

/-- The generation a register names (R256). -/
def Hart.gen (h : Hart) (a : SReg) : BitVec 32 := (h.getS a).val.extractLsb' 0 32

/-- `bar.init` (R256). -/
def execBarInit (a : SReg) (c : BitVec 4) (s : State) : Out :=
  onSettled s [a] [] fun hid h =>
    match s.barrier? h c.toNat with
    | none => s.barrierTrap hid none
    | some b =>
      let n := (h.getS a).val
      if bits n 6 58 ≠ 0 || b.arr ≠ 0 || b.pend ≠ 0 then s.barrierTrap hid (some b)
      else (s.putBarrier h c.toNat { b with exp := n.extractLsb' 0 6, cflt := false, ccause := 0, init := true }).nextPc hid

/-- An arrival once its release is done (R99). -/
def State.arrive (s : State) (hid : Nat) (h : Hart) (c : Nat) : State :=
  match s.barrier? h c with
  | none => s.barrierTrap hid none
  | some b => match b.arrive with
    | some b' => (s.putBarrier h c b').nextPc hid
    | none => s.barrierTrap hid (some b)

/-- `bar.arrive` (R97, R99). -/
def execBarArrive (o : Ord) (c : BitVec 4) (s : State) : Out :=
  onBarrier s [] [] c fun hid h _ => s.withRelease hid o true fun s => s.arrive hid h c.toNat

/-- The acquire of a barrier form: none when its mask is empty (R99). -/
def State.barAcquire (s : State) (hid : Nat) (o : Ord) : State := if o.str = .plain then s else s.acquire hid o.obs

/-- `bar.wait` ends once its generation is reached, then acquires (R98, R99). -/
def State.tryBarWait (s : State) (hid : Nat) (c : Nat) (g : BitVec 32) (o : Ord) : State :=
  match (s.hart? hid).bind fun h => s.barrier? h c with
  | some b => if b.reached g then (s.barAcquire hid o).endWait hid else s
  | none => s

def execBarWait (a : SReg) (o : Ord) (c : BitVec 4) (s : State) : Out :=
  onBarrier s [a] [] c fun hid h _ =>
    ((s.closeBatch hid).waiting hid (.barWait c.toNat (h.gen a) o)).tryBarWait hid c.toNat (h.gen a) o

/-- The result word of `bar.test` (R256). -/
def Barrier.result (b : Barrier) (g : BitVec 32) : Word :=
  at' 32 b.gen.toNat ||| at' 4 b.ccause.toNat ||| at' 1 b.cflt.toNat ||| at' 0 (b.reached g).toNat

def execBarTest (d a : SReg) (o : Ord) (c : BitVec 4) (s : State) : Out :=
  onBarrier s [a] [d] c fun hid h b =>
    let s1 := s.result hid d ⟨b.result (h.gen a), false⟩
    if b.reached (h.gen a) then s1.barAcquire hid o else s1

/-- `bar.arm` (R257): handler register 0 disarms; an armed barrier is armed anew in its place; a third is misuse. -/
def execBarArm (hr a : SReg) (o : Ord) (c : BitVec 4) (s : State) : Out :=
  onBarrier s [a, hr] [] c fun hid h b =>
    let n := c.toNat
    let x : Armed := ⟨n, h.gen a, (h.getS hr).val, o⟩
    let put (l : List Armed) : State := (s.modHart hid fun h => { h with armed := l }).nextPc hid
    if hr = 0 then put (h.armed.filter fun y => y.bar ≠ n)
    else if h.armed.any fun y => y.bar = n then put (h.armed.map fun y => if y.bar = n then x else y)
    else if 2 ≤ h.armed.length then s.barrierTrap hid (some b)
    else put (h.armed ++ [x])

/-- `uret` (R257): outside a user handler it does nothing. In a trap handler that has interrupted a user handler it resumes at the
saved address, the trap handler staying active. DESIGN CHOICE (log 108). -/
def execUret (s : State) : Out :=
  onScalar s [] [] fun hid h =>
    match h.userReturn with
    | some a => s.modHart hid fun h => { h with userReturn := none, pc := codeTarget a }
    | none => s.nextPc hid

/-! ### Sleeping until a promise (R101, R196, R261) -/

/-- The missed-promise trap with its record. -/
def State.missedPromise (s : State) (hid c : Nat) (b : Barrier) (g : BitVec 32) (promise : Word) : State :=
  let pc := match s.hart? hid with | some h => h.pc | none => 0
  s.trapWith hid .missedPromise 0 (at' 32 b.gen.toNat ||| at' 0 g.toNat) promise
    (at' 16 b.pend.toNat ||| at' 4 b.cflt.toNat ||| at' 0 c) pc

/-- `ssleep` ends once the timebase reaches its promise: it goes on, or takes the trap (SSLEEP_WAKE). -/
def State.trySsleep (s : State) (hid c : Nat) (g : BitVec 32) (promise : Word) : State :=
  if s.time.toNat < promise.toNat then s
  else match (s.hart? hid).bind fun h => s.barrier? h c with
    | some b =>
      if b.reached g then s.endWait hid
      else (s.modHart hid fun h => { h with wait := none }).missedPromise hid c b g promise
    | none => s

def execSsleep (a b : SReg) (c : BitVec 4) (s : State) : Out :=
  onBarrier s [a, b] [] c fun hid h _ =>
    let t := (h.getS a).val
    ((s.closeBatch hid).waiting hid (.ssleep c.toNat (h.gen b) t)).trySsleep hid c.toNat (h.gen b) t

/-! ### Counter waits and special values (R194, R195) -/

/-- `swait` ends once every counter is at or below its threshold. -/
def State.trySwait (s : State) (hid ld st cp mx ts : Nat) : State :=
  match s.hart? hid with
  | some h =>
    if h.count .ld ≤ ld ∧ h.count .st ≤ st ∧ h.count .cp ≤ cp ∧ h.count .mx ≤ mx ∧ h.count .ts ≤ ts then s.endWait hid
    else s
  | none => s

def execSwait (ld st : BitVec 6) (cp mx : BitVec 4) (ts : BitVec 6) (s : State) : Out :=
  onScalar s [] [] fun hid _ =>
    ((s.closeBatch hid).waiting hid (.swait ld.toNat st.toNat cp.toNat mx.toNat ts.toNat)).trySwait hid
      ld.toNat st.toNat cp.toNat mx.toNat ts.toNat

def execSclk (d : SReg) (name : BitVec 4) (s : State) : Out :=
  onScalar s [] [d] fun hid h => s.result hid d ⟨s.special h name.toNat, false⟩

/-! ### Rings (R258 to R260) -/

/-- Slots of a ring, the bytes of one, and where slot `i` starts. -/
def Ring.count (r : Ring) : Nat := r.nsl + 1
def Ring.slotBytes (r : Ring) : Nat := 128 * (r.ssz + 1)
def Ring.offset (r : Ring) (i : Nat) : Nat := 128 * (r.base + i * (r.ssz + 1))

def Ring.slot (r : Ring) (i : Nat) : RingSlotState × Bool := SMapOps.get (.free, false) r.slots i
def Ring.setSlot (r : Ring) (i : Nat) (x : RingSlotState × Bool) : Ring :=
  { r with slots := SMapOps.set (.free, false) r.slots i x }

/-- The slot that starts at an offset. -/
def Ring.slotAt (r : Ring) (off : Nat) : Option Nat := (List.range r.count).find? fun i => r.offset i = off

/-- FULL slots (R259). -/
def Ring.occupancy (r : Ring) : Nat := ((List.range r.count).filter fun i => (r.slot i).1 = .full).length

/-- The ring a name is bound to; none where its image has EN = 0 (R258). -/
def Gang.ring (g : Gang) (q : Nat) : Option Ring := (SMapOps.get none g.rings q).bind fun r => if r.en then some r else none
def Gang.setRing (g : Gang) (q : Nat) (r : Ring) : Gang := { g with rings := SMapOps.set none g.rings q (some r) }

def State.ring? (s : State) (h : Hart) (q : Nat) : Option Ring := (s.unit? h.unit).bind fun g => g.ring q

/-- Notes a change of a ring's occupancy (R352). -/
def Ring.stamped (new old : Ring) (t : Word) : Ring :=
  if new.occupancy = old.occupancy then new else { new with hist := (new.occupancy, t) :: new.hist }

def State.modRing (s : State) (u q : Nat) (f : Ring → Ring) : State :=
  s.modUnit u fun g => match g.ring q with | some r => g.setRing q ((f r).stamped r s.time) | none => g

/-- The ring-misuse trap (R357). -/
def State.ringTrap (s : State) (hid q : Nat) (off : Word) : State :=
  let pc := match s.hart? hid with | some h => h.pc | none => 0
  s.trapWith hid .ringMisuse 0 (BitVec.ofNat 64 q) off 0 pc

/-- Whether it is a waiter's turn on a ring: no other hart's earlier waiter of its kind still has its place, which one in a
trap handler keeps (R259, R435). DEDUCED (log 28). -/
def State.ringTurn (s : State) (r : Ring) (w : Waiter) : Bool :=
  (r.waiters.takeWhile (· ≠ w)).all fun x => x.prod ≠ w.prod || x.hart = w.hart || match s.hart? x.hart with
    | some h => h.ended.isSome
    | none => true

/-- The place of a hart's wait on a ring. -/
def Hart.waiter (h : Hart) (hid : Nat) (prod : Bool) : Waiter := ⟨hid, prod, h.trapped.isSome⟩

/-- A hart's wait inside or outside a trap handler leaves a ring's waiters. DEDUCED (log 28). -/
def Ring.leave (r : Ring) (hid : Nat) (handler : Bool) : Ring :=
  { r with waiters := r.waiters.filter fun w => !(w.hart = hid && w.handler = handler) }

/-- `ring.res` takes slot PI once it is FREE. -/
def State.tryRingRes (s : State) (hid q : Nat) (d : SReg) : State :=
  match s.hart? hid with
  | none => s
  | some h => match s.ring? h q with
    | none => s
    | some r =>
      let x := r.slot r.pi
      if x.1 = .free && s.ringTurn r (h.waiter hid true) then
        ((s.modRing h.unit q fun r =>
          { (r.setSlot r.pi (.res, x.2)).leave hid h.trapped.isSome with pi := (r.pi + 1) % r.count }).setS hid d
            ⟨BitVec.ofNat 64 (r.offset r.pi), false⟩).endWait hid
      else s

/-- `ring.get` takes slot CI once it is FULL, then acquires m. -/
def State.tryRingGet (s : State) (hid q : Nat) (d : SReg) : State :=
  match s.hart? hid with
  | none => s
  | some h => match s.ring? h q with
    | none => s
    | some r =>
      let x := r.slot r.ci
      if x.1 = .full && s.ringTurn r (h.waiter hid false) then
        (((s.modRing h.unit q fun r =>
          { (r.setSlot r.ci (.held, x.2)).leave hid h.trapped.isSome with ci := (r.ci + 1) % r.count }).setS hid d
            ⟨BitVec.ofNat 64 (r.offset r.ci), false⟩).acquire hid letterM).endWait hid
      else s

/-- A form that takes a slot of a ring: its open batch closes, and it joins the ring's waiters. DEDUCED (log 28). -/
def State.joinRing (s : State) (hid q : Nat) (prod : Bool) (w : Wait) : State :=
  match s.hart? hid with
  | some h =>
    ((s.closeBatch hid).modRing h.unit q fun r => { r with waiters := r.waiters ++ [h.waiter hid prod] }).waiting hid w
  | none => s

def execRingRes (d : SReg) (q : BitVec 6) (s : State) : Out :=
  onScalar s [] [d] fun hid h =>
    match s.ring? h q.toNat with
    | none => s.ringTrap hid q.toNat 0
    | some _ => (s.joinRing hid q.toNat true (.ringRes q.toNat d)).tryRingRes hid q.toNat d

def execRingGet (d : SReg) (q : BitVec 6) (s : State) : Out :=
  onScalar s [] [d] fun hid h =>
    match s.ring? h q.toNat with
    | none => s.ringTrap hid q.toNat 0
    | some _ => (s.joinRing hid q.toNat false (.ringGet q.toNat d)).tryRingGet hid q.toNat d

/-- The slot of a ring that starts at an offset, when it is in a state. -/
def Ring.slotIn (r : Ring) (off : Nat) (st : RingSlotState) : Option Nat :=
  (r.slotAt off).bind fun i => if (r.slot i).1 = st then some i else none

/-- A commit: RES becomes FULL and the phase bit flips (R259). -/
def Ring.commit (r : Ring) (i : Nat) : Ring := r.setSlot i (.full, !(r.slot i).2)

/-- A release takes effect: HELD becomes FREE and the phase bit flips (R259). -/
def Ring.free (r : Ring) (i : Nat) : Ring := r.setSlot i (.free, !(r.slot i).2)

/-- `ring.cmt`: the checks, the implied release of m, then the commit (R260). -/
def execRingCmt (a : SReg) (q : BitVec 6) (s : State) : Out :=
  onSettled s [a] [] fun hid h =>
    let off := (h.getS a).val
    match (s.ring? h q.toNat).bind fun r => r.slotIn off.toNat .res with
    | none => s.ringTrap hid q.toNat off
    | some i => s.withRelease hid ⟨.rel, letterM⟩ true fun s => (s.modRing h.unit q.toNat fun r => r.commit i).nextPc hid

/-- Whether the copies and tile operations a release waits for have read what they read of the slot, no gang copy among them
being still to start (R106).
DEDUCED (log 29). -/
def State.relReady (s : State) (g : Gang) (x : RingRel) : Bool :=
  match g.ring x.ring with
  | none => true
  | some r =>
    x.tileOps.all (fun id => match s.tileOp? id with
      | some t => !t.readsCluster (r.offset x.slot) r.slotBytes
      | none => true) &&
    x.copies.all (fun id => match s.copy? id with
      | some c => !c.readsCluster (r.offset x.slot) r.slotBytes
      | none => true) &&
    x.gangs.isEmpty

/-- A pending `ring.rel` takes effect (RING_REL_EFFECTIVE). -/
def State.ringRelEffect (s : State) (u q i : Nat) : State :=
  match s.unit? u with
  | none => s
  | some g => match g.rels.find? fun x => x.ring = q && x.slot = i with
    | some x =>
      if s.relReady g x then
        (s.putUnit u { g with rels := g.rels.filter (· ≠ x) }).modRing u q fun r => r.free i
      else s
    | none => s

/-- The incomplete tile operations and copies of a hart. -/
def State.hartTileOps (s : State) (hid : Nat) : List Nat :=
  (s.tileOps.filter fun p => match p.2 with | some t => t.hart = hid | none => false).map Prod.fst
def State.hartCopies (s : State) (hid : Nat) : List Nat :=
  (s.copies.filter fun p => match p.2 with
    | some c => c.hart = hid || (match c.work with | .linear ss => ss.any fun x => x.hart = hid | _ => false)
    | none => false).map Prod.fst

/-- The open gang copies with a slice of a hart that reads a slot. -/
def Gang.hartSlices (g : Gang) (hid a n : Nat) : List (Nat × Nat) :=
  (g.gangCopies.filter fun x => x.slices.any fun y =>
    y.hart = hid && y.srcC && decide (a < y.src + y.len ∧ y.src < a + n)).map fun x => (x.gang, x.bar)

/-- `ring.rel`: effective at once, or pending until the engine reads issued before it are performed; a slot whose
release is already pending is not released again (R106, R259). DEDUCED (log 29). -/
def execRingRel (a : SReg) (q : BitVec 6) (s : State) : Out :=
  onSettled s [a] [] fun hid h =>
    let off := (h.getS a).val
    match s.unit? h.unit with
    | none => s
    | some g =>
      match (g.ring q.toNat).bind fun r => r.slotIn off.toNat .held with
      | none => s.ringTrap hid q.toNat off
      | some i =>
        if g.rels.any fun x => x.ring = q.toNat && x.slot = i then s.ringTrap hid q.toNat off
        else
          let x : RingRel := ⟨q.toNat, i, s.hartTileOps hid, s.hartCopies hid, match g.ring q.toNat with
            | some r => g.hartSlices hid (r.offset i) r.slotBytes
            | none => []⟩
          ((s.putUnit h.unit { g with rels := g.rels ++ [x] }).nextPc hid).ringRelEffect h.unit q.toNat i

/-! ### Leaving a wait early (R257, R352) -/

/-- A hart gives up its wait, and its place among a ring's waiters. -/
def State.dropWait (s : State) (hid : Nat) : State :=
  match s.hart? hid with
  | none => s
  | some h =>
    let s1 := match h.wait with
      | some (.ringRes q _) | some (.ringGet q _) => s.modRing h.unit q fun r => r.leave hid h.trapped.isSome
      | _ => s
    s1.modHart hid fun h => { h with wait := none }

/-- The armed interrupt of a hart that is due: its generation is reached, no trap handler and no user handler runs,
and the hart is at a boundary or in a wait that takes it (R257). DESIGN CHOICE (log 56). -/
def State.dueInterrupt (s : State) (h : Hart) : Option Armed :=
  let open' := match h.wait with
    | none => !h.busy && h.walk.isNone
    | some (.cpyg _) => false
    | some w => w.interruptible
  if h.trapped.isSome || h.userReturn.isSome || !open' then none
  else h.armed.find? fun x => match s.barrier? h x.bar with
    | some b => b.reached x.gen
    | none => false

/-- The interrupt fires (R257). -/
def State.fireInterrupt (s : State) (hid : Nat) (x : Armed) : State :=
  ((s.dropWait hid).barAcquire hid x.ord).modHart hid fun h =>
    { h with armed := h.armed.filter (· ≠ x), userReturn := some h.pc, pc := codeTarget x.handler, stallS := none }

/-! ### Lane dispatch (R117, R118, R188 to R190) -/

/-- Blocks queued or running. DEDUCED (log 30). -/
def Hart.blocks (h : Hart) : Nat := h.queue.length + (if h.block.isSome then 1 else 0)

/-- Whether the handler of a lane trap runs. -/
def Hart.inLaneHandler (h : Hart) : Bool := match h.trapped with | some t => t.record.lane | none => false

/-- The trap of a pop that nothing can satisfy, and the nested trap that `lsync` is in a lane-trap handler. -/
def State.fifoTrap (s : State) (hid : Nat) : State := s.illegal hid ⟨.fifoEmpty, false⟩

/-- `lrun` enqueues its block, with its snapshot of k0 to k15, once the queue has room (R117). DEDUCED (log 30). -/
def State.tryLrun (s : State) (hid : Nat) (entry : Word) : State :=
  match s.hart? hid with
  | some h =>
    if 4 ≤ h.blocks then s
    else (s.fresh.2.putHart hid { h with queue := h.queue ++ [⟨entry, h.k, s.fresh.1⟩] }).endWait hid
  | none => s

def execLrun (a : SReg) (s : State) : Out :=
  onRole s .vector [a] [] fun hid h =>
    if (h.getS a).tag then s.tagTrap hid
    else if (List.range 16).any fun k => s.upsetAt (.uniformReg hid k) then s.trap hid .scalarPoison 0
    else
      let e := codeTarget (h.getS a).val
      (s.waiting hid (.lrun e)).tryLrun hid e

/-- `lsync` ends once every block enqueued before it has ended; what these have issued precedes what the S-stream issues from then on
(R70). -/
def State.tryLsync (s : State) (hid n : Nat) : State :=
  if n = 0 then (s.modHart hid fun h => { h with synced := s.nextId }).endWait hid else s

def execLsync (s : State) : Out :=
  onRole s .vector [] [] fun hid h =>
    if h.inLaneHandler then s.fifoTrap hid else (s.waiting hid (.lsync h.blocks)).tryLsync hid h.blocks

/-- `sget` pops the oldest entry; with nothing to come it traps (R118). -/
def State.trySget (s : State) (hid : Nat) (d : SReg) : State :=
  match s.hart? hid with
  | none => s
  | some h => match h.fifo with
    | x :: rest => ((s.putHart hid { h with fifo := rest }).setS hid d x).endWait hid
    | [] =>
      if h.blocks = 0 || h.inLaneHandler then (s.modHart hid fun h => { h with wait := none }).fifoTrap hid else s

def execSget (d : SReg) (s : State) : Out := onScalar s [] [d] fun hid _ => (s.waiting hid (.sget d)).trySget hid d

def execKset (k : BitVec 4) (a : SReg) (s : State) : Out :=
  onScalar s [a] [] fun hid h =>
    ((s.modHart hid fun h' => h'.setK k.toNat (h.getS a)).clearUpset (.uniformReg hid k.toNat)).nextPc hid

end Sys2Proof.Machine
end

