-- ==== Sys2Proof/Machine/Copy.lean ====
section
/-! DEFINITION. The copy engine: issuing copies, their reads and writes at the points of performance, their ends
(R94, R95, R97, R100 to R103, R105, R246 to R254, R433). -/

namespace Sys2Proof.Machine

/-! ### Faults of a copy (R253, R254) -/

/-- A failure that ends a copy: its CCAUSE code and what a record of it says. -/
structure CopyFault where
  code : BitVec 4
  cause : Cause
  level : Nat
  va : Word
  kind : AccessKind
deriving DecidableEq, Repr

/-- The fault of a failed access. -/
def CopyFault.access (c : Cause) (level : Nat) (va : Word) (kind : AccessKind) : CopyFault :=
  ⟨match c.trapClass with | .translation => 1 | .address => 6 | _ => 2, c, level, va, kind⟩

/-- The faults that are no failed access: tag, map and control. DEDUCED (log 36). -/
def CopyFault.tag (va : Word) : CopyFault := ⟨3, .cpyTag, 15, va, .copyRead⟩
def CopyFault.map (va : Word) : CopyFault := ⟨4, .cpyMap, 15, va, .copyRead⟩
def CopyFault.control : CopyFault := ⟨5, .cpyCtl, 15, 0, .copyRead⟩

/-- Whether a wave's copy writes a record for it. -/
def CopyFault.recorded (f : CopyFault) : Bool := f.code = 1 || f.code = 2 || f.code = 6

/-- Changes the barrier a copy names. -/
def State.copyBarrier (s : State) (c : Copy) (f : Barrier → Barrier) : State :=
  match c.bar with
  | some b => s.modUnit c.unit fun g => g.setBar c.gang b (f (g.bar c.gang b))
  | none => s

/-- Completes the batches of a copy that has left the engine (R90, R95). -/
def State.batchesDone (s : State) (c : Copy) : State := c.batches.foldl (fun s b => s.batchCheck b.1 b.2) s

/-- The record of a copy's fault (R35). -/
def State.copyRecord (s : State) (c : Copy) (f : CopyFault) : State :=
  let place := match s.hart? c.hart with | some h => s.placeWord h | none => 0
  s.record c.vf (faultWords f.va f.level f.cause.code 0 c.vf (s.space c.vf) (kindCode f.kind) c.iaddr place)

/-- A copy ends on a fault (COPY_ENDS_ON_FAULT): its barrier learns of it; a crane thread's copy kills the convoy and its task
is FAULTED (R253, R254), while a handler of the thread runs as a nested trap (R361). A convoy already killed is not ended
again. DESIGN CHOICE (log 95). -/
def State.copyFail (s : State) (cid : Nat) (f : CopyFault) : State :=
  match s.copy? cid with
  | none => s
  | some c =>
    let crane := c.bar.isNone
    let s1 := if crane || f.recorded then s.copyRecord c f else s
    let s2 := ((s1.dropCopy cid).copyBarrier c fun b => b.copyFails c.owed f.code).batchesDone c
    match s2.unit? c.unit with
    | some g =>
      if crane && g.st ≠ .released then (s2.firstRecord c.hart).endTask g.vf g.task f.cause.trapClass f.cause.code else s2
    | none => s2

/-- A copy meets a failure. It ends once the bytes it has sent into a network window are reported complete, so that PEND falls
by just the bytes it will not write (R97, R253); until then the failing access is tried again. -/
def State.copyMeets (s : State) (cid : Nat) (f : CopyFault) : State :=
  if s.mem.flights.any fun p => match p.2 with
    | some x => x.op = cid && x.kind.remote
    | none => false
  then s else s.copyFail cid f

/-! ### Completion and commits (R95, R105, R433) -/

/-- A commit that finds its slot no longer RES: the task ends as faulted, and the event is recorded (R433). -/
def State.lateCommit (s : State) (u q off : Nat) (iaddr : Word) : State :=
  match s.unit? u with
  | none => s
  | some g =>
    (s.endTask g.vf g.task .ringMisuse 1).eventRecord g.vf 0x07 g.task (at' 8 q) (BitVec.ofNat 64 off) iaddr

/-- The commit an engine makes when its bytes are performed. A killed unit's commits are discarded with it. -/
def State.engineCommit (s : State) (u q off : Nat) (iaddr : Word) : State :=
  match s.unit? u with
  | none => s
  | some g =>
    if g.st = .released then s
    else match (g.ring q).bind fun r => r.slotIn off .res with
      | some i => s.modRing u q fun r => r.commit i
      | none => s.lateCommit u q off iaddr

/-- A copy completes: bytes it never had to write leave PEND, its slot is committed, its batches may complete.
DEDUCED (log 29). -/
def State.copyFinish (s : State) (cid : Nat) : State :=
  match s.copy? cid with
  | none => s
  | some c =>
    let s1 := s.dropCopy cid
    let s2 := if c.owed = 0 then s1 else s1.copyBarrier c fun b => b.performed c.owed
    let s3 := match c.ring with | some (q, off) => s2.engineCommit c.unit q off c.iaddr | none => s2
    s3.batchesDone c

/-! ### Reading and writing at the points of performance (R102, R103) -/

/-- The translation site of a cluster's copy engine: its die's TLB. -/
def engineSite (cluster : Nat) : Site := ⟨none, clusterDie cluster⟩

/-- The number under which a copy engine's network accesses are in flight. -/
def engineCore (cluster : Nat) : Nat := 256 + cluster

/-- The 128 bytes of the control window that a sector holds (R431). DEDUCED (log 7). -/
def State.ctlSector (s : State) (pa : Nat) : SectorData :=
  let off := pa / 128 * 128 - Config.ctlBase
  BitVec.ofNat 1024 ((List.range 16).foldl (fun n i => n + (s.ctlWord (off + 8 * i)).toNat * 2 ^ (64 * i)) 0)

/-- What a read by an engine finds. -/
inductive Got where
  | view (v : View)
  | bad (f : CopyFault)
  | net (pa : Nat)

/-- An engine reads one sector of virtual space at its point of performance. DEDUCED (log 7, 83). -/
def State.engineRead (s : State) (cluster vf : Nat) (va : Word) (kind : AccessKind) : State × Got :=
  let r := s.xlateFull (engineSite cluster) vf va accRead false
  match r.2 with
  | .bad c l => (r.1, .bad (.access c l va kind))
  | .ok t =>
    let pa := t.pa va
    if isCtl pa then (r.1, .view ⟨r.1.ctlSector pa, false, false⟩)
    else if isNet pa then (r.1, .net pa)
    else
      let v := r.1.homeRead (sectorOf pa)
      (v.1, .view ⟨v.2.data, v.2.p && t.mt ≠ .device, v.2.x⟩)

/-- An engine reads one granule of its unit's reservation; every run read is checked (R9). -/
def State.granuleRead (s : State) (u : Nat) (ps : List (Nat × Nat)) (gran : Nat) (kind : AccessKind) : Got :=
  match s.unit? u with
  | none => .view ⟨0, false, false⟩
  | some g =>
    match ps.findSome? fun p => (clusterCheck g.csize (BitVec.ofNat 64 p.1) p.2).map fun c => (c, p.1) with
    | some (c, a) => .bad (.access c 15 (BitVec.ofNat 64 a) kind)
    | none => let t := g.granuleTags gran; .view ⟨g.granule gran, t.1, t.2⟩

/-- What a piece adds to a destination sector's write: its bytes, and its source's P and X (R47, R102). -/
def pieceWrite (ps : List Part) (v : View) : SWrite :=
  ps.foldl (fun w p => match p.src with
    | some q =>
      let m := byteRun (p.dst % 128) p.len
      { w with mask := w.mask ||| m,
               data := mergeBytes m w.data (sectorPlace (sectorBytes v.data (q.2 % 128) p.len) (p.dst % 128) p.len) }
    | none => w) ⟨0, 0, 0, v.p, v.x, false⟩

/-- Two writes of one sector combined: the second's bytes win. -/
def SWrite.join (w y : SWrite) : SWrite :=
  { w with mask := w.mask ||| y.mask, data := mergeBytes y.mask w.data y.data, s := w.s || y.s, x := w.x || y.x }

/-- The write of a destination sector: FILL bytes, then the pieces (R47, R250). -/
def sectorWriteOf (sec : Nat) (ps : List Part) (pieces : List SWrite) : SWrite :=
  let fills := ps.foldl (fun w p => match p.src with
    | some _ => w
    | none =>
      let m := byteRun (p.dst % 128) p.len
      { w with mask := w.mask ||| m, data := mergeBytes m w.data (sectorPlace p.fill (p.dst % 128) p.len) })
    (⟨0, 0, 0, false, false, false⟩ : SWrite)
  let w := pieces.foldl SWrite.join fills
  { w with sector := sec, fc := w.mask = BitVec.allOnes 128 }

/-- Destination sector `i` of a copy that has still to be performed, with its parts. -/
def Copy.sector? (c : Copy) (i : Nat) : Option (SpaceSector × List Part) :=
  if c.done.contains i then none else (c.work.sectors[i]?).map fun sec => (sec, c.work.parts sec)

/-- A piece has been read. -/
def State.copyTake (s : State) (cid k : Nat) (ps : List Part) (v : View) : State :=
  match s.copy? cid with
  | some c => s.putCopy cid { c with read := c.read ++ [(k, pieceWrite ps v)] }
  | none => s

/-- Reads piece `k % 128` of destination sector `k / 128`. A network window is asked, once. -/
def State.copyRead (s : State) (cid k : Nat) : State :=
  match s.copy? cid with
  | none => s
  | some c =>
    if !c.active || c.read.any (fun r => r.1 = k) then s
    else match c.sector? (k / 128) with
      | none => s
      | some (_, ps) => match (sourceSectors ps)[k % 128]? with
        | none => s
        | some src =>
          let here := partsFrom ps src
          if src.1 then
            match s.granuleRead c.unit (here.filterMap fun p => p.src.map fun q => (q.2, p.len)) src.2 .copyRead with
            | .view v => s.copyTake cid k here v
            | .bad f => s.copyMeets cid f
            | .net _ => s
          else
            let va := BitVec.ofNat 64 (((here.head?).bind fun p => p.src.map Prod.snd).getD 0)
            let r := s.engineRead c.cluster c.vf va .copyRead
            match r.2 with
            | .view v => r.1.copyTake cid k here v
            | .bad f => r.1.copyMeets cid f
            | .net pa =>
              if r.1.asked cid k then r.1
              else r.1.askBytes 0 (engineCore c.cluster) cid k (pa / 128 * 128) 128

/-- The bytes of a destination sector are performed (COPY_BYTES_PERFORMED, R97). -/
def State.copyPerformed (s : State) (cid i n : Nat) : State :=
  match s.copy? cid with
  | none => s
  | some c =>
    (s.putCopy cid { c with done := c.done ++ [i], read := c.read.filter (fun r => r.1 / 128 ≠ i), owed := c.owed - n }).copyBarrier
      c fun b => b.performed n

/-- Whether the write of a destination sector into a network window is in flight. -/
def State.copySent (s : State) (cid i : Nat) : Bool :=
  s.mem.flights.any fun p => match p.2 with
    | some f => f.op = cid && f.ld = i + 1 && (match f.kind with | .netWrite _ => true | _ => false)
    | none => false

/-- Writes destination sector `i`, once all its pieces have been read. DEDUCED (log 7, 36). -/
def State.copyWrite (s : State) (cid i : Nat) : State :=
  match s.copy? cid with
  | none => s
  | some c =>
    match c.sector? i with
    | none => s
    | some (sec, ps) =>
      let pieces := (List.range (sourceSectors ps).length).map fun j => c.read.find? fun r => r.1 = 128 * i + j
      if !c.active || pieces.any (·.isNone) || s.copySent cid i then s
      else
        let w := sectorWriteOf sec.2 ps (pieces.filterMap fun x => x.map Prod.snd)
        let n := partBytes ps
        if sec.1 then
          match s.granuleRead c.unit (ps.map fun p => (p.dst, p.len)) sec.2 .copyWrite with
          | .bad f => s.copyMeets cid f
          | _ => (s.modUnit c.unit fun g => g.clusterWrite w).copyPerformed cid i n
        else
          let va := BitVec.ofNat 64 ((ps.head?.map (·.dst)).getD 0)
          let tagged (t : TlbEntry) : Bool := isNet (t.pa va) && !isCtl (t.pa va) && (w.x || (w.s && !s.winProp (t.pa va)))
          let r := s.xlateUnless (engineSite c.cluster) c.vf va accWrite false tagged
          match r.2 with
          | .bad f l => r.1.copyMeets cid (.access f l va .copyWrite)
          | .ok t =>
            let pa := t.pa va
            let w1 := { w with sector := sectorOf pa }
            if isCtl pa then r.1.copyPerformed cid i n
            else if tagged t then r.1.copyMeets cid (.tag va)
            else if isNet pa then (r.1.emitWrite w1).launch ⟨0, engineCore c.cluster, cid, i + 1, .netWrite w1⟩
            else (r.1.homeWrite w1).copyPerformed cid i n

/-- Whether every destination sector of a copy is performed. -/
def Copy.allDone (c : Copy) : Bool := c.active && decide (c.work.sectors.length ≤ c.done.length)

/-! ### Issue (R94, R100, R247, R248) -/

/-- A promise of a cluster's engine (R100). DESIGN CHOICE (log 11). -/
def State.newPromise (s : State) (cluster : Nat) : State × Word :=
  let f := s.freeAt
  let least := Nat.max (s.time.toNat + 64) (SMapOps.get 0 s.promises cluster).toNat
  let p := BitVec.ofNat 64 (Nat.min (2 ^ 64 - 1) (least + Config.promiseSlack f.1))
  ({ f.2 with promises := SMapOps.set 0 f.2.promises cluster p }, p)

/-- A copy joins the hart's open batch, or opens one; the sixteenth closes it (R94). -/
def State.joinBatch (s : State) (hid : Nat) : State × Nat :=
  match (s.hart? hid).bind (·.batchOpen) with
  | some (id, n) => (s.modHart hid fun h => { h with batchOpen := if n = 15 then none else some (id, n + 1) }, id)
  | none =>
    let f := s.fresh
    (f.2.modHart hid fun h => { h.issue .cp f.1 with batchOpen := some (f.1, 1) }, f.1)

/-- Copies that a cluster's engine holds. -/
def State.engineCopies (s : State) (cluster : Nat) : Nat :=
  (s.copies.filter fun p => match p.2 with | some c => c.cluster = cluster | none => false).length

/-- Whether a copy stalls at issue: a full cp counter, or a full engine (R91, R248). DEDUCED (log 22). -/
def State.copyStalls (s : State) (h : Hart) : Bool :=
  (h.batchOpen.isNone && h.full .cp) || decide (Config.copySlots ≤ s.engineCopies h.cluster)

/-- Fields of a control word (R247). -/
def ctlRing (x : Word) : Nat := bits x 52 6
def ctlCmt (x : Word) : Bool := bitOf x 51
def ctlArv (x : Word) : Bool := bitOf x 50
def ctlDsp (x : Word) : Nat := bits x 48 2
def ctlSsp (x : Word) : Nat := bits x 46 2
def ctlNsl (x : Word) : Nat := bits x 41 5
def ctlSli (x : Word) : Nat := bits x 36 5
def ctlLen (x : Word) : Nat := bits x 0 32 / 16 * 16
def ctlDir (x : Word) : Bool := bitOf x 21
def ctlCaddr (x : Word) : Nat := bits x 0 21 / 16 * 16

/-- What a control word breaks in every form. -/
def ctlBad (x : Word) (crane : Bool) : Bool :=
  bits x 58 6 ≠ 0 || (!ctlCmt x && ctlRing x ≠ 0) || bits x 32 4 ≠ 0 || (crane && ctlArv x)

/-- The control words of `cpy`, `cpyg` and `cpyt` that are malformed. -/
def cpyBad (x : Word) (crane : Bool) : Bool :=
  ctlBad x crane || decide (2 ≤ ctlDsp x) || decide (2 ≤ ctlSsp x) || ctlNsl x ≠ 0 || ctlSli x ≠ 0
def cpygBad (x : Word) : Bool := ctlBad x false || decide (2 ≤ ctlDsp x) || decide (2 ≤ ctlSsp x)
def cpytBad (x : Word) (crane : Bool) : Bool :=
  ctlBad x crane || ctlDsp x ≠ 0 || ctlSsp x ≠ 0 || ctlNsl x ≠ 0 || ctlSli x ≠ 0 || bits x 22 10 ≠ 0

/-- The slot check of a copy with CMT: the destination is one whole slot in state RES (R247). A copy of no bytes names
its slot by its start. DEDUCED (log 25). -/
def State.slotOk (s : State) (h : Hart) (x : Word) (cluster : Bool) (dst n : Nat) : Bool :=
  match s.ring? h (ctlRing x) with
  | some r => cluster && (n = 0 || n = r.slotBytes) && (r.slotIn dst .res).isSome
  | none => false

/-- A copy that stalls at issue: the mark names the cp counter, when it is this one (R350). -/
def State.copyStall (s : State) (hid : Nat) (h : Hart) : State :=
  if h.batchOpen.isNone && h.full .cp then s.stallsOn hid true .cp else s

/-- A copy of a hart ready to be counted, performed or ended. -/
def Hart.newCopy (h : Hart) (hid vf : Nat) (bar : Option Nat) (work : CopyWork) (ring : Option (Nat × Nat)) (promise : Word)
    (batches : List (Nat × Nat)) (n : Nat) : Copy :=
  ⟨hid, h.unit, vf, h.cluster, h.gang, bar, work, ring, promise, false, [], [], batches, n, h.pc⟩

/-- Gives a copy to the engine: a fault ends it at once, a copy of no bytes completes at once, any other follows its
commands out of the store queues of its harts. DEDUCED (log 25). -/
def State.giveCopy (s : State) (c : Copy) (fault : Option CopyFault) : State :=
  let f := s.fresh
  let s1 := f.2.putCopy f.1 c
  match fault with
  | some x => s1.copyFail f.1 x
  | none =>
    if c.owed = 0 then s1.copyFinish f.1
    else
      let cmd : SqEntry := ⟨f.1, 0, .copyCmd, false, [], [], [], f.1, .scalar 0⟩
      ((c.batches.map Prod.fst).eraseDups).foldl (fun s id => s.modHart id fun h => { h with storeQ := h.storeQ ++ [cmd] }) s1

/-- The copy's event on its barrier: the state after it, or the trap (R97). -/
def State.copyEvent (s : State) (hid : Nat) (h : Hart) (bar : Option Nat) (n : Nat) (arv : Bool) (k : State → State) : State :=
  match bar with
  | none => k s
  | some c => match s.barrier? h c with
    | none => s.barrierTrap hid none
    | some b => match b.copyIssues n arv with
      | some b' => k (s.putBarrier h c b')
      | none => s.barrierTrap hid (some b)

/-- The rest of `cpy` and `cpyt` once their operands and barrier are checked. `dst` is the cluster offset written. -/
def State.issueCopy (s : State) (hid : Nat) (h : Hart) (d : SReg) (bar : Option Nat) (x : Word) (work : CopyWork)
    (cluster : Bool) (dst n : Nat) (fault : Option CopyFault) : State :=
  if s.copyStalls h then s.copyStall hid h
  else if ctlCmt x && !s.slotOk h x cluster dst n then s.ringTrap hid (ctlRing x) (BitVec.ofNat 64 dst)
  else
    s.copyEvent hid h bar n (ctlArv x) fun s =>
      let j := s.joinBatch hid
      let p := j.1.newPromise h.cluster
      let work' : CopyWork := match work with
        | .linear ss => .linear (ss.map fun y => { y with batch := j.2 })
        | w => w
      let c := h.newCopy hid (s.hartVf h) bar work' (if ctlCmt x then some (ctlRing x, dst) else none) p.2 [(hid, j.2)] n
      (p.1.result hid d ⟨p.2, false⟩).giveCopy c fault

/-- The barrier of a copy form: none on a crane thread; checked on a wave (R248, R254). -/
def State.withBarrier (s : State) (hid : Nat) (h : Hart) (c : BitVec 4) (k : Option Nat → State) : State :=
  if h.engine = .crane then k none
  else match s.barrier? h c.toNat with
    | some b => if b.init then k (some c.toNat) else s.barrierTrap hid (some b)
    | none => s.barrierTrap hid none

/-- An address with bits 3:0 cleared. -/
def align16 (a : Word) : Nat := a.toNat / 16 * 16

/-- `cpy` (R248, R254). -/
def execCpy (d a b : SReg) (c : BitVec 4) (s : State) : Out :=
  onRole s .loader (group a 2 ++ [b]) [d] fun hid h =>
    if h.anyTag (group a 2 ++ [b]) then s.tagTrap hid
    else s.withBarrier hid h c fun bar =>
      let x := (h.getS b).val
      let n := ctlLen x
      let dst := align16 (h.sAt a 1).val
      let slice : Slice := ⟨hid, 0, 0, 0, d, align16 (h.getS a).val, ctlSsp x = 1, dst, ctlDsp x = 1, n⟩
      s.issueCopy hid h d bar x (.linear [slice]) (ctlDsp x = 1) dst n
        (if cpyBad x (h.engine = .crane) then some .control else none)

/-- The sixteen words of a tensor map, read as a copy reads (R249). A poisoned map is a map error, and one in a sector with
P = 1 a tag failure (R267). -/
inductive MapRead where
  | words (m : List Word)
  | bad (f : CopyFault)
  | wait

def mapWords (x : SectorData) : List Word := (List.range 16).map fun i => BitVec.ofNat 64 (sectorBytes x (8 * i) 8)

def State.readMap (s : State) (hid : Nat) (h : Hart) (va : Word) : State × MapRead :=
  let r := s.engineRead h.cluster (s.hartVf h) va .copyRead
  match r.2 with
  | .bad f => (r.1, .bad f)
  | .view v =>
    (r.1, if v.x then .bad (.map va) else if v.p then .bad (.tag va) else .words (mapWords v.data))
  | .net pa => match h.netFetch.find? fun p => p.1 = sectorOf pa with
    | some p => (r.1, if p.2.2 && r.1.winProp pa then .bad (.tag va) else .words (mapWords p.2.1))
    | none => (r.1.askFetch hid h (sectorOf pa), .wait)

/-- The eight signed coordinates of a group (R250). -/
def Hart.coords (h : Hart) (a : SReg) : List Int :=
  (List.range 8).map fun i => signedOf 32 (bits (h.sAt a (1 + i / 2)).val (32 * (i % 2)) 32)

/-- `cpyt` (R249, R250). A map that breaks R249 moves no byte: its byte count is 0. DEDUCED (log 27). A malformed control word
comes before a map that is bad, unreadable or a proposal. DESIGN CHOICE (log 96, 121). -/
def execCpyt (d a b : SReg) (c : BitVec 4) (s : State) : Out :=
  onRole s .loader (group a 5 ++ [b]) [d] fun hid h =>
    if h.anyTag (group a 5 ++ [b]) then s.tagTrap hid
    else s.withBarrier hid h c fun bar =>
      let x := (h.getS b).val
      let va := (h.getS a).val &&& ~~~127#64
      let r := s.readMap hid h va
      match r.2 with
      | .wait => r.1
      | .bad f => r.1.issueCopy hid h d bar x (.linear []) (!ctlDir x) (ctlCaddr x) 0
        (some (if cpytBad x (h.engine = .crane) then .control else f))
      | .words m =>
        let t := tmapOf m
        let n := match t with | some t => t.bytes | none => 0
        let dims := match t with | some t => t.boxes.length | none => 8
        let coords := h.coords a
        let bad := t.isNone || (coords.drop dims).any fun z => z ≠ 0
        (r.1.modHart hid fun h => { h with netFetch := [] }).issueCopy hid h d bar x
          (.tensor m (coords.take dims) (ctlDir x) (ctlCaddr x)) (!ctlDir x) (ctlCaddr x) n
          (if cpytBad x (h.engine = .crane) then some .control else if bad then some (.map va) else none)

/-! ### Gang copies (R251) -/

/-- Writes the promise of a gang copy into a contributor's d: of a slice that arrived before a trap handler was entered, s56 to
s61 are in the hidden slots (R359, R360). -/
def State.givePromise (s : State) (x : Slice) (p : Word) : State := s.returnS x.hart x.since x.d ⟨p, false⟩

/-- The wait of `cpyg` ends once its slice is no longer in an open gang copy. -/
def State.tryCpyg (s : State) (hid : Nat) : State :=
  match (s.hart? hid).bind fun h => s.unit? h.unit with
  | some g => if g.gangCopies.any fun x => x.slices.any fun y => y.hart = hid then s else s.endWait hid
  | none => s

/-- The last slice has arrived: every contributor receives the promise, and the engine starts; a `ring.rel` that waited for the
copy to open waits for its reads (R106). DEDUCED (log 26). A malformed control word of one slice ends the whole copy, now that
all have arrived, and its records have the address and place of the wave that arrived last. DESIGN CHOICE (log 121). -/
def State.startGang (s : State) (hid : Nat) (h : Hart) (x : GangCopy) (ctl : Word) : State :=
  let p := s.newPromise h.cluster
  let s1 := x.slices.foldl (fun s y => s.givePromise y p.2) p.1
  let n := (x.slices.map (·.len)).foldl (· + ·) 0
  let id := s1.nextId
  let started (r : RingRel) : RingRel :=
    if r.gangs.contains (x.gang, x.bar) then { r with gangs := r.gangs.erase (x.gang, x.bar), copies := r.copies ++ [id] } else r
  let ring := match x.slices with | [y] => if ctlCmt ctl then some (ctlRing ctl, y.dst) else none | _ => none
  let c := h.newCopy hid (s.hartVf h) (some x.bar) (.linear x.slices) ring p.2 (x.slices.map fun y => (y.hart, y.batch)) n
  (s1.modUnit h.unit fun g => { g with gangCopies := g.gangCopies.filter (· ≠ x), rels := g.rels.map started }).giveCopy c
    (if x.bad then some .control else none)

/-- The gang copy open on a barrier. -/
def Gang.openCopy (g : Gang) (n c : Nat) : Option GangCopy := g.gangCopies.find? fun x => x.gang = n && x.bar = c

/-- Whether a slice breaks a rule of R251. -/
def sliceBad (x : Word) (o : Option GangCopy) : Bool :=
  decide (ctlNsl x < ctlSli x) || (ctlCmt x && ctlNsl x ≠ 0) ||
  (match o with
    | some g => g.nsl ≠ ctlNsl x || g.arv ≠ ctlArv x || g.slices.any fun y => y.index = ctlSli x
    | none => false)

/-- `cpyg` (R251). The first slice opens the gang copy and counts its arrival. DEDUCED (log 26). -/
def execCpyg (d a b : SReg) (c : BitVec 4) (s : State) : Out :=
  onRole s .loader (group a 2 ++ [b]) [d] fun hid h =>
    if h.anyTag (group a 2 ++ [b]) then s.tagTrap hid
    else s.withBarrier hid h c fun _ =>
      match s.unit? h.unit with
      | none => s
      | some g =>
        let x := (h.getS b).val
        let o := g.openCopy h.gang c.toNat
        let n := ctlLen x
        let dst := align16 (h.sAt a 1).val
        if sliceBad x o then s.barrierTrap hid (some (g.bar h.gang c.toNat))
        else if s.copyStalls h then s.copyStall hid h
        else if ctlCmt x && !s.slotOk h x (ctlDsp x = 1) dst n then s.ringTrap hid (ctlRing x) (BitVec.ofNat 64 dst)
        else
          s.copyEvent hid h (some c.toNat) n (ctlArv x && o.isNone) fun s =>
            let j := s.joinBatch hid
            let slice : Slice := ⟨hid, j.2, j.1.nextId, ctlSli x, d, align16 (h.getS a).val, ctlSsp x = 1, dst, ctlDsp x = 1, n⟩
            let old : GangCopy := o.getD ⟨h.gang, c.toNat, ctlNsl x, ctlArv x, false, []⟩
            let new : GangCopy := { old with bad := old.bad || cpygBad x, slices := old.slices ++ [slice] }
            let s1 := (j.1.modUnit h.unit fun g =>
              { g with gangCopies := g.gangCopies.filter (fun y => some y ≠ o) ++ [new] }).waiting hid (.cpyg c.toNat)
            (if new.slices.length = new.nsl + 1 then s1.startGang hid h new x else s1).tryCpyg hid

/-- `cpcl` (R252). -/
def execCpcl (s : State) : Out := onRole s .loader [] [] fun hid _ => (s.closeBatch hid).nextPc hid

/-- The copies `cpq` asks about: those of the gang that name the barrier, or those of the crane thread (R252, R254). -/
def State.queried (s : State) (hid : Nat) (h : Hart) (bar : Option Nat) : Bool :=
  s.copies.any fun p => match p.2 with
    | some c => (match bar with
      | some b => c.unit = h.unit && c.gang = h.gang && c.bar = some b
      | none => c.hart = hid)
    | none => false

/-- `cpq` (R252, R254). Its estimate bounds no promise handed out later (R100). DESIGN CHOICE (log 11). DEDUCED (log 26). -/
def execCpq (d : SReg) (c : BitVec 4) (s : State) : Out :=
  onScalar s [] [d] fun hid h =>
    if s.queried hid h (if h.engine = .crane then none else some c.toNat) then
      let f := s.freeAt
      f.2.result hid d ⟨BitVec.ofNat 64 (Nat.min (2 ^ 64 - 1) (s.time.toNat + 64 + Config.estimate f.1)), false⟩
    else s.result hid d ⟨s.time, false⟩

/-! ### Events -/

/-- COPY_BYTES_PERFORMED: a read of piece `k`, or the write of destination sector `k`. -/
def execCopyBytesPerformed (copy : Nat) (write : Bool) (k : Nat) (s : State) : Out :=
  .next (if write then s.copyWrite copy k else s.copyRead copy k)

/-- COPY_COMPLETE. -/
def execCopyComplete (copy : Nat) (s : State) : Out :=
  .next (match s.copy? copy with
    | some c => if c.allDone then s.copyFinish copy else s
    | none => s)

/-- COPY_ENDS_ON_FAULT at destination sector `k`: the engine meets whatever its reads and write meet there. -/
def execCopyEndsOnFault (copy : Nat) (k : Nat) (s : State) : Out :=
  .next (match (s.copy? copy).bind fun c => c.sector? k with
    | some (_, ps) =>
      ((List.range (sourceSectors ps).length).foldl (fun s j => s.copyRead copy (128 * k + j)) s).copyWrite copy k
    | none => s)

/-- SSLEEP_WAKE (R101, R196). -/
def execSsleepWake (hart : Nat) (s : State) : Out :=
  .next (match s.hart? hart with
    | some h => match h.wait with
      | some (.ssleep c g p) => if h.still || s.saved h then s else s.trySsleep hart c g p
      | _ => s
    | none => s)

/-- RING_REL_EFFECTIVE (R106, R259). -/
def execRingRelEffective (unit ring slot : Nat) (s : State) : Out := .next (s.ringRelEffect unit ring slot)

/-- USER_INTERRUPT: a due interrupt fires at the hart's boundary or in its wait (R257). DESIGN CHOICE (log 56). -/
def execUserInterrupt (hart : Nat) (s : State) : Out :=
  .next (match s.hart? hart with
    | some h =>
      if h.still || s.saved h then s
      else match s.dueInterrupt h with
        | some x => s.fireInterrupt hart x
        | none => s
    | none => s)

/-- LANE_TRAP_DELIVERY (R359). -/
def execLaneTrapDelivery (hart : Nat) (s : State) : Out :=
  .next (match s.hart? hart with
    | some h => match h.laneTrap with
      | some t =>
        if h.still || s.saved h || h.trapped.isSome || h.busy ||
          !(h.wait.all Wait.interruptible) || h.walk.isSome then s
        else s.deliverLaneTrap hart h t
      | none => s
    | none => s)

end Sys2Proof.Machine
end

