-- ==== Sys2Proof/Machine/Crane.lean ====
section
/-! DEFINITION. The crane thread's instructions and the tile operations (R104, R105, R292 to R309). -/

namespace Sys2Proof.Machine

/-! ### Tiles (R294) -/

/-- The key of tile `t` of engine `e` of a unit, and of its cell `(i, j)`. -/
def tileKey (e t : Nat) : Nat := 8 * e + t
def cellKey (e t c : Nat) : Nat := tileKey e t * 4096 + c

def Gang.cell (g : Gang) (e t c : Nat) : Word32 := SMapOps.get 0 g.tiles (cellKey e t c)
def Gang.setCell (g : Gang) (e t c : Nat) (x : Word32) : Gang :=
  { g with tiles := SMapOps.set 0 g.tiles (cellKey e t c) x }
def Gang.poisonOf (g : Gang) (e t : Nat) : Bool := SMapOps.get false g.tpoison (tileKey e t)
def Gang.setPoison (g : Gang) (e t : Nat) (b : Bool) : Gang :=
  { g with tpoison := SMapOps.set false g.tpoison (tileKey e t) b }

/-- A tile at its phase-start value: every cell +0, not poisoned. -/
def Gang.clearTile (g : Gang) (e t : Nat) : Gang :=
  { (g.setPoison e t false) with tiles := g.tiles.filter fun p => p.1 / 4096 ≠ tileKey e t }

/-- Clears every tile of some engines. -/
def Gang.scrub (g : Gang) (mask : BitVec 4) : Gang :=
  (enginesOf mask).foldl (fun g e => (List.range Config.engineTiles).foldl (fun g t => g.clearTile e t) g) g

/-- Generation of a barrier object (R304). -/
def Gang.mgen (g : Gang) (n : Nat) : BitVec 32 := SMapOps.get 0 g.mgens n

/-! ### Checks at issue -/

/-- A crane form: only a crane thread issues it (R134). -/
def onCrane (s : State) (reads writes : List SReg) (f : Nat → Hart → Gang → State) : Out :=
  onScalar s reads writes fun hid h =>
    if h.engine = .wave then s.illegal hid ⟨.engine, false⟩
    else match s.unit? h.unit with
      | some g => f hid h g
      | none => s

/-- The trap of a tile index at or beyond NACC (R292, R357). -/
def State.tileTrap (s : State) (hid tile : Nat) : State :=
  s.trapWith hid .register 0 (BitVec.ofNat 64 tile) 0 0 (match s.hart? hid with | some h => h.pc | none => 0)

/-- A descriptor register as an instruction takes it: the descriptor and its streamed address. -/
inductive Desc where
  | ok (x va : Word)
  | tag
  | bad

/-- Reads the descriptor in a register (R297). -/
def Hart.desc (h : Hart) (a : SReg) : Desc :=
  let x := h.getS a
  let last : Bool := a = 63
  let next := if last then TV.zero else h.getS (a + 1)
  let streamed : Bool := descSrc x.val = 2
  if x.tag || (streamed && next.tag) then .tag
  else if descBad x.val next.val last then .bad
  else .ok x.val (if streamed then next.val else 0)

/-- The register after a descriptor's, which a streamed one also names (R297). -/
def Hart.descNext (h : Hart) (a : SReg) : List SReg :=
  if a ≠ 63 && !(h.getS a).tag && descSrc (h.getS a).val = 2 then [a + 1] else []

/-- Where each engine's image starts. -/
def imageStarts (x va : Word) (mask : BitVec 4) : List Nat := (enginesOf mask).map (imageStart x va)

/-- The slot of a ring that a range lies wholly within. -/
def Ring.slotOver (r : Ring) (a n : Nat) : Option Nat :=
  (List.range r.count).find? fun i => decide (r.offset i ≤ a ∧ a + n ≤ r.offset i + r.slotBytes)

/-- What the checks of R298 find for one operand. -/
inductive ImageCheck where
  | ok
  | bound (fs : List Failure)
  | ring (off : Nat)
  | notFull
deriving DecidableEq, Repr

/-- The checks of R298, in order; `full` asks that a ring slot be FULL or HELD. DEDUCED (log 48). -/
def Gang.checkImage (g : Gang) (x va : Word) (mask : BitVec 4) (n : Nat) (full : Bool) : ImageCheck :=
  if descSrc x = 2 then .ok
  else
    let starts := imageStarts x va mask
    let fs : List Failure := starts.filterMap fun a =>
      (clusterCheck g.csize (BitVec.ofNat 64 a) n).map fun c => ⟨0, BitVec.ofNat 64 a, c, 15⟩
    if !fs.isEmpty then .bound fs
    else if descSrc x ≠ 1 then .ok
    else match g.ring (descRing x) with
      | none => .ring (starts.headD 0)
      | some r =>
        match starts.find? fun a => (r.slotOver a n).isNone with
        | some a => .ring a
        | none =>
          if full && starts.any fun a => match r.slotOver a n with
            | some i => (r.slot i).1 ≠ .full && (r.slot i).1 ≠ .held
            | none => true
          then .notFull else .ok

/-- The failures of the first step, and the ring offset at which the second fails. -/
def ImageCheck.bounds : ImageCheck → List Failure
  | .bound fs => fs
  | _ => []
def ImageCheck.ringOff : ImageCheck → Option Nat
  | .ring off => some off
  | _ => none

/-- What the failed checks of an operation's images leave: each step is taken for every image before the next (R298).
Nothing for a wait. DEDUCED (log 48). -/
def State.imageFaults (s : State) (hid : Nat) (h : Hart) (cs : List (Word × ImageCheck)) : Option State :=
  let fs := cs.flatMap fun p => p.2.bounds
  if !fs.isEmpty then some (s.failAccess hid false .matrixOperand h.pc fs)
  else cs.findSome? fun p => p.2.ringOff.map fun off => s.ringTrap hid (descRing p.1) (BitVec.ofNat 64 off)

/-- Whether a tile operation streams an operand from virtual memory. -/
def TileKind.streamed : TileKind → Bool
  | .mma a b _ _ _ => descSrc a = 2 || descSrc b = 2
  | _ => false

/-- A tile operation issues: counted once in mx (R293). The command of one that streams an operand leaves by the thread's
store queue, and its reads come after (R102, R104). DEDUCED (log 22). -/
def State.issueTile (s : State) (hid : Nat) (h : Hart) (kind : TileKind) (acc : BitVec 3) (mask : BitVec 4) : State :=
  let f := s.fresh
  let cmd : List SqEntry := if kind.streamed then [⟨f.1, 0, .tileCmd, false, [], [], [], f.1, .scalar 0⟩] else []
  (((f.2.modHart hid fun h => { h.issue .mx f.1 with storeQ := h.storeQ ++ cmd }).putTileOp f.1
    ⟨hid, h.unit, f.1, kind, acc.toNat, mask, [], [], h.pc, !kind.streamed⟩)).nextPc hid

/-! ### Format and tile instructions (R295, R300 to R302) -/

/-- What a format word breaks (R295). -/
def fmtFault (f : Word) : Option Reason :=
  let pairOk := match fmtA f, fmtB f with
    | some a, some b => (narrowTypes.contains a && narrowTypes.contains b) || (a = b && (a = .f16 || a = .bf16))
    | _, _ => false
  let narrow := match fmtA f, fmtB f with
    | some a, some b => narrowTypes.contains a && narrowTypes.contains b
    | _, _ => false
  if !pairOk || bits f 16 2 = 3 || (fmtScaled f && !narrow) then some .typeop
  else if bits f 19 45 ≠ 0 || bits f 13 3 ≠ 0 || bits f 5 3 ≠ 0 then some .mbz
  else none

/-- `mfmt` (R295). -/
def execMfmt (a : SReg) (s : State) : Out :=
  onCrane s [a] [] fun hid h _ =>
    let x := h.getS a
    if x.tag then s.tagTrap hid
    else match fmtFault x.val with
      | some r => s.illegal hid ⟨r, false⟩
      | none => (s.modHart hid fun h => { h with fmt := x.val }).nextPc hid

/-- `mzero` (R300). -/
def execMzero (acc : BitVec 3) (mask : BitVec 4) (s : State) : Out :=
  onCrane s [] [] fun hid h g =>
    if h.full .mx then s
    else if g.nacc ≤ acc.toNat then s.tileTrap hid acc.toNat
    else s.issueTile hid h .mzero acc mask

/-- `mma` takes all its checks, then issues or waits for its slots (R297, R298, R301). The tile index is checked before the
descriptors. DESIGN CHOICE (log 119). -/
def State.tryMma (s : State) (hid : Nat) (acc : BitVec 3) (a b : SReg) (mask : BitVec 4) : State :=
  match s.hart? hid with
  | none => s
  | some h0 =>
    match s.unit? h0.unit with
    | none => s
    | some g =>
      let s0 := s.modHart hid fun h => { h with wait := none }
      let wait := s0.waiting hid (.mmaSlot acc a b mask)
      if h0.full .mx then s
      else if g.nacc ≤ acc.toNat then s0.tileTrap hid acc.toNat
      else match h0.desc a, h0.desc b with
        | .tag, _ => s0.tagTrap hid
        | .bad, _ => s0.illegal hid ⟨.mbz, false⟩
        | .ok .., .tag => s0.tagTrap hid
        | .ok .., .bad => s0.illegal hid ⟨.mbz, false⟩
        | .ok x xa, .ok y ya =>
          let n (ty : Option LType) : Nat := imageBytes h0.fmt (ty.getD .e2m1)
          let ca := g.checkImage x xa mask (n (fmtA h0.fmt)) true
          let cb := g.checkImage y ya mask (n (fmtB h0.fmt)) true
          match s0.imageFaults hid h0 [(x, ca), (y, cb)] with
          | some s1 => s1
          | none =>
            if ca = .notFull || cb = .notFull then wait
            else s0.issueTile hid h0 (.mma x y xa ya h0.fmt) acc mask

def execMma (acc : BitVec 3) (a b : SReg) (mask : BitVec 4) (s : State) : Out :=
  onCrane s [a, b] [] fun hid h _ => s.withRegs hid h (h.descNext a ++ h.descNext b) [] (s.tryMma hid acc a b mask)

/-- Bytes that `mout` writes for one engine. -/
def moutBytes : Nat := 16384

/-- The commit check of `mout.cmt`: the offset whose slot is not RES (R302). An image that lies in no slot fails it too, wherever
it lies. DEDUCED (log 48). -/
def Gang.moutCommitFault (g : Gang) (x : Word) (mask : BitVec 4) : Option Nat :=
  let starts := imageStarts x 0 mask
  if descSrc x ≠ 1 then some (descAddr x)
  else match g.ring (descRing x) with
    | none => some (starts.headD 0)
    | some r => starts.find? fun a => match r.slotOver a moutBytes with
      | some i => (r.slot i).1 ≠ .res
      | none => true

/-- `mout` (R302): the tile index, then the checks in the order of its algorithm. DEDUCED (log 48). DESIGN CHOICE (log 119). -/
def execMout (a : SReg) (acc : BitVec 3) (mask : BitVec 4) (cmt z : Bool) (s : State) : Out :=
  onCrane s [a] [] fun hid h g =>
    let x := (h.getS a).val
    if h.full .mx then s
    else if g.nacc ≤ acc.toNat then s.tileTrap hid acc.toNat
    else if (h.getS a).tag then s.tagTrap hid
    else if descSrc x = 2 || (descMc x && decide (1 < (enginesOf mask).length)) then s.illegal hid ⟨.mbz, false⟩
    else match (if cmt then g.moutCommitFault x mask else none) with
      | some off => s.ringTrap hid (descRing x) (BitVec.ofNat 64 off)
      | none =>
        if descBad x 0 false then s.illegal hid ⟨.mbz, false⟩
        else match s.imageFaults hid h [(x, g.checkImage x 0 mask moutBytes false)] with
          | some s1 => s1
          | none => s.issueTile hid h (.mout x z cmt) acc mask

/-! ### Barrier objects, poison query and scrub (R303 to R306) -/

/-- `mbar` (R304). -/
def execMbar (d : SReg) (n : BitVec 4) (s : State) : Out :=
  onCrane s [] [d] fun hid h g =>
    let pending := (g.marks.filter fun m => m.obj = n.toNat).length
    if 16 ≤ pending then s
    else
      let gen := g.mgen n.toNat + BitVec.ofNat 32 (pending + 1)
      let m : Mark := ⟨n.toNat, hid, s.hartTileOps hid⟩
      (((s.putUnit h.unit { g with marks := g.marks ++ [m] }).setS hid d ⟨gen.zeroExtend 64, false⟩)).nextPc hid

/-- `mwait` ends once its generation is reached, as R98 compares them. -/
def State.tryMwait (s : State) (hid n : Nat) (gen : BitVec 32) : State :=
  match (s.hart? hid).bind fun h => s.unit? h.unit with
  | some g => if (g.mgen n - gen).msb then s else s.endWait hid
  | none => s

def execMwait (a : SReg) (n : BitVec 4) (s : State) : Out :=
  onCrane s [a] [] fun hid h _ =>
    if (h.getS a).tag then s.tagTrap hid
    else (s.waiting hid (.mwait n.toNat (h.gen a))).tryMwait hid n.toNat (h.gen a)

/-- Whether an earlier tile operation of a hart on a tile has still to complete on some engine of a mask. -/
def State.tileBusy (s : State) (hid tile : Nat) (mask : BitVec 4) (before : Nat) : Bool :=
  s.tileOps.any fun p => match p.2 with
    | some t => t.hart = hid && t.acc = tile && (t.mask &&& mask) ≠ 0 && decide (t.op < before)
    | none => false

/-- The poison flags of a tile on the engines of a mask. -/
def Gang.poisonWord (g : Gang) (tile : Nat) (mask : BitVec 4) : Word :=
  (enginesOf mask).foldl (fun w e => if g.poisonOf e tile then w ||| at' e 1 else w) 0

/-- `mpsn` (R305): it stalls, and is not interrupted, until the thread's earlier operations have completed. -/
def execMpsn (d : SReg) (acc : BitVec 3) (mask : BitVec 4) (s : State) : Out :=
  onCrane s [] [d] fun hid _ g =>
    if g.nacc ≤ acc.toNat then s.tileTrap hid acc.toNat
    else if s.tileBusy hid acc.toNat mask s.nextId then s.modHart hid fun h => { h with busy := true }
    else (s.modHart hid fun h => { h with busy := false }).result hid d ⟨g.poisonWord acc.toNat mask, false⟩

/-- `mscrub` ends once the operations it waits for have completed: it clears the tiles. -/
def State.tryMscrub (s : State) (hid : Nat) (mask : BitVec 4) (ops : List Nat) : State :=
  match s.hart? hid with
  | some h =>
    if ops.any fun id => (s.tileOp? id).isSome then s
    else (s.modUnit h.unit fun g => g.scrub mask).endWait hid
  | none => s

/-- `mscrub` (R306): it waits for every operation of the convoy that its engines accepted. -/
def execMscrub (mask : BitVec 4) (s : State) : Out :=
  onCrane s [] [] fun hid h _ =>
    let ops := (s.tileOps.filter fun p => match p.2 with
      | some t => t.unit = h.unit && (t.mask &&& mask) ≠ 0
      | none => false).map Prod.fst
    (s.waiting hid (.mscrub mask ops)).tryMscrub hid mask ops

/-! ### Completing tile operations -/

/-- A killed unit's tiles are scrubbed and its barrier objects discarded once no tile operation of it is left (R309). -/
def State.killScrub (s : State) (u : Nat) : State :=
  match s.unit? u with
  | some g =>
    if g.st = .released && !(s.tileOps.any fun p => match p.2 with | some t => t.unit = u | none => false) then
      s.putUnit u { g.scrub 15 with marks := [], mgens := [] }
    else s
  | none => s

/-- A tile operation completes (R90); what the network answered it is dropped. -/
def State.tileDone (s : State) (id : Nat) : State :=
  match s.tileOp? id with
  | none => s
  | some t =>
    let s1 := ((s.dropTileOp id).completeOp t.hart .mx id).killScrub t.unit
    { s1 with mem := { s1.mem with flights := s1.mem.flights.filter fun p => match p.2 with
        | some f => !(f.op = id && (match f.kind with | .netAnswer .. => true | _ => false))
        | none => true } }

/-- MZERO_COMPLETE: every tile is cleared, after the thread's earlier operations on them (R300, R307).
DEDUCED (log 49). -/
def execMzeroComplete (op : Nat) (s : State) : Out :=
  .next (match s.tileOp? op with
    | some t =>
      if t.kind ≠ .mzero || s.tileBusy t.hart t.acc t.mask op then s
      else (s.modUnit t.unit fun g => (enginesOf t.mask).foldl (fun g e => g.clearTile e t.acc) g).tileDone op
    | none => s)

/-- The end of a convoy whose streamed image faults: the records, then the kill; the operation is over, and the tiles are
scrubbed after the others already issued (R309). A convoy already killed is not ended again. DESIGN CHOICE (log 95). -/
def State.streamFault (s : State) (id : Nat) (t : TileOp) (fs : List Failure) : State :=
  match s.unit? t.unit, worstFailure fs with
  | some g, some f =>
    let place := match s.hart? t.hart with | some h => s.placeWord h | none => 0
    let s1 := s.recordFailures g.vf fs false .matrixOperand t.iaddr place
    (if g.st ≠ .released then s1.endTask g.vf g.task f.cause.trapClass f.cause.code else s1).tileDone id
  | _, _ => s.tileDone id

/-- An operand of an `mma`: its descriptor, streamed address, element type and format word. -/
structure Operand where
  desc : Word
  va : Word
  ty : LType
  fmt : Word
deriving DecidableEq, Repr

/-- Operand A or B of a tile operation. -/
def TileOp.operand (t : TileOp) (o : Nat) : Option Operand :=
  match t.kind with
  | .mma a b va vb f =>
    if o = 0 then some ⟨a, va, (fmtA f).getD .e2m1, f⟩ else some ⟨b, vb, (fmtB f).getD .e2m1, f⟩
  | _ => none

/-- What the network has answered a tile operation for a sector, with the P that came with it. -/
def State.tileAnswer (s : State) (core op sec : Nat) : Option (SectorData × Bool) :=
  s.mem.flights.findSome? fun p => match p.2 with
    | some f => (match f.kind with
      | .netAnswer n d p => if f.core = core && f.op = op && n = sec then some (d, p) else none
      | _ => none)
    | none => none

/-- How a read of an image sector comes out. -/
inductive TileGot where
  | ok
  | wait
  | fault (fs : List Failure)
deriving DecidableEq, Repr

/-- Keeps a sector that an engine has read. -/
def State.tileKeep (s : State) (id key : Nat) (v : View) : State :=
  match s.tileOp? id with
  | some t => s.putTileOp id { t with out := t.out ++ [⟨key, BitVec.allOnes 128, v.data, v.p, v.x, true⟩] }
  | none => s

/-- Two outcomes together: the failures of both, else a wait. -/
def TileGot.and (a b : TileGot) : TileGot :=
  match a, b with
  | .fault fs, .fault gs => .fault (fs ++ gs)
  | .fault fs, _ | _, .fault fs => .fault fs
  | .ok, .ok => .ok
  | _, _ => .wait

/-- Engine `e` reads sector `n` of operand `o`, once; a streamed one after the operation's command has left the store
queue (R104). -/
def State.tileRead (s : State) (id o e n : Nat) : State × TileGot :=
  match s.tileOp? id with
  | none => (s, .wait)
  | some t => match t.operand o, s.unit? t.unit with
    | some x, some g =>
      let key := readKey o x.desc e n
      if t.out.any fun w => w.sector = key then (s, .ok)
      else if descSrc x.desc ≠ 2 then
        (s.tileKeep id key ⟨g.granule n, (g.granuleTags n).1, (g.granuleTags n).2⟩, .ok)
      else if !t.active then (s, .wait)
      else
        let va := BitVec.ofNat 64 (128 * n)
        let r := s.engineRead g.cluster g.vf va .matrixOperand
        match r.2 with
        | .view v => (r.1.tileKeep id key v, .ok)
        | .bad f => (r.1, .fault [⟨0, va, f.cause, f.level⟩])
        | .net pa =>
          let core := engineCore g.cluster
          match r.1.tileAnswer core id (sectorOf pa) with
          | some d => (r.1.tileKeep id key ⟨d.1, d.2 && r.1.winProp pa, false⟩, .ok)
          | none =>
            if r.1.asked id (sectorOf pa) then (r.1, .wait) else (r.1.askSector 0 core id (sectorOf pa), .wait)
    | _, _ => (s, .wait)

/-- The image sectors of operand `o` that row or column `r` of engine `e` needs. -/
def Operand.rowSectors (x : Operand) (e r : Nat) : List Nat :=
  let rb := rowBytes x.ty (fmtK x.fmt)
  let a := imageStart x.desc x.va e
  rangeSectors (a + r * rb) rb ++ (if fmtScaled x.fmt then [sectorOf (a + 64 * rb + 2 * r)] else [])

/-- The sectors of a whole image. -/
def Operand.allSectors (x : Operand) (e : Nat) : List Nat :=
  rangeSectors (imageStart x.desc x.va e) (imageBytes x.fmt x.ty)

/-- Reads a list of sectors. -/
def State.tileReads (s : State) (id o e : Nat) : List Nat → State × TileGot
  | [] => (s, .ok)
  | n :: ns =>
    let r := s.tileRead id o e n
    let q := r.1.tileReads id o e ns
    (q.1, r.2.and q.2)

/-- The `n` bytes of an image at an address, from the sectors read. -/
def TileOp.imageNum (t : TileOp) (o e : Nat) (x : Operand) (a n : Nat) : Nat :=
  (rangeSectors a n).foldl (fun acc q =>
    match t.out.find? fun w => w.sector = readKey o x.desc e q with
    | some w =>
      let lo := Nat.max a (128 * q)
      let hi := Nat.min (a + n) (128 * q + 128)
      acc + sectorBytes w.data (lo - 128 * q) (hi - lo) * 2 ^ (8 * (lo - a))
    | none => acc) 0

/-- The decoded elements of row or column `r` (R296). -/
def TileOp.row (t : TileOp) (o e r : Nat) (x : Operand) : List FVal :=
  let k := fmtK x.fmt
  let rb := rowBytes x.ty k
  let a := imageStart x.desc x.va e
  let n := t.imageNum o e x (a + r * rb) rb
  let sc := if fmtScaled x.fmt then t.imageNum o e x (a + 64 * rb + 2 * r) 2 else 0
  (List.range k).map fun i =>
    let code := (n >>> (x.ty.width * i)) % 2 ^ x.ty.width
    if fmtScaled x.fmt then blockDecode x.ty code (sc % 256) (sc / 256) else x.ty.value code

/-- `mma_cell` over the groups of four (R173). -/
def mmaCell (acc : FVal) : Nat → List (FVal × FVal) → FVal
  | 0, _ => acc
  | n + 1, ps => mmaCell (mmaGroup acc (ps.take 4)) n (ps.drop 4)

/-- The a26 value of a cell's f32 pattern, and the pattern of a value. -/
def cellValue (x : Word32) : FVal := LType.a26.value x.toNat
def cellImage (v : FVal) : Word32 := BitVec.ofNat 32 (LType.a26.image v)

/-- Whether some sector that an engine has read for a tile operation is poisoned. -/
def TileOp.readPoison (t : TileOp) (e : Nat) : Bool :=
  [0, 1].any fun o => match t.operand o with
    | some x => t.out.any fun w => w.x && w.sector / 2 ^ 58 = readKey o x.desc e 0 / 2 ^ 58
    | none => false

/-- The number of a cell among those of an operation. -/
def doneKey (e c : Nat) : Nat := 4096 * e + c

/-- Notes a cell as done. -/
def State.cellDone (s : State) (id e c : Nat) : State :=
  match s.tileOp? id with
  | some t => s.putTileOp id { t with done := t.done ++ [doneKey e c] }
  | none => s

/-- Whether every cell of every engine is done. -/
def TileOp.allDone (t : TileOp) : Bool := decide (4096 * (enginesOf t.mask).length ≤ t.done.length)

/-- Whether a cell can be done now: it is one of the operation's, not done, and no earlier operation of the thread on
the tile is left (R307). -/
def State.cellOpen (s : State) (id : Nat) (t : TileOp) (e c : Nat) : Bool :=
  t.mask.getLsbD e && decide (c < 4096) && !t.done.contains (doneKey e c) &&
    !s.tileBusy t.hart t.acc (BitVec.ofNat 4 (2 ^ e)) id

/-- Adds the chunk into one cell, its rows having been read (R301). DESIGN CHOICE (log 12). -/
def State.mmaApply (s : State) (id e c : Nat) : State :=
  match s.tileOp? id with
  | none => s
  | some t => match t.operand 0, t.operand 1, s.unit? t.unit with
    | some x, some y, some g =>
      let g1 := if t.readPoison e then g.setPoison e t.acc true else g
      let f := s.freeAt
      let v := if g1.poisonOf e t.acc then Config.poisonedCell f.1
        else cellImage (mmaCell (cellValue (g.cell e t.acc c)) (fmtK x.fmt / 4)
          (List.zip (t.row 0 e (c / 64) x) (t.row 1 e (c % 64) y)))
      let s1 := if g1.poisonOf e t.acc then f.2 else s
      let s2 := (s1.putUnit t.unit (g1.setCell e t.acc c v)).cellDone id e c
      if (s2.tileOp? id).any TileOp.allDone then s2.tileDone id else s2
    | _, _, _ => s

/-- The chunk of one cell: its rows are read, then it is added. Of a streamed image the pages that fault here, those of the cell's
row and column, have the records (R309). DESIGN CHOICE (log 119). -/
def State.mmaStep (s : State) (id e c : Nat) : State :=
  match s.tileOp? id with
  | none => s
  | some t => match t.operand 0, t.operand 1 with
    | some x, some y =>
      if !s.cellOpen id t e c then s
      else
        let ra := s.tileReads id 0 e (x.rowSectors e (c / 64))
        let rb := ra.1.tileReads id 1 e (y.rowSectors e (c % 64))
        match ra.2.and rb.2 with
        | .fault fs => rb.1.streamFault id t fs
        | .ok => rb.1.mmaApply id e c
        | .wait => rb.1
    | _, _ => s

/-- The failures that the streamed images of a tile operation meet (R309). -/
def State.imageFailures (s : State) (id o e : Nat) : List Nat → State × List Failure
  | [] => (s, [])
  | n :: ns =>
    let r := s.tileRead id o e n
    let q := r.1.imageFailures id o e ns
    (q.1, match r.2 with | .fault fs => fs ++ q.2 | _ => q.2)

/-- STREAMED_OPERAND_FAULT: every page of the operation's streamed images is read; the convoy is killed if one
faults. -/
def State.streamedFault (s : State) (id : Nat) : State :=
  match s.tileOp? id with
  | none => s
  | some t =>
    let pairs := [0, 1].flatMap fun o => (enginesOf t.mask).map fun e => (o, e)
    let r := pairs.foldl (fun (acc : State × List Failure) p =>
      match t.operand p.1 with
      | some x =>
        if descSrc x.desc ≠ 2 then acc
        else
          let q := acc.1.imageFailures id p.1 p.2 (x.allSectors p.2)
          (q.1, acc.2 ++ q.2)
      | none => acc) (s, [])
    if r.2.isEmpty then r.1 else r.1.streamFault id t r.2

def execStreamedOperandFault (op : Nat) (s : State) : Out := .next (s.streamedFault op)

/-- Every cell of an operation, engine by engine. -/
def TileOp.cells (t : TileOp) : List (Nat × Nat) :=
  (enginesOf t.mask).flatMap fun e => (List.range 4096).map fun c => (e, c)

/-- MMA_COMPLETE (R301, R307): one cell, named by its engine, row and column, or everything that is left. An engine
number of 4 or more names a read alone: `4 + 4 * operand + engine`, and the image sector. -/
def execMmaComplete (op : Nat) (cell : Option (Nat × Nat × Nat)) (s : State) : Out :=
  .next (match cell with
    | some (e, i, j) =>
      if e < 4 then s.mmaStep op e (64 * i + j)
      else match (s.tileOp? op).bind fun t => t.operand ((e - 4) / 4) with
        | some x =>
          let n := (x.allSectors ((e - 4) % 4)).getD i 0
          let r := s.tileRead op ((e - 4) / 4) ((e - 4) % 4) n
          (match r.2 with | .fault _ => r.1.streamedFault op | _ => r.1)
        | none => s
    | none => match s.tileOp? op with
      | some t => (t.cells).foldl (fun s p => s.mmaStep op p.1 p.2) s
      | none => s)

/-! ### `mout` (R302) -/

/-- The commits of an `mout.cmt`: each slot once (R105). -/
def State.moutCommit (s : State) (t : TileOp) (x : Word) : State :=
  match (s.unit? t.unit).bind fun g => g.ring (descRing x) with
  | some r =>
    (((imageStarts x 0 t.mask).filterMap fun a => (r.slotOver a moutBytes).map r.offset).eraseDups).foldl
      (fun s off => s.engineCommit t.unit (descRing x) off t.iaddr) s
  | none => s.engineCommit t.unit (descRing x) (descAddr x) t.iaddr

/-- Emits one cell: it is read, zeroed where Z is set, and the sector is written once all its cells are read.
DEDUCED (log 49). -/
def State.moutStep (s : State) (id e c : Nat) : State :=
  match s.tileOp? id with
  | none => s
  | some t => match t.kind, s.unit? t.unit with
    | .mout x z cmt, some g =>
      if !s.cellOpen id t e c then s
      else
        let dst := imageStart x 0 e + 4 * c
        let key := e * 2 ^ 58 + sectorOf dst
        let old := (t.out.find? fun w => w.sector = key).getD ⟨key, 0, 0, true, false, true⟩
        let m := byteRun (dst % 128) 4
        let w : SWrite := { old with
          mask := old.mask ||| m, x := old.x || g.poisonOf e t.acc,
          data := mergeBytes m old.data (sectorPlace (g.cell e t.acc c).toNat (dst % 128) 4) }
        let g1 := if z then g.setCell e t.acc c 0 else g
        let full := w.mask = BitVec.allOnes 128
        let g2 := if full then
            g1.clusterWrite { w with sector := sectorOf dst, data := if w.x then 0 else w.data } else g1
        let rest := t.out.filter fun y => y.sector ≠ key
        let t1 : TileOp := { t with out := if full then rest else rest ++ [w], done := t.done ++ [doneKey e c] }
        let last := decide (4096 ≤ (t1.done.filter fun k => k / 4096 = e).length)
        let g3 := if last && z && g.poisonOf e t.acc then g2.clearTile e t.acc else g2
        let s1 := (s.putUnit t.unit g3).putTileOp id t1
        if t1.allDone then (if cmt then s1.moutCommit t x else s1).tileDone id else s1
    | _, _ => s

/-- MOUT_COMPLETE: one cell, or everything that is left. -/
def execMoutComplete (op : Nat) (cell : Option (Nat × Nat × Nat)) (s : State) : Out :=
  .next (match cell with
    | some (e, i, j) => s.moutStep op e (64 * i + j)
    | none => match s.tileOp? op with
      | some t => (t.cells).foldl (fun s p => s.moutStep op p.1 p.2) s
      | none => s)

/-! ### Marks (R304) -/

/-- MBAR_MARK_COMPLETE: the oldest mark of an object completes once its operations have. -/
def State.markDone (s : State) (u obj : Nat) : State :=
  match s.unit? u with
  | none => s
  | some g => match g.marks.find? fun m => m.obj = obj with
    | some m =>
      if m.ops.any fun id => (s.tileOp? id).isSome then s
      else s.putUnit u { g with marks := g.marks.erase m, mgens := SMapOps.set 0 g.mgens obj (g.mgen obj + 1) }
    | none => s

def execMbarMarkComplete (unit obj : Nat) (s : State) : Out := .next (s.markDone unit obj)

end Sys2Proof.Machine
end

