-- ==== Sys2Proof/Machine/Progress.lean ====
section
/-! DEFINITION. Time words, the graph of a job, stamps, counts and frontiers (R311 to R324). -/

namespace Sys2Proof.Machine

/-! ### Time words (R311 to R313) -/

/-- Counters of a time word, all four. -/
def timeCounters (t : Word) : List Nat := [bits t 34 28, bits t 22 12, bits t 11 11, bits t 0 11]

/-- Depth of a time word. -/
def timeDepth (t : Word) : Nat := bits t 62 2 + 1

/-- Every counter beyond the depth is zero (R312). -/
def timeOk (t : Word) : Bool := ((timeCounters t).drop (timeDepth t)).all (· = 0)

/-- Product order (R313). -/
def timeLe (t u : Word) : Bool :=
  timeDepth t = timeDepth u && (List.zipWith (fun x y => decide (x ≤ y)) (timeCounters t) (timeCounters u)).all id

/-- The key of queue order: C0, C1, C2, C3, DEP (R313). -/
def queueKey (t : Word) : List Nat := timeCounters t ++ [bits t 62 2]

/-- Lexicographic order of lists of one length. -/
def lexLt : List Nat → List Nat → Bool
  | x :: xs, y :: ys => decide (x < y) || (x = y && lexLt xs ys)
  | _, _ => false

/-- A time word from its depth and counters; none when a counter exceeds its field (R316). -/
def timeOf (depth : Nat) (c0 c1 c2 c3 : Nat) : Option Word :=
  if 2 ^ 28 ≤ c0 ∨ 2 ^ 12 ≤ c1 ∨ 2 ^ 11 ≤ c2 ∨ 2 ^ 11 ≤ c3 then none
  else some (at' 62 (depth - 1) ||| at' 34 c0 ||| at' 22 c1 ||| at' 11 c2 ||| BitVec.ofNat 64 c3)

/-! ### The graph (R314 to R316) -/

/-- Kinds of location. -/
inductive LocKind where
  | unused | node | edge
deriving DecidableEq, Repr

/-- The two words of a location's entry. -/
def Job.loc (j : Job) (l : Nat) : Word × Word := SMapOps.get (0, 0) j.locs l

def locKind (e : Word × Word) : LocKind := match bits e.1 62 2 with | 1 => .node | 2 => .edge | _ => .unused
def Job.kind (j : Job) (l : Nat) : LocKind := locKind (j.loc l)
/-- Depth of every time at a location. -/
def Job.depth (j : Job) (l : Nat) : Nat := bits (j.loc l).1 60 2 + 1
def Job.edgeSrc (j : Job) (e : Nat) : Nat := bits (j.loc e).1 54 6
def Job.edgeDst (j : Job) (e : Nat) : Nat := bits (j.loc e).1 48 6
def Job.hpri (j : Job) (n : Nat) : Nat := bits (j.loc n).1 45 3
def Job.htpl (j : Job) (n : Nat) : Word := (j.loc n).2

/-- The path-summary entry of a pair. -/
def Job.path (j : Job) (a b : Nat) : Word := SMapOps.get 0 j.paths (64 * a + b)
def Job.reach (j : Job) (a b : Nat) : Bool := bitOf (j.path a b) 63

/-- The increments of an entry. -/
def pathIncs (e : Word) : List Nat := [bits e 34 24, bits e 22 12, bits e 11 11, bits e 0 11]

/-- An entry applied to a time (R316): none on overflow. -/
def summary (e t : Word) : Option Word :=
  let k := timeDepth t - bits e 61 2
  let u := (List.zipWith (· + ·) (timeCounters t) (pathIncs e)).take k
  timeOf (k + bits e 59 2) (u.getD 0 0) (u.getD 1 0) (u.getD 2 0) (u.getD 3 0)

/-! ### Counts (R318 to R321) -/

/-- Adds a change to the outstanding stamps; a count of zero is not kept (R318). -/
def addStamp (ss : List Stamp) (c : Change) : List Stamp :=
  match ss.find? fun s => s.loc = c.loc && s.time = c.time with
  | some s =>
    if s.count + c.amount = 0 then ss.filter fun x => x ≠ s
    else ss.map fun x => if x = s then { s with count := s.count + c.amount } else x
  | none => if c.amount = 0 then ss else ss ++ [⟨c.loc, c.time, c.amount⟩]

/-- Applies a batch atomically, positives first (R320). -/
def Job.applyBatch (j : Job) (cs : List Change) : Job :=
  { j with stamps := (positivesFirst cs).foldl addStamp j.stamps, applied := true }

/-! ### Frontiers (R322, R323) -/

/-- The minimal elements of a list of times, each once. -/
def minimal (ts : List Word) : List Word :=
  (ts.filter fun t => !ts.any fun u => u ≠ t && timeLe u t).eraseDups

/-- One element below all of several of one depth (R322). -/
def mergeTimes : List Word → List Word
  | [] => []
  | t :: ts =>
    let m := ts.foldl (fun acc u => List.zipWith min acc (timeCounters u)) (timeCounters t)
    ((timeOf (timeDepth t) (m.getD 0 0) (m.getD 1 0) (m.getD 2 0) (m.getD 3 0)).map fun x => [x]).getD []

/-- The frontier the aggregator holds for a location (R322). -/
def Job.frontier (j : Job) (l : Nat) : List Word :=
  let ts := j.stamps.filterMap fun s =>
    if 0 < s.count ∧ j.reach s.loc l = true then summary (j.path s.loc l) s.time else none
  let f := minimal ts
  if 8 < f.length then mergeTimes f else f

/-- Whether a time has passed under a frontier (R323). -/
def passedUnder (f : List Word) (t : Word) : Bool := !f.any fun x => timeLe x t

/-- Whether a time has passed at the aggregator; before a job's first batch no frontier has been computed.
DEDUCED (log 21). -/
def Job.passed (j : Job) (l : Nat) (t : Word) : Bool := j.applied && passedUnder (j.frontier l) t

/-- The frontier a die was last pushed for a location. DEDUCED (log 21). -/
def Job.dieFront (j : Job) (die l : Nat) : Option (List Word) :=
  (j.fronts.find? fun f => f.die = die && f.loc = l).map (·.elems)

/-- Pushes the aggregator's frontier of a location to a die. -/
def Job.push (j : Job) (die l : Nat) : Job :=
  if !j.applied then j
  else { j with fronts := j.fronts.filter (fun f => !(f.die = die && f.loc = l)) ++ [⟨die, l, j.frontier l⟩] }

/-- Whether a time has passed at a location, as a die answers it (R323). -/
def State.passed (s : State) (die vf job l : Nat) (t : Word) : Bool :=
  match s.job? vf job with
  | some j => match j.dieFront die l with
    | some f => passedUnder f t
    | none => false
  | none => false

/-! ### Checks of the instructions that present times (R312, R324) -/

/-- What a check of a time finds wrong: a class and a cause (R340). -/
abbrev TimeFault := TrapClass × Nat

/-- R312 at a location. -/
def Job.timeFault (j : Job) (l : Nat) (t : Word) : Option TimeFault :=
  if !timeOk t || timeDepth t ≠ j.depth l then some (.timeFormat, 1) else none

/-- R324: a task at `(n, t)` may produce at `l` only at times at or above the summary. -/
def Job.produceFault (j : Job) (n : Nat) (t : Word) (l : Nat) (u : Word) : Option TimeFault :=
  if !j.reach n l then some (.timeRegression, 1)
  else match summary (j.path n l) t with
    | none => some (.timeOverflow, 1)
    | some m => if timeLe m u then none else some (.timeRegression, 2)

/-- The summary for message consumption needs no check at `send`: an overflow there consumes the message with no
task (R328). A gate stalls a send whose C0 exceeds the least C0 of GATE's frontier by more than SLACK (R397). -/
def Job.gateStalls (j : Job) (die : Nat) (t : Word) : Bool :=
  if j.slack = 0 then false
  else match j.dieFront die j.gate with
    | none => true
    | some [] => false
    | some (f :: fs) =>
      let m := fs.foldl (fun m x => min m (bits x 34 28)) (bits f 34 28)
      decide (m + j.slack < bits t 34 28)

/-! ### Recording changes of a running task (R318, R320, R90) -/

/-- The task and VF of a hart. -/
def State.taskOf (s : State) (h : Hart) : Option (Nat × Nat × Tcb) :=
  match s.unit? h.unit with
  | some g => (s.tcb? g.vf g.task).map fun t => (g.vf, g.task, t)
  | none => none

/-- The stamp of a change of a job, as a unit counts it. -/
def stampKey (vf job : Nat) (c : Change) : Nat × Nat × Word := (256 * vf + job, c.loc, c.time)

/-- The stamps of the changes that the running tasks of a die have in its unit, with repeats (R319, R320). -/
def State.dieStamps (s : State) (die : Nat) : List (Nat × Nat × Word) :=
  s.prog.tasks.flatMap fun p => match p.2 with
    | some t => if t.die = die then t.batch.map (stampKey (p.1 / 2 ^ 32) t.job.toNat) else []
    | none => []

/-- The counts of a die's tasks that were spilled when they were recorded (R319). -/
def State.dieSpilt (s : State) (die : Nat) : Nat :=
  s.prog.tasks.foldl (fun n p => match p.2 with
    | some t => if t.die = die then n + t.spilt else n
    | none => n) 0

/-- The stamps at the aggregator, by VF, in the order of the jobs. -/
def State.aggregated (s : State) : List Nat :=
  s.prog.jobs.flatMap fun p => match p.2 with
    | some j => j.stamps.map fun _ => p.1 / 256
    | none => []

/-- The stamp counts of a VF in its spill area: those of its tasks that found their unit full, and those at the aggregator
beyond its capacity (R319). DESIGN CHOICE (log 79). -/
def State.spilled (s : State) (vf : Nat) : Nat :=
  s.prog.tasks.foldl (fun n p => match p.2 with
    | some t => if p.1 / 2 ^ 32 = vf then n + t.spilt else n
    | none => n) ((s.aggregated.drop Config.aggregatorCounts).count vf)

/-- Whether a die's unit itself holds a change: its stamp is counted there, or a count is free (R319). -/
def State.countFits (s : State) (die vf job : Nat) (c : Change) : Bool :=
  decide ((s.dieStamps die).length < Config.unitCounts) || (s.dieStamps die).contains (stampKey vf job c) ||
    decide ((s.dieStamps die).eraseDups.length < Config.unitCounts + s.dieSpilt die)

/-- Whether the unit that counts a task's changes, or the spill area of the VF, has room for one (R319).
DESIGN CHOICE (log 79). -/
def State.countRoom (s : State) (vf : Nat) (t : Tcb) (c : Change) : Bool :=
  s.countFits t.die vf t.job.toNat c || decide (s.spilled vf < Config.spillCounts vf)

/-- Puts changes into the issuing task's batch; a count its die's unit cannot hold is spilled (R319, R320). -/
def State.collect (s : State) (vf task : Nat) (cs : List Change) : State :=
  cs.foldl (fun s c => match s.tcb? vf task with
    | some t => s.putTcb vf task
        { t with batch := t.batch ++ [c], spilt := if s.countFits t.die vf t.job.toNat c then t.spilt else t.spilt + 1 }
    | none => s) s

/-- The ts operation of a hart that has not completed: a `spawn` under way (R327). -/
def Hart.openTs (h : Hart) : Nat := match h.ts.find? fun x => !x.done with | some x => x.op | none => 0

/-- A count change of an instruction: counted in ts at issue, and recorded at the die's unit, where it completes
(R90, R320). -/
def State.countChange (s : State) (hid vf task : Nat) (cs : List Change) : State :=
  let f := s.fresh
  ((f.2.modHart hid (·.issue .ts f.1)).collect vf task cs).completeOp hid .ts f.1

end Sys2Proof.Machine
end

