-- ==== Sys2Proof/Machine/Task.lean ====
section
/-! DEFINITION. The task instructions, task retirement, cancel, and the events of the progress units (R110 to R112,
R318 to R340, R395 to R397). -/

namespace Sys2Proof.Machine

/-! ### Context and checks of a task instruction -/

/-- A job with no location, for a task whose job is gone. -/
def Job.empty : Job := ⟨[], [], [], [], [], [], false, false, 0, 0, [], false⟩

/-- What a task instruction works on: its hart, its task and its job. -/
structure TaskCtx where
  hid : Nat
  h : Hart
  vf : Nat
  task : Nat
  t : Tcb
  j : Job

/-- The number of the task's job. -/
def TaskCtx.job (c : TaskCtx) : Nat := c.t.job.toNat

/-- A task instruction: every register it reads is settled (R325). -/
def onTask (s : State) (reads writes : List SReg) (f : TaskCtx → State) : Out :=
  onSettled s reads writes fun hid h =>
    match s.taskOf h with
    | some (vf, task, t) => f ⟨hid, h, vf, task, t, (s.job? vf t.job.toNat).getD Job.empty⟩
    | none => s

/-- A trap of a time class, with its location and time operands (R340). DEDUCED (log 19). -/
def State.timeTrap (s : State) (hid : Nat) (f : TimeFault) (loc time : Word) : State :=
  let pc := match s.hart? hid with | some h => h.pc | none => 0
  s.trapWith hid f.1 f.2 loc time 0 pc

/-- The cause codes of the time-format class (R340). -/
def faultLoc : TimeFault := (.timeFormat, 2)
def faultArg : TimeFault := (.timeFormat, 3)
def faultHold : TimeFault := (.timeFormat, 4)

/-- A location register: 0 to 63, of a kind the instruction takes (R325). -/
def TaskCtx.loc? (c : TaskCtx) (x : Word) (ok : LocKind → Bool) : Option Nat :=
  if x.toNat < 64 ∧ ok (c.j.kind x.toNat) = true then some x.toNat else none

/-- The checks of R312 and R324 for a stamp the task produces. -/
def TaskCtx.stampFault (c : TaskCtx) (l : Nat) (u : Word) : Option TimeFault :=
  match c.j.timeFault l u with
  | some f => some f
  | none => c.j.produceFault c.t.node.toNat c.t.time l u

/-- A successor list that breaks R326: a count without a list, a misaligned list, or one too far from the argument
pointer. -/
def listBad (args slist : Word) (scnt : Nat) : Bool :=
  if slist = 0 then scnt ≠ 0
  else slist.toNat % 8 ≠ 0 || decide (2 ^ 48 < ((slist.toNat : Int) - (args.toNat : Int)).natAbs)

/-- SLREL (R333): the distance in 8-byte units, rounded down and wrapped to 46 bits. DESIGN CHOICE (log 112). -/
def slrelOf (args slist : Word) : BitVec 46 :=
  if slist = 0 then 0 else BitVec.ofInt 46 (((slist.toNat : Int) - (args.toNat : Int)) / 8)

/-! ### Spawning (R326, R327, R339) -/

/-- Fields of a spawn control word. -/
def spawnScnt (x : Word) : Nat := bits x 32 6
def spawnPend (x : Word) : Nat := bits x 16 12
def spawnPrio (x : Word) : Nat := bits x 8 3
def spawnNode (x : Word) : Nat := bits x 0 6
def spawnBad (x : Word) : Bool := bits x 38 26 ≠ 0 || bits x 28 4 ≠ 0 || bits x 11 5 ≠ 0 || bits x 6 2 ≠ 0

/-- The checks of `spawn`, in the order R327 names them. -/
def TaskCtx.spawnFault (c : TaskCtx) (control args time slist : Word) : Option TimeFault :=
  if c.j.kind (spawnNode control) ≠ .node then some faultLoc
  else if spawnBad control || listBad args slist (spawnScnt control) then some faultArg
  else c.stampFault (spawnNode control) time

/-- `spawn` up to its acceptance: the checks, its count in ts, then release(k) (R90, R111, R327). While the release waits the
word is tried again, already counted. DEDUCED (log 22). -/
def execSpawn (d a b : SReg) (s : State) : Out :=
  onTask s (group a 4 ++ [b]) [d] fun c =>
    let x := (c.h.getS b).val
    let r (i : Nat) : Word := (c.h.sAt a i).val
    let go (s : State) : State :=
      s.withRelease c.hid ⟨.rel, letterK⟩ true fun s => s.waiting c.hid (.spawn d x (r 0) (r 1) (r 2) (r 3))
    if c.h.busy then go s
    else if c.h.full .ts then s.stallsOn c.hid true .ts
    else match c.spawnFault x (r 1) (r 2) (r 3) with
      | some f => s.timeTrap c.hid f (BitVec.ofNat 64 (spawnNode x)) (r 2)
      | none => go ((s.fresh).2.modHart c.hid (·.issue .ts (s.fresh).1))

/-- Whether an identifier names a live TCB of a VF, or units of one that are not gone yet. -/
def State.taskIdUsed (s : State) (vf id : Nat) : Bool := (s.tcb? vf id).isSome || !(s.taskUnits vf id).isEmpty

/-- The first unused identifier from a place on (R333). DESIGN CHOICE (log 16). -/
def State.taskIdFrom (s : State) (vf : Nat) : Nat → Nat → Nat
  | 0, id => id
  | fuel + 1, id => if s.taskIdUsed vf id then s.taskIdFrom vf fuel ((id + 1) % (2 ^ 32 - 1)) else id

/-- Writes a new TCB, and gives its identifier. DESIGN CHOICE (log 16). -/
def State.newTask (s : State) (vf : Nat) (t : Tcb) : State × Nat :=
  let f := s.freeAt
  let id := f.2.taskIdFrom vf (s.prog.tasks.length + s.gangs.length + 1) (Config.taskId f.1 % (2 ^ 32 - 1))
  (f.2.putTcb vf id t, id)

/-- A TCB as it is first written (R333). -/
def newTcb (st : TaskState) (prio : BitVec 3) (priv msg : Bool) (time : Word) (job : BitVec 8) (node : BitVec 6)
    (pend : BitVec 12) (scnt : BitVec 6) (args tpl slist : Word) : Tcb :=
  { st := st, prio := prio, priv := priv, msg := msg, disc := false, canc := false, time := time, job := job, node := node,
    entry := 0, pend := pend, scnt := scnt, slrel := slrelOf args slist, args := args, tpl := tpl, fcode := 0, relaunch := 0,
    die := 0, batch := [], spilt := 0, placed := 0, units := 0, carries := [], msgs := [], data := none, dead := [],
    waited := [], leaving := false }

/-- Whether a VF's TCB area has room for one more (R327). DESIGN CHOICE (log 98). -/
def State.tcbRoom (s : State) (vf : Nat) : Bool :=
  decide ((s.prog.tasks.filter fun p => p.1 / 2 ^ 32 = vf && p.2.isSome).length < Config.tcbExtra vf + 2)

/-- The count change of an accepted `spawn` is recorded, and the spawn is complete (R90, R327). -/
def State.spawnDone (s : State) (hid vf task : Nat) (cs : List Change) (d : SReg) (result : Word) : State :=
  let op := match s.hart? hid with | some h => h.openTs | none => 0
  (((s.collect vf task cs).completeOp hid .ts op).setS hid d ⟨result, false⟩).endWait hid

/-- SPAWN_ACCEPT: held while the die's harbourmaster does not act, its unit and the spill area are full, or the VF's TCB area
is (R319, R327, R339, R366). -/
def execSpawnAccept (hart : Nat) (s : State) : Out :=
  .next (match s.hart? hart with
    | none => s
    | some h =>
      match h.wait, s.taskOf h with
      | some (.spawn d x tpl args time slist), some (vf, task, t) =>
        let node := spawnNode x
        let plus : Change := ⟨node, time, 1⟩
        if !s.harbourOk h.die || !s.countRoom vf t plus then s
        else
          if s.jobCancelled vf t.job.toNat then
            s.spawnDone hart vf task [plus, { plus with amount := -1 }] d 0x80000000FFFFFFFF
          else if !s.tcbRoom vf then s
          else
            let pend := BitVec.ofNat 12 (spawnPend x)
            let r := s.newTask vf (newTcb (if pend = 0 then .ready else .armed) (BitVec.ofNat 3 (spawnPrio x)) t.priv false
              time t.job (BitVec.ofNat 6 node) pend (BitVec.ofNat 6 (spawnScnt x)) args tpl slist)
            r.1.spawnDone hart vf task [plus] d (BitVec.ofNat 64 r.2)
      | _, _ => s)

/-! ### Sending (R328, R395, R397) -/

def sendEdge (x : Word) : Nat := bits x 0 6
def sendPeer (x : Word) : Nat := bits x 8 16
def sendBad (x : Word) : Bool := bits x 24 40 ≠ 0 || bits x 6 2 ≠ 0

/-- Whether a peer field names this module, or an enabled entry that is a peer of the job (R395). -/
def State.peerOk (s : State) (j : Job) (p : Nat) : Bool := p = 0 || (j.peers.contains p && bitOf (s.peer p).1 63)

/-- The checks of `send`. DESIGN CHOICE (log 47). -/
def State.sendFault (s : State) (c : TaskCtx) (control time : Word) : Option TimeFault :=
  if sendBad control then some faultArg
  else if c.j.kind (sendEdge control) ≠ .edge then some faultLoc
  else if !s.peerOk c.j (sendPeer control) then some faultArg
  else c.stampFault (sendEdge control) time

/-- Records a message of a task. One to a peer leaves with the task's batch, which it follows (R396). In a cancelled job
the message is consumed at once. DEDUCED (log 54). -/
def State.recordMessage (s : State) (hid vf task job : Nat) (d : SReg) (m : Message) (peer : Nat) : State :=
  let plus : Change := ⟨m.edge, m.time, 1⟩
  if s.jobCancelled vf job then
    ((s.countChange hid vf task [plus, { plus with amount := -1 }]).setS hid d ⟨0x8000000000000000, false⟩).endWait hid
  else
    let s1 := s.countChange hid vf task [plus]
    let s2 := if peer = 0 then
        (match s1.job? vf job with
          | some j => s1.putJob vf job { j with messages := j.messages ++ [m] }
          | none => s1)
      else match s1.tcb? vf task with
        | some t => s1.putTcb vf task { t with msgs := t.msgs ++ [(peer, m)] }
        | none => s1
    (s2.setS hid d ⟨0, false⟩).endWait hid

/-- `send` goes on once its gate lets it and its count has room: release(k), then the count (R111, R319, R397). -/
def State.trySend (s : State) (hid : Nat) (d : SReg) (payload time control : Word) : State :=
  match s.hart? hid with
  | none => s
  | some h => match s.taskOf h with
    | none => s
    | some (vf, task, t) =>
      let j := (s.job? vf t.job.toNat).getD Job.empty
      if j.gateStalls h.die time || !s.countRoom vf t ⟨sendEdge control, time, 1⟩ then s
      else (s.modHart hid fun h => { h with wait := none }).withRelease hid ⟨.rel, letterK⟩ true fun s =>
        s.recordMessage hid vf task t.job.toNat d ⟨sendEdge control, time, payload⟩ (sendPeer control)

def execSend (d a b : SReg) (s : State) : Out :=
  onTask s (group a 2 ++ [b]) [d] fun c =>
    let x := (c.h.getS b).val
    let payload := (c.h.getS a).val
    let time := (c.h.sAt a 1).val
    if c.h.full .ts then s.stallsOn c.hid true .ts
    else match s.sendFault c x time with
      | some f => s.timeTrap c.hid f (BitVec.ofNat 64 (sendEdge x)) time
      | none => (s.waiting c.hid (.sendGate d payload time x)).trySend c.hid d payload time x

/-! ### Frontiers and holds (R329, R330) -/

/-- Notes that an `fwait` of a hart's task has ended at a location. -/
def State.noteWaited (s : State) (hid loc : Nat) : State :=
  match (s.hart? hid).bind s.taskOf with
  | some (vf, task, t) => if t.waited.contains loc then s else s.putTcb vf task { t with waited := t.waited ++ [loc] }
  | none => s

/-- The wait of a hart ends, with its acquire of k (R112). -/
def State.endFwait (s : State) (hid loc : Nat) : State := ((s.noteWaited hid loc).acquire hid letterK).endWait hid

/-- Whether a hart waits at a location for an earlier time, be it stopped, saved, or in a trap handler that its wait outlasts. -/
def Hart.waitsBefore (h : Hart) (loc : Nat) (time : Word) : Bool :=
  let before : Option Wait → Bool
    | some (.fwait l u) => l = loc && u ≠ time && timeLe u time
    | _ => false
  h.ended.isNone && (before h.wait || before (h.trapped.bind (·.waiting)))

/-- Whether some other hart of a VF's job waits at a location for an earlier time. -/
def State.earlierWait (s : State) (hid vf job loc : Nat) (time : Word) : Bool :=
  s.harts.any fun p => match p.2 with
    | some h => p.1 ≠ hid && h.waitsBefore loc time && (match s.taskOf h with
      | some (v, _, t) => v = vf && t.job.toNat = job
      | none => false)
    | none => false

/-- Whether a running task of a job, of the node of task `t` and of an earlier time, has still to end an `fwait` at a location
before a later one does (R430). DESIGN CHOICE (log 105). -/
def State.earlierTask (s : State) (vf loc : Nat) (t : Tcb) : Bool :=
  s.prog.tasks.any fun p => match p.2 with
    | some x =>
      p.1 / 2 ^ 32 = vf && x.job = t.job && x.node = t.node && x.st = .running && !x.leaving && x.time ≠ t.time &&
        timeLe x.time t.time && !x.waited.contains loc && (s.taskUnits vf (p.1 % 2 ^ 32)).any fun u =>
          (s.unitHarts u).any fun id => match s.hart? id with | some h => h.ended.isNone | none => false
    | none => false

/-- The harts of a VF's job that wait at a location for a time of `us`. -/
def State.fwaiters (s : State) (vf job loc : Nat) (us : Nat → Word → Bool) : List Nat :=
  s.harts.filterMap fun p => match p.2 with
    | some h => (match h.wait, s.taskOf h with
      | some (.fwait l u), some (v, _, t) =>
        if l = loc && v = vf && t.job.toNat = job && us h.die u && !h.still && !s.saved h then some p.1 else none
      | _, _ => none)
    | none => none

/-- `fwait` ends once its time has passed, as its die answers, then acquires k. While another wait of the job at the same location
for an earlier time is open, which has passed too, or one of an earlier task of the node is still to come, that one ends first
(R323, R329, R430). DESIGN CHOICE (log 105). -/
def State.tryFwait (s : State) (hid loc : Nat) (time : Word) : State :=
  match s.hart? hid with
  | none => s
  | some h => match s.taskOf h with
    | some (vf, _, t) =>
      if s.passed h.die vf t.job.toNat loc time && !s.earlierWait hid vf t.job.toNat loc time && !s.earlierTask vf loc t then
        s.endFwait hid loc
      else s
    | none => s

/-- The checks of `fwait` and `fpoll`. -/
def TaskCtx.frontFault (c : TaskCtx) (a time : Word) : Option TimeFault :=
  match c.loc? a (· ≠ .unused) with
  | none => some faultLoc
  | some l => c.j.timeFault l time

def execFwait (a b : SReg) (s : State) : Out :=
  onTask s [a, b] [] fun c =>
    let l := (c.h.getS a).val
    let t := (c.h.getS b).val
    match c.frontFault l t with
    | some f => s.timeTrap c.hid f l t
    | none => ((s.closeBatch c.hid).waiting c.hid (.fwait l.toNat t)).tryFwait c.hid l.toNat t

def execFpoll (d a b : SReg) (s : State) : Out :=
  onTask s [a, b] [d] fun c =>
    let l := (c.h.getS a).val
    let t := (c.h.getS b).val
    match c.frontFault l t with
    | some f => s.timeTrap c.hid f l t
    | none =>
      let p := s.passed c.h.die c.vf c.job l.toNat t
      let s1 := (s.closeBatch c.hid).result c.hid d ⟨wordOfBool p, false⟩
      if p then s1.acquire c.hid letterK else s1

/-- The hold of a job at a stamp. -/
def Job.held (j : Job) (l : Nat) (t : Word) : Int :=
  match j.holds.find? fun x => x.loc = l && x.time = t with
  | some x => x.count
  | none => 0

/-- Whether a job may take one more hold at a stamp: 64 distinct stamps, 255 times each. -/
def Job.holdOk (j : Job) (l : Nat) (t : Word) : Bool :=
  decide (j.held l t < 255) && (j.held l t ≠ 0 || decide (j.holds.length < 64))

/-- Changes a job's holds. -/
def State.addHold (s : State) (vf job : Nat) (c : Change) : State :=
  match s.job? vf job with
  | some j => s.putJob vf job { j with holds := addStamp j.holds c }
  | none => s

/-- `hold` (R330). -/
def execHold (a b : SReg) (s : State) : Out :=
  onTask s [a, b] [] fun c =>
    let l := (c.h.getS a).val
    let t := (c.h.getS b).val
    let fault := match c.loc? l (· ≠ .unused) with
      | none => some faultLoc
      | some n => match c.stampFault n t with
        | some f => some f
        | none => if c.j.holdOk n t then none else some faultHold
    if c.h.full .ts then s.stallsOn c.hid true .ts
    else match fault with
      | some f => s.timeTrap c.hid f l t
      | none =>
        let x : Change := ⟨l.toNat, t, 1⟩
        if !s.countRoom c.vf c.t x then s
        else ((s.addHold c.vf c.job x).countChange c.hid c.vf c.task [x]).nextPc c.hid

/-- `drop` (R330). -/
def execDrop (a b : SReg) (s : State) : Out :=
  onTask s [a, b] [] fun c =>
    let l := (c.h.getS a).val
    let t := (c.h.getS b).val
    let fault := match c.loc? l (· ≠ .unused) with
      | none => some faultLoc
      | some n => match c.j.timeFault n t with
        | some f => some f
        | none => if c.j.held n t = 0 then some faultHold else none
    if c.h.full .ts then s.stallsOn c.hid true .ts
    else match fault with
      | some f => s.timeTrap c.hid f l t
      | none =>
        let x : Change := ⟨l.toNat, t, -1⟩
        if !s.countRoom c.vf c.t x then s
        else ((s.addHold c.vf c.job x).countChange c.hid c.vf c.task [x]).nextPc c.hid

/-! ### The task's own TCB (R331) -/

/-- The +16 word of a TCB (R333). -/
def Tcb.word16 (t : Tcb) (vf : Nat) : Word := at' 32 (vf % 1024) ||| at' 16 t.job.toNat ||| at' 0 t.node.toNat

/-- What `tget` returns for a selector. -/
def Tcb.field (t : Tcb) (vf task c : Nat) : Word :=
  match c with
  | 0 => BitVec.ofNat 64 task
  | 1 => t.time
  | 2 => t.word16 vf
  | 3 => t.args
  | 4 => t.relaunch.zeroExtend 64
  | _ => t.fcode.zeroExtend 64

def execTget (d : SReg) (c : BitVec 4) (s : State) : Out :=
  onTask s [] [d] fun x => s.result x.hid d ⟨x.t.field x.vf x.task c.toNat, false⟩

/-- `tset` (R331). It has no location or time operand: the record of its fault holds the value, or the list's address, and 0, or
the count, in their places (R340). DESIGN CHOICE (log 113). -/
def execTset (a b : SReg) (c : BitVec 4) (s : State) : Out :=
  onTask s (if c = 0 then [a] else [a, b]) [] fun x =>
    let v := (x.h.getS a).val
    let n := (x.h.getS b).val
    if c = 0 then
      if 7 < v.toNat then s.timeTrap x.hid faultArg v 0
      else (s.putTcb x.vf x.task { x.t with prio := v.extractLsb' 0 3 }).nextPc x.hid
    else if 63 < n.toNat ∨ listBad x.t.args v n.toNat = true then s.timeTrap x.hid faultArg v n
    else
      (s.putTcb x.vf x.task { x.t with slrel := slrelOf x.t.args v, scnt := n.extractLsb' 0 6 }).nextPc x.hid

/-! ### Ending (R332, R129, R130) -/

/-- Removes a unit with its members. -/
def State.removeUnit (s : State) (u : Nat) : State := (s.forEach State.dropHart (s.unitHarts u)).dropUnit u

/-- Whether every member of a unit has ended. -/
def State.unitEnded (s : State) (u : Nat) : Bool :=
  (s.unitHarts u).all fun id => match s.hart? id with | some h => h.ended.isSome | none => true

/-- Whether some member of a unit ended its phase by `phase`. -/
def State.unitPhased (s : State) (u : Nat) : Bool :=
  (s.unitHarts u).any fun id => match s.hart? id with | some h => h.ended = some .phased | none => false

/-- Whether a unit's copies, tile operations and stores are all done. -/
def State.unitDrained (s : State) (u : Nat) : Bool :=
  !(s.copies.any fun p => match p.2 with | some c => c.unit = u | none => false) &&
  !(s.tileOps.any fun p => match p.2 with | some t => t.unit = u | none => false) &&
  (s.unitHarts u).all fun id =>
    s.queueEmpty id && !(s.mem.flights.any fun p => match p.2 with | some f => f.hart = id | none => false)

/-- Whether a unit's phase has ended by `phase`, and everything it issued is done (R129, R130). In a cancelled job no
phase follows (R338). -/
def State.phaseOver (s : State) (u : Nat) : Bool :=
  match s.unit? u with
  | some g =>
    g.st = .resident && s.unitEnded u && s.unitPhased u && s.unitDrained u &&
      (match s.tcb? g.vf g.task with | some t => !s.jobCancelled g.vf t.job.toNat | none => false)
  | none => false

/-- The retirement's release: k, and m for a task with a reservation. It does not wait for writes into peer and host
windows (R110). DEDUCED (log 46). -/
def State.retireRelease (s : State) (hid : Nat) (m : Bool) : State × Bool :=
  let r := s.releaseWhole hid (if m then letterK ||| letterM else letterK)
  (r.1, r.1.queueEmpty hid && (match r.1.hart? hid with | some h => h.loads.isEmpty | none => true))

/-- Releases for every member in turn. -/
def State.retireReleases (s : State) (m : Bool) : List Nat → State × Bool
  | [] => (s, true)
  | id :: ids =>
    let r := s.retireRelease id m
    if r.2 then r.1.retireReleases m ids else r

/-- The release of a unit's members that its task's retirement owes, wherever they stand (F11). -/
def State.unitReleases (s : State) (u : Nat) (g : Gang) : State × Bool := s.retireReleases (g.granules ≠ 0) (s.unitHarts u)

/-- A unit that is over goes, once what its members left dirty in their cores' L1 has been written back, as its task's retirement
needs (R31, R86); until then it stays, to be tried again. DEDUCED (log 65). -/
def State.partUnit (s : State) (u : Nat) : State :=
  match s.unit? u with
  | some g =>
    let r := s.unitReleases u g
    if r.2 then r.1.removeUnit u else r.1
  | none => s

/-- A member has stopped: when it is the last and the phase ends by `phase`, the unit's resources are released and its
next phase waits for placement (R130). -/
def State.memberEnded (s : State) (u : Nat) : State := if s.phaseOver u then s.partUnit u else s

/-- Stops a hart for good, with its stores, copies and tile operations going on (R332). DEDUCED (log 33). -/
def State.endHart (s : State) (hid : Nat) (e : EndKind) : State :=
  match s.hart? hid with
  | some h =>
    (s.putHart hid { h with ended := some e, wait := none, armed := [], laneTrap := none, trapped := none }).memberEnded h.unit
  | none => s

/-- Runs an instruction after its implied `lsync`: it stalls while a block is queued or runs; in a lane-trap handler
those blocks cannot end, and it is a nested trap as `lsync` is (R361). -/
def State.afterBlocks (s : State) (hid : Nat) (h : Hart) (k : State) : State :=
  if h.blocks = 0 then k else if h.inLaneHandler then s.fifoTrap hid else s

/-- `exit` (R332). -/
def execExit (s : State) : Out :=
  onScalar s [] [] fun hid h =>
    let s1 := s.closeBatch hid
    s1.afterBlocks hid h (s1.endHart hid .exited)

/-! ### Cancel (R338) -/

/-- A task that has not started becomes DEAD, and is freed once its −1 is applied; a FAULTED one is discarded without a
successor release (R334, R338). -/
def State.killWaiting (s : State) (vf job : Nat) (p : Nat × Option Tcb) : State :=
  let task := p.1 % 2 ^ 32
  match p.2 with
  | some t =>
    if p.1 / 2 ^ 32 ≠ vf || t.job.toNat ≠ job then s
    else if t.st = .armed || t.st = .ready then
      (s.putTcb vf task { t with st := .dead, canc := true }).forward t.die
        { t.batchOut vf (t.batch ++ [t.minus]) with frees := [task] }
    else if t.st = .faulted then (s.setTcb vf task none).forward t.die (t.batchOut vf (t.batch ++ [t.minus]))
    else s
  | none => s

/-- Whether every count of a job is zero: those at the aggregator, and no change of it is still in a die's unit, in a task's
batch or on its way. DEDUCED (log 55). -/
def State.jobQuiet (s : State) (vf job : Nat) (j : Job) : Bool :=
  j.stamps.isEmpty && !(s.prog.dieQ.any fun b => b.2.vf = vf && b.2.job = job) &&
  s.prog.tasks.all fun p => match p.2 with
    | some t => p.1 / 2 ^ 32 ≠ vf || t.job.toNat ≠ job || t.batch.isEmpty
    | none => true

/-- Reports the end of a cancel to the VF's owner, once. DESIGN CHOICE (log 10). DEDUCED (log 55). -/
def State.reportCancel (s : State) (vf job : Nat) : State :=
  match s.job? vf job with
  | some j =>
    if j.cancelled && s.jobQuiet vf job j && !j.told then
      (s.putJob vf job { j with told := true }).emit
        (.response ((s.ownerOf (.vf vf)).getD 0) 0x31 true [BitVec.ofNat 64 vf, BitVec.ofNat 64 job])
    else s
  | none => s

/-- Marks a job as cancelled. -/
def State.cancelJob (s : State) (vf job : Nat) : State :=
  match s.job? vf job with
  | none => s
  | some j =>
    if j.cancelled then s
    else
      let s1 := s.putJob vf job { j with cancelled := true }
      ((s1.prog.tasks.foldl (fun s p => s.killWaiting vf job p) s1).dropHolds vf job).reportCancel vf job

/-- `jcancel`, itself a safe point of the issuing hart (R338). -/
def execJcancel (s : State) : Out :=
  onTask s [] [] fun c => (s.cancelJob c.vf c.job).trap c.hid .cancelled 0

/-! ### Reads of the harbourmaster at their points of performance (R335, R344, R346, R347) -/

/-- The number under which a die's harbourmaster has network accesses in flight; their `hart` is the VF they read for. -/
def hmCore (die : Nat) : Nat := 512 + die

/-- What a read finds. -/
inductive HmGot where
  | ok (v : View)
  | bad (c : Cause) (level : Nat)
  | wait

/-- The answered sector of a network window, with the P that came with it. -/
def State.answered (s : State) (core sec : Nat) : Option (SectorData × Bool) :=
  s.mem.flights.findSome? fun p => match p.2 with
    | some f => (match f.kind with
      | .netAnswer n d p => if f.core = core && n = sec then some (d, p) else none
      | _ => none)
    | none => none

/-- Reads the sector that holds an address. A network window is asked, and the event is met again when it has
answered. -/
def State.hmSector (s : State) (die vf : Nat) (va : Word) : State × HmGot :=
  let r := s.xlateFull ⟨none, die⟩ vf va accRead false
  match r.2 with
  | .bad c l => (r.1, .bad c l)
  | .ok t =>
    let pa := t.pa va
    let sec := sectorOf pa
    if isCtl pa then (r.1, .ok ⟨r.1.ctlSector pa, false, false⟩)
    else if isNet pa then
      match r.1.answered (hmCore die) sec with
      | some d => (r.1, .ok ⟨d.1, d.2 && r.1.winProp pa, false⟩)
      | none =>
        let f : Flight := ⟨vf, hmCore die, 0, 0, .netLoad sec⟩
        (if r.1.mem.flights.any fun p => p.2 = some f then r.1 else r.1.askSector vf (hmCore die) 0 sec, .wait)
    else
      let v := r.1.homeRead sec
      (v.1, .ok ⟨v.2.data, v.2.p && t.mt ≠ .device, v.2.x⟩)

/-- Forgets what the network has answered a die's harbourmaster. -/
def State.hmDone (s : State) (die : Nat) : State :=
  { s with mem := { s.mem with flights := s.mem.flights.filter fun p => match p.2 with
    | some f => !(f.core = hmCore die && (match f.kind with | .netAnswer .. => true | _ => false))
    | none => true } }

/-- Reads a list of sectors; none when one must wait for the network. -/
def State.hmSectors (s : State) (die vf : Nat) : List Word → State × Option (List HmGot)
  | [] => (s, some [])
  | a :: as =>
    let r := s.hmSector die vf a
    let t := r.1.hmSectors die vf as
    match r.2, t.2 with
    | .wait, _ => (t.1, none)
    | _, none => (t.1, none)
    | g, some gs => (t.1, some (g :: gs))

/-! ### Successors (R335) -/

/-- The addresses of a task's successor entries. -/
def Tcb.succs (t : Tcb) : List Word :=
  (List.range t.scnt.toNat).map fun i => t.args + BitVec.ofInt 64 (8 * t.slrel.toInt) + BitVec.ofNat 64 (4 * i)

/-- A skipped entry's record. -/
def State.succBad (s : State) (vf task i reason id : Nat) (va : Word) : State :=
  s.eventRecord vf 0x02 task (at' 16 reason ||| at' 8 i) (BitVec.ofNat 64 id) va

/-- Takes one entry of the list, from the sectors of its first and its last byte. DEDUCED (log 99). -/
def State.releaseOne (s : State) (vf task job i : Nat) (va : Word) (g g' : HmGot) : State :=
  match g, g' with
  | .ok v, .ok v' =>
    let n := 128 - va.toNat % 128
    let id := if n < 4 then sectorBytes v.data (va.toNat % 128) n + sectorBytes v'.data 0 (4 - n) * 2 ^ (8 * n)
      else sectorBytes v.data (va.toNat % 128) 4
    if v.p || v.x || v'.p || v'.x then s.succBad vf task i 1 id va
    else match s.tcb? vf id with
      | some t =>
        if t.st = .armed && t.job.toNat = job then
          s.putTcb vf id { t with pend := t.pend - 1, st := if t.pend = 1 then .ready else .armed }
        else s.succBad vf task i 2 id va
      | none => s.succBad vf task i 2 id va
  | _, _ => s.succBad vf task i 3 0 va

/-- Takes the entries of a list in order. -/
def State.releaseAll (s : State) (vf task job : Nat) : Nat → List Word → List HmGot → State
  | i, va :: vas, g :: g' :: gs => (s.releaseOne vf task job i va g g').releaseAll vf task job (i + 1) vas gs
  | _, _, _ => s

/-- The bytes whose sectors hold the entries of a task's list: the first and the last of each. -/
def Tcb.succReads (t : Tcb) : List Word := t.succs.flatMap fun va => [va, va + 3]

/-- Releases the successors that a task's list names (R335). -/
def State.releaseSuccs (s : State) (vf task : Nat) (t : Tcb) (gs : List HmGot) : State :=
  s.releaseAll vf task t.job.toNat 0 t.succs gs

/-! ### Retirement (R110, R334) -/

/-- Whether every counter of every member of a task is zero. -/
def State.taskDrained (s : State) (vf task : Nat) : Bool :=
  ((s.taskHarts vf task).all fun id => match s.hart? id with | some h => h.drained | none => true) &&
  (s.taskUnits vf task).all s.unitDrained

/-- Removes killed units whose operations have all completed (R113), and units whose phase is over, each as a unit parts. -/
def State.sweepUnits (s : State) : State :=
  (s.gangs.map Prod.fst).foldl (fun s u => match s.unit? u with
    | some g => if g.st = .released && s.unitDrained u || s.phaseOver u then s.partUnit u else s
    | none => s) s

/-- Notes a retired task in the window of each cluster it ran on (R365). -/
def State.noteRetired (s : State) (vf : Nat) (t : Tcb) (clusters : List Nat) : State :=
  clusters.foldl (fun s c =>
    let f := SMapOps.get FieldTest.zero s.mod.tests c
    { s with mod := { s.mod with
        tests := SMapOps.set FieldTest.zero s.mod.tests c { f with retired := f.retired ++ [[t.word16 vf, t.time]] } } }) s

/-- The clusters of a task's units. -/
def State.taskClusters (s : State) (vf task : Nat) : List Nat :=
  ((s.taskUnits vf task).filterMap fun u => (s.unit? u).map (·.cluster)).eraseDups

/-- Whether every member of a task has ended, no unit of it being still to be placed (R110). In a cancelled job
nothing more is placed. -/
def State.taskOver (s : State) (vf task : Nat) (t : Tcb) : Bool :=
  t.st = .running && (s.taskUnits vf task).all s.unitEnded &&
  ((t.placed = t.units && t.carries.isEmpty) || s.jobCancelled vf t.job.toNat) &&
  (s.taskUnits vf task).all fun u => match s.unit? u with | some g => g.st = .resident | none => true

/-- A task whose batch has been applied reads its successor list, releases what it names, and frees its TCB; while a network
window has still to answer, it is tried again (R335). -/
def State.finishTask (s : State) (vf task : Nat) (t : Tcb) : State :=
  let q := s.hmSectors t.die vf t.succReads
  match q.2 with
  | none => q.1
  | some gs => (((q.1.setTcb vf task none).releaseSuccs vf task t gs).hmDone t.die).dropHolds vf t.job.toNat

/-- A task's batch, with its own stamp taken away, is applied at its die; its successor list comes next (R110, R335). A faulted
task that is discarded is no longer one to relaunch. -/
def State.closeTask (s : State) (vf task : Nat) (t : Tcb) : State :=
  let t1 := { t with st := if t.st = .faulted then .dead else t.st, leaving := true, batch := [], spilt := 0, msgs := [] }
  ((s.forward t.die (t.batchOut vf (t.batch ++ [t.minus]))).putTcb vf task t1).finishTask vf task t1

/-- TASK_RETIREMENT (R110, R334, R335). -/
def State.retire (s : State) (vf task : Nat) : State :=
  match s.tcb? vf task with
  | none => s
  | some t =>
    if !s.harbourOk t.die then s
    else if t.leaving then s.finishTask vf task t
    else if !s.taskOver vf task t || !s.taskDrained vf task then s
    else
      let m := (s.taskUnits vf task).any fun u => match s.unit? u with | some g => g.granules ≠ 0 | none => false
      let r := s.retireReleases m (s.taskHarts vf task)
      if !r.2 then r.1
      else
        let s1 := r.1.noteRetired vf t (r.1.taskClusters vf task)
        ((r.1.taskUnits vf task).foldl State.removeUnit s1).closeTask vf task t

def execTaskRetirement (vf task : Nat) (s : State) : Out := .next (s.retire vf task)

/-! ### The aggregator, frontiers and messages (R320 to R323, R328, R396) -/

/-- Frees the DEAD tasks whose −1 has been applied (R334). -/
def State.freeDead (s : State) (vf : Nat) (ids : List Nat) : State := ids.foldl (fun s i => s.setTcb vf i none) s

/-- Applies a batch to its job: to the counts, then to every peer when it arose here. DEDUCED (log 54). -/
def State.applyBatch (s : State) (b : Batch) : State :=
  match s.job? b.vf b.job with
  | none => s
  | some j =>
    let j' := j.applyBatch b.changes
    let s1 := (s.putJob b.vf b.job j').freeDead b.vf b.frees
    let s2 := if b.own && !j.peers.isEmpty && !b.changes.isEmpty then
        s1.emit (.batch b.vf b.job (j.peers.map s.peerAddr) (positivesFirst b.changes))
      else s1
    let s3 := b.msgs.foldl (fun s m => s.emit (.message b.vf b.job (s.peerAddr m.1) m.2.edge m.2.time m.2.payload)) s2
    s3.reportCancel b.vf b.job

/-- AGGREGATOR_BATCH_APPLY: the oldest batch a die has forwarded (R320). -/
def execAggregatorBatchApply (die : Nat) (s : State) : Out :=
  .next (if !s.harbourOk die || !s.harbourOk 0 then s
    else match s.prog.dieQ.find? fun p => p.1 = die with
      | some p => ({ s with prog := { s.prog with dieQ := s.prog.dieQ.erase p } }).applyBatch p.2
      | none => s)

/-- FRONTIER_PUSH: the die holds the location's frontier, and the waits that it passes end (R323). -/
def execFrontierPush (die vf job loc : Nat) (s : State) : Out :=
  .next (match s.job? vf job with
    | some j =>
      if die < Config.dies ∧ loc < 64 then
        let s1 := s.putJob vf job (j.push die loc)
        (s1.fwaiters vf job loc fun d u => d = die && s1.passed die vf job loc u).foldl (fun s id =>
          match (s.hart? id).bind (·.wait) with
          | some (.fwait l u) => s.tryFwait id l u
          | _ => s) s1
      else s
    | none => s)

/-- Whether the consumption of a message makes a task (R328). -/
def Job.makesTask (j : Job) (m : Message) : Bool :=
  let dst := j.edgeDst m.edge
  !j.cancelled && j.htpl dst ≠ 0 && (summary (j.path m.edge dst) m.time).isSome

/-- Consumes a message (R328, R338). DEDUCED (log 85). -/
def State.consume (s : State) (vf job : Nat) (j : Job) (m : Message) : State :=
  let minus : Change := ⟨m.edge, m.time, -1⟩
  let dst := j.edgeDst m.edge
  let only (s : State) : State := s.forward 0 ⟨vf, job, [minus], [], true, []⟩
  if j.cancelled || j.htpl dst = 0 then only s
  else match summary (j.path m.edge dst) m.time with
    | none => (only s).eventRecord vf 0x04 0 (at' 8 m.edge) m.payload m.time
    | some t =>
      let r := s.newTask vf (newTcb .ready (BitVec.ofNat 3 (j.hpri dst)) false true t (BitVec.ofNat 8 job)
        (BitVec.ofNat 6 dst) 0 0 m.payload (j.htpl dst) 0)
      r.1.forward 0 ⟨vf, job, [⟨dst, t, 1⟩, minus], [], true, []⟩

/-- MESSAGE_CONSUMPTION of the message at an index; one that makes a task waits for room in the VF's TCB area. -/
def execMessageConsumption (vf job : Nat) (index : Nat) (s : State) : Out :=
  .next (match s.job? vf job with
    | some j => match j.messages[index]? with
      | some m =>
        if s.harbourOk 0 && (!j.makesTask m || s.tcbRoom vf) then
          (s.putJob vf job { j with messages := j.messages.eraseIdx index }).consume vf job j m
        else s
      | none => s
    | none => s)

/-- The runs of bytes of a range, cut at sectors: `fuel` runs at most. -/
def sectorRuns (va : Word) : Nat → Nat → List (Word × Nat)
  | 0, _ => []
  | fuel + 1, n =>
    if n = 0 then []
    else
      let k := Nat.min n (128 - va.toNat % 128)
      (va, k) :: sectorRuns (va + BitVec.ofNat 64 k) fuel (n - k)

/-- The runs of a whole range. -/
def runsOf (va : Word) (n : Nat) : List (Word × Nat) := sectorRuns va (n / 128 + 2) n

/-- The number of a run of bytes taken from a list. -/
def takeNum (bs : List Byte) (n : Nat) : Nat := ofBytes (bs.take n)

/-- Writes bytes into a VF's memory at their homes, run by run; a run whose translation fails, or that lies in a window, is
left out. DESIGN CHOICE (log 57). -/
def State.hmStore (s : State) (vf : Nat) : List (Word × Nat) → List Byte → State
  | [], _ => s
  | (va, n) :: rest, bs =>
    let r := s.xlateFull ⟨none, 0⟩ vf va accWrite true
    (match r.2 with
      | .ok t => r.1.homeWrite (smallWrite (t.pa va) n (takeNum bs n))
      | .bad .. => r.1).hmStore vf rest (bs.drop n)

/-- Appends an entry to a VF's recorder, in the memory that RECORD named; a log that fills it stops the recorder (R400).
DESIGN CHOICE (log 57). -/
def State.logInput (s : State) (vf : Nat) (w : Words) : State :=
  let r := SMapOps.get Recorder.zero s.mod.recorders vf
  if !r.running then s
  else
    let used := (r.log.map fun x => 8 * x.length).foldl (· + ·) 0
    let put (x : Recorder) (s : State) : State :=
      { s with mod := { s.mod with recorders := SMapOps.set Recorder.zero s.mod.recorders vf x } }
    if used + 8 * w.length ≤ r.len then
      (put { r with log := r.log ++ [w] } s).hmStore vf (runsOf (r.addr + BitVec.ofNat 64 used) (8 * w.length))
        (w.flatMap fun x => toBytes 8 x.toNat)
    else (put { r with running := false } s).eventRecord vf 0x06 0 0 s.time 0

/-- The words a recorder keeps of a count change. -/
def Change.words (c : Change) : Words := [BitVec.ofNat 64 c.loc, c.time, BitVec.ofInt 64 c.amount]

/-- PEER_BATCH_RECEIVE: a batch applied atomically and not forwarded again, and the message that may follow it (R396).
DESIGN CHOICE (log 101). -/
def execPeerBatchReceive (peer vf job : Nat) (changes : List Change) (message : Option (BitVec 6 × Word × Word)) (s : State) :
    Out :=
  .next (match s.job? vf job with
    | some j =>
      if !j.peers.contains peer || !bitOf (s.peer peer).1 63 || !s.harbourOk 0 then s
      else
        let s1 := if changes.isEmpty then s
          else (s.logInput vf ([2, BitVec.ofNat 64 peer, BitVec.ofNat 64 job] ++ changes.flatMap Change.words)).applyBatch
            ⟨vf, job, changes, [], false, []⟩
        match message with
        | some (e, t, p) =>
          let s2 := s1.logInput vf [3, BitVec.ofNat 64 peer, BitVec.ofNat 64 job, e.zeroExtend 64, t, p]
          (match s2.job? vf job with
            | some j => s2.putJob vf job { j with messages := j.messages ++ [⟨e.toNat, t, p⟩] }
            | none => s2)
        | none => s1
    | none => s)

/-- The jobs of a VF map that name a peer. -/
def State.jobsOfPeer (s : State) (peer : Nat) : List Nat :=
  (s.prog.jobs.filter fun p => match p.2 with | some j => j.peers.contains peer | none => false).map Prod.fst

/-- PEER_UNREACHABLE: counts stay, and each job of the peer is told (R396). -/
def execPeerUnreachable (peer : Nat) (s : State) : Out :=
  .next ((s.jobsOfPeer peer).foldl (fun s k => s.eventRecord (k / 256) 0x05 0 (at' 20 (k % 256) ||| at' 8 peer) 0 0) s)

end Sys2Proof.Machine
end

