-- ==== Sys2Proof/Machine/Safe.lean ====
section
/-! DEFINITION. Safe points, the save of a pre-empted unit, `safe`, `yield` and `phase` (R114, R130, R197, R198, R310,
R352 to R356). -/

namespace Sys2Proof.Machine

/-! ### Lane granules (R354, R355) -/

/-- Lane registers of granule `g`: their part of a register map. -/
def granuleOf (v : SMap LV) (g : Nat) : SMap LV := v.filter fun p => p.1 / 512 = g

/-- Fills one absent granule from the context. DEDUCED (log 69). -/
def Hart.fillGranule (h : Hart) (g : Nat) : Hart :=
  if h.absent.contains g then
    { h with v := SMapOps.setMany LV.zero h.v (granuleOf h.ctxV g), absent := h.absent.filter (· ≠ g) }
  else h

/-- Fills every absent granule. -/
def Hart.fillAll (h : Hart) : Hart := h.absent.foldl Hart.fillGranule h

/-- Every granule is live. -/
def allLive : Word := BitVec.allOnes 64

/-- What the context keeps of a hart's lane registers: the live granules among the declared ones, an absent granule
being still in the old context; and the hidden registers (R44). -/
def Hart.saveLanes (h : Hart) (declared : Nat) (live : Word) : Hart :=
  let full := h.fillAll
  { full with
      ctxV := full.v.filter fun p => p.1 / 32 < declared && bitOf live (p.1 / 512),
      v := full.v.filter fun p => decide (declared ≤ p.1 / 32),
      absent := List.range (declared / 16) }

/-! ### What a safe point takes (R353) -/

/-- Whether a member stops at a safe point to be saved: not while a gang copy of its unit is open, whose other slices are
still to come (R114). DEDUCED (log 24). -/
def Gang.stops (g : Gang) : Bool := g.preempt.isSome && g.gangCopies.isEmpty

/-- Whether something is due at a safe point of a hart. -/
def State.safeDue (s : State) (hid : Nat) (h : Hart) : Bool :=
  match s.unit? h.unit with
  | some g => h.doomed || g.roleMark = some hid || g.stops || (g.preempt.isSome && !h.reached) || (match s.tcb? g.vf g.task with
    | some t => s.jobCancelled g.vf t.job.toNat
    | none => false)
  | none => false

/-- Whether the job of a hart is cancelled. -/
def State.hartCancelled (s : State) (h : Hart) : Bool :=
  match s.taskOf h with | some (vf, _, t) => s.jobCancelled vf t.job.toNat | none => false

/-- A role mark takes effect (R352). A loader whose s62 is a proposal takes the tag fault, in its wait if it is in one (R435); the
mark stays for its next safe point. DESIGN CHOICE (log 122). -/
def State.changeRole (s : State) (hid : Nat) : State :=
  match s.hart? hid with
  | none => s
  | some h => match s.unit? h.unit with
    | none => s
    | some g =>
      let s1 := (s.dropWait hid).modUnit h.unit fun g => { g with roleMark := none }
      let goTo (s : State) (r : Role) (pc : Word) : State :=
        s.modHart hid fun h => { h with role := r, pc := codeTarget pc, stallS := none }
      match h.role with
      | .vector => goTo (s1.setS hid 62 ⟨h.pc, false⟩) .loader g.lentry
      | .loader =>
        if s.upsetAt (.scalarReg hid 62) then s.trap hid .scalarPoison 0
        else if (h.getS 62).tag then s.trapAs hid .tag h.wait.isSome 0 0 0 0 h.pc
        else goTo s1 .vector (h.getS 62).val

/-- The hart stops to be saved. DEDUCED (log 24). -/
def State.stopSafe (s : State) (hid : Nat) (live : Word) : State :=
  (s.closeBatch hid).modHart hid fun h => { h with safeMask := some live }

/-- A safe point of a hart: a job cancel, then a doomed image (R356), then a role mark, then the save. `live` is the live
set of the save. A member that goes on because a gang copy is open has reached its safe point all the same (R353). -/
def State.safePoint (s : State) (hid : Nat) (live : Word) : State :=
  match s.hart? hid with
  | none => s
  | some h =>
    if s.hartCancelled h then s.trap hid .cancelled 0
    else match s.unit? h.unit with
      | none => s
      | some g =>
        if h.doomed then s.trap hid .codeGone 0
        else
          let s1 := if g.roleMark = some hid then s.changeRole hid else s
          match s1.unit? h.unit, s1.hart? hid with
          | some g1, some h1 =>
            if h1.ended.isSome || g1.roleMark = some hid then s1
            else if g1.stops then s1.stopSafe hid live
            else if g1.preempt.isSome then s1.putHart hid { h1 with reached := true }
            else s1
          | _, _ => s1

/-- `safe` (R197): the open batch closes, the S-stream moves on, and what is due is taken there. -/
def execSafe (a : SReg) (s : State) : Out :=
  onSettled s [a] [] fun hid h =>
    let s1 := (s.closeBatch hid).nextPc hid
    if s.safeDue hid h then s1.safePoint hid (h.getS a).val else s1

/-- Asks for the pre-emption of a unit (R353). A member that a translation fault has suspended reaches its safe point once
it is resumed. -/
def State.askPreempt (s : State) (u : Nat) : State :=
  match s.unit? u with
  | some g =>
    if g.st ≠ .resident || g.preempt.isSome then s
    else (s.forEach (fun s id => s.modHart id fun h => { h with reached := false }) (s.unitHarts u)).putUnit u
      { g with preempt := some s.time }
  | none => s

/-- `yield` (R197). -/
def execYield (a : SReg) (s : State) : Out :=
  onSettled s [a] [] fun hid h => (((s.closeBatch hid).nextPc hid).askPreempt h.unit).safePoint hid (h.getS a).val

/-! ### The save (R114, R310, R354) -/

/-- Whether a member of a unit has reached its safe point: stopped, halted or ended. -/
def Hart.atSafe (h : Hart) : Bool := h.ended.isSome || h.halted || h.safeMask.isSome

/-- Whether a member has reached a safe point since the request: it stands at one, waits at one, or has gone on from one (R353). -/
def Hart.hasReached (h : Hart) : Bool := h.atSafe || h.reached || h.wait.any Wait.safe

/-- Whether the counters of a stopped member let it be saved: all are zero, cp too once the copies that name the gang's
barriers have completed, and no lane word waits for a load (R114, R310). DEDUCED (log 24). -/
def Hart.saveReady (h : Hart) : Bool := h.drained && h.late.isEmpty

/-- Whether the engines of a unit let it be saved. DEDUCED (log 24). -/
def State.unitIdle (s : State) (u : Nat) (g : Gang) : Bool :=
  !(s.copies.any fun p => match p.2 with | some c => c.unit = u | none => false) &&
  !(s.tileOps.any fun p => match p.2 with | some t => t.unit = u | none => false) &&
  g.marks.isEmpty && g.rels.isEmpty && g.gangCopies.isEmpty

/-- The implied releases of a save, member by member: those that have ended too, since what they left dirty in their core's L1
must be written back before their task retires, which may come to pass on another core (R86, F11). -/
def State.saveReleases (s : State) : List Nat → State × Bool
  | [] => (s, true)
  | id :: ids =>
    let r := s.releaseWhole id letterKYM
    if r.2 then r.1.saveReleases ids else r

/-- Stopped members of a unit go on; they have reached their safe points. -/
def State.goOn (s : State) (u : Nat) : State :=
  s.forEach (fun s id => s.modHart id fun h => { h with safeMask := none, reached := h.reached || h.safeMask.isSome }) (s.unitHarts u)

/-- The next ticket of saved units: it puts one behind those saved before it. -/
def State.nextTicket (s : State) : Nat :=
  s.gangs.foldl (fun n p => match p.2 with | some g => Nat.max n (g.ticket + 1) | none => n) 0

/-- Saves a unit whose members all stand at safe points, once it can be; it is queued behind the units saved before it
(R197). A job cancelled meanwhile saves nothing. While a gang copy is open the stopped members go on (R114).
DEDUCED (log 24). -/
def State.trySave (s : State) (u : Nat) : State :=
  match s.unit? u with
  | none => s
  | some g =>
    let ids := s.unitHarts u
    let live := ids.filter fun id => match s.hart? id with | some h => h.ended.isNone | none => false
    let cancelled := live.any fun id => match s.hart? id with
      | some h => h.safeMask.isSome && s.hartCancelled h
      | none => false
    if cancelled then
      live.foldl (fun s id => match s.hart? id with
        | some h => if h.safeMask.isSome then s.trap id .cancelled 0 else s
        | none => s) s
    else if g.preempt.isSome && !g.gangCopies.isEmpty then s.goOn u
    else if g.st ≠ .resident || g.preempt.isNone || live.isEmpty ||
      !(ids.all fun id => match s.hart? id with | some h => h.atSafe | none => true) then s
    else
      let r := s.saveReleases ids
      match r.1.unit? u with
      | none => r.1
      | some g1 =>
        if !r.2 || !r.1.unitIdle u g1 ||
          !(live.all fun id => match r.1.hart? id with | some h => h.saveReady | none => true) then r.1
        else
          (r.1.forEach (fun s id => s.modHart id fun h => h.saveLanes g.nregs (h.safeMask.getD allLive)) live).modUnit u fun g =>
            { g with st := .saved, preempt := none, ticket := s.nextTicket }

/-! ### Phases (R130, R198) -/

/-- Fields of a carry descriptor. -/
def carryScnt (x : Word) : Nat := bits x 22 5
def carrySbase (x : Word) : Nat := bits x 16 6
def carryLcnt (x : Word) : Nat := bits x 10 6
def carryLbase (x : Word) : Nat := bits x 0 10

/-- Whether a carry descriptor breaks a limit. DEDUCED (log 23). -/
def carryBad (x : Word) (crane : Bool) (declared : Nat) : Bool :=
  bits x 27 37 ≠ 0 || decide (16 < carryScnt x) || carrySbase x = 0 || decide (64 < carrySbase x + carryScnt x) ||
  decide (32 < carryLcnt x) || (crane && carryLcnt x ≠ 0) || decide (declared < carryLbase x + carryLcnt x)

/-- The carry set of a hart (R130): every scalar register of its range, the zero ones too. -/
def Hart.carry (h : Hart) (unit : Nat) (x entry : Word) : Carry :=
  let f := h.fillAll
  { unit := unit, member := h.member,
    s := (List.range (carryScnt x)).map fun i => (carrySbase x + i, f.getS (sreg (carrySbase x + i))),
    v := f.v.filter fun p => decide (carryLbase x ≤ p.1 / 32 ∧ p.1 / 32 < carryLbase x + carryLcnt x),
    m0 := f.getM 0, entry := entry }

/-- The lane registers of a carry set. -/
def carryLanes (x : Word) : List Nat := (List.range (carryLcnt x)).map (carryLbase x + ·)

/-- The phase ends for a hart: its carry set goes to its task's phase record, and it stops. A live lane whose carried register
reads an uncorrectable error dies (R45). -/
def State.endPhase (s : State) (hid : Nat) (x entry : Word) : State :=
  match s.hart? hid with
  | none => s
  | some h0 =>
    let s := s.killLanes hid (wordKills false) (s.struck hid (carryLanes x) h0.m0) h0.pc
    match s.hart? hid with
    | none => s
    | some h =>
      if h.ended.isSome then s
      else match s.unit? h.unit with
        | none => s
        | some g => match s.tcb? g.vf g.task with
          | none => s
          | some t => (s.putTcb g.vf g.task { t with carries := t.carries ++ [h.carry g.index x entry] }).endHart hid .phased

/-- `phase` (R130, R197): the checks, the safe point, then the steps of R130; it reads the scalar registers it carries (R45).
A crane thread has no lane registers, so its declared count is 0 (R198). DEDUCED (log 23).
DESIGN CHOICE (log 107). -/
def execPhase (a b : SReg) (s : State) : Out :=
  onSettled s [a, b] [] fun hid h =>
    let x := (h.getS a).val
    let entry := codeTarget (h.getS b).val
    if carryBad x (h.engine = .crane) (if h.engine = .crane then 0 else s.declared h) then s.illegal hid ⟨.carry, false⟩
    else if (List.range (carryScnt x)).any fun i => s.upsetAt (.scalarReg hid (carrySbase x + i)) then s.trap hid .scalarPoison 0
    else if s.safeDue hid h then s.safePoint hid allLive
    else
      let s1 := s.closeBatch hid
      s1.afterBlocks hid h
        (if (s1.hart? hid).any (·.drained) then
          s1.withRelease hid ⟨.rel, letterKYM⟩ true fun s => s.endPhase hid x entry
        else s1)

/-! ### Events -/

/-- PREEMPTION_REQUEST (R353). -/
def execPreemptionRequest (unit : Nat) (s : State) : Out := .next (s.askPreempt unit)

/-- PREEMPTION_TIMEOUT: some member has not reached a safe point in time (R353); for one that runs a trap handler it is a nested
trap (R361). -/
def execPreemptionTimeout (unit : Nat) (s : State) : Out :=
  .next (match s.unit? unit with
    | some g => match g.preempt with
      | some t0 =>
        let late := (s.unitHarts unit).filter fun id => match s.hart? id with | some h => !h.hasReached | none => false
        if late.isEmpty || decide (s.time.toNat < t0.toNat + Config.preemptTicks) then s
        else (s.forEach State.firstRecord late).endTask g.vf g.task .preemptTimeout 0
      | none => s
    | none => s)

/-- GRANULE_FILL: an absent granule is filled from the context in the background (R355). -/
def execGranuleFill (hart granule : Nat) (s : State) : Out := .next (s.modHart hart (·.fillGranule granule))

end Sys2Proof.Machine
end

