-- ==== Sys2Proof/Machine/Walker.lean ====
section
/-! DEFINITION. Overwriting loops: `wcov`, `wclr`, `wloop`, and the batches of the walker (R107 to R109, R282 to
R291). -/

namespace Sys2Proof.Machine

/-! ### Walker state and the cover map (R284, R286) -/

def walkSet (w : Word) : Bool := bitOf w 53
def walkKeep (w : Word) : Bool := bitOf w 52
def walkOff (w : Word) : Nat := bits w 21 21
def walkLen (w : Word) : Nat := bits w 0 21

/-- Causes of a manifest violation (R289). -/
def causeMfmt : Nat := 1
def causeCount : Nat := 2
def causeRange : Nat := 3
def causeOutside : Nat := 4
def causePartial : Nat := 5
def causeNomap : Nat := 6

/-- Whether the operands of `wcov` break a rule. -/
def wcovBad (off ctl : Word) : Bool :=
  bits ctl 33 31 ≠ 0 || bits ctl 21 11 ≠ 0 || walkLen ctl = 0 || walkLen ctl % 128 ≠ 0 || decide (2 ^ 20 < walkLen ctl) ||
  bits off 0 7 ≠ 0

/-- `wcov` (R286). DEDUCED (log 50). -/
def execWcov (a b : SReg) (s : State) : Out :=
  onSettled s [a, b] [] fun hid h =>
    let off := (h.getS a).val
    let ctl := (h.getS b).val
    if wcovBad off ctl then s.walkTrap hid .manifest causeNomap 0
    else
      let size := match s.unit? h.unit with | some g => g.csize | none => 0
      match clusterCheck size off (walkLen ctl) with
      | some c => s.failAccess hid false .walkerStore h.pc [⟨0, off, c, 15⟩]
      | none =>
        (s.modHart hid fun h =>
          { h with walker := at' 53 1 ||| at' 52 (bitOf ctl 32).toNat ||| at' 21 off.toNat ||| at' 0 (walkLen ctl) }).nextPc hid

/-- An entry of the walker's own: it leaves the queue whole, in its turn (R72). -/
def walkerEntry (e : SqEntry) : SqEntry := { e with src := .walker }

/-- The writes of zero over a hart's cover map; they are counted in no class (R90). -/
def State.clearMap (s : State) (hid : Nat) (h : Hart) : State :=
  let grans := rangeSectors (walkOff h.walker) (walkLen h.walker)
  let f := s.fresh
  f.2.modHart hid fun h => { h with storeQ := h.storeQ ++ [walkerEntry (writeEntry f.1 .cluster false
    (grans.map fun n => ⟨n, BitVec.allOnes 128, 0, false, false, true⟩))] }

/-- `wclr` (R286). -/
def execWclr (s : State) : Out :=
  onScalar s [] [] fun hid h =>
    if !walkSet h.walker then s.walkTrap hid .manifest causeNomap 0
    else
      let r := s.loadsBefore hid true 128 ((rangeSectors (walkOff h.walker) (walkLen h.walker)).map fun n =>
        ⟨0, 0, 128 * n, .normal, false⟩)
      if r.2 then (r.1.clearMap hid h).nextPc hid else r.1

/-! ### Manifests (R282) -/

def manIreg (m : List Word) : Nat := bits (mapWord m 0) 37 10
def manCell (m : List Word) : Nat := 4 * 2 ^ bits (mapWord m 0) 34 3
def manWidth (m : List Word) : Nat := 8 * 2 ^ bits (mapWord m 0) 32 2
def manNiter (m : List Word) : Nat := bits (mapWord m 0) 0 32
def manBase (m : List Word) : Word := mapWord m 1
def manLen (m : List Word) : Nat := (mapWord m 2).toNat
def manCells (m : List Word) : Nat := manLen m / manCell m

/-- The three words of stream `j`. -/
def streamBase (m : List Word) (j : Nat) : Word := mapWord m (4 + 3 * j)
def streamStride (m : List Word) (j : Nat) : Word := mapWord m (5 + 3 * j)
def streamCtl (m : List Word) (j : Nat) : Word := mapWord m (6 + 3 * j)
def streamKind (m : List Word) (j : Nat) : Nat := bits (streamCtl m j) 0 2
def streamNcell (m : List Word) (j : Nat) : Nat := bits (streamCtl m j) 2 5

/-- Whether a stream breaks a rule. NCELL names 0 to 15: a larger number is malformed in an affine stream, and not looked at in
an unused one. DESIGN CHOICE (log 118). -/
def streamBad (m : List Word) (j : Nat) : Bool :=
  bits (streamCtl m j) 7 57 ≠ 0 || streamKind m j = 3 ||
  (streamKind m j = 1 && decide (15 < streamNcell m j)) ||
  (streamKind m j = 2 && (streamStride m j ≠ 0 || streamNcell m j ≠ 0))

/-- Whether a manifest breaks a rule, for a declared lane-register count. DEDUCED (log 50). -/
def manifestBad (m : List Word) (declared : Nat) : Bool :=
  bits (mapWord m 0) 47 17 ≠ 0 || decide (declared ≤ manIreg m) || decide (5 < bits (mapWord m 0) 34 3) ||
  bits (mapWord m 0) 32 2 = 3 || (manBase m).toNat % manCell m ≠ 0 || manLen m % manCell m ≠ 0 || mapWord m 3 ≠ 0 ||
  (List.range 4).any (streamBad m) || (List.range 4).all fun j => streamKind m j = 0

/-- What `wloop` finds wrong before its first batch: a class and a cause (R287). DEDUCED (log 50). -/
def wloopFault (m : List Word) (n : Word) (walker : Word) (declared : Nat) : Option Nat :=
  if !walkSet walker then some causeNomap
  else if manifestBad m declared then some causeMfmt
  else if manNiter m < n.toNat then some causeCount
  else if 8 * walkLen walker < manCells m then some causeRange
  else none

/-! ### Plain reads by the walker -/

/-- A plain read of some lanes at addresses, as a load of a form would see them; what it meets first. -/
inductive Seen where
  | views (vs : List (LaneAcc × View))
  | failed
  | wait

/-- Asks the network for a lane of a walker's read, once: a sector, or a device access in its own size. -/
def State.askLane (s : State) (hid : Nat) (h : Hart) (len : Nat) (a : LaneAcc) : State :=
  if a.mt ≠ .device then s.askFetch hid h (sectorOf a.pa)
  else if s.mem.flights.any fun p => p.2 = some ⟨hid, h.core, 0, 0, .netLoad a.netKey⟩ then s
  else s.askBytes hid h.core 0 a.netKey a.pa len

/-- The device accesses that a walker's read makes on this module, after the hart's device stores (R84). -/
def State.walkDevice (s : State) (core len : Nat) : List LaneAcc → State × List (Nat × SectorData × Bool × Bool)
  | [] => (s, [])
  | a :: rest =>
    if a.mt ≠ .device || isNet a.pa then s.walkDevice core len rest
    else
      let r := s.deviceView core a.pa len
      let t := r.1.walkDevice core len rest
      (t.1, (a.netKey, r.2.data, false, r.2.x) :: t.2)

/-- Reads lanes at addresses, in ascending order. A network window is asked, and answers through the hart's own
fetches. DEDUCED (log 50). -/
def State.walkRead (s : State) (hid : Nat) (h : Hart) (kind : AccessKind) (lanes : Bool) (len : Nat) (es : List LaneEa) :
    State × Seen :=
  let r := s.xlateLanes h.site (s.hartVf h) accRead es
  if !r.2.2.isEmpty then (r.1.failAccess hid lanes kind h.pc r.2.2, .failed)
  else
    let accs := r.2.1.map LaneX.acc
    let far := accs.filter fun a => isNet a.pa && !(h.netFetch.any fun p => p.1 = a.netKey)
    let q : LoadReq := ⟨s.nextId, .ld, accs, len, 1, false, 0, none, h.pc, kind, [], 0, .walker⟩
    let s1 := r.1.drainHeld hid q
    let held := q.device && (s1.deviceFlying hid || match s1.hart? hid with | some h => deviceEntries h.storeQ ≠ 0 | none => true)
    if held || far.any (fun a => a.mt = .device) then
      (if held then s1 else far.foldl (fun s a => s.askLane hid h len a) s1, .wait)
    else
      let d := s1.walkDevice h.core len accs
      let answers := accs.filterMap fun a => (h.netFetch.find? fun p => p.1 = a.netKey).map fun p => (p.1, p.2.1, p.2.2, false)
      let v := d.1.laneViews hid { q with remote := d.2 ++ answers } accs
      match v.2 with
      | some vs => (v.1, .views vs)
      | none => (far.foldl (fun s a => s.askLane hid h len a) v.1, .wait)

/-! ### Footprints (R283) -/

/-- The cell an address starts, or none outside the region or unaligned. -/
def cellAt (m : List Word) (a : Word) : Option Nat :=
  let off := (a - manBase m).toNat
  if off % manCell m = 0 ∧ off < manLen m then some (off / manCell m) else none

/-- The cells of an affine stream for an iteration. -/
def affineCells (m : List Word) (j i : Nat) : List (Option Nat) :=
  (List.range (streamNcell m j + 1)).map fun k =>
    cellAt m (streamBase m j + BitVec.ofNat 64 i * streamStride m j + BitVec.ofNat 64 (k * manCell m))

/-- One stream's cells for the lanes of a batch: each lane with a cell, or none for a violation. -/
abbrev LaneCells := List (Nat × Option Nat)

/-- What the walker finds at a batch boundary that stops it (R283). -/
inductive BatchFault where
  | cover (lanes : Word32)
  | dead (lanes : Word32)
  | tag (lanes : Word32)
deriving DecidableEq, Repr

/-- What the footprint of a batch comes to. -/
inductive Foot where
  | cells (cs : LaneCells)
  | fault (f : BatchFault)
  | failed
  | wait

/-- The lanes of a batch with their iterations. -/
def batchLanes (w n b : Nat) : List (Nat × Nat) :=
  (List.range (Nat.min w (n - b * w))).map fun j => (j, b * w + j)

/-- The cells of an indexed stream for a batch: the index elements are read as a plain load. Of several faults of one batch the
failed access comes first, then the cover read, the poison and the tag, stream by stream, and RANGE after every stream.
DESIGN CHOICE (log 109). -/
def State.indexCells (s : State) (hid : Nat) (h : Hart) (m : List Word) (j : Nat) (ls : List (Nat × Nat)) : State × Foot :=
  let es : List LaneEa := ls.map fun p =>
    ⟨p.1, BitVec.ofNat 64 ((streamBase m j).toNat / 4 * 4) + BitVec.ofNat 64 (4 * p.2), false⟩
  let r := s.walkRead hid h .laneLoad true 4 es
  match r.2 with
  | .failed => (r.1, .failed)
  | .wait => (r.1, .wait)
  | .views vs =>
    let lanesWhere (f : LaneAcc × View → Bool) : Word32 := maskOf ((vs.filter f).map fun p => p.1.lane)
    let hits := lanesWhere fun p => rangesMeet p.1.ea.toNat 4 (manBase m).toNat (manLen m)
    let dead := lanesWhere fun p => p.2.x
    let tags := lanesWhere fun p => p.2.p
    if hits ≠ 0 then (r.1, .fault (.cover hits))
    else if dead ≠ 0 then (r.1, .fault (.dead dead))
    else if tags ≠ 0 then (r.1, .fault (.tag tags))
    else
      (r.1, .cells (vs.map fun p =>
        let c := sectorBytes p.2.data (p.1.pa % 128) 4
        (p.1.lane, if c < manCells m then some c else none)))

/-- F(i) for the lanes of a batch, stream by stream. -/
def State.footprint (s : State) (hid : Nat) (h : Hart) (m : List Word) (ls : List (Nat × Nat)) : List Nat → State × Foot
  | [] => (s, .cells [])
  | j :: js =>
    let r : State × Foot :=
      match streamKind m j with
      | 1 => (s, .cells (ls.flatMap fun p => (affineCells m j p.2).map fun c => (p.1, c)))
      | 2 => s.indexCells hid h m j ls
      | _ => (s, .cells [])
    match r.2 with
    | .cells cs =>
      let t := r.1.footprint hid h m ls js
      (t.1, match t.2 with | .cells ds => .cells (cs ++ ds) | other => other)
    | other => (r.1, other)

/-! ### The map's bits (R284, R108) -/

/-- The granules of the map that hold some cells. -/
def mapGranules (off : Nat) (cells : List Nat) : List Nat := (cells.map fun c => sectorOf (off + c / 8)).eraseDups

/-- The map granules, whole, as the wave reads them. -/
def State.mapViews (s : State) (hid : Nat) (h : Hart) (cells : List Nat) : State × Option (List (LaneAcc × View)) :=
  let accs : List LaneAcc := (mapGranules (walkOff h.walker) cells).map fun n =>
    ⟨0, BitVec.ofNat 64 (128 * n), 128 * n, .normal, false⟩
  s.laneViews hid ⟨s.nextId, .ldc, accs, 128, 1, false, 0, none, h.pc, .laneLoad, [], 0, .walker⟩ accs

/-- The map byte of a cell, and whether the cell is covered. A map granule's P and X play no part. DESIGN CHOICE (log 110). -/
def mapByte (vs : List (LaneAcc × View)) (off c : Nat) : Nat :=
  let a := off + c / 8
  match vs.find? fun p => p.1.pa = a / 128 * 128 with
  | some p => sectorBytes p.2.data (a % 128) 1
  | none => 0
def coveredIn (vs : List (LaneAcc × View)) (off c : Nat) : Bool := (mapByte vs off c).testBit (c % 8)

/-! ### Batches (R287, R288) -/

/-- Changes the walk of a hart. -/
def Hart.setWalk (h : Hart) (f : WalkRun → WalkRun) : Hart := { h with walk := h.walk.map f }

/-- Every lane, mask and wide register as at `wloop`. -/
def Hart.walkRegs (h : Hart) (k : WalkRun) : Hart := { h with v := k.savedV, m := k.savedM, absent := [] }

/-- The body starts for some lanes: slot 0, the registers of `wloop`, its k snapshot, and each lane's index. -/
def Hart.startBody (h : Hart) (k : WalkRun) (run : Word32) (ls : List (Nat × Nat)) (cs : List (Nat × Nat)) (since : Nat) :
    Hart :=
  let h1 := (h.walkRegs k).setWalk fun w => { w with run := run, inBody := true, stores := [], cells := cs }
  let h2 := (ls.filter fun p => run.getLsbD p.1).foldl (fun h p =>
    h.setV (manIreg k.manifest) p.1 ⟨BitVec.ofNat 32 p.2, false⟩) h1
  { h2 with block := some ⟨k.body, k.ksnap, since⟩, slot0 := ⟨0, run, false, .run⟩, slot1 := Slot.zero, csh := false, corg := false,
            stack := [], older := [] }

/-- Which lane registers hold an uncorrectable error as a body starts: those of the program but for the index register of each
lane that runs, which is written (R45). -/
def WalkRun.bodyUpsets (k : WalkRun) (run : Word32) : List (Nat × Nat) :=
  k.savedX.filter fun p => !(p.1 = manIreg k.manifest && run.getLsbD p.2)

/-- What stops a batch at its boundary. The tag fault of an index element has cause 0 and is of the lane stream.
DESIGN CHOICE (log 109). -/
def State.batchFault (s : State) (hid : Nat) (f : BatchFault) : State :=
  match f with
  | .cover lanes => s.walkTrap hid .coverRead 0 lanes
  | .dead lanes => match s.hart? hid with
    | some h => s.killLanes hid (wordKills false) lanes h.pc
    | none => s
  | .tag lanes => s.walkTrap hid .tag 0 lanes

/-- Starts the next batch of a `wloop`, or skips all of it (WALKER_BATCH_START). -/
def State.startBatch (s : State) (hid : Nat) : State :=
  match s.hart? hid with
  | none => s
  | some h => match h.walk with
    | none => s
    | some k =>
      if k.inBody || k.batch = 0 then s
      else
        let m := k.manifest
        let ls := batchLanes (manWidth m) k.n (k.batch - 1)
        let r := s.footprint hid h m ls (List.range 4)
        match r.2 with
        | .failed | .wait => r.1
        | .fault f => r.1.batchFault hid f
        | .cells cs =>
          let bad := cs.filter fun p => p.2.isNone
          if !bad.isEmpty then r.1.walkTrap hid .manifest causeRange (maskOf (bad.map Prod.fst))
          else
            let own : List (Nat × Nat) := cs.filterMap fun p => p.2.map fun c => (p.1, c)
            let v := r.1.mapViews hid h (own.map Prod.snd)
            match v.2 with
            | none => v.1
            | some vs =>
              let run := maskOf (((own.filter fun p => !coveredIn vs (walkOff h.walker) p.2).map Prod.fst).eraseDups)
              let t := v.1.modHart hid fun h =>
                let h1 := { h with netFetch := [] }.setWalk fun w =>
                  { w with skp := if run = 0 then w.skp + ls.length else w.skp, batch := if run = 0 then w.batch - 1 else w.batch,
                           lanes := maskOf (ls.map Prod.fst) }
                if run = 0 then h1 else h1.startBody k run ls own s.nextId
              if run = 0 then t else t.putLaneUpsets hid (k.bodyUpsets run)

/-- The last byte a lane stored at each address: later stores replace earlier ones. -/
def lastStores (ws : List WStore) : List WStore :=
  ws.foldl (fun acc w => acc.filter (fun x => !(x.lane = w.lane && x.addr = w.addr)) ++ [w]) []

/-- The cell an address lies in, when it lies in the cover region. -/
def cellOf (m : List Word) (a : Nat) : Option Nat := cellAt m (BitVec.ofNat 64 (a / manCell m * manCell m))

/-- The lanes that stored outside their cells (R288, step 1). -/
def outsideLanes (k : WalkRun) (ws : List WStore) : List Nat :=
  (ws.filter fun w => match cellOf k.manifest w.addr with
    | some c => !k.cells.contains (w.lane, c)
    | none => true).map (·.lane)

/-- The cells that some lane stored to. -/
def storedCells (m : List Word) (ws : List WStore) : List (Nat × Nat) :=
  (ws.filterMap fun w => (cellOf m w.addr).map fun c => (w.lane, c)).eraseDups

/-- The bytes of a lane in a cell. -/
def cellStores (m : List Word) (ws : List WStore) (lane c : Nat) : List WStore :=
  ws.filter fun w => w.lane = lane && cellOf m w.addr = some c

/-- The lanes that wrote a cell only partly (R288, step 2). -/
def partialLanes (m : List Word) (ws : List WStore) : List Nat :=
  ((storedCells m ws).filter fun p => (cellStores m ws p.1 p.2).length ≠ manCell m).map Prod.fst

/-- One surviving cell: its number, the lane that wins it, its bytes as a number, and the OR of their tags. -/
structure WinCell where
  cell : Nat
  lane : Nat
  val : Nat
  tag : Bool
deriving DecidableEq, Repr

/-- Virtual address of a cell. -/
def cellAddr (m : List Word) (c : Nat) : Nat := (manBase m).toNat + c * manCell m

/-- Inserts a number into a rising list. -/
def insertNat (n : Nat) : List Nat → List Nat
  | [] => [n]
  | x :: xs => if n < x then n :: x :: xs else if n = x then x :: xs else x :: insertNat n xs

/-- The uncovered cells in ascending order, each with the bytes of its highest lane (R288, step 3). -/
def winners (m : List Word) (ws : List WStore) (covered : Nat → Bool) : List WinCell :=
  let cells := ((storedCells m ws).map Prod.snd).foldl (fun acc c => insertNat c acc) []
  (cells.filter fun c => !covered c).map fun c =>
    let lane := ((storedCells m ws).filter fun p => p.2 = c).foldl (fun n p => Nat.max n p.1) 0
    let own := cellStores m ws lane c
    ⟨c, lane, own.foldl (fun n w => n + w.byte.toNat * 2 ^ (8 * (w.addr - cellAddr m c))) 0, own.any (·.tag)⟩

/-- Translates the surviving cells, and sets D for each page once every one has passed, as the batch writes them (R21,
R290). -/
def State.placeCells (s : State) (h : Hart) (m : List Word) (cs : List WinCell) :
    State × List (MemType × StorePart) × List Failure :=
  let r := s.checkLanes h.site (s.hartVf h) accWrite (fun _ => false) (cs.map fun c =>
    ⟨c.lane, BitVec.ofNat 64 (cellAddr m c.cell), c.tag⟩)
  (r.1, (r.2.1.zip cs).map fun p => (p.1.2.mt, ⟨p.1.2.pa p.1.1.ea, manCell m, p.2.val, p.2.tag⟩), r.2.2)

/-- The queue entries of a batch's data: one for each sector, in ascending address. -/
def cellEntries (op : Nat) (ps : List (MemType × StorePart)) : List SqEntry :=
  ((ps.map fun p => sectorOf p.2.addr).eraseDups).flatMap fun sec =>
    (storeEntries op false (ps.filter fun p => sectorOf p.2.addr = sec)).map walkerEntry

/-- The map bytes that the written cells change, as cluster-store bytes. -/
def mapParts (vs : List (LaneAcc × View)) (off : Nat) (cells : List Nat) : List StorePart :=
  ((cells.map (· / 8)).eraseDups).map fun q =>
    ⟨off + q, 1, (cells.filter fun c => c / 8 = q).foldl (fun n c => n ||| 2 ^ (c % 8)) (mapByte vs off (8 * q)), false⟩

/-- The batch is done: its registers go, its counts stay. -/
def Hart.endBatch (h : Hart) : Hart :=
  match h.walk with
  | some k => { h.walkRegs k with stallS := none }.setWalk fun w =>
      { w with exe := w.exe + (lanesOf w.run).length, skp := w.skp + ((lanesOf w.lanes).length - (lanesOf w.run).length),
               batch := w.batch - 1, inBody := false, stores := [], cells := [] }
  | none => h

/-- Checks and commits the batch whose body has ended (R288, WALKER_BATCH_COMMIT). -/
def State.commitBatch (s : State) (hid : Nat) : State :=
  let r := s.performLoads hid fun _ => true
  if !r.2 then r.1
  else match r.1.hart? hid with
    | none => r.1
    | some h => match h.walk with
      | none => r.1
      | some k =>
        if !k.inBody || h.block.isSome || h.ended.isSome || h.suspendedFault then r.1
        else if h.full .st then r.1.stallsOn hid true .st
        else
          let m := k.manifest
          let ws := lastStores k.stores
          let out := outsideLanes k ws
          let part := partialLanes m ws
          if !out.isEmpty then r.1.walkTrap hid .manifest causeOutside (maskOf out)
          else if !part.isEmpty then r.1.walkTrap hid .manifest causePartial (maskOf part)
          else
            let v := r.1.mapViews hid h ((storedCells m ws).map Prod.snd)
            match v.2 with
            | none => v.1
            | some vs =>
              let off := walkOff h.walker
              let wins := winners m ws (coveredIn vs off)
              let p := v.1.placeCells h m wins
              if !p.2.2.isEmpty then p.1.failAccess hid true .walkerStore h.pc p.2.2
              else
                let f := p.1.fresh
                let mps := mapParts vs off (wins.map (·.cell))
                let es := cellEntries f.1 p.2.1 ++
                  (if mps.isEmpty then [] else [walkerEntry (writeEntry f.1 .cluster false (sectorWrites mps))])
                ((f.2.enqueue hid f.1 es).modHart hid Hart.endBatch).putLaneUpsets hid k.savedX

/-- The loop has run every batch: its counts are written, and the S-stream moves on. -/
def State.endWalk (s : State) (hid : Nat) (k : WalkRun) : State :=
  let s1 := (s.modHart hid fun h => { (h.walkRegs k) with walk := none, synced := s.nextId }).putLaneUpsets hid k.savedX
  ((s1.setS hid k.d ⟨BitVec.ofNat 64 k.exe, false⟩).setS hid (k.d + 1) ⟨BitVec.ofNat 64 k.skp, false⟩).nextPc hid

/-- The S-stream's part of a `wloop` in progress: it starts a batch, commits one, or ends. -/
def State.walkOn (s : State) (hid : Nat) (h : Hart) (k : WalkRun) : State :=
  if k.inBody then (if h.block.isNone then s.commitBatch hid else s)
  else if k.batch = 0 then s.endWalk hid k
  else s.startBatch hid

/-- Lanes 0 to `w - 1` that m0 lacks. -/
def Hart.lacking (h : Hart) (w : Nat) : Word32 := maskOf ((List.range w).filter fun l => !h.m0.getLsbD l)

/-- The loop begins: the registers are kept, with what is struck among them, the map is cleared unless KEEP, and the batches are counted. -/
def State.beginWalk (s : State) (hid : Nat) (h : Hart) (m : List Word) (body : Word) (d : SReg) (n : Nat) : State :=
  let s1 := if walkKeep h.walker then s else s.clearMap hid h
  s1.modHart hid fun h =>
    let full := h.fillAll
    let k : WalkRun :=
      { manifest := m, body := body, d := d, n := n, batch := (n + manWidth m - 1) / manWidth m, exe := 0, skp := 0,
        run := 0, lanes := 0, inBody := false, savedV := full.v, savedM := full.m, savedX := s1.laneUpsets hid, ksnap := full.k,
        stores := [], cells := [] }
    { full with netFetch := [], walk := some k }

/-- The checks of `wloop` that need its manifest, then its start (R287). -/
def State.enterWalk (s : State) (hid : Nat) (h : Hart) (m : List Word) (body n : Word) (d : SReg) : State :=
  match wloopFault m n h.walker (s.declared h) with
  | some c => s.walkTrap hid .manifest c 0
  | none =>
    let dead := h.lacking (manWidth m)
    if dead ≠ 0 then s.walkTrap hid .walker 2 dead
    else if (List.range 16).any fun k => s.upsetAt (.uniformReg hid k) then s.trap hid .scalarPoison 0
    else s.beginWalk hid h m body d n.toNat

/-- The loads and atomics of a hart are all performed: `wloop` keeps register values that are there. -/
def State.settleHart (s : State) (hid : Nat) : State × Bool :=
  let r := s.performLoads hid fun _ => true
  if !r.2 then r
  else match r.1.hart? hid with
    | none => r
    | some h =>
      let s1 := (r.1.openAtomics hid h).foldl (fun s p => s.performNow hid p.1) r.1
      (s1, match s1.hart? hid with | some h => (s1.openAtomics hid h).isEmpty | none => true)

/-- `wloop` up to its first batch: the tag checks, the implied `lsync`, the manifest. A manifest sector both poisoned and a
proposal takes the poison trap. DESIGN CHOICE (log 118). -/
def State.issueWalk (s : State) (hid : Nat) (h : Hart) (d a b : SReg) : State :=
  let at0 := (h.getS a).val
  if h.anyTag [a, a + 1, b] then s.tagTrap hid
  else s.afterBlocks hid h <|
    let r := s.settleHart hid
    match r.2, r.1.hart? hid with
    | true, some h1 =>
      if at0.toNat % 128 ≠ 0 then r.1.walkTrap hid .manifest causeMfmt 0
      else
        let q := r.1.walkRead hid h1 .scalarLoad false 128 [⟨0, at0, false⟩]
        match q.2 with
        | .views [(_, v)] =>
          if v.x then q.1.trap hid .scalarPoison 0
          else if v.p then q.1.tagTrap hid
          else q.1.enterWalk hid h1 (mapWords v.data) (codeTarget (h.getS (a + 1)).val) (h.getS b).val d
        | _ => q.1
    | _, _ => r.1

/-- `wloop` (R287). Each time it is met in progress it takes one step of the loop; before a batch it is a safe point. -/
def execWloop (d a b : SReg) (s : State) : Out :=
  onRole s .vector [a, a + 1, b] [d, d + 1] fun hid h =>
    match h.walk with
    | none => s.issueWalk hid h d a b
    | some k =>
      if !k.inBody && k.batch ≠ 0 && s.safeDue hid h then s.safePoint hid allLive else s.walkOn hid h k

/-- WALKER_BATCH_START: not while something is due at the boundary. -/
def execWalkerBatchStart (hart : Nat) (s : State) : Out :=
  .next (match s.hart? hart with
    | some h =>
      if h.still || s.saved h || s.safeDue hart h then s
      else s.startBatch hart
    | none => s)

/-- WALKER_BATCH_COMMIT. -/
def execWalkerBatchCommit (hart : Nat) (s : State) : Out :=
  .next (match s.hart? hart with
    | some h => if h.walking && !h.still && !s.saved h then s.commitBatch hart else s
    | none => s)

end Sys2Proof.Machine
end

