-- ==== Sys2Proof/Machine/Sys.lean ====
section
/-! DEFINITION. Control registers, traps and their return, invalidation and halt (R14, R30 to R33, R127, R163, R199 to
R201, R351, R360). -/

namespace Sys2Proof.Machine

/-! ### Control registers (R200) -/

/-- The control registers of R200. -/
inductive Csr where
  | fstat | wstat | corrLimit | corrKappa | corrOvf | troot | tspace | roleLow | roleHigh | roleTime
deriving DecidableEq, Repr

/-- The register of a number. -/
def csrOf (n : BitVec 10) : Option Csr :=
  match n.toNat with
  | 0x000 => some .fstat
  | 0x001 => some .wstat
  | 0x010 => some .corrLimit
  | 0x011 => some .corrKappa
  | 0x012 => some .corrOvf
  | 0x020 => some .troot
  | 0x021 => some .tspace
  | 0x030 => some .roleLow
  | 0x031 => some .roleHigh
  | 0x032 => some .roleTime
  | _ => none

/-- Whether only a privileged wave writes it. -/
def Csr.privileged : Csr → Bool
  | .troot | .tspace | .roleLow | .roleHigh | .roleTime => true
  | _ => false

/-- What `csrr` returns. DEDUCED (log 53). -/
def State.csrValue (s : State) (h : Hart) : Csr → TV
  | .fstat => h.fstatValue
  | .wstat => ⟨h.wstat, false⟩
  | .corrLimit => ⟨h.corrLimit, false⟩
  | .corrKappa => ⟨h.corrKappa, false⟩
  | .corrOvf => ⟨h.corrOvf, false⟩
  | .troot => ⟨(s.vfRegs (s.hartVf h)).troot, false⟩
  | .tspace => ⟨(s.vfRegs (s.hartVf h)).tspace, false⟩
  | .roleLow => ⟨(s.vfRegs (s.hartVf h)).roleLow, false⟩
  | .roleHigh => ⟨(s.vfRegs (s.hartVf h)).roleHigh, false⟩
  | .roleTime => ⟨(s.vfRegs (s.hartVf h)).roleTime, false⟩

/-- FSTAT is read or written after the floating atomics already issued, the status of each being its lane word's (R164,
R241). DEDUCED (log 42). -/
def State.afterFloats (s : State) (hid : Nat) (h : Hart) (r : Csr) (k : State) : State :=
  if r ≠ .fstat then k
  else match (s.openAtomics hid h).find? fun p => p.2.lane.isSome && p.2.op.floats with
    | some p => s.performNow hid p.1
    | none => k

/-- `csrr` (R200). -/
def execCsrr (d : SReg) (n : BitVec 10) (s : State) : Out :=
  onScalar s [] [d] fun hid h =>
    match csrOf n with
    | some r => s.afterFloats hid h r (s.result hid d (s.csrValue h r))
    | none => s.illegal hid ⟨.select, true⟩

/-- Whether a TROOT or TSPACE value sets a must-be-zero bit (R14). -/
def trootBad (v : Word) : Bool := bits v 52 12 ≠ 0 || bits v 1 11 ≠ 0
def tspaceBad (v : Word) : Bool := bits v 16 48 ≠ 0

/-- A failed control-register write or `tlbi`, with its record (R35, R36). DEDUCED (log 6). -/
def State.sysFault (s : State) (hid : Nat) (kind : AccessKind) (c : Cause) (va : Word) : State :=
  match s.hart? hid with
  | some h => s.failAccess hid false kind h.pc [⟨0, va, c, 15⟩]
  | none => s

/-- The register written by its own layout. The other running waves of the VF, which R15 lets translate under either
value, use the new one at once. DEDUCED (log 6, 82). DESIGN CHOICE (log 90). -/
def State.csrWrite (s : State) (hid : Nat) (h : Hart) (r : Csr) (v : Word) : State :=
  let vf := s.hartVf h
  let put (f : VfRegs → VfRegs) : State := s.setVfRegs vf (f (s.vfRegs vf))
  match r with
  | .fstat => s.modHart hid fun h => { h with fstat := fstatWritten v }
  | .wstat => s.modHart hid fun h => { h with wstat := wstatWritten v }
  | .corrLimit => s.modHart hid fun h => { h with corrLimit := v &&& 0xFF }
  | .corrKappa => s.modHart hid fun h => { h with corrKappa := v }
  | .corrOvf => s.modHart hid fun h => { h with corrOvf := v &&& 1 }
  | .troot => s.writeRoot vf v
  | .tspace => put fun x => { x with tspace := v }
  | .roleLow => put fun x => { x with roleLow := v &&& 63 }
  | .roleHigh => put fun x => { x with roleHigh := v &&& 63 }
  | .roleTime => put fun x => { x with roleTime := v &&& 0xFFFFFFFF }

/-- `csrw` (R200): a write that sets a must-be-zero bit of TROOT or TSPACE is refused with cause CSRZ (R14).
DEDUCED (log 6). -/
def execCsrw (a : SReg) (n : BitVec 10) (s : State) : Out :=
  onSettled s [a] [] fun hid h =>
    let v := (h.getS a).val
    match csrOf n with
    | none => s.illegal hid ⟨.select, true⟩
    | some r =>
      if r.privileged && !s.privileged h then s.sysFault hid .csrWrite .priv 0
      else if (r = .troot && trootBad v) || (r = .tspace && tspaceBad v) then s.sysFault hid .csrWrite .csrz 0
      else s.afterFloats hid h r ((s.csrWrite hid h r v).nextPc hid)

def execFeat (d : SReg) (c : BitVec 4) (s : State) : Out :=
  onScalar s [] [d] fun hid _ =>
    match c.toNat with
    | 0 => s.result hid d ⟨Config.feat0, false⟩
    | 1 => s.result hid d ⟨Config.feat1, false⟩
    | _ => s.illegal hid ⟨.select, true⟩

/-! ### Traps and return (R199, R360) -/

def execTrap (n : BitVec 10) (s : State) : Out :=
  onScalar s [] [] fun hid h => s.trapWith hid .software 0 (n.zeroExtend 64) 0 0 (h.pc + 4)

/-- A wait that a handler does not resume: the hart leaves the ring it waited on. -/
def State.abandonWait (s : State) (h : Hart) (hid : Nat) (w : Option Wait) : State :=
  match w with
  | some (.ringRes q _) | some (.ringGet q _) => s.modRing h.unit q fun r => r.leave hid false
  | _ => s

/-- The state a handler returns to (R360), for the values its s56 and s57 hold. A lane word that it skips is over, and what it has
killed with it (R126). DEDUCED (log 51). -/
def Hart.leave (h : Hart) (t : Handler) : Hart :=
  let s57 := (h.getS 57).val
  let lane := bitOf s57 39
  let h1 := if lane && t.record.lane && !bitOf s57 38 then (h.laneNext t.slot).killsOver (wordKills t.slot) else h
  { h1.setSs (windowRegs.zip t.saved) with
      pc := codeTarget (h.getS 56).val, frozen := if lane then false else h.frozen, trapped := none,
      wait := if bitOf s57 37 then t.waiting else none }

/-- Whether the acting S-stream runs a trap handler. -/
def State.inHandler (s : State) : Bool :=
  match s.cur with
  | .scalar hid => (s.hart? hid).any (·.trapped.isSome)
  | .lane _ _ => false

/-- `rte`: with no handler active the next word issues (R199). In a handler it reads s56 and s57 and writes s56 to s61, so it waits
for what the handler still loads into them (R360). DEDUCED (log 51). -/
def execRte (s : State) : Out :=
  onScalar s (if s.inHandler then [56, 57] else []) (if s.inHandler then [58, 59, 60, 61] else []) fun hid h =>
    match h.trapped with
    | none => s.nextPc hid
    | some t =>
      let s1 := if bitOf (h.getS 57).val 37 then s else s.abandonWait h hid t.waiting
      (s1.putHart hid (h.leave t)).moveUpsets hid hiddenSlot (·.toNat)

/-! ### Invalidation (R31, R32) -/

/-- The harts of a VF. -/
def State.vfHarts (s : State) (vf : Nat) : List Nat :=
  (s.harts.filter fun p => match p.2 with | some h => s.unitVf h.unit = vf | none => false).map Prod.fst

/-- Performs every access of some harts that may hold a translation: loads return, and stores and atomics are performed
at their homes or at their peers. The second component says whether nothing is left. DEDUCED (log 52). -/
def State.settleHarts (s : State) : List Nat → State × Bool
  | [] => (s, true)
  | id :: ids =>
    let r := s.releaseWhole id letterK
    let t := r.1.settleHarts ids
    (t.1, r.2 && t.2)

/-- The VF whose translation an access in flight into a network window was made through: its hart's, its copy's, its tile
operation's, or the one a harbourmaster read for. -/
def State.flightVf (s : State) (f : Flight) : Option Nat :=
  if f.core < 256 then (s.hart? f.hart).map s.hartVf
  else if 1024 ≤ f.core then none
  else if hmCore 0 ≤ f.core then some f.hart
  else match s.copy? f.op, s.tileOp? f.op with
    | some c, _ => some c.vf
    | none, some t => some (s.unitVf t.unit)
    | none, none => none

/-- Whether an access of a VF into a network window still waits for its peer, or a core's write-back does, whose bytes name no
VF (R32). -/
def State.farBusy (s : State) (vf : Nat) : Bool :=
  s.mem.flights.any fun p => match p.2 with
    | some f => (f.kind.remote || f.kind.asks) && (s.flightVf f = some vf || (decide (f.core < 256) && f.op = 0 && !f.kind.asks))
    | none => false

/-- Performs every access of a VF that holds a translation: those of its harts, and those of its copies, tile operations
and fetches that a peer has still to answer, and the stores of lane words that wait for a load. DEDUCED (log 52). -/
def State.quiesce (s : State) (vf : Nat) : State × Bool :=
  let r := s.settleHarts (s.vfHarts vf)
  let late := (r.1.vfHarts vf).any fun id => (r.1.hart? id).any fun h => h.ended.isNone && !h.late.isEmpty
  (r.1, r.2 && !r.1.farBusy vf && !late)

/-- `tlbi` completes once no access holds a dropped translation (TLBI_COMPLETE). DEDUCED (log 52). -/
def State.tryTlbi (s : State) (hid : Nat) : State :=
  match s.hart? hid with
  | none => s
  | some h =>
    let r := s.quiesce (s.hartVf h)
    if r.2 then r.1.endWait hid else r.1

/-- The shared part of the three scopes: release(k), the drop, the wait. -/
def State.runTlbi (s : State) (hid vf : Nat) (sc : InvScope) : State :=
  s.withRelease hid ⟨.rel, letterK⟩ true fun s => ((s.invalidate vf sc).waiting hid .tlbi).tryTlbi hid

/-- A `tlbi` form: privilege first, then its own checks (R31, R33). DEDUCED (log 6). -/
def tlbiForm (s : State) (reads : List SReg) (f : Nat → Hart → State) : Out :=
  onScalar s reads [] fun hid h =>
    if h.engine = .crane then s.illegal hid ⟨.engine, false⟩
    else if !s.privileged h then s.sysFault hid .tlbi .priv 0
    else f hid h

def execTlbiVa (a : SReg) (s : State) : Out :=
  tlbiForm s [a] fun hid h =>
    let va := (h.getS a).val
    if (h.getS a).tag then s.tagTrap hid
    else if !canonical va then s.sysFault hid .tlbi .canon va
    else s.runTlbi hid (s.hartVf h) (.va va)

def execTlbiSpace (s : State) : Out := tlbiForm s [] fun hid h => s.runTlbi hid (s.hartVf h) .space
def execTlbiVf (s : State) : Out := tlbiForm s [] fun hid h => s.runTlbi hid (s.hartVf h) .vf

def execTlbiComplete (hart : Nat) (s : State) : Out :=
  .next (match (s.hart? hart).bind (·.wait) with
    | some .tlbi => s.tryTlbi hart
    | _ => s)

/-! ### Halt (R199) -/

/-- `halt`: the wave stops at the next word, and its record goes to the owning host. -/
def execHalt (s : State) : Out :=
  onScalar s [] [] fun hid h =>
    let task := match s.unit? h.unit with | some g => g.task | none => 0
    ((s.eventRecord (s.hartVf h) 0x03 task 0 (h.pc + 4) (s.placeWord h)).modHart hid fun h => { h with halted := true }).nextPc hid

end Sys2Proof.Machine
end

