-- ==== Sys2Proof/Machine/EvMem.lean ====
section
/-! DEFINITION. Events of the memory system, the network and the control window (R25, R54, R58, R63, R68, R73, R85,
R237, R388 to R391, R394, R431). -/

namespace Sys2Proof.Machine

/-! ### Caches, queues and homes -/

/-- Whether a sector number lies in usable GDDR. -/
def homeSector (sec : Nat) : Bool := decide (sec < Config.usableEnd / 128)

/-- The home die stores evict some sectors. DESIGN CHOICE (log 5). -/
def State.evictHomes (s : State) (secs : List Nat) : State := secs.foldl State.homeEvict s

/-- TLB_MISS_WALK: a queued walk for a core, started before the access it belongs to. A walk that fails leaves the fault to
that access. DEDUCED (log 4). -/
def execTlbMissWalk (core vf : Nat) (va : Word) (cached : Bool) (s : State) : Out :=
  .next (if canonical va && decide (core < Config.cores + Config.clusters) then
      (s.miss ⟨some core, coreDie core⟩ vf va cached).1
    else s)

/-- FILL_GENERATION_WRAP. -/
def execFillGenerationWrap (core : Nat) (s : State) : Out := .next (if s.cgOf core = 255 then s.genWrap core else s)

/-- STORE_QUEUE_DRAIN: the oldest store leaves, and the sectors its allocation displaces are written back. -/
def execStoreQueueDrain (hart : Nat) (evict : List Nat) (s : State) : Out :=
  .next (match s.hart? hart with
    | some h => evict.foldl (fun s sec => s.l1Evict h.core sec) (s.drainHead hart)
    | none => s)

/-- Whether an access in flight is its core's oldest of those that a test selects. -/
def State.oldest (s : State) (id : Nat) (f : Flight → Bool) : Bool := (s.flightIds f).head? = some id

/-- HOME_SECTOR_WRITE: writes of one core to one sector are accepted in order (R73). -/
def execHomeSectorWrite (op : Nat) (evict : List Nat) (s : State) : Out :=
  .next (match s.flight? op with
    | some ⟨_, core, _, _, .home w⟩ =>
      if s.oldest op fun f => f.core = core && f.kind.touches w.sector && !f.kind.remote then
        (s.performHome op).evictHomes evict
      else s
    | _ => s)

/-- HOME_SECTOR_READ: the die store fills an invalid sector from GDDR; displaced sectors are written back. -/
def execHomeSectorRead (sector : Nat) (evict : List Nat) (s : State) : Out :=
  .next (if homeSector sector then (s.homeRead sector).1.evictHomes evict else s)

/-- ATOMIC_AT_HOME: one lane of an atomic is applied at its home, or at its slice. DESIGN CHOICE (log 14). -/
def execAtomicAtHome (op : Nat) (index : Nat) (evict : List Nat) (s : State) : Out :=
  .next (match s.flight? op with
    | some ⟨_, core, _, _, .atomics rs⟩ =>
      match rs[index]? with
      | some r =>
        if s.oldest op fun f => f.core = core && f.kind.touches (sectorOf r.addr) && !f.kind.remote then
          (s.performAtomic op index).evictHomes evict
        else s
      | none => s
    | some ⟨_, core, _, _, .clusterAtomics u rs⟩ =>
      match rs[index]? with
      | some r =>
        if s.oldest op fun f => f.core = core && f.kind.touchesGranule u (sectorOf r.addr) then
          (s.performAtomic op index).evictHomes evict
        else s
      | none => s
    | _ => s)

/-- POSTED_CLUSTER_WRITE: posted writes of one core to one granule are performed in order, and so are those of one wave to
one slice (R62, R63, R73). -/
def execPostedClusterWrite (op : Nat) (s : State) : Out :=
  .next (match s.flight? op with
    | some ⟨hid, core, _, _, .posted u w⟩ =>
      if s.oldest op (fun f => f.core = core && f.kind.touchesGranule u w.sector) &&
          s.oldest op (fun f => f.hart = hid && f.core = core && f.kind.postedTo u w.sector) then s.performPosted op
      else s
    | _ => s)

/-- LOAD_RETURN. -/
def execLoadReturn (hart op : Nat) (s : State) : Out := .next (s.performLoad hart op).1

/-! ### The network answers (R68, R238, R242) -/

/-- A hart's own fetch gets a sector, or its load does: in the core's L1, or for itself (R57, R60). A sector that the core has
a write on its way to is asked again, once that write is complete (R73). -/
def State.answerHart (s : State) (hid op key : Nat) (data : SectorData) (p : Bool) : State :=
  match s.hart? hid with
  | none => s
  | some h =>
    if s.netBusy h.core key then s
    else if op = 0 then s.putHart hid { h with netFetch := h.netFetch ++ [(key, data, p)] }
    else match h.loads.find? fun q => q.op = op with
      | none => s
      | some q =>
        let s1 := if q.fills key then s.fillNet h.core key data p else s
        if q.keeps key then s1.keepRemote hid op key data p false else s1

/-- A copy gets the source sector of a piece; its P arrives only through a proposal window (R391). -/
def State.answerCopy (s : State) (cid k : Nat) (c : Copy) (data : SectorData) (p : Bool) : State :=
  match c.sector? (k / 128) with
  | none => s
  | some (_, ps) => match (sourceSectors ps)[k % 128]? with
    | none => s
    | some src =>
      let here := partsFrom ps src
      let va := BitVec.ofNat 64 (((here.head?).bind fun p => p.src.map Prod.snd).getD 0)
      let r := s.engineRead c.cluster c.vf va .copyRead
      match r.2 with
      | .view v => r.1.copyTake cid k here v
      | .bad f => r.1.copyMeets cid f
      | .net pa => r.1.copyTake cid k here ⟨data, p && r.1.winProp pa, false⟩

/-- The old value that a peer's atomic returns, with its tag and status (R48, R242). -/
def State.answerAtomic (s : State) (hid op : Nat) (r : AtomReq) (data : SectorData) (p : Bool) : State :=
  let old := sectorBytes data (r.addr % 128) r.size
  s.atomReturn hid op r old ((p && s.winProp r.addr) || r.s) (atomApply r.op r.size old r.v r.new).2

/-- REMOTE_COMPLETION: the transport reports an access into a network window complete. DESIGN CHOICE (log 84, 101). -/
def execRemoteCompletion (op : Nat) (data : SectorData) (p : Bool) (s : State) : Out :=
  .next (match s.flight? op with
    | none => s
    | some f =>
      let s1 := s.setFlight op none
      match f.kind with
      | .netLoad key =>
        if f.core < 256 then s1.answerHart f.hart f.op key data p
        else match s1.copy? f.op with
          | some c => if f.core < 512 then s1.answerCopy f.op key c data p
            else s1.launch { f with kind := .netAnswer key data p }
          | none => s1.launch { f with kind := .netAnswer key data p }
      | .netDevice _ _ => if s.oldest op fun g => g.hart = f.hart && g.kind.device then s1.opCheck f.hart f.op f.ld else s
      | .netWrite w | .netRelease w =>
        if 256 ≤ f.core ∧ f.core < 512 then s1.copyPerformed f.op (f.ld - 1) (popBelow w.mask.toNat 128)
        else s1.opCheck f.hart f.op f.ld
      | .netAtomics _ rs => (rs.foldl (fun s r => s.answerAtomic f.hart f.op r data p) s1).opCheck f.hart f.op f.ld
      | _ => s)

/-! ### Inbound RMA (R85, R388, R389, R391) -/

/-- The site at which an inbound access is translated. -/
def inboundSite : Site := ⟨none, 0⟩

/-- How the runs of an inbound access translate. -/
inductive Inbound where
  | ok (ts : List (TlbEntry × Word × Nat))
  | bad (va : Word) (c : Cause) (level : Nat)

/-- Puts a run before the others. -/
def Inbound.cons (t : TlbEntry) (r : Word × Nat) : Inbound → Inbound
  | .ok ts => .ok ((t, r.1, r.2) :: ts)
  | .bad va c l => .bad va c l

/-- Translates and checks every run; D is set only when `full`. DEDUCED (log 58). -/
def State.inboundXlate (s : State) (vf : Nat) (a : Access) (full : Bool) : List (Word × Nat) → State × Inbound
  | [] => (s, .ok [])
  | r :: rs =>
    let x := if full then s.xlateFull inboundSite vf r.1 a true else s.xlate inboundSite vf r.1 a true
    match x.2 with
    | .bad c l => (x.1, .bad r.1 c l)
    | .ok t =>
      let q := x.1.inboundXlate vf a full rs
      (q.1, q.2.cons t r)

/-- Every run is checked before any leaf is marked or any byte moved. DEDUCED (log 58). -/
def State.inboundCheck (s : State) (vf : Nat) (a : Access) (rs : List (Word × Nat)) : State × Inbound :=
  let q := s.inboundXlate vf a false rs
  match q.2 with
  | .bad va c l => (q.1, .bad va c l)
  | .ok _ => q.1.inboundXlate vf a true rs

/-- The number that names the sender of an inbound access in what leaves the module and in the management log: a host by its
own, a peer from 2³³ up. DESIGN CHOICE (log 10). -/
def senderOf (a : Arrival) : Nat := if a.peer = 0 then a.host else 2 ^ 33 + a.peer

/-- An inbound access that fails: an error response (none from an endpoint that is not up), its line in the
management log, and its record when a check of translation or permission failed. -/
def State.inboundRefuse (s : State) (a : Arrival) (va : Word) : State :=
  if s.mod.power = .on then (s.emit (.refusedAccess (senderOf a))).note [BitVec.ofNat 64 (senderOf a), va] else s

def State.inboundFail (s : State) (a : Arrival) (vf : Nat) (write : Bool) (va : Word) (c : Cause) (level : Nat) : State :=
  (s.record vf (faultWords va level c.code 0 vf (s.space vf) (kindCode (if write then .copyWrite else .copyRead)) va 0)).inboundRefuse
    a va

/-- Whether a VF's command endpoint takes a request: it is up, and the request uses what the module implements (R388, R389,
R401). -/
def State.endpointTakes (s : State) (d : Delivery) (vf : Nat) : Bool :=
  s.mod.power = .on && decide (vf < 1024) && d ≠ .unsupported

/-- Whether writes of a peer may carry P (R391). -/
def State.peerTags (s : State) (peer : Nat) : Bool :=
  bitOf (s.peer peer).1 63 && bitOf (s.peer peer).1 62 &&
  s.mod.nwin.any fun w => bitOf w.2 63 && bitOf w.2 62 && bits w.2 48 12 = peer

/-- Serves a read run by run: the bytes, the P of each sector (R391), and whether one is poisoned. -/
def State.inboundBytes (s : State) : List (TlbEntry × Word × Nat) → State × List Byte × List Bool × Bool
  | [] => (s, [], [], false)
  | (t, va, n) :: rest =>
    let v := s.homeRead (sectorOf (t.pa va))
    let q := v.1.inboundBytes rest
    (q.1, toBytes n (sectorBytes v.2.data (va.toNat % 128) n) ++ q.2.1, (v.2.p && t.mt ≠ .device) :: q.2.2.1, v.2.x || q.2.2.2)

/-- INBOUND_RMA_READ. A poisoned sector does not cross the link. DEDUCED (log 58). -/
def execInboundRmaRead (a : Arrival) (vf : Nat) (va : Word) (len : Nat) (s : State) : Out :=
  .next (if !s.endpointTakes a.mode vf then s.inboundRefuse a va
    else
      let q := s.inboundCheck vf accRead (runsOf va len)
      match q.2 with
      | .bad va c l => q.1.inboundFail a vf false va c l
      | .ok ts =>
        let r := q.1.inboundBytes ts
        if r.2.2.2 then r.1.inboundRefuse a va else r.1.emit (.bytes (senderOf a) 0 r.2.1 r.2.2.1))

/-- Performs a write run by run at the homes, each sector with the P it carries (R391). -/
def State.inboundStore (s : State) (tags : Bool) : List (TlbEntry × Word × Nat) → List Byte → List Bool → State
  | [], _, _ => s
  | (t, va, n) :: rest, bs, ps =>
    let w := smallWrite (t.pa va) n (takeNum bs n)
    (s.homeWrite { w with s := tags && ps.headD false && t.mt ≠ .device }).inboundStore tags rest (bs.drop n) ps.tail

/-- INBOUND_RMA_WRITE. DEDUCED (log 58). -/
def execInboundRmaWrite (a : Arrival) (vf : Nat) (va : Word) (data : List Byte) (p : List Bool) (s : State) : Out :=
  .next (if !s.endpointTakes a.mode vf then s.inboundRefuse a va
    else
      let q := s.inboundCheck vf accWrite (runsOf va data.length)
      match q.2 with
      | .bad va c l => q.1.inboundFail a vf true va c l
      | .ok ts => (q.1.inboundStore (s.peerTags a.peer) ts data p).emit (.response (senderOf a) 0 true []))

/-- INBOUND_RMA_ATOMIC: on 32 or 64 bits, its address aligned to its size (R388). DEDUCED (log 58). -/
def execInboundRmaAtomic (a : Arrival) (vf : Nat) (va : Word) (wide : Bool) (aop : BitVec 4) (operand new : Word)
    (s : State) : Out :=
  .next (
    let size := if wide then 8 else 4
    let ea := BitVec.ofNat 64 (clearLow (if wide then 3 else 2) va.toNat)
    if !s.endpointTakes a.mode vf || decide (10 ≤ aop.toNat) then s.inboundRefuse a va
    else
      let q := s.inboundCheck vf accAtomic [(ea, size)]
      match q.2 with
      | .bad va c l => q.1.inboundFail a vf true va c l
      | .ok ts => match ts with
        | (t, _, _) :: _ =>
          let pa := t.pa ea
          let v := q.1.homeRead (sectorOf pa)
          let m := 2 ^ (8 * size)
          let r : AtomReq := ⟨none, pa, size, scalarAop aop, operand.toNat % m, new.toNat % m, false, false, 0, 0⟩
          if v.2.x then v.1.inboundRefuse a va
          else
            let x := atomTuple v.2 r
            (v.1.dsSet (sectorOf pa) (some x.1)).emit (.bytes (senderOf a) 0 (toBytes size x.2.1) [x.2.2.1])
        | [] => q.1)

/-! ### Registers of the control window and of a VF (R14, R15, R341, R364, R390, R399, R431) -/

/-- Whether an accepted command of a scope has still to complete: until then the endpoint accepts no other on it, since the
commands on one scope are applied one at a time (R392). DEDUCED (log 102). -/
def State.scopeBusy (s : State) (sc : OwnScope) : Bool := s.mod.accepted.any fun p => p.1 = some sc

/-- The outcome of a write is told to its writer. -/
def State.told (r : State × Bool) (w : Writer) : State :=
  match w with
  | .host h => r.1.emit (.response h 0x11 r.2 [])
  | .task .. => r.1

/-- Whether a task of a VF may reach a control-window address: the page is granted (R12, R431). DEDUCED (log 8). -/
def State.reaches (s : State) (w : Writer) (off : Nat) : Bool :=
  match w with
  | .host _ => true
  | .task vf _ => s.granted vf (Config.ctlBase + off)

/-- Whether a writer's command waits for an accepted one of the module (R392): a host writes by the module owner's WRITE. -/
def State.writeWaits (s : State) (w : Writer) : Bool :=
  match w with
  | .host _ => s.scopeBusy .module
  | .task .. => false

/-- A write at an offset of the window by a writer that reaches it. DEDUCED (log 8, 102). -/
def State.windowWrite (s : State) (w : Writer) (off : Nat) (v : Word) : State :=
  if s.mod.power = .on && s.reaches w off && !s.writeWaits w then State.told (s.ctlWrite w off 8 v) w else s

/-- CONTROL_REGISTER_WRITE. -/
def execControlRegisterWrite (w : Writer) (addr : Nat) (value : Word) (s : State) : Out :=
  .next (if isCtl addr then s.windowWrite w (addr - Config.ctlBase) value else s)

def execCgrantWrite (w : Writer) (vf : Nat) (value : Word) (s : State) : Out :=
  .next (if vf < 1024 then s.windowWrite w (8 * vf) value else s)

def execQctlWrite (w : Writer) (q : Nat) (value : Word) (s : State) : Out :=
  .next (if q < 4096 then s.windowWrite w (0x100000 + 8 * q) value else s)

def execVfschedWrite (w : Writer) (vf : Nat) (value : Word) (s : State) : Out :=
  .next (if vf < 1024 then s.windowWrite w (0x108000 + 8 * vf) value else s)

def execErrcntWrite (w : Writer) (die : Nat) (value : Word) (s : State) : Out :=
  .next (if die < Config.dies then s.windowWrite w (0x200000 + 8 * die) value else s)

def execNwinWrite (w : Writer) (n : Nat) (value : Word) (s : State) : Out :=
  .next (if n < 2048 then s.windowWrite w (0x300000 + 8 * n) value else s)

def execPeertabWrite (w : Writer) (p : Nat) (high : Bool) (value : Word) (s : State) : Out :=
  .next (if 1 ≤ p ∧ p < 4096 then s.windowWrite w (0x400000 + 16 * p + (if high then 8 else 0)) value else s)

def execMcfgWrite (w : Writer) (unit : Nat) (value : Word) (s : State) : Out :=
  .next (if unit < 64 then s.windowWrite w (0x500000 + 512 * unit) value else s)

/-- Whether a wave or crane thread of a VF is resident. -/
def State.vfResident (s : State) (vf : Nat) : Bool :=
  s.gangs.any fun p => match p.2 with | some g => g.vf = vf && g.st = .resident | none => false

/-- A host's write of a translation register: by the VF's owner, refused while the VF has resident waves, and refused
when it sets a must-be-zero bit (R14, R15). The response tells which: 1 not the owner, 2 busy, 3 must-be-zero.
It waits for an accepted command of the VF (R392). DESIGN CHOICE (log 9). DEDUCED (log 102). -/
def State.hostXlateWrite (s : State) (host vf : Nat) (bad : Bool) (f : State → State) : State :=
  let no (n : Word) : State := (s.emit (.response host 0 false [n])).note [BitVec.ofNat 64 host, BitVec.ofNat 64 vf]
  if s.mod.power ≠ .on then s
  else if s.ownerOf (.vf vf) ≠ some host then no 1
  else if s.scopeBusy (.vf vf) then s
  else if s.vfResident vf then no 2
  else if bad then no 3
  else (f s).emit (.response host 0 true [])

def execTrootWrite (host vf : Nat) (value : Word) (s : State) : Out :=
  .next (s.hostXlateWrite host vf (trootBad value) fun s => s.writeRoot vf value)

def execTspaceWrite (host vf : Nat) (value : Word) (s : State) : Out :=
  .next (s.hostXlateWrite host vf (tspaceBad value) fun s => s.setVfRegs vf { s.vfRegs vf with tspace := value })

end Sys2Proof.Machine
end

