-- ==== Sys2Proof/Machine/Objects.lean ====
section
/-! DEFINITION. Page-table writes of the loader, loaded code objects and their unloading (R356, R386, R387). -/

namespace Sys2Proof.Machine

/-! ### Writing table entries -/

/-- Writes the eight bytes of a table entry at its home die store. -/
def State.writeEntry (s : State) (a : Nat) (e : Word) : State :=
  s.homeUpdate (sectorOf a) fun d => mergeBytes (byteRun (a % 128) 8) d (sectorPlace e.toNat (a % 128) 8)

/-- A frame filled with zero bytes, settled and unpoisoned. -/
def State.zeroFrame (s : State) (pa : Nat) : State :=
  (List.range 32).foldl (fun s i => s.homeWrite ⟨sectorOf pa + i, BitVec.allOnes 128, 0, false, false, true⟩) s

/-- A table entry that names the next table, and a leaf (R17). -/
def tableEntry (frame : Nat) : Word := BitVec.ofNat 64 (frame / 4096 * 4096) ||| 3
def leafEntry (frame : Nat) (w x : Bool) : Word :=
  BitVec.ofNat 64 (frame / 4096 * 4096) ||| 1 ||| at' 2 w.toNat ||| at' 3 x.toNat

/-- The address of the L0 entry of a page, with tables added from a supply of free frames where the way down has none:
`fuel` levels are left. None when the way cannot be completed. -/
def State.entryPlace (s : State) (va : Word) (frames : List Nat) : Nat → Nat → Nat → State × List Nat × Option Nat
  | 0, _, _ => (s, frames, none)
  | fuel + 1, level, base =>
    let a := base + 8 * vaIndex va level
    if level = 0 then (s, frames, some a)
    else
      let r := s.tableRead a
      if r.2.2 then (r.1, frames, none)
      else if pteV r.2.1 then
        if pteBad level r.2.1 || !pteT r.2.1 || !isGddr (pteFrame r.2.1) then (r.1, frames, none)
        else r.1.entryPlace va frames fuel (level - 1) (pteFrame r.2.1)
      else match frames with
        | f :: rest => ((r.1.zeroFrame f).writeEntry a (tableEntry f)).entryPlace va rest fuel (level - 1) f
        | [] => (r.1, [], none)

/-- Whether a page of a VF has a leaf, or cannot be given one: any way down but to an entry that is not valid. -/
def State.pageTaken (s : State) (vf : Nat) (va : Word) : Bool :=
  match (s.walk 0 vf va false).2 with
  | .failed .notValid _ => false
  | _ => true

/-! ### Code in use (R356) -/

/-- Addresses of code a hart points into: its pc, its blocks and slots, handlers, and saved return addresses.
DEDUCED (log 70). -/
def Hart.codePointers (h : Hart) : List Word :=
  [h.pc, h.start] ++ (h.queue.map (·.entry)) ++ (h.block.toList.map (·.entry)) ++ (h.armed.map (·.handler)) ++
  h.userReturn.toList ++ (h.trapped.toList.map (·.rpc)) ++ [(h.getS 62).val, (h.getS 63).val] ++
  (h.walk.toList.map (·.body)) ++
  ([h.wait, h.trapped.bind (·.waiting)].filterMap fun w => match w with | some (.lrun e) => some e | _ => none)

/-- Whether an address lies in an image. -/
def Image.holds (i : Image) (a : Word) : Bool := decide (i.base.toNat ≤ a.toNat ∧ a.toNat < i.base.toNat + i.size)

/-- Whether a running wave or crane thread, or a saved context or phase record, points into an image. DEDUCED (log 70). -/
def State.unitUses (s : State) (i : Image) (u : Nat) (g : Gang) : Bool :=
  g.vf = i.vf && g.st ≠ .released &&
  ((g.lentry ≠ 0 && i.holds g.lentry) ||
    (s.unitHarts u).any fun id => match s.hart? id with
      | some h => h.ended.isNone && h.codePointers.any i.holds
      | none => false)

/-- Whether a member of a unit points into an image, a wave with LENTRY too, at which its role may change (R352). -/
def Gang.memberUses (g : Gang) (i : Image) (h : Hart) : Bool :=
  g.vf = i.vf && h.ended.isNone && (h.codePointers.any i.holds || (h.engine = .wave && g.lentry ≠ 0 && i.holds g.lentry))

def State.imageUsed (s : State) (i : Image) : Bool :=
  (s.gangs.any fun p => match p.2 with | some g => s.unitUses i p.1 g | none => false) ||
  s.prog.tasks.any fun p => match p.2 with
    | some t => p.1 / 2 ^ 32 = i.vf && t.carries.any fun c => i.holds c.entry
    | none => false

/-- A forced unload dooms every member that points into the image (R356). -/
def State.doomUsers (s : State) (i : Image) : State :=
  s.forEach (fun s id => s.modHart id fun h => match s.unit? h.unit with
    | some g => if g.memberUses i h then { h with doomed := true } else h
    | none => h) (s.harts.map Prod.fst)

/-- Clears the leaf of a page. -/
def State.clearLeaf (s : State) (vf page : Nat) : State :=
  let r := s.walk 0 vf (BitVec.ofNat 64 (4096 * page)) false
  match r.2 with
  | .leaf _ 0 a => r.1.writeEntry a 0
  | _ => r.1

/-- Removes an image: its leaves, then `tlbi.vf` for the VF (R387). -/
def State.removeImage (s : State) (i : Image) : State :=
  let s1 := i.pages.foldl (fun s p => s.clearLeaf i.vf p) s
  let s2 := { s1 with mod := { s1.mod with images := s1.mod.images.filter fun x => !(x.vf = i.vf && x.base = i.base) } }
  ((s2.invalidate i.vf .vf).quiesce i.vf).1

/-- Carries out the deferred unloads whose code is no longer in use. DEDUCED (log 70). -/
def State.finishUnloads (s : State) : State :=
  s.mod.images.foldl (fun s i => if i.leaving && !s.imageUsed i then s.removeImage i else s) s

end Sys2Proof.Machine
end

