-- ==== Sys2Proof/Machine/Queues.lean ====
section
/-! DEFINITION. Launch queues: buffers, LAUNCH and FENCE packets, and their parsing (R341 to R344, R366, R434). -/

namespace Sys2Proof.Machine

/-! ### Buffers (R342) -/

/-- Buffers a queue holds. -/
def Queue.held (q : Queue) : Nat := (q.packets.map List.length).foldl (· + ·) 0

/-- Buffers in use. -/
def State.buffersUsed (s : State) : Nat := (s.mod.queues.map fun p => p.2.held).foldl (· + ·) 0

/-- Buffers still owed to the guarantees of enabled queues. -/
def State.buffersOwed (s : State) : Nat :=
  (s.mod.queues.map fun p => if qEn p.2.ctl then qMin p.2.ctl - p.2.held else 0).foldl (· + ·) 0

/-- Whether a queue may take one more buffer. -/
def State.mayTake (s : State) (q : Queue) : Bool :=
  decide (q.held < qMin q.ctl) ||
  (decide (q.held < qCap q.ctl) && decide (s.buffersOwed < Config.poolBuffers - s.buffersUsed))

/-- Whether a queue may take some buffers, one after another. -/
def State.mayTakeAll (s : State) (n : Nat) (bufs : List Words) : Nat → Bool
  | 0 => true
  | fuel + 1 =>
    let q := s.queue n
    match bufs with
    | [] => true
    | b :: rest =>
      s.mayTake q && (s.setQueue n { q with packets := q.packets ++ [[b]] }).mayTakeAll n rest fuel

/-! ### Parsing -/

/-- Words of a packet's first buffer. -/
def pkt (p : List Words) (i : Nat) : Word := (p.headD []).getD i 0

def pktType (p : List Words) : Nat := bits (pkt p 0) 56 8

/-- A packet error: the packet goes, its record is written, and the queue stops (R343). -/
def State.packetError (s : State) (n : Nat) (p : List Words) (reason : Nat) : State :=
  let q := s.queue n
  (s.setQueue n { ctl := qWithSt q.ctl 2, fence := [], packets := q.packets.tail }).eventRecord (qVf q.ctl) 0x01 0
    (at' 20 reason ||| at' 8 n) (pkt p 0) (pkt p 1)

/-- The head packet has been dealt with. -/
def State.dropPacket (s : State) (n : Nat) : State :=
  let q := s.queue n
  s.setQueue n { q with packets := q.packets.tail }

/-- Fields of a LAUNCH (R343). -/
def launchPend (x : Word) : Nat := bits x 44 12
def launchScnt (x : Word) : Nat := bits x 38 6
def launchPrio (x : Word) : Nat := bits x 35 3
def launchJob (x : Word) : Nat := bits x 24 8
def launchNode (x : Word) : Nat := bits x 16 6

/-- The field rules of a LAUNCH. -/
def State.launchBad (s : State) (vf : Nat) (p : List Words) : Bool :=
  let x := pkt p 0
  p.length ≠ 1 || bits x 32 3 ≠ 0 || bits x 22 2 ≠ 0 || bits x 0 16 ≠ 0 || pkt p 5 ≠ 0 || pkt p 6 ≠ 0 || pkt p 7 ≠ 0 ||
  listBad (pkt p 3) (pkt p 4) (launchScnt x) ||
  (match s.job? vf (launchJob x) with
    | some j => j.kind (launchNode x) ≠ .node
    | none => true)

/-- The time of a LAUNCH breaks R312, or has passed at its node by the aggregator's frontier (R323). DEDUCED (log 60). -/
def State.launchLate (s : State) (vf : Nat) (p : List Words) : Bool :=
  let x := pkt p 0
  match s.job? vf (launchJob x) with
  | some j => (j.timeFault (launchNode x) (pkt p 1)).isSome || j.passed (launchNode x) (pkt p 1)
  | none => false

/-- Turns a good LAUNCH into a TCB, with +1 at its stamp applied at the aggregator before the task can be placed (R318). In a
cancelled job it is born dead (R338). DEDUCED (log 60). -/
def State.launchTask (s : State) (n : Nat) (p : List Words) : State :=
  let q := s.queue n
  let vf := qVf q.ctl
  let x := pkt p 0
  let job := launchJob x
  let plus : Change := ⟨launchNode x, pkt p 1, 1⟩
  let s1 := s.dropPacket n
  if s.jobCancelled vf job then s1.applyBatch ⟨vf, job, [plus, { plus with amount := -1 }], [], true, []⟩
  else
    let st : TaskState := if launchPend x = 0 then .ready else .armed
    let r := s1.newTask vf (newTcb st (BitVec.ofNat 3 (launchPrio x)) (qPriv q.ctl) false (pkt p 1) (BitVec.ofNat 8 job)
      (BitVec.ofNat 6 (launchNode x)) (BitVec.ofNat 12 (launchPend x)) (BitVec.ofNat 6 (launchScnt x)) (pkt p 3) (pkt p 2)
      (pkt p 4))
    r.1.applyBatch ⟨vf, job, [plus], [], true, []⟩

/-- The condition slots of a FENCE: an address with its CMP, and a value (R344). -/
def fenceSlots (p : List Words) : List (Word × Word) :=
  p.tail.flatMap fun b => (List.range 4).map fun i => (b.getD (2 * i) 0, b.getD (2 * i + 1) 0)

/-- Conditions of a FENCE. -/
def fenceCount (p : List Words) : Nat := bits (pkt p 0) 0 4 + 1

/-- The field rules of a FENCE. -/
def fenceBad (p : List Words) : Bool :=
  let x := pkt p 0
  let n := fenceCount p
  bits x 4 52 ≠ 0 || decide (12 < n) || ((List.range 7).any fun i => pkt p (i + 1) ≠ 0) || p.length ≠ 1 + (n + 3) / 4 ||
  ((fenceSlots p).take n).any (fun c => decide (6 ≤ bits c.1 0 3)) || ((fenceSlots p).drop n).any fun c => c ≠ (0, 0)

/-- Takes the head packet of a running queue; a LAUNCH waits for room in its VF's TCB area. DEDUCED (log 59).
DESIGN CHOICE (log 98). -/
def State.parseOne (s : State) (n : Nat) (p : List Words) : State :=
  let q := s.queue n
  let vf := qVf q.ctl
  if pktType p = 1 then
    if s.launchBad vf p then s.packetError n p 2
    else if s.launchLate vf p then s.packetError n p 3
    else if !s.tcbRoom vf then s
    else s.launchTask n p
  else if pktType p = 2 then
    if fenceBad p then s.packetError n p 2
    else s.setQueue n { q with ctl := qWithSt q.ctl 1, fence := (fenceSlots p).take (fenceCount p) }
  else s.packetError n p 1

/-- Parses a queue while it runs: `fuel` packets at most. -/
def State.parseMany (s : State) (n : Nat) : Nat → State
  | 0 => s
  | fuel + 1 =>
    let q := s.queue n
    if qSt q.ctl ≠ 0 then s
    else match q.packets with
      | p :: _ => (s.parseOne n p).parseMany n fuel
      | [] => s

/-- Parses a queue as far as it goes. -/
def State.parseQueue (s : State) (n : Nat) : State := s.parseMany n (s.queue n).packets.length

/-- Parses every queue, as the harbourmaster does in each of its rounds. DEDUCED (log 59). -/
def State.parseAll (s : State) : State := (s.mod.queues.map Prod.fst).foldl State.parseQueue s

/-- A packet arrives at its VF's command endpoint: refused when the queue is disabled, withheld while the pool has no
room or the harbourmaster is not active, and otherwise taken into the queue's buffers (R341, R342, R366, R388, R400). -/
def State.packetArrives (s : State) (d : Delivery) (host n : Nat) (p : List Words) : State :=
  let q := s.queue n
  if s.mod.power ≠ .on || decide (4096 ≤ n) || p.isEmpty then s
  else if !qEn q.ctl || d = .unsupported then s.emit (.response host n false [])
  else if !s.harbourOk 0 || !s.mayTakeAll n p p.length then s
  else
    let s1 := if pktType p = 1 then s.logInput (qVf q.ctl) (1 :: BitVec.ofNat 64 host :: BitVec.ofNat 64 n :: p.headD []) else s
    (s1.setQueue n { q with packets := q.packets ++ [p] }).parseQueue n

/-- LAUNCH_PACKET. -/
def execLaunchPacket (q : Submission) (packet : List Word) (s : State) : Out :=
  .next (s.packetArrives q.mode q.host q.queue [packet])

/-- FENCE_PACKET. -/
def execFencePacket (q : Submission) (buffers : List (List Word)) (s : State) : Out :=
  .next (s.packetArrives q.mode q.host q.queue buffers)

/-! ### Polling a FENCE (R344) -/

/-- A condition's test. -/
def fenceHolds (cmp : Nat) (x v : Word) : Bool :=
  match cmp with
  | 0 => x = v
  | 1 => x ≠ v
  | 2 => decide (v.toNat ≤ x.toNat)
  | 3 => decide (x.toNat < v.toNat)
  | 4 => decide (v.toInt ≤ x.toInt)
  | _ => decide (x.toInt < v.toInt)

/-- The address of a condition's counter. -/
def fenceAddr (c : Word × Word) : Word := c.1 &&& ~~~7#64

/-- A counter that faults, or lies in a poisoned sector. -/
def HmGot.failed : HmGot → Bool
  | .ok v => v.x
  | .bad .. => true
  | .wait => false

/-- The counter found at an address. -/
def HmGot.word (g : HmGot) (a : Word) : Word :=
  match g with
  | .ok v => BitVec.ofNat 64 (sectorBytes v.data (a.toNat % 128) 8)
  | _ => 0

/-- FENCE_CONDITION_POLL: one pass over the conditions. DEDUCED (log 59). -/
def execFenceConditionPoll (n : Nat) (s : State) : Out :=
  .next (
    let q := s.queue n
    if qSt q.ctl ≠ 1 || !s.harbourOk 0 then s
    else
      let r := s.hmSectors 0 (qVf q.ctl) (q.fence.map fenceAddr)
      match r.2 with
      | none => r.1
      | some gs =>
        let s1 := r.1.hmDone 0
        if gs.any HmGot.failed then s1.packetError n (q.packets.headD []) 4
        else if (q.fence.zip gs).all fun x => fenceHolds (bits x.1.1 0 3) (x.2.word (fenceAddr x.1)) x.1.2 then
          ((s1.setQueue n { ctl := qWithSt q.ctl 0, fence := [], packets := q.packets.tail }).parseQueue n)
        else s1)

end Sys2Proof.Machine
end

