-- ==== Sys2Proof/Machine/Place.lean ====
section
/-! DEFINITION. Launch templates, dispatch, and the placement of units on cores and clusters (R115, R123, R129, R258, R292,
R336, R345 to R348, R355). -/

namespace Sys2Proof.Machine

/-! ### Launch templates (R346) -/

/-- Word `i` of a run of bytes held as a number. -/
def numWord (n i : Nat) : Word := BitVec.ofNat 64 (n >>> (64 * i))

/-- Whether a template breaks a rule of its table. DEDUCED (log 61). -/
def tplBad (n : Nat) : Bool :=
  let x := numWord n 0
  let convoy := bits x 62 2 = 1
  let crane := bits x 35 3
  let centries := (List.range 4).map fun i => numWord n (40 + i)
  decide (2 ≤ bits x 62 2) || decide (16 < bits x 38 5) || decide (4 < crane) || decide (8 < bits x 31 4) ||
  decide (16384 < bits x 16 15) || bits x 0 12 ≠ 0 || bits (numWord n 1) 32 32 ≠ 0 ||
  decide (128 * bits x 16 15 < (numWord n 3).toNat) || bits (numWord n 5) 0 3 ≠ 0 ||
  ((List.range 4).any fun i => numWord n (44 + i) ≠ 0) ||
  (if convoy then crane = 0 || bits x 31 4 = 0 || ((List.range 4).any fun i => decide (i < crane) ≠ decide (centries.getD i 0 ≠ 0))
   else crane ≠ 0 || bits x 31 4 ≠ 0 || centries.any (· ≠ 0))

/-- Decodes a template. -/
def tplOf (n : Nat) : Template :=
  let x := numWord n 0
  { convoy := bits x 62 2 = 1, waves := bits x 57 5 + 1, count := bits x 50 7 + 1, regs := 16 * (bits x 44 6 + 1),
    wide := bitOf x 43, nbar := bits x 38 5, ncrane := bits x 35 3, nacc := bits x 31 4, granules := bits x 16 15,
    roles := (numWord n 1).extractLsb' 0 32, csimg := numWord n 2, cslen := (numWord n 3).toNat, rings := numWord n 4,
    pmask := numWord n 5, pval := numWord n 6, lentry := numWord n 7,
    buckets := (List.range (bits x 12 4 + 1)).map fun j => (numWord n (8 + 2 * j), numWord n (9 + 2 * j)),
    centry := (List.range (bits x 35 3)).map fun i => numWord n (40 + i) }

/-- Lane registers of one wave: declared and hidden (R44, R348). -/
def Template.need (t : Template) : Nat := t.regs + (if t.wide then 48 else 0)

/-- More than one core or cluster can ever hold: a wave's registers pass 1,024 (R44), or the waves of a gang do not fit the
partitions of a core. DEDUCED (log 61). -/
def Template.tooBig (t : Template) : Bool := decide (1024 < t.need) || decide (8 * Nat.min 32 (2048 / t.need) < t.waves)

/-- A bucket matches the shape values (R347). -/
def bucketMatches (v : Nat) (lim : Word) : Bool :=
  (List.range 4).all fun i =>
    let l := bits lim (16 * i) 16
    l = 0xFFFF || decide ((v >>> (32 * i)) % 2 ^ 32 ≤ l)

/-- The ring a descriptor image binds; none where EN = 0 (R258). -/
def ringOf (x : Word) : Option Ring :=
  if bitOf x 29 then some ⟨true, bits x 0 14, bits x 20 9, bits x 14 6, 0, 0, [], [], []⟩ else none

/-- A ring as a placement at some time binds it: empty, its waiters in their order. DEDUCED (log 69). -/
def Ring.bound (r : Ring) (now : Word) : Ring := { r with pi := 0, ci := 0, slots := [], hist := [(0, now)] }

/-- Whether a descriptor image breaks a must-be-zero field. -/
def ringBad (x : Word) : Bool := bits x 48 16 ≠ 0 || bits x 30 6 ≠ 0

/-! ### What a unit needs, and where it fits (R348) -/

/-- Resources of one unit. -/
structure Need where
  convoy : Bool
  waves : Nat
  regs : Nat
  granules : Nat
  ncrane : Nat
  nacc : Nat
  rings : Nat
deriving DecidableEq, Repr

/-- A place for a unit: its cluster and the first granule of its reservation there, and for each gang its core and the
partition and berth of each wave; then the slots of its crane threads. -/
structure Place where
  cluster : Nat
  cbase : Nat
  gangs : List (Nat × List (Nat × Nat))
  slots : List Nat
deriving DecidableEq, Repr

/-- Whether a unit holds its resources: it is resident and some member of it has not ended (R129). -/
def State.unitHolds (s : State) (u : Nat) (g : Gang) : Bool := g.st = .resident && !s.unitEnded u

/-- The units that hold resources. -/
def State.holders (s : State) : List (Nat × Gang) :=
  s.gangs.filterMap fun p => match p.2 with
    | some g => if s.unitHolds p.1 g then some (p.1, g) else none
    | none => none

/-- What a unit holds. -/
def Gang.need (g : Gang) : Need :=
  ⟨g.convoy, g.waves, g.nregs + (if g.wide then 48 else 0), g.granules, g.ncrane, g.nacc,
    (g.rings.filter fun p => p.2.isSome).length⟩

/-- Berths and registers taken in each partition of a core: eight pairs of free registers and taken berths. -/
def State.coreUse (s : State) (core : Nat) : List (Nat × List Nat) :=
  let hs := s.holders.flatMap fun p => (s.unitHarts p.1).filterMap fun id => match s.hart? id with
    | some h => if h.engine = .wave && h.core = core then some (h.part, h.berth, p.2.need.regs) else none
    | none => none
  (List.range 8).map fun i =>
    let own := hs.filter fun x => x.1 = i
    (if s.mod.quarParts.contains (8 * core + i) then 0 else Config.laneFile - (own.map fun x => x.2.2).foldl (· + ·) 0,
     own.map fun x => x.2.1)

/-- Takes a berth for one wave in the first partition that has room. -/
def takeBerth (need : Nat) : List (Nat × List Nat) → Nat → Option ((Nat × Nat) × List (Nat × List Nat))
  | [], _ => none
  | (free, used) :: rest, i =>
    let next : Option ((Nat × Nat) × List (Nat × List Nat)) :=
      (takeBerth need rest (i + 1)).map fun r => (r.1, (free, used) :: r.2)
    if need ≤ free then
      match (List.range Config.berths).find? fun b => !used.contains b with
      | some b => some ((i, b), (free - need, b :: used) :: rest)
      | none => next
    else next

/-- Takes berths for some waves. -/
def takeBerths (need : Nat) : Nat → List (Nat × List Nat) → Option (List (Nat × Nat))
  | 0, _ => some []
  | n + 1, use => (takeBerth need use 0).bind fun r => (takeBerths need n r.2).map fun l => r.1 :: l

/-- What is taken of a cluster: runs of granules, crane slots, tiles of each engine, rings. -/
def State.clusterUse (s : State) (c : Nat) : List (Nat × Nat) × List Nat × Nat × Nat :=
  let gs := s.holders.filter fun p => p.2.cluster = c
  let sum (f : Need → Nat) : Nat := (gs.map fun p => f p.2.need).foldl (· + ·) 0
  let slots := gs.flatMap fun p => (s.unitHarts p.1).filterMap fun id => match s.hart? id with
    | some h => if h.engine = .crane then some h.berth else none
    | none => none
  (gs.map fun p => (p.2.cbase, p.2.granules), slots, sum (·.nacc), sum (·.rings))

/-- The first place of a run of `n` contiguous granules among those taken (R348). DEDUCED (log 63). -/
def firstFit (used : List (Nat × Nat)) (n : Nat) : Option Nat :=
  least ((0 :: used.map fun u => u.1 + u.2).filter fun a =>
    decide (a + n ≤ Config.clusterGranules) && used.all fun u => n = 0 || u.2 = 0 || decide (a + n ≤ u.1 ∨ u.1 + u.2 ≤ a))

/-- Whether a cluster has room for what a unit needs of it: the first granule of its reservation, and its crane slots.
DEDUCED (log 63). -/
def State.clusterRoom (s : State) (c : Nat) (n : Need) : Option (Nat × List Nat) :=
  let u := s.clusterUse c
  let free := (List.range Config.craneSlots).filter fun i => !u.2.1.contains i
  if s.mod.quarClusters.contains c || !s.harbourOk (clusterDie c) ||
    (n.convoy && s.mod.quarEngines.any fun e => e / 4 = c) ||
    decide (Config.engineTiles < u.2.2.1 + n.nacc) || decide (Config.clusterRings < u.2.2.2 + n.rings) ||
    decide (free.length < n.ncrane) then none
  else (firstFit u.1 n.granules).map fun a => (a, free.take n.ncrane)

/-- Room for a lone gang on a core. -/
def State.roomOnCore (s : State) (n : Need) (core : Nat) : Option Place :=
  match s.clusterRoom (core / 4) n with
  | none => none
  | some r => (takeBerths n.regs n.waves (s.coreUse core)).map fun l => ⟨core / 4, r.1, [(core, l)], []⟩

/-- Berths for the gangs of a convoy, one on each core of its cluster. -/
def State.gangRooms (s : State) (n : Need) : List Nat → Option (List (Nat × List (Nat × Nat)))
  | [] => some []
  | core :: rest =>
    (takeBerths n.regs n.waves (s.coreUse core)).bind fun l => (s.gangRooms n rest).map fun r => (core, l) :: r

/-- Room for a convoy on a cluster. -/
def State.roomOnCluster (s : State) (n : Need) (c : Nat) : Option Place :=
  match s.clusterRoom c n with
  | none => none
  | some r => (s.gangRooms n [4 * c, 4 * c + 1, 4 * c + 2, 4 * c + 3]).map fun l => ⟨c, r.1, l, r.2⟩

/-- Room at one core or cluster. DEDUCED (log 63). -/
def State.roomAt (s : State) (n : Need) (i : Nat) : Option Place :=
  if n.convoy then (if i < Config.clusters then s.roomOnCluster n i else none)
  else if i < Config.cores then s.roomOnCore n i else none

/-- The first core or cluster with room. DEDUCED (log 63). -/
def State.findRoom (s : State) (n : Need) : Option Place :=
  (List.range (if n.convoy then Config.clusters else Config.cores)).findSome? (s.roomAt n)

/-- A placement that needs a cluster aborts its structural test (R365). -/
def State.abortTest (s : State) (c : Nat) : State :=
  let f := SMapOps.get FieldTest.zero s.mod.tests c
  if f.running then
    { s with mod := { s.mod with tests := SMapOps.set FieldTest.zero s.mod.tests c { f with running := false } } }
  else s

/-! ### The members of a unit at the start of a phase (R45, R123, R346, R347) -/

/-- A hart as each phase starts it. DEDUCED (log 31). -/
def Hart.fresh (unit : Nat) (engine : Engine) (gang index core part berth : Nat) (role : Role) (start pc : Word) : Hart :=
  { unit := unit, engine := engine, gang := gang, index := index, core := core, part := part, berth := berth,
    pendingBerth := decide (8 ≤ berth), role := role, start := codeTarget start, pc := codeTarget pc, s := [], k := [],
    m := [(0, ⟨BitVec.allOnes 32, 0⟩)], v := [], queue := [], block := none, slot0 := Slot.zero, slot1 := Slot.zero,
    csh := false, corg := false, stack := [], fifo := [], fstat := 0, wstat := 0, corrLimit := 3,
    corrKappa := 0x3FE0000000000000, corrOvf := 0, fmt := fmtReset, walker := 0, ld := [], st := [], cp := [], mx := [],
    ts := [], storeQ := [], loads := [], batchOpen := none, armed := [], userReturn := none, trapped := none,
    laneTrap := none, lastRecord := none, frozen := false, busy := false, wait := none, walk := none,
    suspendedFault := false, halted := false, safeMask := none, netFetch := [], absent := [], ctxV := [], acq := true,
    kills := [], older := [], late := [], synced := 0, floats := [], stallS := none, stallL := none, reached := false,
    doomed := false, ended := none }

/-- The pad mask of a wave (R347). -/
def padMask (gangs unit gang waves wave v0 : Nat) : Word32 :=
  maskOf (allLanes.filter fun l => decide (32 * ((gangs * unit + gang) * waves + wave) + l < v0))

/-- s1, s2 and the preloaded registers. -/
def Hart.preload (h : Hart) (args : Word) (unit : Nat) (pre : List (SReg × TV)) : Hart :=
  h.setSs ([(1, ⟨args, false⟩), (2, ⟨BitVec.ofNat 64 unit, false⟩)] ++ pre)

/-- A later phase's member takes what its phase record carries; one without an entry ended in an earlier phase (R130). -/
def Hart.resume (h : Hart) (cs : List Carry) : Hart :=
  match cs.find? fun c => c.member = h.member with
  | none => { h with ended := some .exited }
  | some c =>
    { h with s := SMapOps.setMany TV.zero h.s c.s, v := c.v, m := SMapOps.set MaskReg.zero h.m 0 c.m0,
             pc := codeTarget c.entry }

/-- The resources a template asks for. -/
def PlaceData.need (d : PlaceData) : Need :=
  ⟨d.tpl.convoy, d.tpl.waves, d.tpl.need, d.tpl.granules, d.tpl.ncrane, d.tpl.nacc, d.rings.length⟩

/-- The record of a unit as it is placed, at some time. DEDUCED (log 63). -/
def PlaceData.gang (d : PlaceData) (vf task index cluster cbase : Nat) (now : Word) : Gang :=
  { vf := vf, task := task, index := index, convoy := d.tpl.convoy, cluster := cluster, waves := d.tpl.waves,
    nregs := d.tpl.regs, wide := d.tpl.wide, nbar := d.tpl.nbar, nacc := d.tpl.nacc, ncrane := d.tpl.ncrane,
    granules := d.tpl.granules, roles := d.tpl.roles, lentry := d.tpl.lentry, image := d.image, cbytes := d.image, ctags := [],
    bars := [], rings := d.rings.map fun r => (r.1, r.2.map (·.bound now)),
    rels := [], gangCopies := [], tiles := [], tpoison := [], mgens := [], marks := [],
    roleMark := none, preempt := none, st := .resident, ticket := 0, cbase := cbase }

/-- The members of a unit at a place: the waves of each gang, then the crane threads. -/
def PlaceData.members (d : PlaceData) (unit index : Nat) (args entry : Word) (p : Place) : List Hart :=
  let gangs := if d.tpl.convoy then 4 else 1
  let waves := (p.gangs.zip (List.range p.gangs.length)).flatMap fun g =>
    (g.1.2.zip (List.range g.1.2.length)).map fun w =>
      let role : Role := if d.tpl.roles.getLsbD w.2 then .loader else .vector
      let h := Hart.fresh unit .wave g.2 w.2 g.1.1 w.1.1 w.1.2 role entry entry
      (h.setM 7 ⟨padMask gangs index g.2 d.tpl.waves w.2 (d.shape % 2 ^ 32), 0⟩).preload args index d.pre
  let cranes := (p.slots.zip d.tpl.centry).zip (List.range p.slots.length) |>.map fun x =>
    (Hart.fresh unit .crane 0 x.2 (craneCore p.cluster) 0 x.1.1 .vector x.1.2 x.1.2).preload args index d.pre
  waves ++ cranes

/-- The lanes that a member of a unit has lost in earlier incarnations of its task (R124). DEDUCED (log 31). -/
def Tcb.lost (t : Tcb) (unit member : Nat) : Word32 :=
  (t.dead.filter fun x => x.1 = unit && x.2.1 = member).foldl (fun m x => m ||| x.2.2) 0

/-- Adds harts under new numbers. -/
def State.addHarts (s : State) (hs : List Hart) : State :=
  hs.foldl (fun s h => let f := s.fresh; f.2.putHart f.1 h) s

/-- Places unit `index` of a task: its first phase, without the lanes its members have lost before (R124), or the next phase
that `carries` records. What the placement reads gave is kept for the units still to come. DEDUCED (log 64). -/
def State.putPlaced (s : State) (vf task index : Nat) (t : Tcb) (d : PlaceData) (p : Place) (carries : List Carry) : State :=
  let f := (s.abortTest p.cluster).fresh
  let first := carries.isEmpty
  let hs := d.members f.1 index t.args d.entry p
  let start (h : Hart) : Hart :=
    if first then h.setM 0 ⟨BitVec.allOnes 32 &&& ~~~(t.lost index h.member), 0⟩ else h.resume carries
  let s1 := (f.2.putUnit f.1 (d.gang vf task index p.cluster p.cbase s.time)).addHarts (hs.map start)
  let t1 : Tcb := { t with st := .running, carries := t.carries.filter fun c => c.unit ≠ index, data := some d }
  s1.putTcb vf task
    (if first then { t1 with entry := d.entry, placed := t.placed + 1, units := d.tpl.count,
                             die := if t.placed = 0 then clusterDie p.cluster else t.die }
     else t1)

/-! ### Placement reads (R346, R347) -/

/-- How the placement reads of a task come out. -/
inductive PlaceRead where
  | ok (d : PlaceData)
  | ends (cls : TrapClass) (cause : Nat)
  | faults (c : Cause) (level : Nat) (va : Word)
  | wait
deriving DecidableEq, Repr

/-- A run of bytes read by the harbourmaster. -/
inductive HmBytes where
  | ok (n : Nat) (p : Bool)
  | poison
  | bad (c : Cause) (level : Nat) (va : Word)
  | wait
deriving DecidableEq, Repr

/-- Joins the sectors of a range: the first failure in order is the one reported. -/
def joinRuns : List ((Word × Nat) × HmGot) → HmBytes
  | [] => .ok 0 false
  | ((va, k), g) :: rest =>
    match g with
    | .bad c l => .bad c l va
    | .wait => .wait
    | .ok v =>
      if v.x then .poison
      else match joinRuns rest with
        | .ok n p => .ok (sectorBytes v.data (va.toNat % 128) k + n * 2 ^ (8 * k)) (v.p || p)
        | other => other

/-- Reads a range at its point of performance. -/
def State.hmRange (s : State) (die vf : Nat) (va : Word) (len : Nat) : State × HmBytes :=
  let rs := runsOf va len
  let q := s.hmSectors die vf (rs.map Prod.fst)
  match q.2 with
  | none => (q.1, .wait)
  | some gs => (q.1, joinRuns (rs.zip gs))

/-- Continues with the bytes of a range, or ends the reads. -/
def State.readThen (s : State) (die vf : Nat) (va : Word) (len : Nat) (k : State → Nat → Bool → State × PlaceRead) :
    State × PlaceRead :=
  let r := s.hmRange die vf va len
  match r.2 with
  | .ok n p => k r.1 n p
  | .poison => (r.1, .ends .scalarPoison 0)
  | .bad c l a => (r.1, .faults c l a)
  | .wait => (r.1, .wait)

/-- Registers a PMASK names, ascending. -/
def pmaskRegs (m : Word) : List Nat := (List.range 64).filter fun i => bitOf m i

/-- Reads the preload values, each with the P of the sectors that hold it: no value clears a tag (R264).
DEDUCED (log 62). -/
def State.readPre (s : State) (die vf : Nat) (pval : Word) (acc : List (SReg × TV))
    (k : State → List (SReg × TV) → State × PlaceRead) : List (Nat × Nat) → State × PlaceRead
  | [] => k s acc
  | (r, i) :: rest =>
    s.readThen die vf (pval + BitVec.ofNat 64 (8 * i)) 8 fun s v p =>
      s.readPre die vf pval (acc ++ [(sreg r, ⟨BitVec.ofNat 64 v, p⟩)]) k rest

/-- Illegal-instruction causes that end a task at placement (R346, R347). -/
def placeIllegal (r : Reason) : PlaceRead := .ends .illegal r.code

/-- The bytes of an image as a map. -/
def imageMap (n len : Nat) : SMap Byte := SMapOps.setMany 0 [] ((List.range len).map fun i => (i, byteOf n i))

/-- The ring table as a map of the bound names. -/
def ringMap (n : Nat) : SMap (Option Ring) :=
  SMapOps.setMany none [] ((List.range 64).map fun i => (i, ringOf (numWord n i)))

/-- All the reads of a placement, in order: template, shape values, preload values, ring table, image.
DEDUCED (log 61, 62). -/
def State.placeReads (s : State) (die vf : Nat) (t : Tcb) : State × PlaceRead :=
  if t.tpl.toNat % 128 ≠ 0 then (s, placeIllegal .mbz)
  else s.readThen die vf t.tpl 384 fun s n _ =>
    if tplBad n || (tplOf n).tooBig then (s, placeIllegal .mbz)
    else
      let x := tplOf n
      s.readThen die vf t.args 16 fun s shape p =>
        if p then (s, .ends .tag 0)
        else match x.buckets.find? fun b => bucketMatches shape b.2 with
          | none => (s, placeIllegal .bucket)
          | some b =>
            let regs := pmaskRegs x.pmask
            let read := fun (s : State) (pre : List (SReg × TV)) =>
              s.readThen die vf x.rings (if x.rings ≠ 0 then 512 else 0) fun s rt _ =>
                s.readThen die vf x.csimg x.cslen fun s im _ =>
                  (s, .ok ⟨x, shape, b.1, pre, imageMap im x.cslen, if x.convoy && x.rings ≠ 0 then ringMap rt else []⟩)
            s.readPre die vf x.pval [] read (regs.zip (List.range regs.length))

/-- A task ends at placement, with its PLACE record and, for a fault, its R35 record. -/
def State.placeEnds (s : State) (vf task : Nat) (t : Tcb) (cls : TrapClass) (cause : Nat) (rec : Option Words) : State :=
  let s1 := match rec with | some w => s.record vf w | none => s
  (s1.endTask vf task cls cause).eventRecord vf 0x08 task (at' 8 (faultCode cls cause).toNat) t.tpl t.args

/-! ### Rounds (R336, R345) -/

/-- Whether a task has a unit to place, and the index of the first: a next phase whose unit is gone, or the next unplaced
one. A relaunched task waits until the copies and tile operations of its killed incarnation are done (R113).
DEDUCED (log 64). -/
def State.unitToPlace (s : State) (vf task : Nat) (t : Tcb) : Option Nat :=
  let here := (s.taskUnits vf task).filterMap fun u => (s.unit? u).map (·.index)
  let phases := (t.carries.map (·.unit)).filter fun i => !here.contains i
  let next := if t.st = .ready then (if (s.taskUnits vf task).isEmpty then [0] else [])
    else if t.st = .running && decide (t.placed < t.units) then [t.placed] else []
  least (phases ++ next)

/-- The order of a VF's tasks: those partly placed first, then ready-queue order. DEDUCED (log 64). -/
def taskOrder (id : Nat) (t : Tcb) : List Nat :=
  [if t.st = .running then 0 else 1, 7 - t.prio.toNat] ++ queueKey t.time ++ [id]

/-- Puts a task into an ordered list. -/
def insertTask (x : Nat × Tcb) : List (Nat × Tcb) → List (Nat × Tcb)
  | [] => [x]
  | y :: ys => if lexLt (taskOrder x.1 x.2) (taskOrder y.1 y.2) then x :: y :: ys else y :: insertTask x ys

/-- The tasks of a VF that have units to place, in order. In a cancelled job no task starts and no phase follows; a running task
places nothing while its die's harbourmaster does not act (R366).
DEDUCED (log 65). -/
def State.tasksToPlace (s : State) (vf : Nat) : List (Nat × Tcb) :=
  (s.prog.tasks.filterMap fun p => match p.2 with
    | some t =>
      if p.1 / 2 ^ 32 = vf && (t.st = .ready || t.st = .running && s.harbourOk t.die) && !s.jobCancelled vf t.job.toNat &&
        (s.unitToPlace vf (p.1 % 2 ^ 32) t).isSome then some (p.1 % 2 ^ 32, t) else none
    | none => none).foldr insertTask []

/-- What an attempt at a unit does. -/
inductive Placed where
  | placed | blocked | ended
deriving DecidableEq, Repr

/-- What the placement reads of a task give: those it has made, else those made now (R346). DEDUCED (log 64). -/
def State.placeData (s : State) (vf : Nat) (t : Tcb) : State × PlaceRead :=
  match t.data with
  | some d => (s, .ok d)
  | none => s.placeReads 0 vf t

/-- Tries to place a unit of a task. DEDUCED (log 64). -/
def State.tryPlace (s : State) (vf task : Nat) (t : Tcb) (index : Nat) : State × Placed :=
  let r := s.placeData vf t
  match r.2 with
  | .wait => (r.1, .blocked)
  | .ends cls cause => ((r.1.hmDone 0).placeEnds vf task t cls cause none, .ended)
  | .faults c l va =>
    ((r.1.hmDone 0).placeEnds vf task t c.trapClass c.code
      (some (faultWords va l c.code 0 vf (s.space vf) (kindCode .copyRead) 0 (BitVec.ofNat 64 (task % 2 ^ 32)))), .ended)
  | .ok d =>
    match r.1.findRoom d.need with
    | none => (r.1.hmDone 0, .blocked)
    | some p => ((r.1.hmDone 0).putPlaced vf task index t d p (t.carries.filter fun c => c.unit = index), .placed)

/-- The priority of a unit's task. -/
def State.unitPrio (s : State) (g : Gang) : Nat := match s.tcb? g.vf g.task with | some t => t.prio.toNat | none => 0

/-- Whether a saved unit of a VF that a test selects waits to be restored. -/
def State.savedUnit (s : State) (vf : Nat) (f : Gang → Bool) : Bool :=
  s.gangs.any fun p => match p.2 with | some g => g.st = .saved && g.vf = vf && f g | none => false

/-- What is left of a VF's turn goes to its saved units: each is restored by an event of its own. -/
def State.setQuota (s : State) (vf n : Nat) : State :=
  { s with mod := { s.mod with quota := SMapOps.set 0 s.mod.quota vf n } }

/-- How many saved units of a VF may still be restored. -/
def State.quotaOf (s : State) (vf : Nat) : Nat := SMapOps.get 0 s.mod.quota vf

/-- A VF's turn: up to `weight` units, `fuel` attempts; the restores that follow count too. No task goes before a saved unit of a
higher priority level, at whose tail that unit waits (R197, R345). DEDUCED (log 69). -/
def State.vfTurn (s : State) (vf : Nat) : Nat → Nat → State
  | 0, weight => s.setQuota vf weight
  | fuel + 1, weight =>
    if weight = 0 then s.setQuota vf 0
    else match s.tasksToPlace vf with
      | [] => s.setQuota vf weight
      | (task, t) :: _ => if s.savedUnit vf fun g => decide (t.prio.toNat < s.unitPrio g) then s.setQuota vf weight
        else match s.unitToPlace vf task t with
        | none => s.setQuota vf weight
        | some i =>
          let r := s.tryPlace vf task t i
          match r.2 with
          | .placed => r.1.vfTurn vf fuel (weight - 1)
          | .ended => r.1.vfTurn vf fuel weight
          | .blocked => r.1.setQuota vf 0

/-- The VFs that have tasks, in the order of a round: ascending from its start point. DESIGN CHOICE (log 66). -/
def State.roundOrder (s : State) : List Nat :=
  let vfs := (s.prog.tasks.map fun p => p.1 / 2 ^ 32).eraseDups
  vfs.filter (fun v => decide (s.mod.round ≤ v)) ++ vfs.filter fun v => decide (v < s.mod.round)

/-- PLACEMENT_ROUND. DESIGN CHOICE (log 66). -/
def execPlacementRound (s : State) : Out :=
  .next (if s.mod.power ≠ .on || !s.harbourOk 0 then s
    else
      let s1 := s.parseAll.sweepUnits.finishUnloads
      let s2 := s1.roundOrder.foldl (fun s vf =>
        let weight := bits (s.vfRegs vf).sched 0 8
        s.vfTurn vf (weight + s.prog.tasks.length) weight) s1
      { s2 with mod := { s2.mod with round := (s2.mod.round + 1) % 1024 } })

/-! ### Berths and roles (R350, R352) -/

/-- The waves of a hart's partition. DEDUCED (log 68). -/
def State.mates (s : State) (h : Hart) : List (Nat × Hart) :=
  s.holders.flatMap fun p => (s.unitHarts p.1).filterMap fun id => match s.hart? id with
    | some x => if x.engine = .wave && x.core = h.core && x.part = h.part then some (id, x) else none
    | none => none

/-- Whether a wave stalls on something for which it may leave its active berth: a load counter, a barrier, `ssleep`, a ring,
`fwait`, `mwait` or a counter limit, at which its S-stream stands, or its lanes while the S-stream waits for them; a miss
limit never holds it, since the model's walks take no time (R27, R91, R350). DEDUCED (log 68). -/
def Hart.stalls (h : Hart) : Bool :=
  match h.wait with
  | some (.swait ld ..) => decide (ld < h.count .ld)
  | some (.barWait ..) | some (.ssleep ..) | some (.ringRes ..) | some (.ringGet ..) | some (.fwait ..) | some (.mwait ..) => true
  | some (.lsync _) | some (.sget _) | some (.lrun _) => h.stallL.any h.full
  | some _ => false
  | none => h.stallS.any h.full

/-- Whether a pending wave is ready: it stalls on nothing any more (R350). -/
def Hart.pendingReady (h : Hart) : Bool :=
  h.pendingBerth && !h.stalls && h.ended.isNone && !h.suspendedFault && !h.halted && h.safeMask.isNone

/-- BERTH_SWAP: a stalled wave goes to a pending berth, and the oldest ready pending wave takes its place; the oldest ready
pending wave is promoted to an active berth that is free (R350). DEDUCED (log 68). -/
def execBerthSwap (hart : Nat) (s : State) : Out :=
  .next (match s.hart? hart with
    | none => s
    | some h =>
      let ms := s.mates h
      let ready := ms.find? fun x => x.2.pendingReady
      if h.engine ≠ .wave || h.ended.isSome || s.saved h then s
      else if h.pendingBerth then
        match (List.range 8).find? fun b => !ms.any fun x => x.2.berth = b with
        | some b => if ready.map Prod.fst = some hart then s.putHart hart { h with berth := b, pendingBerth := false } else s
        | none => s
      else if !h.stalls then s
      else
        let room := ((List.range Config.berths).drop 8).find? fun b => !ms.any fun x => x.2.berth = b
        match ready, room with
        | some x, _ =>
          (s.putHart hart { h with berth := x.2.berth, pendingBerth := true }).modHart x.1 fun y =>
            { y with berth := h.berth, pendingBerth := false }
        | none, some b => s.putHart hart { h with berth := b, pendingBerth := true }
        | none, none => s)

/-- Whether an occupancy history, newest first, has met a test for the last `ticks` ticks. -/
def stayed (now : Word) (ticks : Nat) (f : Nat → Bool) : List (Nat × Word) → Bool
  | [] => false
  | (n, t) :: rest => f n && (decide (t.toNat + ticks ≤ now.toNat) || stayed now ticks f rest)

/-- Whether a wave may be marked for the loader's role: a vector wave that waits on a ring whose occupancy has stayed at LOW
or below for TIME ticks, another vector wave of its gang staying (R352). DESIGN CHOICE (log 67). -/
def State.starves (s : State) (u hid : Nat) (h : Hart) (g : Gang) (low ticks : Nat) : Bool :=
  h.role = .vector && (match h.wait with
    | some (.ringRes q _) | some (.ringGet q _) => (match g.ring q with
        | some r => stayed s.time ticks (fun n => decide (n ≤ low)) r.hist
        | none => false)
    | _ => false) &&
  (s.unitHarts u).any fun id => match s.hart? id with
    | some x => id ≠ hid && x.engine = .wave && x.gang = h.gang && x.role = .vector && x.ended.isNone
    | none => false

/-- Whether a reassigned loader may go back: every enabled ring has held a surplus for TIME ticks (R352).
DESIGN CHOICE (log 67). -/
def surplus (now : Word) (h : Hart) (g : Gang) (high ticks : Nat) : Bool :=
  h.role = .loader && !g.roles.getLsbD h.index &&
  ((List.range 64).filterMap g.ring).all fun r => stayed now ticks (fun n => decide (high ≤ n)) r.hist

/-- ROLE_MARK: a ring's occupancy has stayed past its threshold for the dwell time, and a wave is marked (R352).
DESIGN CHOICE (log 67). -/
def execRoleMark (unit hart : Nat) (s : State) : Out :=
  .next (match s.unit? unit, s.hart? hart with
    | some g, some h =>
      let r := s.vfRegs g.vf
      if !g.convoy || g.lentry = 0 || r.roleTime = 0 || g.roleMark.isSome || g.st ≠ .resident || h.unit ≠ unit ||
        h.engine ≠ .wave || h.ended.isSome || !s.harbourOk (clusterDie g.cluster) then s
      else if s.starves unit hart h g r.roleLow.toNat r.roleTime.toNat ||
          surplus s.time h g r.roleHigh.toNat r.roleTime.toNat then
        s.putUnit unit { g with roleMark := some hart }
      else s
    | _, _ => s)

/-! ### Restoring a context (R310, R355) -/

/-- The map bytes of the waves inside `wloop`: they return to the new reservation (R291). DEDUCED (log 69). -/
def State.mapBytes (s : State) (u : Nat) (g : Gang) : List (Nat × Byte) :=
  (s.unitHarts u).flatMap fun id => match s.hart? id with
    | some h =>
      if h.walk.isSome then
        g.cbytes.filter fun p => decide (walkOff h.walker ≤ p.1 ∧ p.1 < walkOff h.walker + walkLen h.walker)
      else []
    | none => []

/-- The tags of those bytes' granules go with them (R265, R354). -/
def State.mapTags (s : State) (u : Nat) (g : Gang) : SMap (Bool × Bool) :=
  g.ctags.filter fun p => (s.unitHarts u).any fun id => match s.hart? id with
    | some h => h.walk.isSome && decide (walkOff h.walker ≤ 128 * p.1 ∧ 128 * p.1 < walkOff h.walker + walkLen h.walker)
    | none => false

/-- The clean bytes of the waves inside `wloop`: what the map held as zero is zero again. -/
def State.mapSpan (s : State) (u : Nat) (bytes : SMap Byte) : SMap Byte :=
  (s.unitHarts u).foldl (fun b id => match s.hart? id with
    | some h =>
      if h.walk.isSome then
        b.filter fun p => !decide (walkOff h.walker ≤ p.1 ∧ p.1 < walkOff h.walker + walkLen h.walker)
      else b
    | none => b) bytes

/-- A member at its new place; its acquire is performed with the placement (R86). DEDUCED (log 69). -/
def Hart.moveTo (h : Hart) (core part berth : Nat) : Hart :=
  { h with core := core, part := part, berth := berth, pendingBerth := decide (8 ≤ berth) && h.engine = .wave,
           safeMask := none, acq := false }

/-- Where a member of a unit goes. -/
def Place.of (p : Place) (h : Hart) : Nat × Nat × Nat :=
  match h.engine with
  | .crane => (craneCore p.cluster, 0, p.slots.getD h.index 0)
  | .wave => match p.gangs[h.gang]? with
    | some (core, l) => let x := l.getD h.index (0, 0); (core, x.1, x.2)
    | none => (h.core, h.part, h.berth)

/-- Whether a barrier's saved image is one that a restore refuses (R96). -/
def Barrier.refused (b : Barrier) : Bool := b.rsv ≠ 0 || decide (7 ≤ b.ccause.toNat)

/-- The cores that hold members of a unit. -/
def State.unitCores (s : State) (u : Nat) : List Nat :=
  ((s.unitHarts u).filterMap fun id => (s.hart? id).map (·.core)).eraseDups

/-- Whether a saved unit is next to be restored: it waits at the tail of its priority level, behind the tasks of its VF of
that level and above, and behind the units saved before it (R197). DEDUCED (log 69). -/
def State.restoreTurn (s : State) (g : Gang) : Bool :=
  !((s.tasksToPlace g.vf).any fun p => decide (s.unitPrio g ≤ p.2.prio.toNat)) &&
  !(s.savedUnit g.vf fun x => decide (s.unitPrio g < s.unitPrio x) ||
    (s.unitPrio x = s.unitPrio g && decide (x.ticket < g.ticket)))

/-- The first core or cluster where a unit can be restored. -/
def State.restorePlace (s : State) (g : Gang) : Option Nat :=
  (List.range (if g.convoy then Config.clusters else Config.cores)).find? fun i => (s.roomAt g.need i).isSome

/-- CONTEXT_RESTORE: a saved unit is placed anew at a core or cluster, and acquires k there before its first instruction
(R86), within what its VF's turn has left, while the harbourmasters act (R345, R366). A saved image with a reserved barrier field
is refused (R96), and a doomed member meets the code-gone fault first. DEDUCED (log 69). -/
def execContextRestore (unit : Nat) (place : Nat) (s : State) : Out :=
  .next (match s.unit? unit with
    | none => s
    | some g =>
      let die := match s.tcb? g.vf g.task with | some t => t.die | none => 0
      if g.st ≠ .saved || s.mod.power ≠ .on || !s.restoreTurn g || s.quotaOf g.vf = 0 || !s.harbourOk 0 || !s.harbourOk die then s
      else if g.bars.any fun b => b.2.refused then s.endTask g.vf g.task .barrierMisuse 0
      else match s.roomAt g.need place with
        | none => s
        | some p =>
          let cbytes := SMapOps.setMany 0 (s.mapSpan unit g.image) (s.mapBytes unit g)
          let s1 := ((s.setQuota g.vf (s.quotaOf g.vf - 1)).abortTest p.cluster).forEach (fun s id => s.modHart id fun h =>
            let x := p.of h
            h.moveTo x.1 x.2.1 x.2.2) (s.unitHarts unit)
          let g1 : Gang := { g with cluster := p.cluster, cbase := p.cbase, cbytes := cbytes, ctags := s.mapTags unit g, st := .resident,
                                    rings := g.rings.map fun r => (r.1, r.2.map (·.bound s.time)) }
          let s2 := (s1.unitCores unit).foldl (fun s c => s.acquireGen c letterK) (s1.putUnit unit g1)
          if (s.unitHarts unit).any (fun id => match s.hart? id with | some h => h.doomed && h.ended.isNone | none => false) then
            s2.endTask g.vf g.task .codeGone 0
          else s2)

end Sys2Proof.Machine
end

