-- ==== Sys2Proof/Machine/Bench.lean ====
section
/-! DEFINITION. One unit placed by hand, with one word of code: what stands for a loaded and launched program when
a test asks for its next instruction (log 20). -/

namespace Sys2Proof.Machine

/-- Virtual page of the code, its frame, and the entry address: the vector table of zeros stands before it (R358). -/
def benchPage : Nat := 1
def benchFrame : Nat := 0x100000
def benchEntry : Word := 0x1100

/-- The sector of GDDR that holds the word, and its contents. -/
def benchSector : Nat := (benchFrame + 0x100) / 128
def benchCode (w : Nat) : DsSector := ⟨true, BitVec.ofNat 1024 (w % 2 ^ 96), false, false⟩

/-- The translation of the code page, held by a core. -/
def benchTlb (core : Nat) : TlbEntry :=
  { site := .core core, vf := 0, space := none, bitsLog := 12, page := benchPage, base := benchFrame, w := false, x := true,
    mt := .normal, d := false, leaf := 0, entry := 0 }

/-- The task of the unit: RUNNING, in job 0 of VF 0. DESIGN CHOICE (log 20). -/
def benchTcb : Tcb :=
  { st := .running, prio := 0, priv := false, msg := false, disc := false, canc := false, time := 0, job := 0, node := 0,
    entry := benchEntry, pend := 0, scnt := 0, slrel := 0, args := 0, tpl := 0, fcode := 0, relaunch := 0, die := 0,
    batch := [], spilt := 0, placed := 1, units := 1, carries := [], msgs := [], data := none, dead := [], waited := [], leaving := false }

/-- The unit: one wave with all lane registers and its wide accumulators, or one crane thread with all tiles.
DESIGN CHOICE (log 20). -/
def benchUnit (e : Engine) : Gang :=
  { vf := 0, task := 0, index := 0, convoy := e = .crane, cluster := 0, waves := 1, nregs := 976, wide := true, nbar := 16,
    nacc := 8, ncrane := if e = .crane then 1 else 0, granules := 64, roles := 0, lentry := 0, image := [], cbytes := [],
    ctags := [], bars := [], rings := [], rels := [], gangCopies := [], tiles := [], tpoison := [], mgens := [],
    marks := [], roleMark := none, preempt := none, st := .resident, ticket := 0, cbase := 0 }

/-- The core of the hart. -/
def benchCore (e : Engine) : Nat := match e with | .wave => 0 | .crane => craneCore 0

/-- The role that may issue the word: a loader for the copies, a vector wave for the rest (R128). -/
def benchRole (lane : Bool) (w : Nat) : Role := if !lane && w / 2 ^ 26 % 64 = 0x1B then .loader else .vector

/-- The hart, its phase's acquire behind it; a lane word is the first of a running block. DESIGN CHOICE (log 20). -/
def benchHart (e : Engine) (r : Role) (lane : Bool) : Hart :=
  { Hart.fresh 0 e 0 0 (benchCore e) 0 0 r benchEntry benchEntry with
      acq := false,
      block := if lane then some ⟨benchEntry, [], 0⟩ else none,
      slot0 := if lane then ⟨0, BitVec.allOnes 32, false, .run⟩ else Slot.zero }

/-- The module with that unit alone, its VF's translation enabled, its hart next to issue the word. DESIGN CHOICE (log 20). -/
def State.placed (s : State) (nbits w : Nat) : State :=
  let lane := decide (32 < nbits)
  let e := if lane then Engine.wave else engineOf (BitVec.ofNat 32 w)
  { s with
      cur := if lane then .lane 0 false else .scalar 0, sched := [],
      harts := [(0, some (benchHart e (benchRole lane w) lane))], gangs := [(0, some (benchUnit e))],
      mem := { s.mem with
        ds := SMapOps.set none s.mem.ds benchSector (some (benchCode w)), l1 := [],
        tlb := [benchTlb (benchCore e)] },
      prog := { s.prog with
        tasks := [(0, some benchTcb)],
        jobs := [(0, some ⟨[], [], [], [], [], [], false, false, 0, 0, [], false⟩)] },
      mod := { s.mod with
        power := .on,
        vfs := SMapOps.set VfRegs.zero s.mod.vfs 0 { s.vfRegs 0 with troot := (s.vfRegs 0).troot ||| 1 } } }

end Sys2Proof.Machine
end

