-- ==== Sys2Proof/Machine/EvHost.lean ====
section
/-! DEFINITION. The management endpoint: ownership and its commands (R34, R39, R113, R199, R330, R334, R338, R356, R364, R392
to R395, R399, R400). -/

namespace Sys2Proof.Machine

/-! ### Responses (R393, R394) -/

/-- A response. DESIGN CHOICE (log 10). -/
def State.respond (s : State) (host code : Nat) (ok : Bool) (w : Words) : State := s.emit (.response host code ok w)

/-- A refused command: an error response, and its line in the management log. DESIGN CHOICE (log 10). -/
def State.refuse (s : State) (host code : Nat) (addr : Word) : State :=
  (s.respond host code false []).note [BitVec.ofNat 64 host, addr]

/-- A command that only the owner of a scope may issue, on an endpoint that is up; `addr` is the address it names. -/
def State.ownerOnly (s : State) (host code : Nat) (addr : Word) (sc : OwnScope) (k : State → State) : State :=
  if s.mod.power ≠ .on then s
  else if s.ownerOf sc ≠ some host then s.refuse host code addr
  else if s.scopeBusy sc then s
  else k s

/-- A command of a VF's owner that names no address. -/
def vfCmd (host code vf : Nat) (s : State) (k : State → State) : Out :=
  .next (s.ownerOnly host code 0 (.vf vf) k)

/-- Keeps an accepted command, or forgets one that has completed. -/
def State.accept (s : State) (a : Option OwnScope × HostCmd) : State :=
  { s with mod := { s.mod with accepted := s.mod.accepted ++ [a] } }
def State.unaccept (s : State) (a : Option OwnScope × HostCmd) : State :=
  { s with mod := { s.mod with accepted := s.mod.accepted.filter (· ≠ a) } }

/-- One attempt at a command that may have to wait; `k` is told whether it is the first, and says whether the command is
complete. -/
def State.attempt (s : State) (a : Option OwnScope × HostCmd) (k : Bool → State → State × Bool) : State :=
  if s.mod.accepted.contains a then
    let r := k false s
    if r.2 then r.1.unaccept a else r.1
  else
    let r := k true s
    if r.2 then r.1 else r.1.accept a

/-- An owner's command that may not complete in the step that accepts it: once accepted it completes, whoever owns the scope
by then (R392). The event takes place again to complete it. DEDUCED (log 102). -/
def State.longCommand (s : State) (host code : Nat) (addr : Word) (sc : OwnScope) (i : HostCmd)
    (k : Bool → State → State × Bool) : State :=
  if s.mod.power = .on ∧ s.mod.accepted.contains (some sc, i) = true then s.attempt (some sc, i) k
  else s.ownerOnly host code addr sc fun s => s.attempt (some sc, i) k

/-! ### Ownership (R392) -/

/-- The record of a scope: vacant when there is none. -/
def State.scopeRec (s : State) (sc : OwnScope) : Ownership := (s.ownership sc).getD ⟨sc, none, [], 0⟩

/-- Writes the record of a scope. -/
def State.setScope (s : State) (o : Ownership) : State :=
  { s with mod := { s.mod with owners := s.mod.owners.filter (fun x => x.scope ≠ o.scope) ++ [o] } }

/-- Whether a scope exists. -/
def scopeExists : OwnScope → Bool
  | .module => true
  | .vf n => decide (n < 1024)

/-- A lease in ticks of the 1 GHz timebase (R2), and when it lapses. DESIGN CHOICE (log 71). -/
def State.lapseAt (s : State) (lease : Nat) : Word := s.time + BitVec.ofNat 64 (lease * 10 ^ 9)

def leaseOk (lease : Nat) : Bool := decide (1 ≤ lease ∧ lease ≤ 3600)

/-- The order of claims: priority, then nonce. -/
def Claim.beats (x y : Claim) : Bool :=
  decide (y.prio.toNat < x.prio.toNat) || (x.prio = y.prio && decide (y.nonce.toNat < x.nonce.toNat))

/-- Ends a collection window: the one best claim is granted, the others are refused. DESIGN CHOICE (log 71). -/
def State.settleClaims (s : State) (sc : OwnScope) : State :=
  let o := s.scopeRec sc
  let best := o.claims.find? fun x => o.claims.all fun y => x = y || x.beats y
  let tied := fun (x : Claim) => decide (1 < (o.claims.filter (· = x)).length)
  match best with
  | some x =>
    if tied x then
      (o.claims.foldl (fun s c => s.refuse c.host 0x01 0) s).setScope { o with owner := none, claims := [] }
    else
      ((o.claims.filter (· ≠ x)).foldl (fun s c => s.refuse c.host 0x01 0) (s.respond x.host 0x01 true [])).setScope
        { o with owner := some (x.host, s.lapseAt x.lease), claims := [] }
  | none => (o.claims.foldl (fun s c => s.refuse c.host 0x01 0) s).setScope { o with owner := none, claims := [] }

/-- Whether the window of the claims collected for a scope has ended. DESIGN CHOICE (log 71). -/
def State.windowOver (s : State) (sc : OwnScope) : Bool :=
  let o := s.scopeRec sc
  !o.claims.isEmpty && decide (o.firstClaim.toNat + Config.claimTicks ≤ s.time.toNat)

/-- CLAIM; like every command it waits while an accepted command of its scope has still to complete (R392). -/
def execClaim (host : Nat) (scope : OwnScope) (prio : BitVec 8) (nonce : Word) (lease : Nat) (s0 : State) : Out :=
  .next (
    let s := if s0.windowOver scope then s0.settleClaims scope else s0
    if s.mod.power ≠ .on || s.scopeBusy scope then s
    else if !leaseOk lease || !scopeExists scope || (s.ownerOf scope).isSome then s.refuse host 0x01 0
    else
      let o := s.scopeRec scope
      let c : Claim := ⟨host, prio, nonce, lease⟩
      s.setScope { o with owner := none, claims := o.claims ++ [c], firstClaim := if o.claims.isEmpty then s.time else o.firstClaim })

def execRenew (host : Nat) (scope : OwnScope) (lease : Nat) (s : State) : Out :=
  .next (s.ownerOnly host 0x02 0 scope fun s =>
    if leaseOk lease then
      (s.setScope { s.scopeRec scope with owner := some (host, s.lapseAt lease) }).respond host 0x02 true []
    else s.refuse host 0x02 0)

def execRelease (host : Nat) (scope : OwnScope) (s : State) : Out :=
  .next (s.ownerOnly host 0x03 0 scope fun s =>
    (s.setScope { s.scopeRec scope with owner := none }).respond host 0x03 true [])

def execGrant (host : Nat) (scope : OwnScope) (recipient : Nat) (lease : Nat) (s : State) : Out :=
  .next (s.ownerOnly host 0x04 0 scope fun s =>
    if leaseOk lease then
      (s.setScope { s.scopeRec scope with owner := some (recipient, s.lapseAt lease) }).respond host 0x04 true []
    else s.refuse host 0x04 0)

def execClaimWindowExpiry (scope : OwnScope) (s : State) : Out :=
  .next (if s.windowOver scope then s.settleClaims scope else s)

def execLeaseLapse (scope : OwnScope) (s : State) : Out :=
  .next (match (s.scopeRec scope).owner with
    | some (_, lapse) =>
      if lapse.toNat ≤ s.time.toNat then s.setScope { s.scopeRec scope with owner := none } else s
    | none => s)

/-! ### READ and WRITE of physical space (R51, R52, R393, R431) -/

/-- The runs of a physical range, cut at sectors: `fuel` runs at most. -/
def physRuns (a : Nat) : Nat → Nat → List (Nat × Nat)
  | 0, _ => []
  | fuel + 1, n =>
    if n = 0 then [] else (a, Nat.min n (128 - a % 128)) :: physRuns (a + Nat.min n (128 - a % 128)) fuel
      (n - Nat.min n (128 - a % 128))

/-- Whether the management endpoint reaches a physical address: all of R11's map, a network window while it is enabled.
DEDUCED (log 72). -/
def State.physReach (s : State) (a : Nat) : Bool := isGddr a || isMeta a || isCtl a || (isNet a && s.winEn a)

/-- The number under which the management endpoint has network accesses in flight. -/
def mgmtCore : Nat := 1024

/-- Asks for a sector of a network window, once, unless it has answered. -/
def State.mgmtAsk (s : State) (sec : Nat) : State × Bool :=
  if (s.answered mgmtCore sec).isSome then (s, true)
  else if s.mem.flights.any (fun p => match p.2 with
    | some f => f.core = mgmtCore && f.kind = .netLoad sec
    | none => false) then (s, false)
  else (s.askSector 0 mgmtCore 0 sec, false)

/-- Asks for every sector of some runs that lies in a network window: whether all have answered. -/
def State.mgmtAsks (s : State) : List (Nat × Nat) → State × Bool
  | [] => (s, true)
  | r :: rs =>
    let x := if isNet r.1 then s.mgmtAsk (sectorOf r.1) else (s, true)
    let q := x.1.mgmtAsks rs
    (q.1, x.2 && q.2)

/-- Forgets the answers. -/
def State.mgmtDone (s : State) : State :=
  { s with mem := { s.mem with flights := s.mem.flights.filter fun p => match p.2 with
    | some f => !(f.core = mgmtCore && (match f.kind with | .netAnswer .. => true | _ => false))
    | none => true } }

/-- Whether a write of the management endpoint into a network window has still to complete. -/
def State.mgmtBusy (s : State) : Bool :=
  s.mem.flights.any fun p => match p.2 with | some f => f.core = mgmtCore && f.kind.remote | none => false

/-- The stored bytes of one metadata sector: what GDDR holds, zero past the last described sector. -/
def metaBytes (m : List Host.Cell) (a n : Nat) : Nat := if Config.metaUsedEnd ≤ a then 0 else bytesNum m a n

/-- Reads one run: its number, its P and its X. -/
def State.physRead (s : State) (r : Nat × Nat) : State × Nat × Bool × Bool :=
  if isGddr r.1 then
    let v := s.homeRead (sectorOf r.1)
    (v.1, sectorBytes v.2.data (r.1 % 128) r.2, v.2.p, v.2.x)
  else if isMeta r.1 then (s, metaBytes s.mem.mem r.1 r.2, false, false)
  else if isNet r.1 then
    let d := (s.answered mgmtCore (sectorOf r.1)).getD (0, false)
    (s, sectorBytes d.1 (r.1 % 128) r.2, d.2 && s.winProp r.1, false)
  else (s, sectorBytes (s.ctlSector r.1) (r.1 % 128) r.2, false, false)

/-- Reads all runs: the bytes, the P of each run, and whether one is poisoned. -/
def State.physReads (s : State) : List (Nat × Nat) → State × List Byte × List Bool × Bool
  | [] => (s, [], [], false)
  | r :: rs =>
    let x := s.physRead r
    let q := x.1.physReads rs
    (q.1, toBytes r.2 x.2.1 ++ q.2.1, x.2.2.1 :: q.2.2.1, x.2.2.2 || q.2.2.2)

/-- The bytes of some words. -/
def wordBytes (ws : List Words) : List Byte := ws.flatMap fun w => w.flatMap fun x => toBytes 8 x.toNat

/-- A READ of length 0, which no rule defines, returns the list whose handle the address is (R365), else the management log
(R394), whose addresses no rule gives. DESIGN CHOICE (log 17). -/
def State.readLists (s : State) (addr : Nat) : List Byte :=
  match s.mod.lists.find? fun x => x.1.toNat = addr with
  | some x => wordBytes x.2
  | none => wordBytes s.mod.log

/-- READ: after a power-on that refused its firmware only the module's status can be read (R394). DEDUCED (log 72). -/
def execRead (host : Nat) (addr len : Nat) (s : State) : Out :=
  .next (
    let rs := physRuns addr (len / 128 + 2) len
    match s.mod.power with
    | .off | .down => s
    | .refused => s.respond host 0x10 true [1]
    | .on =>
      if len = 0 then s.emit (.bytes host 0x10 (s.readLists addr) [])
      else if decide (4096 < len) || rs.any fun r => !s.physReach r.1 then s.refuse host 0x10 (BitVec.ofNat 64 addr)
      else s.attempt (none, .read host addr len) fun _ s =>
        let a := s.mgmtAsks rs
        if !a.2 then (a.1, false)
        else
          let q := a.1.physReads rs
          (if q.2.2.2 then q.1.mgmtDone.refuse host 0x10 (BitVec.ofNat 64 addr)
            else q.1.mgmtDone.emit (.bytes host 0x10 q.2.1 q.2.2.1), true))

/-- The metadata words a range of bytes touches, each with its new value. -/
def metaWords (m : List Host.Cell) (a : Nat) (bs : List Byte) : List (Nat × Nat) :=
  let first := a / 4 * 4
  let last := (a + bs.length + 3) / 4 * 4
  (List.range ((last - first) / 4)).map fun i =>
    let w := first + 4 * i
    let byte (k : Nat) : Byte := if a ≤ w + k ∧ w + k < a + bs.length then bs.getD (w + k - a) 0 else byteAt m (w + k)
    (w, ofBytes ((List.range 4).map byte))

/-- One run of a WRITE: the state after it, and whether it was allowed. The metadata words it writes in part keep what the die
store's own write-back leaves in them (R52). -/
def State.physWrite (s : State) (host : Nat) (a : Nat) (bs : List Byte) : State × Bool :=
  if isGddr a then (s.homeWrite (smallWrite a bs.length (ofBytes bs)), true)
  else if isNet a then (s.sendWrite 0 mgmtCore 0 false (smallWrite a bs.length (ofBytes bs)), true)
  else if isMeta a then
    let used (s : State) : List (Nat × Nat) := (metaWords s.mem.mem a bs).filter fun w => w.1 < Config.metaUsedEnd
    let s1 := (used s).foldl (fun s w => s.homeEvict ((w.1 - Config.metaBase) / 4)) s
    ((used s1).foldl (fun s w => s.metaWrite ((w.1 - Config.metaBase) / 4) w.2) s1, true)
  else
    let off := a - Config.ctlBase
    (List.range ((bs.length + 7) / 8 + 1)).foldl (fun (r : State × Bool) i =>
      let w := off / 8 * 8 + 8 * i
      if off ≤ w ∧ w + 8 ≤ off + bs.length then
        let v := BitVec.ofNat 64 (ofBytes ((bs.drop (w - off)).take 8))
        let q := r.1.ctlWrite (.host host) w 8 v
        (q.1, r.2 && (q.2 || (ctlRegAt w).isNone))
      else r) (s, true)

/-- All runs of a WRITE. DEDUCED (log 72). -/
def State.physWrites (s : State) (host : Nat) : List (Nat × Nat) → List Byte → State × Bool
  | [], _ => (s, true)
  | r :: rs, bs =>
    let x := s.physWrite host r.1 (bs.take r.2)
    let q := x.1.physWrites host rs (bs.drop r.2)
    (q.1, x.2 && q.2)

/-- Whether a WRITE would set a must-be-zero bit of a metadata word (R51). DEDUCED (log 72). -/
def metaBad (m : List Host.Cell) (rs : List (Nat × Nat)) (a : Nat) (bs : List Byte) : Bool :=
  rs.any fun r => isMeta r.1 &&
    (metaWords m r.1 ((bs.drop (r.1 - a)).take r.2)).any fun w => w.1 < Config.metaUsedEnd && decide (2 ^ 18 ≤ w.2)

/-- WRITE, by the module owner: its writes into network windows complete before it does. A metadata word with a must-be-zero
bit is refused with cause RSVD (R51). DEDUCED (log 72). -/
def execWrite (host : Nat) (addr : Nat) (data : List Byte) (s : State) : Out :=
  let rs := physRuns addr (data.length / 128 + 2) data.length
  .next (s.longCommand host 0x11 (BitVec.ofNat 64 addr) .module (.write host addr data) fun first s =>
    if !first then
      if s.mgmtBusy then (s, false) else (s.respond host 0x11 true [], true)
    else if decide (4096 < data.length) || rs.any fun r => !s.physReach r.1 then
      (s.refuse host 0x11 (BitVec.ofNat 64 addr), true)
    else if metaBad s.mem.mem rs addr data then
      ((s.respond host 0x11 false [BitVec.ofNat 64 Cause.rsvd.code]).note [BitVec.ofNat 64 host, BitVec.ofNat 64 addr], true)
    else
      let q := s.physWrites host rs data
      if q.1.mgmtBusy then (q.1, false) else (q.1.respond host 0x11 q.2 [], true))

/-! ### Unloading and invalidation (R34, R356, R387) -/

/-- UNLOAD: at once when nothing points into the image, by force at once, else deferred. It completes when no access holds
a translation that its invalidation dropped (R387). -/
def execUnload (host vf : Nat) (base : Word) (force : Bool) (s : State) : Out :=
  .next (s.longCommand host 0x21 base (.vf vf) (.unload host vf base force) fun first s =>
    let done (s : State) : State × Bool :=
      let r := s.quiesce vf
      if r.2 then (r.1.respond host 0x21 true [], true) else (r.1, false)
    if !first then done s
    else match s.mod.images.find? fun i => i.vf = vf && i.base = base with
      | none => (s.refuse host 0x21 base, true)
      | some i =>
        if force then done ((s.doomUsers i).removeImage i)
        else if !s.imageUsed i then done (s.removeImage i)
        else
          let leave (x : Image) : Image := if x.vf = vf && x.base = base then { x with leaving := true } else x
          let s1 : State := { s with mod := { s.mod with images := s.mod.images.map leave } }
          (s1.respond host 0x21 true [], true))

/-- MGMT_TLBI: answered once every access that held a dropped translation is performed (R34). -/
def execMgmtTlbi (host vf : Nat) (scope : BitVec 4) (va : Word) (s : State) : Out :=
  .next (s.longCommand host 0x22 va (.vf vf) (.mgmtTlbi host vf scope va) fun first s =>
    let run (sc : InvScope) : State × Bool :=
      let r := (if first then s.invalidate vf sc else s).quiesce vf
      if r.2 then (r.1.respond host 0x22 true [], true) else (r.1, false)
    match scope.toNat with
    | 0 => if canonical va then run (.va va) else (s.refuse host 0x22 va, true)
    | 1 => run .space
    | 2 => run .vf
    | _ => (s.refuse host 0x22 va, true))

/-! ### Jobs, holds and tasks (R330, R334, R338, R395) -/

/-- The charts of a VF's images, in order of loading. DEDUCED (log 73). -/
def State.charts (s : State) (vf : Nat) : List (List Word) :=
  (s.mod.images.filter fun i => i.vf = vf && !i.loading).flatMap (·.charts)

/-- A job as JOBNEW makes it from a chart. DEDUCED (log 73). -/
def jobOfChart (c : List Word) (gate slack : Nat) (peers : List Nat) : Job :=
  { locs := SMapOps.setMany (0, 0) [] ((List.range 64).map fun l => (l, (c.getD (2 * l) 0, c.getD (2 * l + 1) 0))),
    paths := SMapOps.setMany 0 [] ((List.range 4096).map fun i => (i, c.getD (128 + i) 0)),
    stamps := [], fronts := [], holds := [], messages := [], applied := false, cancelled := false, gate := gate,
    slack := slack, peers := peers, told := false }

/-- Whether a job is over: its counts have come and gone, or it was cancelled, and nothing of it is left.
DEDUCED (log 73). -/
def State.jobOver (s : State) (vf job : Nat) (j : Job) : Bool :=
  (j.applied || j.cancelled) && s.jobQuiet vf job j && j.holds.isEmpty && j.messages.isEmpty &&
  !(s.prog.tasks.any fun p => match p.2 with
    | some t => p.1 / 2 ^ 32 = vf && t.job.toNat = job
    | none => false)

/-- Whether a job number may be taken: no job has it, or the one that has is over. DEDUCED (log 73). -/
def State.jobFree (s : State) (vf job : Nat) : Bool :=
  match s.job? vf job with
  | some j => s.jobOver vf job j
  | none => true

/-- The active jobs of the module (R2). DEDUCED (log 73). -/
def State.activeJobs (s : State) : Nat :=
  (s.prog.jobs.filter fun p => match p.2 with | some j => !s.jobOver (p.1 / 256) (p.1 % 256) j | none => false).length

/-- JOBNEW; GATE is ignored where SLACK is 0 (R395). DEDUCED (log 73). -/
def execJobnew (host vf job : Nat) (chart : Nat) (gate slack : Nat) (peers : List Nat) (s : State) : Out :=
  vfCmd host 0x30 vf s fun s =>
    match (s.charts vf)[chart]? with
    | some c =>
      if decide (256 ≤ job) || (slack ≠ 0 && decide (64 ≤ gate)) || decide (256 ≤ slack) || decide (15 < peers.length) ||
        (peers.any fun p => p = 0 || decide (4096 ≤ p)) || !s.jobFree vf job || decide (Config.activeJobs ≤ s.activeJobs) then
        s.refuse host 0x30 0
      else (s.putJob vf job (jobOfChart c gate slack peers)).respond host 0x30 true []
    | none => s.refuse host 0x30 0

def execCancel (host vf job : Nat) (s : State) : Out :=
  vfCmd host 0x31 vf s fun s => if (s.job? vf job).isSome then s.cancelJob vf job else s.refuse host 0x31 0

/-- The host's holds keep every check of R330 but that of R324, and count at the aggregator at once. In a cancelled job with no
RUNNING task the hold is dropped as it is taken (R338). DEDUCED (log 73). -/
def execMgmtHold (host vf job loc : Nat) (time : Word) (s : State) : Out :=
  vfCmd host 0x32 vf s fun s =>
    match s.job? vf job with
    | some j =>
      if decide (64 ≤ loc) || j.kind loc = .unused || (j.timeFault loc time).isSome || !j.holdOk loc time then
        s.refuse host 0x32 time
      else
        let c : Change := ⟨loc, time, 1⟩
        (if j.cancelled && !s.jobRunning vf job then s.applyBatch ⟨vf, job, [c, { c with amount := -1 }], [], true, []⟩
          else (s.addHold vf job c).applyBatch ⟨vf, job, [c], [], true, []⟩).respond host 0x32 true []
    | none => s.refuse host 0x32 time

def execMgmtDrop (host vf job loc : Nat) (time : Word) (s : State) : Out :=
  vfCmd host 0x33 vf s fun s =>
    match s.job? vf job with
    | some j =>
      if decide (64 ≤ loc) || j.kind loc = .unused || (j.timeFault loc time).isSome || j.held loc time = 0 then
        s.refuse host 0x33 time
      else
        let c : Change := ⟨loc, time, -1⟩
        ((s.addHold vf job c).applyBatch ⟨vf, job, [c], [], true, []⟩).respond host 0x33 true []
    | none => s.refuse host 0x33 time

/-- Relaunches a faulted task; it is placed once its killed incarnation is done (R113, R334). DEDUCED (log 31, 65). -/
def State.hostRelaunch (s : State) (host code vf task : Nat) (t : Tcb) : State :=
  (s.putTcb vf task { t.ready with relaunch := relaunched t.relaunch }).respond host code true []

def execRelaunch (host vf task : Nat) (s : State) : Out :=
  vfCmd host 0x35 vf s fun s =>
    match s.tcb? vf task with
    | some t => if t.st = .faulted then s.hostRelaunch host 0x35 vf task t else s.refuse host 0x35 0
    | none => s.refuse host 0x35 0

/-- DISCARD: −1 at the task's stamp, then its successors released, and its TCB freed (R334, R335). It waits for the sectors of its
list that lie in network windows. DEDUCED (log 74). -/
def execDiscard (host vf task : Nat) (s : State) : Out :=
  .next (s.longCommand host 0x36 0 (.vf vf) (.discard host vf task) fun _ s =>
    match s.tcb? vf task with
    | some t =>
      if t.st ≠ .faulted && !(t.st = .dead && t.leaving) then (s.refuse host 0x36 0, true)
      else
        let r := if t.leaving then s.finishTask vf task t else s.closeTask vf task t
        if (r.tcb? vf task).isSome then (r, false) else (r.respond host 0x36 true [], true)
    | none => (s.refuse host 0x36 0, true))

/-- The members of a task that a translation fault has suspended. -/
def State.suspended (s : State) (vf task : Nat) : List Nat :=
  (s.taskHarts vf task).filter fun id => match s.hart? id with | some h => h.suspendedFault | none => false

/-- Whether a faulted task's code is of a memory class, so that a resume relaunches it (R39). DEDUCED (log 74). -/
def memoryCode (f : BitVec 16) : Bool :=
  decide (TrapClass.translation.code ≤ f.toNat / 256 ∧ f.toNat / 256 ≤ TrapClass.address.code)

/-- ANSWER: a suspended member issues its instruction again, or the task becomes a faulted task; a convoy that a fault has
killed is relaunched by a resume (R39, R254, R309). DEDUCED (log 74). -/
def execAnswer (host vf task : Nat) (resume : Bool) (s : State) : Out :=
  vfCmd host 0x34 vf s fun s =>
    match s.tcb? vf task with
    | none => s.refuse host 0x34 0
    | some t =>
      let ids := s.suspended vf task
      match ids with
      | id :: _ =>
        if resume then
          (s.forEach (fun s i => s.modHart i fun h => { h with suspendedFault := false }) ids).respond host 0x34 true []
        else
          let cause := match (s.hart? id).bind (·.lastRecord) with | some r => r.detail.toNat % 256 | none => 0
          (s.endTask vf task .translation cause).respond host 0x34 true []
      | [] =>
        if t.st ≠ .faulted || !memoryCode t.fcode then s.refuse host 0x34 0
        else if resume then s.hostRelaunch host 0x34 vf task t
        else s.respond host 0x34 true []

/-- UNHALT (R199). -/
def execUnhalt (host vf hart : Nat) (s : State) : Out :=
  vfCmd host 0x37 vf s fun s =>
    match s.hart? hart with
    | some h =>
      if s.hartVf h = vf && h.halted then (s.putHart hart { h with halted := false }).respond host 0x37 true []
      else s.refuse host 0x37 0
    | none => s.refuse host 0x37 0

/-- UNQUARANTINE (R364). -/
def execUnquarantine (host : Nat) (target : QuarTarget) (s : State) : Out :=
  .next (s.ownerOnly host 0x38 0 .module fun s =>
    let m := match target with
      | .partition n => { s.mod with quarParts := s.mod.quarParts.filter (· ≠ n) }
      | .engine n => { s.mod with quarEngines := s.mod.quarEngines.filter (· ≠ n) }
      | .cluster n => { s.mod with quarClusters := s.mod.quarClusters.filter (· ≠ n) }
    { s with mod := m }.respond host 0x38 true [])

/-! ### Attestation, monitors and the recorder (R394, R399, R400) -/

/-- ATTEST: the report covers the nonce, two digests of six words each, FEAT0, FEAT1 and the serial; its signature is 96 bytes
that the manual does not fix. DESIGN CHOICE (log 13). -/
def execAttest (host : Nat) (nonce : Word) (s : State) : Out :=
  .next (match s.mod.power with
    | .off | .down => s
    | _ =>
      let s1 := s.respond host 0x40 true
        ([nonce] ++ (List.range 12).map Config.identityWord ++ [Config.feat0, Config.feat1, Config.identityWord 12])
      { s1 with free := s1.free + 96 }.emit
        (.bytes host 0x40 ((List.range 96).map fun i => Config.attestByte (s1.free + i)) []))

/-- MONITOR_READ. -/
def execMonitorRead (host unit : Nat) (s : State) : Out :=
  .next (if s.mod.power ≠ .on then s
    else if unit < 64 then s.respond host 0x41 true ((List.range 64).map (s.monitor unit).word)
    else s.refuse host 0x41 0)

/-- MONITOR_CONFIGURE: MCFG under its own rules, and the edges. DESIGN CHOICE (log 75). -/
def execMonitorConfigure (host unit : Nat) (cfg : Word) (edges : List Word) (s : State) : Out :=
  .next (s.ownerOnly host 0x41 0 .module fun s =>
    if decide (64 ≤ unit) || decide (31 < edges.length) || !s.ctlAllowed (.host host) (.capture unit 0) cfg then
      s.refuse host 0x41 0
    else
      let m := s.monitor unit
      let es := SMapOps.setMany 0 m.edges ((List.range edges.length).zip edges)
      (s.setMonitor unit { Monitor.zero with cfg := cfg, edges := es }).respond host 0x41 true [])

/-- Adds one to a saturating 32-bit count. -/
def satInc (n : Word32) : Word32 := if n = BitVec.allOnes 32 then n else n + 1

/-- A sample enters a capture unit's statistics (R399). DESIGN CHOICE (log 75). -/
def Monitor.sample (m : Monitor) (x : Word) : Monitor :=
  let b := ((List.range 31).filter fun i => decide ((SMapOps.get 0 m.edges i).toNat ≤ x.toNat)).length
  { m with
      min := if m.count = 0 || decide (x.toNat < m.min.toNat) then x else m.min,
      max := if decide (m.max.toNat < x.toNat) then x else m.max,
      count := m.count + 1,
      sum := BitVec.ofNat 64 (Nat.min (2 ^ 64 - 1) (m.sum.toNat + x.toNat)),
      bins := SMapOps.set 0 m.bins b (satInc (SMapOps.get 0 m.bins b)) }

/-- What a capture unit samples: the buffers a queue holds, or the occupancy of a ring, which SEL names; what the model does
not hold comes from outside. A ring is named by its unit and its number in it. DESIGN CHOICE (log 75). -/
def State.sampled (s : State) (m : Monitor) (x : Word) : Word :=
  let sel := bits m.cfg 0 48
  match bits m.cfg 48 8 with
  | 2 => BitVec.ofNat 64 (s.queue sel).held
  | 3 => match (s.unit? (sel / 64)).bind fun g => g.ring (sel % 64) with
    | some r => BitVec.ofNat 64 r.occupancy
    | none => 0
  | _ => x

/-- MONITOR_SAMPLE. DESIGN CHOICE (log 75). -/
def execMonitorSample (unit : Nat) (x : Word) (s : State) : Out :=
  .next (if decide (unit < 64) && bitOf (s.monitor unit).cfg 63 then
      s.setMonitor unit ((s.monitor unit).sample (s.sampled (s.monitor unit) x))
    else s)

/-- Writes a VF's recorder. -/
def State.setRecorder (s : State) (vf : Nat) (r : Recorder) : State :=
  { s with mod := { s.mod with recorders := SMapOps.set Recorder.zero s.mod.recorders vf r } }

def execRecordStart (host vf : Nat) (addr : Word) (len : Nat) (s : State) : Out :=
  vfCmd host 0x42 vf s fun s => (s.setRecorder vf ⟨true, addr, len, []⟩).respond host 0x42 true []

def execRecordStop (host vf : Nat) (s : State) : Out :=
  vfCmd host 0x42 vf s fun s =>
    (s.setRecorder vf { SMapOps.get Recorder.zero s.mod.recorders vf with running := false }).respond host 0x42 true []

def execRecordRead (host vf : Nat) (s : State) : Out :=
  vfCmd host 0x42 vf s fun s => s.respond host 0x42 true (SMapOps.get Recorder.zero s.mod.recorders vf).log.flatten

end Sys2Proof.Machine
end

