-- ==== Sys2Proof/Machine/Loader.lean ====
section
/-! DEFINITION. The loader: Rosyan Object Format files, their checks, relocation, and publication (R314, R315, R317, R346,
R367 to R376, R382 to R387). -/

namespace Sys2Proof.Machine

/-- Why the loader refuses an image (R386). -/
inductive LoadCause where
  | header | check | badSection | symbol | reloc | relovf | level | feature | floor | space | template | chart
deriving DecidableEq, Repr

def LoadCause.code : LoadCause → Nat
  | .header => 0x01 | .check => 0x02 | .badSection => 0x03 | .symbol => 0x04 | .reloc => 0x05 | .relovf => 0x06
  | .level => 0x07 | .feature => 0x08 | .floor => 0x09 | .space => 0x0A | .template => 0x0B | .chart => 0x0C

/-! ### The file (R367) -/

/-- The number in `n` bytes of a file, lowest first (R3). -/
def fileNum (f : List Byte) (off n : Nat) : Nat := ofBytes ((f.drop off).take n)

/-- A 64-bit word of a file. -/
def fileWord (f : List Byte) (off : Nat) : Word := BitVec.ofNat 64 (fileNum f off 8)

/-- One bit step of the IEEE 802.3 CRC-32, `n` times. -/
def crcBits (c : Word32) : Nat → Word32
  | 0 => c
  | n + 1 => crcBits (if c.getLsbD 0 then (c >>> 1) ^^^ 0xEDB88320#32 else c >>> 1) n

/-- The CRC-32 of some bytes. -/
def crc32 (bs : List Byte) : Word32 := ~~~bs.foldl (fun c b => crcBits (c ^^^ b.zeroExtend 32) 8) (BitVec.allOnes 32)

/-- Header fields. -/
def secOff (f : List Byte) : Nat := fileNum f 8 8
def secCount (f : List Byte) : Nat := fileNum f 16 2
def secNames (f : List Byte) : Nat := fileNum f 20 2

/-- Whether the header breaks a row. -/
def headerBad (f : List Byte) : Bool :=
  decide (f.length < 64) || fileNum f 7 1 ≠ 0 || fileNum f 6 1 ≠ 2 || fileNum f 4 2 ≠ 1 || fileNum f 0 4 ≠ 0x00464F52 ||
  secOff f % 8 ≠ 0 || fileNum f 22 2 ≠ 0 || secNames f = 0 || decide (secCount f ≤ secNames f) ||
  fileNum f 18 2 ≠ 64 || decide (secCount f < 2) || decide (4095 < secCount f) ||
  fileNum f 28 4 ≠ 0 || ((f.drop 32).take 32).any (· ≠ 0)

/-- Whether the file's CRC differs from its field. -/
def crcBad (f : List Byte) : Bool :=
  (crc32 (f.take 24 ++ [0, 0, 0, 0] ++ f.drop 28)).toNat ≠ fileNum f 24 4

/-! ### Sections (R368, R369) -/

/-- A section-table entry, with its name. -/
structure Sec where
  name : List Byte
  type : Nat
  place : Bool
  write : Bool
  exec : Bool
  addr : Nat
  offset : Nat
  size : Nat
  align : Nat
  link : Nat
  info : Nat
deriving DecidableEq, Repr

/-- The string at an offset of a table: the bytes before the zero; none when it does not end inside. -/
def stringAt (table : List Byte) (off : Nat) : Option (List Byte) :=
  let s := table.drop off
  let n := s.takeWhile (· ≠ 0)
  if n.length < s.length then some n else none

/-- The bytes of a name. -/
def nameBytes (s : String) : List Byte := s.toList.map fun c => BitVec.ofNat 8 c.toNat

/-- The bytes a section occupies in its file. -/
def secBytes (f : List Byte) (off size : Nat) : List Byte := (f.drop off).take size

/-- The file offset of entry `i`. -/
def secEntry (f : List Byte) (i : Nat) : Nat := secOff f + 64 * i

/-- The table of section names. -/
def nameTable (f : List Byte) : List Byte :=
  let e := secEntry f (secNames f)
  secBytes f (fileNum f (e + 24) 8) (fileNum f (e + 32) 8)

/-- Decodes entry `i`; none when a row of it is broken. -/
def secOf (f : List Byte) (i : Nat) : Option Sec :=
  let e := secEntry f i
  let x := fileWord f e
  let flags := fileNum f (e + 8) 8
  let type := bits x 32 8
  let align := fileNum f (e + 40) 8
  let addr := fileNum f (e + 16) 8
  let off := fileNum f (e + 24) 8
  let size := fileNum f (e + 32) 8
  match stringAt (nameTable f) (bits x 0 32) with
  | none => none
  | some name =>
    if bits x 40 24 ≠ 0 || type = 0 || decide (6 < type) || decide (8 ≤ flags) || fileNum f (e + 56) 8 ≠ 0 ||
      !([4, 8, 16, 32, 64, 128, 256, 512, 1024, 2048, 4096].contains align) || addr % align ≠ 0 ||
      (type ≠ 2 && decide (f.length < off + size)) then none
    else some ⟨name, type, flags / 4 % 2 = 1, flags / 2 % 2 = 1, flags % 2 = 1, addr, off, size, align, fileNum f (e + 48) 4,
      fileNum f (e + 52) 4⟩

/-- Every entry but the first, or none: none too, so SECTION, when the section table runs past the end of the
file. DESIGN CHOICE (log 114). -/
def secsOf (f : List Byte) : Option (List Sec) :=
  let idx := (List.range (secCount f)).drop 1
  let secs := idx.filterMap (secOf f)
  if f.length < secOff f + 64 * secCount f ∨ secs.length ≠ idx.length ∨ ((f.drop (secOff f)).take 64).any (· ≠ 0) = true then none
  else some secs

/-- Section number `i` of a decoded table; entry 0 stands for none. -/
def secAt (ss : List Sec) (i : Nat) : Option Sec := if i = 0 then none else ss[i - 1]?

/-- The standard sections: name, type, A W X, least alignment (R369). -/
def stdSections : List (String × Nat × Bool × Bool × Bool × Nat) :=
  [(".scode", 1, true, false, true, 4), (".lcode", 1, true, false, true, 4), (".ccode", 1, true, false, true, 4),
   (".cdata", 1, true, false, false, 8), (".data", 1, true, true, false, 8), (".bss", 2, true, true, false, 8),
   (".cstore", 1, true, false, false, 128), (".manifest", 1, true, false, false, 128)] ++
  [(".tmap", 1, true, false, false, 128), (".launch", 1, true, false, false, 128), (".chart", 1, false, false, false, 128),
   (".note.druson", 6, false, false, false, 8), (".symtab", 3, false, false, false, 8), (".strtab", 4, false, false, false, 1)]

def Sec.named (x : Sec) (n : String) : Bool := x.name = nameBytes n

/-- Whether a name is `.rel` followed by a section name: one that begins with a full stop, or one of the file's own.
DEDUCED (log 78). -/
def Sec.isRel (ss : List Sec) (x : Sec) : Bool :=
  (x.name.take 4 = nameBytes ".rel") &&
    ((x.name.drop 4).take 1 = nameBytes "." || (x.name.drop 4 ≠ [] && ss.any fun y => y.name = x.name.drop 4))

/-- Whether a section breaks the row of its standard name, or is placed without having one. DEDUCED (log 78). -/
def Sec.stdBad (ss : List Sec) (x : Sec) : Bool :=
  match stdSections.find? fun r => x.named r.1 with
  | some r =>
    x.type ≠ r.2.1 || x.place ≠ r.2.2.1 || x.write ≠ r.2.2.2.1 || x.exec ≠ r.2.2.2.2.1 || decide (x.align < r.2.2.2.2.2) ||
    (x.named ".lcode" && x.size % 12 ≠ 0)
  | none =>
    if x.isRel ss then x.type ≠ 5 || x.place || x.write || x.exec || decide (x.align < 8) else x.place

/-- The INFO and LINK rows of an entry. -/
def Sec.linkBad (ss : List Sec) (x : Sec) : Bool :=
  match x.type with
  | 3 => x.info ≠ 0 || !(secAt ss x.link).any (·.type = 4)
  | 5 => !(secAt ss x.link).any (·.type = 3) || (match secAt ss x.info with
    | some t => x.isRel ss && x.name.drop 4 ≠ t.name
    | none => true)
  | _ => x.info ≠ 0 || x.link ≠ 0

/-- Whether two sections' file extents overlap: an empty one overlaps an extent inside which it lies. DESIGN CHOICE (log 115). -/
def Sec.overlaps (x y : Sec) : Bool :=
  x.type ≠ 2 && y.type ≠ 2 && decide (x.offset < y.offset + y.size ∧ y.offset < x.offset + x.size)

/-- Whether some two entries of a list overlap. -/
def anyOverlap : List Sec → Bool
  | [] => false
  | x :: xs => xs.any x.overlaps || anyOverlap xs

/-! ### The compatibility note (R382) -/

structure Note where
  cls : Nat
  floor : Bool
  level : Nat
  req : Word
deriving DecidableEq, Repr

/-- Decodes the note; none when a row of it is broken. -/
def noteOf (b : List Byte) : Option Note :=
  let x := fileWord b 0
  let n : Note := ⟨bits x 16 16, bitOf x 8, bits x 0 8, fileWord b 8⟩
  if b.length ≠ 32 ∨ bits x 32 32 ≠ 0 ∨ bits x 9 7 ≠ 0 ∨ (n.floor = false ∧ n.cls ≠ 0) ∨ n.level = 0 ∨ bits n.req 56 8 ≠ 0 ∨
    fileNum b 16 8 ≠ 0 ∨ fileNum b 24 8 ≠ 0 then none
  else some n

/-- Step 2: the sections and the note, or none: none too, so SECTION, when STRNDX names no STRTAB section.
DESIGN CHOICE (log 114). -/
def sectionsOf (f : List Byte) : Option (List Sec × Note) :=
  match secsOf f with
  | none => none
  | some ss =>
    if ss.any (Sec.stdBad ss) || ss.any (Sec.linkBad ss) || anyOverlap ss || !(secAt ss (secNames f)).any (·.type = 4) then none
    else match ss.filter fun x => x.named ".note.druson" with
      | [n] => (noteOf (secBytes f n.offset n.size)).map fun y => (ss, y)
      | _ => none

/-! ### Symbols (R371 to R373) -/

structure Sym where
  shndx : Nat
  bind : Nat
  kind : Nat
  name : List Byte
  value : Nat
  size : Nat
  chart : Nat
deriving DecidableEq, Repr

/-- Decodes a symbol; none when its must-be-zero fields, codes or name are broken. -/
def symOf (b strs : List Byte) : Option Sym :=
  let x := fileWord b 0
  match stringAt strs (bits x 0 32) with
  | none => none
  | some n =>
    if bits x 44 4 ≠ 0 || decide (2 < bits x 40 4) || decide (10 < bits x 32 8) || fileNum b 28 4 ≠ 0 then none
    else some ⟨bits x 48 16, bits x 40 4, bits x 32 8, n, fileNum b 8 8, fileNum b 16 8, fileNum b 24 4⟩

/-- Cuts a list into pieces: `n` of them. -/
def pieces (b : List Byte) (size : Nat) : Nat → List (List Byte)
  | 0 => []
  | n + 1 => b.take size :: pieces (b.drop size) size n

/-- Whether a section is a data section: one that holds no code. -/
def Sec.isData (x : Sec) : Bool :=
  [".cdata", ".data", ".bss", ".cstore", ".manifest", ".tmap", ".launch", ".chart"].any x.named

/-- Whether a symbol's place does not suit its kind. -/
def Sym.placeBad (ss : List Sec) (all : List Sym) (y : Sym) : Bool :=
  let inSec (n : String) : Bool := (secAt ss y.shndx).any fun x => x.named n
  let undefined := y.shndx = 0
  let chartBad := if y.kind = 8 || y.kind = 9 then !(all[y.chart]?).any (·.kind = 10) else y.chart ≠ 0
  let beyond := !(y.kind = 8 || y.kind = 9) && (secAt ss y.shndx).any fun x => decide (x.size < y.value)
  (y.shndx ≠ 0 && y.shndx ≠ 0xFFFF && (secAt ss y.shndx).isNone) || (undefined && y.bind ≠ 2) || chartBad || beyond ||
  (!undefined && (match y.kind with
    | 1 => !(secAt ss y.shndx).any Sec.isData
    | 2 => !inSec ".scode"
    | 3 => !inSec ".lcode" || y.value % 4 ≠ 0
    | 4 => !inSec ".ccode"
    | 5 => !inSec ".manifest" || y.value % 128 ≠ 0
    | 6 => !inSec ".tmap" || y.value % 128 ≠ 0
    | 7 => !inSec ".launch" || y.value % 128 ≠ 0
    | 8 | 9 => !inSec ".chart" || decide (63 < y.value)
    | 10 => !inSec ".chart"
    | _ => false))

/-- Whether a global name is defined twice. -/
def dupGlobals : List Sym → Bool
  | [] => false
  | y :: ys => (y.bind = 1 && y.shndx ≠ 0 && ys.any fun z => z.bind = 1 && z.shndx ≠ 0 && z.name = y.name) || dupGlobals ys

/-- The symbols of a table, entry 0 among them; none when a row is broken. -/
def symsOf (f : List Byte) (ss : List Sec) (x : Sec) : Option (List Sym) :=
  let raw := pieces (secBytes f x.offset x.size) 32 (x.size / 32)
  let strs := match secAt ss x.link with | some t => secBytes f t.offset t.size | none => []
  let syms := raw.tail.filterMap fun b => symOf b strs
  let all := (⟨0, 0, 0, [], 0, 0, 0⟩ : Sym) :: syms
  if x.size % 32 ≠ 0 ∨ raw = [] ∨ (raw.headD []).any (· ≠ 0) = true ∨ syms.length + 1 ≠ raw.length ∨
    syms.any (Sym.placeBad ss all) = true ∨ dupGlobals syms = true then none
  else some all

/-- Step 3: every symbol table of the standard name passes; the loader ignores any other (R369). -/
def symbolsOk (f : List Byte) (ss : List Sec) : Bool := (ss.filter (·.named ".symtab")).all fun x => (symsOf f ss x).isSome

/-! ### Compatibility (R384 to R386) -/

/-- The templates of a `.launch` section. -/
def templateBytes (b : List Byte) : List Nat := (pieces b 384 (b.length / 384)).map ofBytes

/-- A template outside the resource floor. -/
def overFloor (n : Nat) : Bool :=
  let t := tplOf n
  decide (255 < t.need) || decide (16 < t.waves) || decide (8 < t.nbar) || decide (4096 < t.granules) || decide (1 < t.ncrane)

/-- A template beyond the C3's maxima. -/
def overClass (n : Nat) : Bool :=
  let t := tplOf n
  decide (16 < t.nbar) || decide (4 < t.ncrane) || decide (8 < t.nacc) || decide (16384 < t.granules)

/-- Step 4. -/
def compatOf (n : Note) (tpls : List Nat) : Option LoadCause :=
  if bits Config.feat0 56 8 < n.level then some .level
  else if n.req &&& ~~~Config.feat0 ≠ 0 then some .feature
  else if n.floor then (if n.cls ≠ bits Config.feat1 48 16 || tpls.any overClass then some .floor else none)
  else if tpls.any overFloor then some .floor else none

/-! ### Relocation (R373 to R376) -/

/-- The contents of the sections, in table order. -/
abbrev Contents := List (List Byte)

/-- Value S of a symbol: zero for an undefined weak one (R372, R373). -/
def symValue (ss : List Sec) (base : Word) (y : Sym) : Word :=
  match secAt ss y.shndx with
  | some x =>
    if x.named ".cstore" || !x.place then BitVec.ofNat 64 y.value else base + BitVec.ofNat 64 (x.addr + y.value)
  | none => if y.shndx = 0 then 0 else BitVec.ofNat 64 y.value

/-- What a relocation does: the bytes it replaces, the field's place in them, its width and value. -/
structure Patch where
  len : Nat
  lo : Nat
  width : Nat
  value : Nat
deriving DecidableEq, Repr

/-- The outcome of one relocation. -/
inductive Reloc where
  | patch (p : Patch)
  | bad
  | overflow
deriving DecidableEq, Repr

/-- A value that must fit a signed or an unsigned field. -/
def fitSigned (x : Int) (w : Nat) : Bool := decide (-(2 ^ (w - 1) : Int) ≤ x ∧ x < 2 ^ (w - 1))
def fitUnsigned (x : Int) (w : Nat) : Bool := decide (0 ≤ x ∧ x < 2 ^ w)

/-- A field of a code word, or overflow. -/
def field (ok : Bool) (len w : Nat) (x : Int) : Reloc := if ok then .patch ⟨len, 0, w, wrap w x⟩ else .overflow

/-- The lblock symbol that holds an offset of its section. -/
def lblockAt (syms : List Sym) (shndx off : Nat) : Option Sym :=
  syms.find? fun y => y.kind = 3 && y.shndx = shndx && decide (y.value ≤ off ∧ off < y.value + y.size)

/-- One relocation: type, the word or datum it patches, its section and number, symbol, S, A and P. -/
def relocOf (t : Nat) (data : List Byte) (sec : Sec) (secNo off : Nat) (syms : List Sym) (y : Sym) (sv add p : Word) : Reloc :=
  let x := sv + add
  let n := fileNum data off 4
  let op := n / 2 ^ 26
  let code := (sec.named ".scode" || sec.named ".ccode") && off % 4 = 0
  let lane := sec.named ".lcode" && fileNum data (off + 11) 1 / 64 = 0 &&
    (match lblockAt syms secNo off with | some b => (off - b.value) % 12 = 0 | none => off % 4 = 0)
  let lop := fileNum data off 12 / 2 ^ 86 % 256
  let weak := y.shndx = 0
  let datum (k : Nat) : Bool := sec.isData && decide (off + k ≤ data.length)
  let rel : Int := x.toInt - p.toInt
  let loc : Int := (y.value : Int) + add.toInt
  if weak ∧ t ≠ 1 ∧ t ≠ 2 then .bad
  else match t with
  | 0x01 => if datum 8 then .patch ⟨8, 0, 64, x.toNat⟩ else .bad
  | 0x02 => if datum 4 then field (decide (x.toNat < 2 ^ 32)) 4 32 x.toNat else .bad
  | 0x03 => if code && decide (2 ≤ op ∧ op ≤ 8) then
      field (if 6 ≤ op then decide (0 ≤ x.toInt ∧ x.toInt < 64) else fitSigned x.toInt 14) 4 14 x.toInt else .bad
  | 0x04 => if code && (op = 0x0A || op = 0x0B) then
      field (if op = 0x0A then fitSigned x.toInt 20 else fitUnsigned x.toInt 20) 4 20 x.toInt else .bad
  | 0x05 => if code && op = 0x0A then field (fitSigned x.toInt 60) 4 20 (bits x 40 20) else .bad
  | 0x06 => if code && op = 0x0B then field true 4 20 (bits x 20 20) else .bad
  | 0x07 => if code && op = 0x0B then field true 4 20 (bits x 0 20) else .bad
  | 0x08 => if code && (op = 0x0C || op = 0x10) then field (rel % 4 = 0 && fitSigned (rel / 4) 16) 4 16 (rel / 4) else .bad
  | 0x09 => if code && (op = 0x0D || op = 0x0E) then field (rel % 4 = 0 && fitSigned (rel / 4) 26) 4 26 (rel / 4) else .bad
  | 0x0A => if lane then
      field (if 0x58 ≤ lop ∧ lop ≤ 0x61 then fitSigned x.toInt 16 else fitUnsigned x.toInt 16) 12 16 x.toInt else .bad
  | 0x0B =>
    if lane && lop = 0x78 then
      match lblockAt syms secNo off with
      | some b =>
        let start := p.toInt - (off : Int) + (b.value : Int)
        let d := x.toInt - start
        if d % 12 = 0 ∧ 0 ≤ d ∧ d < b.size then .patch ⟨12, 0, 24, (d / 12).toNat⟩ else .overflow
      | none => .bad
    else .bad
  | 0x0C => if datum 8 && y.kind = 3 then field (add = 0) 8 64 x.toNat else .bad
  | 0x0D => if datum 8 && y.kind = 6 then field (add = 0) 8 64 x.toNat else .bad
  | 0x0E => if code && op = 2 && (y.kind = 8 || y.kind = 9) then field (decide (0 ≤ loc ∧ loc < 64)) 4 14 loc else .bad
  | 0x0F => if datum 1 && (y.kind = 8 || y.kind = 9) then field (decide (0 ≤ loc ∧ loc < 64)) 1 8 loc else .bad
  | _ => .bad

/-- Replaces the field of a patch. -/
def applyPatch (data : List Byte) (off : Nat) (p : Patch) : List Byte :=
  let old := fileNum data off p.len
  let new := old / 2 ^ p.width * 2 ^ p.width + p.value % 2 ^ p.width
  data.take off ++ toBytes p.len new ++ data.drop (off + p.len)

/-- Applies the entries of a relocation section in order. `seen` holds the runs of bytes patched so far in the image, each
with its section: two relocations of one field are refused, whichever sections hold them (R376). -/
def applyRelocs (ss : List Sec) (syms : List Sym) (base : Word) (secNo : Nat) (sec : Sec) :
    List (List Byte) → List Byte → List (Nat × Nat × Nat) → Except LoadCause (List Byte × List (Nat × Nat × Nat))
  | [], data, seen => .ok (data, seen)
  | e :: es, data, seen =>
    let off := fileNum e 0 8
    let x := fileWord e 8
    match syms[bits x 0 32]? with
    | none => .error .reloc
    | some y =>
      let p := (if sec.place then base + BitVec.ofNat 64 sec.addr else 0) + BitVec.ofNat 64 off
      if bits x 40 24 ≠ 0 ∨ data.length ≤ off then .error .reloc
      else match relocOf (bits x 32 8) data sec secNo off syms y (symValue ss base y) (fileWord e 16) p with
        | .bad => .error .reloc
        | .overflow => .error .relovf
        | .patch q =>
          if seen.any (fun r => decide (r.1 = secNo ∧ r.2.1 < off + q.len ∧ off < r.2.1 + r.2.2)) ||
              decide (data.length < off + q.len) then
            .error .reloc
          else applyRelocs ss syms base secNo sec es (applyPatch data off q)
            ((secNo, off, q.len) :: seen)

/-- Step 6: every relocation section in table order. -/
def relocateAll (f : List Byte) (ss : List Sec) (base : Word) :
    List Sec → Contents → List (Nat × Nat × Nat) → Except LoadCause Contents
  | [], c, _ => .ok c
  | r :: rs, c, seen =>
    match secAt ss r.info, (secAt ss r.link).bind (symsOf f ss) with
    | some t, some syms =>
      if r.size % 24 ≠ 0 then .error .reloc
      else match applyRelocs ss syms base r.info t (pieces (secBytes f r.offset r.size) 24 (r.size / 24))
          (c.getD (r.info - 1) []) seen with
        | .error e => .error e
        | .ok d => relocateAll f ss base rs (c.set (r.info - 1) d.1) d.2
    | _, _ => .error .reloc

/-- The contents of the sections before relocation. -/
def contentsOf (f : List Byte) (ss : List Sec) : Contents :=
  ss.map fun x => if x.type = 2 then List.replicate x.size 0 else secBytes f x.offset x.size

/-- The relocated contents: the standard relocation sections count, the loader ignores any other (R369). -/
def relocated (f : List Byte) (ss : List Sec) (base : Word) : Except LoadCause Contents :=
  relocateAll f ss base (ss.filter (·.isRel ss)) (contentsOf f ss) []

/-! ### Templates and charts (R258, R314, R315, R317, R346) -/

/-- The bytes of an image at a virtual address, when it places them. -/
def imageBytesAt (ss : List Sec) (c : Contents) (base va : Word) (n : Nat) : Option (List Byte) :=
  (ss.zip c).findSome? fun x =>
    let a := (va - base).toNat
    if x.1.place && decide (x.1.addr ≤ a ∧ a + n ≤ x.1.addr + x.1.size) then some ((x.2.drop (a - x.1.addr)).take n) else none

/-- A ring image that breaks a rule of its table, or an enabled ring outside the reservation. -/
def ringImageBad (granules : Nat) (x : Word) : Bool :=
  ringBad x || (bitOf x 29 && decide (granules < bits x 0 14 + (bits x 14 6 + 1) * (bits x 20 9 + 1)))

/-- Ring tables by their address: none for one that cannot be read. -/
abbrev RingTables := List (Word × Option Nat)

/-- A template that the loader refuses, with the ring table it names (R258). -/
def templateBad (tables : RingTables) (n : Nat) : Bool :=
  let t := tplOf n
  tplBad n || t.tooBig ||
  (t.rings ≠ 0 && match (tables.find? fun x => x.1 = t.rings).bind (·.2) with
    | some b => (List.range 64).any fun i => ringImageBad t.granules (numWord b i)
    | none => true)

/-- The content of a section by name. -/
def contentNamed (ss : List Sec) (c : Contents) (n : String) : List (List Byte) :=
  (ss.zip c).filterMap fun x => if x.1.named n then some x.2 else none

/-- Whether some template of the image is refused. DEDUCED (log 78). -/
def templatesBad (ss : List Sec) (c : Contents) (tables : RingTables) : Bool :=
  (contentNamed ss c ".launch").any fun b => b.length % 384 ≠ 0 || (templateBytes b).any (templateBad tables)

/-- The ring tables that the templates name. -/
def ringNames (ss : List Sec) (c : Contents) : List Word :=
  (((contentNamed ss c ".launch").flatMap templateBytes).map fun n => (tplOf n).rings).filter (· ≠ 0) |>.eraseDups

/-- Reads the ring tables: in the image's contents where they lie there, else in the VF's memory, as the placement reads will
be made; none when one must wait for the network. DEDUCED (log 78). -/
def State.ringReads (s : State) (vf : Nat) (ss : List Sec) (c : Contents) (base : Word) : List Word → State × Option RingTables
  | [] => (s, some [])
  | a :: as =>
    match imageBytesAt ss c base a 512 with
    | some b =>
      let q := s.ringReads vf ss c base as
      (q.1, q.2.map ((a, some (ofBytes b)) :: ·))
    | none =>
      let r := s.hmRange 0 vf a 512
      let q := r.1.ringReads vf ss c base as
      match r.2 with
      | .wait => (q.1, none)
      | .ok n _ => (q.1, q.2.map ((a, some n) :: ·))
      | _ => (q.1, q.2.map ((a, none) :: ·))

/-- Bytes of a chart: its location table and its summary table. -/
def chartBytes : Nat := 1024 + 32768

/-- The charts of the image, as words. -/
def chartsOf (ss : List Sec) (c : Contents) : List (List Word) :=
  (contentNamed ss c ".chart").flatMap fun b =>
    (pieces b chartBytes (b.length / chartBytes)).map fun p => (List.range (chartBytes / 8)).map fun i => fileWord p (8 * i)

/-- A location entry that breaks its table (R314). -/
def locBad (e : Word × Word) : Bool :=
  bits e.1 62 2 = 3 || bits e.1 0 45 ≠ 0 ||
  (match locKind e with
    | .node => bits e.1 48 12 ≠ 0
    | .edge => bits e.1 45 3 ≠ 0 || e.2 ≠ 0
    | .unused => false)

/-- A summary entry that breaks R315 or R317. -/
def pathBad (j : Job) (a b : Nat) : Bool :=
  let e := j.path a b
  if !bitOf e 63 then e ≠ 0
  else
    let leave := bits e 61 2
    let keep := j.depth a - leave
    bitOf e 58 || decide (j.depth a ≤ leave) || ((pathIncs e).drop keep).any (· ≠ 0) || keep + bits e 59 2 ≠ j.depth b ||
    j.kind a = .unused || j.kind b = .unused || (a = b && e ≠ at' 63 1)

/-- A chart that the loader refuses (R317): a used location needs its diagonal entry, and an unused one may have none.
DESIGN CHOICE (log 111). -/
def chartBad (c : List Word) : Bool :=
  let j := jobOfChart c 0 0 []
  let used := (List.range 64).filter fun l => j.kind l ≠ .unused
  ((List.range 64).any fun l => locBad (j.loc l)) ||
  ((List.range 64).any fun a => (List.range 64).any fun b => pathBad j a b) ||
  (used.any fun l => !j.reach l l) ||
  used.any fun l => j.kind l = .edge && (!j.reach l (j.edgeDst l) || j.kind (j.edgeDst l) ≠ .node)

/-- Step 8. DEDUCED (log 78). -/
def chartsBad (ss : List Sec) (c : Contents) : Bool :=
  (contentNamed ss c ".chart").any (fun b => b.length % chartBytes ≠ 0) || (chartsOf ss c).any chartBad

/-! ### The range and its pages (R386) -/

/-- Bytes the image places. -/
def imageSize (ss : List Sec) : Nat := ((ss.filter (·.place)).map fun x => x.addr + x.size).foldl Nat.max 0

/-- The offsets of the pages the image places. DEDUCED (log 78). -/
def imagePages (ss : List Sec) : List Nat :=
  (((ss.filter (·.place)).flatMap fun x =>
    if x.size = 0 then [] else (List.range ((x.addr + x.size - 1) / 4096 + 1 - x.addr / 4096)).map (x.addr / 4096 + ·))).eraseDups

/-- Whether a range may be named: canonical, aligned, large enough, and no page of it has a leaf. DEDUCED (log 78). -/
def State.spaceBad (s : State) (vf : Nat) (base : Word) (len size : Nat) : Bool :=
  !canonical base || !canonical (base + BitVec.ofNat 64 (len - 1)) || base.toNat % 4096 ≠ 0 || len % 4096 ≠ 0 ||
  decide (len < size) || decide (2 ^ 64 < base.toNat + len) ||
  (List.range (len / 4096)).any fun i => s.pageTaken vf (base + BitVec.ofNat 64 (4096 * i))

/-- Frames that may hold an image: page-aligned usable memory, each once. -/
def framesOk (fs : List Nat) : Bool :=
  (fs.all fun f => f % 4096 = 0 && isGddr f) && decide (fs.eraseDups.length = fs.length)

/-! ### Publication (R387) -/

/-- Writes a section's bytes into the frames of its pages. -/
def State.placeBytes (s : State) (frame : Nat → Nat) (addr : Nat) : List (Nat × Nat) → List Byte → State
  | [], _ => s
  | r :: rs, bs =>
    (s.homeWrite (smallWrite (frame (r.1 / 4096) + r.1 % 4096) r.2 (takeNum bs r.2))).placeBytes frame addr rs (bs.drop r.2)

/-- Writes the leaf of one page, and gives the frames left. -/
def State.publish (s : State) (vf : Nat) (base : Word) (frame : Nat → Nat) (perm : Nat → Bool × Bool) (free : List Nat) :
    List Nat → State × Bool
  | [] => (s, true)
  | p :: ps =>
    let root := (s.vfRegs vf).troot
    let q := s.entryPlace (base + BitVec.ofNat 64 (4096 * p)) free 5 4 (bits root 12 40 * 4096)
    match q.2.2 with
    | none => (q.1, false)
    | some a =>
      (q.1.writeEntry a (leafEntry (frame p) (perm p).1 (perm p).2)).publish vf base frame perm q.2.1 ps

/-- The frame of each page, and what its sections let it do. -/
def pageFrame (ss : List Sec) (frames : List Nat) (p : Nat) : Nat := frames.getD ((imagePages ss).findIdx (· = p)) 0
def pagePerm (ss : List Sec) (p : Nat) : Bool × Bool :=
  let on := ss.filter fun x => x.place && decide (x.addr < 4096 * p + 4096 ∧ 4096 * p < x.addr + x.size)
  (on.any (·.write), on.any (·.exec))

/-- Writes the bytes of an accepted image, `.bss` as zero, and keeps its charts. -/
def State.placeImage (s : State) (vf : Nat) (base : Word) (ss : List Sec) (c : Contents) (frames : List Nat) : State :=
  let pages := imagePages ss
  let frame := pageFrame ss frames
  let s1 := pages.foldl (fun s p => s.zeroFrame (frame p)) s
  let s2 := (ss.zip c).foldl (fun s x =>
    if x.1.place then
      s.placeBytes frame x.1.addr (physRuns x.1.addr (x.1.size / 128 + 2) x.1.size)
        (if x.1.type = 2 then List.replicate x.1.size 0 else x.2)
    else s) s1
  let img : Image := ⟨vf, base, imageSize ss, chartsOf ss c, pages.map fun p => base.toNat / 4096 + p, false, true⟩
  { s2 with mod := { s2.mod with images := s2.mod.images ++ [img] } }

/-- Writes the leaves of a placed image: whether its frames sufficed. -/
def State.publishImage (s : State) (vf : Nat) (base : Word) (ss : List Sec) (frames : List Nat) : State × Bool :=
  let pages := imagePages ss
  s.publish vf base (pageFrame ss frames) (pagePerm ss) (frames.drop pages.length) pages

/-- How the loader stands with an image. -/
inductive LoadGot where
  | refused (c : LoadCause)
  | wait
  | placed
deriving DecidableEq, Repr

/-- What the loader does with an image, by R386's steps and the first of R387: it refuses it, it waits for a ring table, or it
has written its bytes. DEDUCED (log 78). -/
def State.loadImage (s : State) (vf : Nat) (base : Word) (len : Nat) (f : List Byte) (frames : List Nat) : State × LoadGot :=
  if headerBad f then (s, .refused .header)
  else if crcBad f then (s, .refused .check)
  else match sectionsOf f with
    | none => (s, .refused .badSection)
    | some (ss, note) =>
      if !symbolsOk f ss then (s, .refused .symbol)
      else
        let raw := (contentNamed ss (contentsOf f ss) ".launch").flatMap templateBytes
        match compatOf note raw with
        | some c => (s, .refused c)
        | none =>
          if s.spaceBad vf base len (imageSize ss) || !framesOk frames || decide (frames.length < (imagePages ss).length) ||
            !(s.publishImage vf base ss frames).2 then (s, .refused .space)
          else match relocated f ss base with
            | .error e => (s, .refused e)
            | .ok c =>
              let r := s.ringReads vf ss c base (ringNames ss c)
              match r.2 with
              | none => (r.1, .wait)
              | some tables =>
                let s1 := r.1.hmDone 0
                if templatesBad ss c tables then (s1, .refused .template)
                else if chartsBad ss c then (s1, .refused .chart)
                else (s1.placeImage vf base ss c frames, .placed)

/-- An image of which the leaves are to be written. -/
def State.loadingAt (s : State) (vf : Nat) (base : Word) : Bool :=
  s.mod.images.any fun i => i.vf = vf && i.base = base && i.loading

/-- Removes the image being loaded, or marks it published. -/
def State.endLoad (s : State) (vf : Nat) (base : Word) (ok : Bool) : State :=
  let mine (i : Image) : Bool := i.vf = vf && i.base = base && i.loading
  let is := if ok then s.mod.images.map fun i => if mine i then { i with loading := false } else i
    else s.mod.images.filter fun i => !mine i
  { s with mod := { s.mod with images := is } }

/-- Whether another LOAD of a VF is using some of a range (R387). -/
def State.rangeUsed (s : State) (vf : Nat) (base : Word) (len : Nat) (c : HostCmd) : Bool :=
  s.mod.accepted.any fun p => p.2 ≠ c && match p.2 with
    | .load _ v b l _ _ => v = vf && decide (b.toNat < base.toNat + len ∧ base.toNat < b.toNat + l)
    | _ => false

/-- A refused LOAD. -/
def State.loadRefused (s : State) (host : Nat) (base : Word) (c : LoadCause) : State :=
  (s.respond host 0x20 false [BitVec.ofNat 64 c.code]).note [BitVec.ofNat 64 host, base]

/-- LOAD: the bytes, and in a later step the leaves (R387). DEDUCED (log 78). -/
def execLoad (host vf : Nat) (base : Word) (len : Nat) (image : List Byte) (frames : List Nat) (s : State) : Out :=
  let c : HostCmd := .load host vf base len image frames
  .next (if s.mod.power = .on ∧ s.ownerOf (.vf vf) = some host ∧ s.rangeUsed vf base len c = true then
      s.loadRefused host base .space
    else s.longCommand host 0x20 base (.vf vf) c fun first s =>
      if !first && s.loadingAt vf base then
        match sectionsOf image with
        | some (ss, _) =>
          let r := s.publishImage vf base ss frames
          (if r.2 then (r.1.endLoad vf base true).respond host 0x20 true [0]
            else (s.endLoad vf base false).loadRefused host base .space, true)
        | none => (s, true)
      else
        let r := s.loadImage vf base len image frames
        match r.2 with
        | .refused e => (r.1.loadRefused host base e, true)
        | .wait | .placed => (r.1, false))

/-- The codes of the management commands (R393). -/
def commandCodes : List Nat :=
  [0x01, 0x02, 0x03, 0x04, 0x10, 0x11, 0x20, 0x21, 0x22, 0x30, 0x31, 0x32, 0x33, 0x34, 0x35, 0x36, 0x37, 0x38, 0x40, 0x41, 0x42]

/-- A command of a code that is not listed is refused (R393). -/
def State.unlisted (s : State) (host code : Nat) : State :=
  if s.mod.power ≠ .on || commandCodes.contains code then s else s.refuse host code 0

/-- A command of the management endpoint that may have to be tried again, or one of a code that R393 does not list. -/
def HostCmd.run (c : HostCmd) (s : State) : Out :=
  match c with
  | .read host addr len => execRead host addr len s
  | .write host addr data => execWrite host addr data s
  | .load host vf base len image frames => execLoad host vf base len image frames s
  | .unload host vf base force => execUnload host vf base force s
  | .mgmtTlbi host vf scope va => execMgmtTlbi host vf scope va s
  | .discard host vf task => execDiscard host vf task s
  | .unlisted host code => .next (s.unlisted host code)

end Sys2Proof.Machine
end

