-- ==== Sys2Proof/Machine/Module.lean ====
section
/-! DEFINITION. Power, reliability and the harbourmasters: power-on, heat, soft errors, structural tests, take-over (R66,
R363 to R366, R401). -/

namespace Sys2Proof.Machine

/-! ### Power and heat (R401) -/

/-- The module as a power-on leaves it; the model's own counters, the management log, what has left the module and what comes
next stay. DEDUCED (log 77). -/
def State.powered (s : State) (p : Power) : State :=
  let r := State.reset
  { r with cur := s.cur, sched := s.sched, free := s.free, nextId := s.nextId, outbox := s.outbox,
           mod := { r.mod with power := p, log := s.mod.log } }

/-- POWER_ON: every usable sector zero, settled and unpoisoned, and the endpoints up; or, when the firmware fails its
verification, a module that answers only ATTEST and READ of its status (R394).
DESIGN CHOICE (log 1). DEDUCED (log 3, 77). -/
def execPowerOn (firmwareOk : Bool) (s : State) : Out :=
  .next (if s.mod.power = .on then s else s.powered (if firmwareOk then .on else .refused))

/-- THERMAL_THROTTLE: the clock drops, and no result changes (R2). -/
def execThermalThrottle (die : Nat) (s : State) : Out :=
  .next (if die < Config.dies ∧ !s.mod.throttled.contains die then
      { s with mod := { s.mod with throttled := s.mod.throttled ++ [die] } }
    else s)

/-- THERMAL_SHUTDOWN: a record in the management log, and the module is down. DEDUCED (log 77). -/
def execThermalShutdown (die : Nat) (s : State) : Out :=
  .next (if s.mod.power = .on ∧ die < Config.dies then (s.note [BitVec.ofNat 64 die, s.time]).powered .down else s)

/-! ### Soft errors (R66, R121, R294, R363, R364) -/

/-- A struck lane register of a hart inside `wloop`, between two bodies, is struck in what the loop has kept too (R45). -/
def State.strikeKept (s : State) (t : UpsetTarget) : State :=
  match t with
  | .laneReg hid r l => s.modHart hid fun h =>
      if h.walking then h else h.setWalk fun k => { k with savedX := k.savedX.filter (· ≠ (r, l)) ++ [(r, l)] }
  | _ => s

/-- A latent upset of a register or of an entry of a divergence stack. DEDUCED (log 76). -/
def State.strike (s : State) (t : UpsetTarget) (multi : Bool) : State :=
  if multi then { s with mem := { s.mem with upsets := s.mem.upsets.filter (fun u => u.target ≠ t) ++ [⟨t, true⟩] } } else s

/-- Flips a stored bit of a sector: data 0 to 1023, P 1024, X 1025, then the sixteen bits of ECC. -/
def flipStored (m : List Host.Cell) (sec bit : Nat) : List Host.Cell :=
  let a := if bit < 1024 then 128 * sec + bit / 8
    else if bit = 1024 ∨ bit = 1025 then metaAddr sec + 2
    else metaAddr sec + (bit - 1026) / 8
  let i := if bit < 1024 then bit % 8 else if bit = 1024 then 0 else if bit = 1025 then 1 else (bit - 1026) % 8
  if bit < 1042 then setByte m a (byteAt m a ^^^ (1#8 <<< i)) else m

/-- An uncorrectable error in clean L1 bytes: C becomes I, and D becomes W. -/
def L1Sector.lost (l : L1Sector) : Option L1Sector :=
  if l.dirty = 0 then none else some { l with filled := false, pf := false, xf := false, gen := 0 }

/-- A mismatch of a checker, its retry, and a second mismatch (R364): the partition is quarantined, for a crane thread, which no
partition holds, its cluster; and the task is relaunched elsewhere (R363), or, in a trap handler or the body of a `wloop`, ends
(R290, R361).
DEDUCED (log 76, 81). -/
def State.checkerFails (s : State) (hid : Nat) (h : Hart) : State :=
  let part := 8 * h.core + h.part
  let m := if h.engine = .wave then { s.mod with quarParts := s.mod.quarParts.filter (· ≠ part) ++ [part] }
    else match s.unit? h.unit with
      | some g => { s.mod with quarClusters := s.mod.quarClusters.filter (· ≠ g.cluster) ++ [g.cluster] }
      | none => s.mod
  let s1 := ({ s with mod := m }.countRetry h.die).countQuar h.die
  if h.walking then s1.walkTrap hid .pipeline 1 0
  else if h.trapped.isSome then s1.endHartTask hid .pipeline 1
  else match s.unit? h.unit with
    | some g => s1.selfRelaunch g.vf g.task 1
    | none => s1.modHart hid Hart.kill

/-- A mismatch of a chunk, its retry, and a second mismatch: the engine is quarantined, and the convoy is relaunched as in R309,
its tiles scrubbed when no tile operation of it is left. DEDUCED (log 76). -/
def State.chunkFails (s : State) (u e : Nat) (g : Gang) : State :=
  let n := 4 * g.cluster + e
  let s1 := ({ s with mod := { s.mod with quarEngines := s.mod.quarEngines.filter (· ≠ n) ++ [n] } }.countRetry
    (clusterDie g.cluster)).countQuar (clusterDie g.cluster)
  (s1.selfRelaunch g.vf g.task 1).killScrub u

/-- SOFT_ERROR. DEDUCED (log 76). -/
def execSoftError (target : UpsetTarget) (multi : Bool) (s : State) : Out :=
  .next (
    let counted (s : State) (die : Nat) : State := if multi then s.countUE die else s.countCE die
    match target with
    | .laneReg .. => if multi then (s.strikeKept target).strike target multi else s
    | .scalarReg .. | .uniformReg .. => s.strike target multi
    | .stack hart n => match s.hart? hart with
      | some h => if n < h.stack.length then s.strike target multi else s
      | none => s
    | .l1Clean core sector => match s.l1Get core sector with
      | some l => if l.filled then counted (if multi then s.l1Set core sector l.lost else s) (coreDie core) else s
      | none => s
    | .l1Dirty core sector => match s.l1Get core sector with
      | some l =>
        if l.dirty ≠ 0 then counted (if multi then s.l1Set core sector (some { l with xd := true }) else s) (coreDie core) else s
      | none => s
    | .clusterGranule unit n => match s.unit? unit with
      | some g =>
        if n < g.granules then
          counted (if multi then
              s.putUnit unit { g with ctags := SMapOps.set (false, false) g.ctags n ((g.granuleTags n).1, true) }
            else s) (clusterDie g.cluster)
        else s
      | none => s
    | .dieStore sector => match s.dsGet sector with
      | some d => counted (if multi then s.dsSet sector (some { d with data := 0, x := true }) else s) (homeDie sector)
      | none => s
    | .gddr sector bits => if homeSector sector then s.setMem (bits.foldl (fun m b => flipStored m sector b) s.mem.mem) else s
    | .tile unit e t => match s.unit? unit with
      | some g => if multi && decide (e < 4) && decide (t < g.nacc) then s.putUnit unit (g.setPoison e t true) else s
      | none => s
    | .checker hart => match s.hart? hart with
      | some h =>
        if h.ended.isSome then s else if multi then s.checkerFails hart h else s.countRetry h.die
      | none => s
    | .chunk unit e => match s.unit? unit with
      | some g =>
        if !g.convoy || decide (4 ≤ e) || g.st ≠ .resident then s
        else if multi then s.chunkFails unit e g
        else s.countRetry (clusterDie g.cluster)
      | none => s
    | .translation i => { s with mem := { s.mem with tlb := s.mem.tlb.eraseIdx i } }
    | .walkEntry i => { s with mem := { s.mem with walks := s.mem.walks.eraseIdx i } }
    | .reserved die => if die < Config.dies then counted s die else s)

/-! ### Structural tests (R365) -/

def State.fieldTest (s : State) (c : Nat) : FieldTest := SMapOps.get FieldTest.zero s.mod.tests c
def State.setTest (s : State) (c : Nat) (f : FieldTest) : State :=
  { s with mod := { s.mod with tests := SMapOps.set FieldTest.zero s.mod.tests c f } }

/-- Whether a cluster holds a unit. -/
def State.clusterHolds (s : State) (c : Nat) : Bool :=
  s.gangs.any fun p => match p.2 with | some g => g.cluster = c && g.st ≠ .saved | none => false

/-- FIELD_TEST_START: an idle cluster, at most once every 2^30 ticks. -/
def execFieldTestStart (cluster : Nat) (s : State) : Out :=
  .next (
    let f := s.fieldTest cluster
    if s.mod.power ≠ .on || decide (Config.clusters ≤ cluster) || f.running || s.clusterHolds cluster ||
      decide (s.time.toNat < f.next.toNat) || !s.harbourOk (clusterDie cluster) then s
    else s.setTest cluster { f with running := true, next := s.time + BitVec.ofNat 64 (2 ^ 30) })

/-- FIELD_TEST_PASS: a new window of retired tasks opens. -/
def execFieldTestPass (cluster : Nat) (s : State) : Out :=
  .next (
    let f := s.fieldTest cluster
    if f.running then s.setTest cluster { f with running := false, pass := s.time, retired := [] } else s)

/-- VF and job of a window entry. -/
def entryVf (w : Words) : Nat := bits (w.headD 0) 32 10
def entryJob (w : Words) : Nat := bits (w.headD 0) 16 8

/-- The suspect record of a failed test (R365). DESIGN CHOICE (log 17). -/
def State.suspectWords (s : State) (cluster : Nat) (f : FieldTest) : Words :=
  [at' 56 1 ||| at' 43 cluster ||| at' 33 (decide (4096 < f.retired.length)).toNat |||
     at' 0 (Nat.min (2 ^ 32 - 1) f.retired.length), f.pass, s.time, Config.listHandle s.free]

/-- Keeps the list that a suspect record's handle names: 4,096 entries at most (R365). -/
def State.keepList (s : State) (f : FieldTest) : State :=
  { s with mod := { s.mod with
      lists := s.mod.lists.filter (fun x => x.1 ≠ Config.listHandle s.free) ++ [(Config.listHandle s.free, f.retired.take 4096)] } }

/-- The peers of the jobs that a VF's entries of a window name. DEDUCED (log 80). -/
def State.suspectPeers (s : State) (vf : Nat) (f : FieldTest) : List PeerAddr :=
  (((f.retired.filter fun w => entryVf w = vf).map entryJob).eraseDups.flatMap fun j =>
    match s.job? vf j with | some j => j.peers | none => []).eraseDups.map s.peerAddr

/-- FIELD_TEST_FAIL: quarantine, then a suspect record to every VF that retired a task there since the last pass.
DEDUCED (log 80). -/
def execFieldTestFail (cluster : Nat) (s : State) : Out :=
  .next (
    let f := s.fieldTest cluster
    if !f.running then s
    else
      let s1 := { s.setTest cluster { f with running := false } with
        mod := { (s.setTest cluster { f with running := false }).mod with
          quarClusters := s.mod.quarClusters.filter (· ≠ cluster) ++ [cluster] } }.countQuar (clusterDie cluster)
      let w := s.suspectWords cluster f
      let s2 := ((f.retired.map entryVf).eraseDups).foldl (fun s vf => s.emit (.suspect vf (s.suspectPeers vf f) w))
        (s1.keepList f)
      { s2 with free := s2.free + 1 })

/-! ### Take-over (R366) -/

/-- HARBOURMASTER_TAKEOVER: until the standby is active, retirements, batches, faults and placements of the die are held; an
unusable standby leaves the die down, and the management endpoint reports it. -/
def execHarbourmasterTakeover (die : Nat) (usable : Bool) (s : State) : Out :=
  .next (if die < Config.dies ∧ s.harbourOk die then
      let s1 := { s with mod := { s.mod with
        harbour := SMapOps.set .active s.mod.harbour die (if usable then .takingOver else .down) } }
      if usable then s1 else s1.emit (.response ((s.ownerOf .module).getD 0) 0 false [BitVec.ofNat 64 die])
    else s)

/-- What a die's standby delivers of what was held. -/
def State.deliver (s : State) : Held → State
  | .record vf w => s.emit (.record vf w)
  | .fault vf task code => s.faultTask vf task code
  | .relaunch vf task cause => s.relaunchTask vf task cause

/-- STANDBY_ACTIVE: what was held of faults is applied in its order; the rest goes on (R366). -/
def execStandbyActive (die : Nat) (s : State) : Out :=
  .next (if SMapOps.get .active s.mod.harbour die = .takingOver then
      let mine := s.mod.held.filter fun x => x.1 = die
      let m := { s.mod with
        harbour := SMapOps.set .active s.mod.harbour die .active, held := s.mod.held.filter fun x => x.1 ≠ die }
      mine.foldl (fun s x => s.deliver x.2) { s with mod := m }
    else s)

end Sys2Proof.Machine
end

