-- ==== Sys2Proof/Machine/Pair.lean ====
section
/-! DEFINITION. The pair lane word: two compact operations that issue as one word (R139 to R143). -/

namespace Sys2Proof.Machine

/-- What the single form of a compact operation's lane opcode computes (R141). -/
def computeOf (op : Nat) : LaneCtx → LaneFields → LaneOut :=
  match op with
  | 0x01 => laneAdd | 0x02 => laneSub | 0x03 => laneMul | 0x04 => laneMulh | 0x05 => laneMad | 0x06 => laneAnd
  | 0x07 => laneOr | 0x08 => laneXor | 0x09 => laneShl | 0x0A => laneShr | 0x0B => laneSra | 0x0C => laneMin
  | 0x0D => laneMax | 0x0E => laneAbs | 0x12 => laneClz | 0x13 => lanePop | 0x14 => laneBrev
  | 0x20 => laneFadd | 0x21 => laneFsub | 0x22 => laneFmul | 0x23 => laneFma | 0x24 => laneFmin | 0x25 => laneFmax
  | 0x31 => laneFrnd | 0x32 => laneFscale | 0x27 => laneFdiv | 0x28 => laneFsqrt | 0x29 => laneFexp2
  | 0x2A => laneFlog2 | 0x2B => laneFrcp | 0x2C => laneFrsq | 0x2D => laneFsinpi | 0x2E => laneFcospi
  | 0x2F => laneFtanh | 0x40 => laneCvt | 0x48 => laneSel
  | _ => fun _ _ => LaneOut.none

/-- The lane opcode of a compact operation; a legal word always has one. -/
def CompactOp.laneOp (x : CompactOp) : Nat := (copLane x.cop).getD 0

/-- Both operations read before either writes; each writes its own destination with its own tag (R143). -/
def execPairLaneWord (x y : CompactOp) (s : State) : Out :=
  let ox := CompactOp.laneOp x
  let oy := CompactOp.laneOp y
  let wx := x.single
  let wy := y.single
  laneWith s (laneReads ox wx ++ laneReads oy wy) (laneWrites ox wx ++ laneWrites oy wy)
    (laneMasks ox wx ++ laneMasks oy wy) [] (fun _ => laneReads ox wx ++ laneReads oy wy) (fun _ => BitVec.allOnes 32) fun c s =>
      (s.commitBoth c.hid (computeOf ox c wx) (computeOf oy c wy)).laneNext c.hid c.slot

end Sys2Proof.Machine
end

