-- ==== Sys2Proof/Machine/Dispatch.lean ====
section
/-! DEFINITION. Every action of the machine and its meaning. -/

namespace Sys2Proof.Machine

/-- One action: the meaning of its constructor. -/
def exec (i : Instr) (s : State) : Host.Outcome State Fault Refusal :=
  match i with
  | .sadd d a b => Sys2Proof.Machine.execSadd d a b s
  | .ssub d a b => Sys2Proof.Machine.execSsub d a b s
  | .smul d a b => Sys2Proof.Machine.execSmul d a b s
  | .smulh d a b => Sys2Proof.Machine.execSmulh d a b s
  | .smulhn d a b => Sys2Proof.Machine.execSmulhn d a b s
  | .sdiv d a b => Sys2Proof.Machine.execSdiv d a b s
  | .sdivn d a b => Sys2Proof.Machine.execSdivn d a b s
  | .srem d a b => Sys2Proof.Machine.execSrem d a b s
  | .sremn d a b => Sys2Proof.Machine.execSremn d a b s
  | .sand d a b => Sys2Proof.Machine.execSand d a b s
  | .sor d a b => Sys2Proof.Machine.execSor d a b s
  | .sxor d a b => Sys2Proof.Machine.execSxor d a b s
  | .sshl d a b => Sys2Proof.Machine.execSshl d a b s
  | .sshr d a b => Sys2Proof.Machine.execSshr d a b s
  | .ssra d a b => Sys2Proof.Machine.execSsra d a b s
  | .smin d a b => Sys2Proof.Machine.execSmin d a b s
  | .smax d a b => Sys2Proof.Machine.execSmax d a b s
  | .sminn d a b => Sys2Proof.Machine.execSminn d a b s
  | .smaxn d a b => Sys2Proof.Machine.execSmaxn d a b s
  | .scmp d a b cc => Sys2Proof.Machine.execScmp d a b cc s
  | .scmov d a b nz => Sys2Proof.Machine.execScmov d a b nz s
  | .sbfx d a b signed => Sys2Proof.Machine.execSbfx d a b signed s
  | .sbfi d a b => Sys2Proof.Machine.execSbfi d a b s
  | .sclz d a => Sys2Proof.Machine.execSclz d a s
  | .spop d a => Sys2Proof.Machine.execSpop d a s
  | .sext d a kind => Sys2Proof.Machine.execSext d a kind s
  | .slea d a b sh => Sys2Proof.Machine.execSlea d a b sh s
  | .saddi d a imm => Sys2Proof.Machine.execSaddi d a imm s
  | .sandi d a imm => Sys2Proof.Machine.execSandi d a imm s
  | .sori d a imm => Sys2Proof.Machine.execSori d a imm s
  | .sxori d a imm => Sys2Proof.Machine.execSxori d a imm s
  | .sshli d a imm => Sys2Proof.Machine.execSshli d a imm s
  | .sshri d a imm => Sys2Proof.Machine.execSshri d a imm s
  | .ssrai d a imm => Sys2Proof.Machine.execSsrai d a imm s
  | .scmpi d a cc imm => Sys2Proof.Machine.execScmpi d a cc imm s
  | .smovl d imm => Sys2Proof.Machine.execSmovl d imm s
  | .sshor d imm => Sys2Proof.Machine.execSshor d imm s
  | .sbr cond a off => Sys2Proof.Machine.execSbr cond a off s
  | .sjmp off => Sys2Proof.Machine.execSjmp off s
  | .scall off => Sys2Proof.Machine.execScall off s
  | .sret => Sys2Proof.Machine.execSret s
  | .sjmpr a => Sys2Proof.Machine.execSjmpr a s
  | .scallr a => Sys2Proof.Machine.execScallr a s
  | .sloop a off => Sys2Proof.Machine.execSloop a off s
  | .lrun a => Sys2Proof.Machine.execLrun a s
  | .lsync => Sys2Proof.Machine.execLsync s
  | .sget d => Sys2Proof.Machine.execSget d s
  | .kset k a => Sys2Proof.Machine.execKset k a s
  | .sld d a ord sz off => Sys2Proof.Machine.execSld d a ord sz off s
  | .sst d a ord sz off => Sys2Proof.Machine.execSst d a ord sz off s
  | .satom d a ord wide aop => Sys2Proof.Machine.execSatom d a ord wide aop s
  | .sldc d a ord sz => Sys2Proof.Machine.execSldc d a ord sz s
  | .sstc d a ord sz => Sys2Proof.Machine.execSstc d a ord sz s
  | .swait ld st cp mx ts => Sys2Proof.Machine.execSwait ld st cp mx ts s
  | .sfence ord => Sys2Proof.Machine.execSfence ord s
  | .sclk d name => Sys2Proof.Machine.execSclk d name s
  | .ssleep a b bar => Sys2Proof.Machine.execSsleep a b bar s
  | .barInit a bar => Sys2Proof.Machine.execBarInit a bar s
  | .barArrive ord bar => Sys2Proof.Machine.execBarArrive ord bar s
  | .barWait a ord bar => Sys2Proof.Machine.execBarWait a ord bar s
  | .barTest d a ord bar => Sys2Proof.Machine.execBarTest d a ord bar s
  | .barArm h a ord bar => Sys2Proof.Machine.execBarArm h a ord bar s
  | .uret => Sys2Proof.Machine.execUret s
  | .cpy d a b bar => Sys2Proof.Machine.execCpy d a b bar s
  | .cpyt d a b bar => Sys2Proof.Machine.execCpyt d a b bar s
  | .cpyg d a b bar => Sys2Proof.Machine.execCpyg d a b bar s
  | .cpcl => Sys2Proof.Machine.execCpcl s
  | .cpq d bar => Sys2Proof.Machine.execCpq d bar s
  | .ringRes d q => Sys2Proof.Machine.execRingRes d q s
  | .ringCmt a q => Sys2Proof.Machine.execRingCmt a q s
  | .ringGet d q => Sys2Proof.Machine.execRingGet d q s
  | .ringRel a q => Sys2Proof.Machine.execRingRel a q s
  | .spawn d a b => Sys2Proof.Machine.execSpawn d a b s
  | .send d a b => Sys2Proof.Machine.execSend d a b s
  | .fwait a b => Sys2Proof.Machine.execFwait a b s
  | .fpoll d a b => Sys2Proof.Machine.execFpoll d a b s
  | .hold a b => Sys2Proof.Machine.execHold a b s
  | .drop a b => Sys2Proof.Machine.execDrop a b s
  | .tget d c => Sys2Proof.Machine.execTget d c s
  | .tset a b c => Sys2Proof.Machine.execTset a b c s
  | .exit => Sys2Proof.Machine.execExit s
  | .jcancel => Sys2Proof.Machine.execJcancel s
  | .safe a => Sys2Proof.Machine.execSafe a s
  | .phase a b => Sys2Proof.Machine.execPhase a b s
  | .yield a => Sys2Proof.Machine.execYield a s
  | .wloop d a b => Sys2Proof.Machine.execWloop d a b s
  | .wcov a b => Sys2Proof.Machine.execWcov a b s
  | .wclr => Sys2Proof.Machine.execWclr s
  | .mfmt a => Sys2Proof.Machine.execMfmt a s
  | .mzero acc mask => Sys2Proof.Machine.execMzero acc mask s
  | .mma acc a b mask => Sys2Proof.Machine.execMma acc a b mask s
  | .mout a acc mask cmt z => Sys2Proof.Machine.execMout a acc mask cmt z s
  | .mbar d n => Sys2Proof.Machine.execMbar d n s
  | .mwait a n => Sys2Proof.Machine.execMwait a n s
  | .mpsn d acc mask => Sys2Proof.Machine.execMpsn d acc mask s
  | .mscrub mask => Sys2Proof.Machine.execMscrub mask s
  | .csrr d n => Sys2Proof.Machine.execCsrr d n s
  | .csrw a n => Sys2Proof.Machine.execCsrw a n s
  | .feat d c => Sys2Proof.Machine.execFeat d c s
  | .trap n => Sys2Proof.Machine.execTrap n s
  | .rte => Sys2Proof.Machine.execRte s
  | .tlbiVa a => Sys2Proof.Machine.execTlbiVa a s
  | .tlbiSpace => Sys2Proof.Machine.execTlbiSpace s
  | .tlbiVf => Sys2Proof.Machine.execTlbiVf s
  | .halt => Sys2Proof.Machine.execHalt s
  | .add w => Sys2Proof.Machine.execAdd w s
  | .sub w => Sys2Proof.Machine.execSub w s
  | .mul w => Sys2Proof.Machine.execMul w s
  | .mulh w => Sys2Proof.Machine.execMulh w s
  | .mad w => Sys2Proof.Machine.execMad w s
  | .and w => Sys2Proof.Machine.execAnd w s
  | .or w => Sys2Proof.Machine.execOr w s
  | .xor w => Sys2Proof.Machine.execXor w s
  | .shl w => Sys2Proof.Machine.execShl w s
  | .shr w => Sys2Proof.Machine.execShr w s
  | .sra w => Sys2Proof.Machine.execSra w s
  | .min w => Sys2Proof.Machine.execMin w s
  | .max w => Sys2Proof.Machine.execMax w s
  | .abs w => Sys2Proof.Machine.execAbs w s
  | .cmp w => Sys2Proof.Machine.execCmp w s
  | .bfx w => Sys2Proof.Machine.execBfx w s
  | .bfi w => Sys2Proof.Machine.execBfi w s
  | .clz w => Sys2Proof.Machine.execClz w s
  | .pop w => Sys2Proof.Machine.execPop w s
  | .brev w => Sys2Proof.Machine.execBrev w s
  | .fadd w => Sys2Proof.Machine.execFadd w s
  | .fsub w => Sys2Proof.Machine.execFsub w s
  | .fmul w => Sys2Proof.Machine.execFmul w s
  | .fma w => Sys2Proof.Machine.execFma w s
  | .fmin w => Sys2Proof.Machine.execFmin w s
  | .fmax w => Sys2Proof.Machine.execFmax w s
  | .fcmp w => Sys2Proof.Machine.execFcmp w s
  | .fdiv w => Sys2Proof.Machine.execFdiv w s
  | .fsqrt w => Sys2Proof.Machine.execFsqrt w s
  | .fexp2 w => Sys2Proof.Machine.execFexp2 w s
  | .flog2 w => Sys2Proof.Machine.execFlog2 w s
  | .frcp w => Sys2Proof.Machine.execFrcp w s
  | .frsq w => Sys2Proof.Machine.execFrsq w s
  | .fsinpi w => Sys2Proof.Machine.execFsinpi w s
  | .fcospi w => Sys2Proof.Machine.execFcospi w s
  | .ftanh w => Sys2Proof.Machine.execFtanh w s
  | .fclass w => Sys2Proof.Machine.execFclass w s
  | .frnd w => Sys2Proof.Machine.execFrnd w s
  | .fscale w => Sys2Proof.Machine.execFscale w s
  | .cvt w => Sys2Proof.Machine.execCvt w s
  | .qscl w => Sys2Proof.Machine.execQscl w s
  | .qpack w => Sys2Proof.Machine.execQpack w s
  | .qunp w => Sys2Proof.Machine.execQunp w s
  | .qspare w => Sys2Proof.Machine.execQspare w s
  | .sel w => Sys2Proof.Machine.execSel w s
  | .mand w => Sys2Proof.Machine.execMand w s
  | .mor w => Sys2Proof.Machine.execMor w s
  | .mxor w => Sys2Proof.Machine.execMxor w s
  | .mnot w => Sys2Proof.Machine.execMnot w s
  | .mmov w => Sys2Proof.Machine.execMmov w s
  | .shfl w => Sys2Proof.Machine.execShfl w s
  | .perm w => Sys2Proof.Machine.execPerm w s
  | .vote w => Sys2Proof.Machine.execVote w s
  | .redu w => Sys2Proof.Machine.execRedu w s
  | .scan w => Sys2Proof.Machine.execScan w s
  | .srd w => Sys2Proof.Machine.execSrd w s
  | .movx w => Sys2Proof.Machine.execMovx w s
  | .movxd w => Sys2Proof.Machine.execMovxd w s
  | .ld w => Sys2Proof.Machine.execLd w s
  | .st w => Sys2Proof.Machine.execSt w s
  | .ldd w => Sys2Proof.Machine.execLdd w s
  | .std w => Sys2Proof.Machine.execStd w s
  | .ldc w => Sys2Proof.Machine.execLdc w s
  | .stc w => Sys2Proof.Machine.execStc w s
  | .atom w => Sys2Proof.Machine.execAtom w s
  | .atomc w => Sys2Proof.Machine.execAtomc w s
  | .pref w => Sys2Proof.Machine.execPref w s
  | .tagrd w => Sys2Proof.Machine.execTagrd w s
  | .dinit w => Sys2Proof.Machine.execDinit w s
  | .dacc w => Sys2Proof.Machine.execDacc w s
  | .drnd w => Sys2Proof.Machine.execDrnd w s
  | .dcor w => Sys2Proof.Machine.execDcor w s
  | .drst w => Sys2Proof.Machine.execDrst w s
  | .ptst w => Sys2Proof.Machine.execPtst w s
  | .pchk w => Sys2Proof.Machine.execPchk w s
  | .lbr w => Sys2Proof.Machine.execLbr w s
  | .ljoin w => Sys2Proof.Machine.execLjoin w s
  | .lend w => Sys2Proof.Machine.execLend w s
  | .lnop w => Sys2Proof.Machine.execLnop w s
  | .ltrap w => Sys2Proof.Machine.execLtrap w s
  | .pairLaneWord x y => Sys2Proof.Machine.execPairLaneWord x y s
  | .laneBlockStart hart => Sys2Proof.Machine.execLaneBlockStart hart s
  | .tlbMissWalk core vf va cached => Sys2Proof.Machine.execTlbMissWalk core vf va cached s
  | .tlbiComplete hart => Sys2Proof.Machine.execTlbiComplete hart s
  | .fillGenerationWrap core => Sys2Proof.Machine.execFillGenerationWrap core s
  | .storeQueueDrain hart evict => Sys2Proof.Machine.execStoreQueueDrain hart evict s
  | .homeSectorWrite op evict => Sys2Proof.Machine.execHomeSectorWrite op evict s
  | .homeSectorRead sector evict => Sys2Proof.Machine.execHomeSectorRead sector evict s
  | .atomicAtHome op index evict => Sys2Proof.Machine.execAtomicAtHome op index evict s
  | .postedClusterWrite op => Sys2Proof.Machine.execPostedClusterWrite op s
  | .loadReturn hart op => Sys2Proof.Machine.execLoadReturn hart op s
  | .remoteCompletion op data p => Sys2Proof.Machine.execRemoteCompletion op data p s
  | .inboundRmaRead a vf va len => Sys2Proof.Machine.execInboundRmaRead a vf va len s
  | .inboundRmaWrite a vf va data p => Sys2Proof.Machine.execInboundRmaWrite a vf va data p s
  | .inboundRmaAtomic a vf va wide aop x y => Sys2Proof.Machine.execInboundRmaAtomic a vf va wide aop x y s
  | .controlRegisterWrite w addr value => Sys2Proof.Machine.execControlRegisterWrite w addr value s
  | .cgrantWrite w vf value => Sys2Proof.Machine.execCgrantWrite w vf value s
  | .qctlWrite w q value => Sys2Proof.Machine.execQctlWrite w q value s
  | .vfschedWrite w vf value => Sys2Proof.Machine.execVfschedWrite w vf value s
  | .errcntWrite w die value => Sys2Proof.Machine.execErrcntWrite w die value s
  | .nwinWrite w n value => Sys2Proof.Machine.execNwinWrite w n value s
  | .peertabWrite w p high value => Sys2Proof.Machine.execPeertabWrite w p high value s
  | .mcfgWrite w unit value => Sys2Proof.Machine.execMcfgWrite w unit value s
  | .trootWrite host vf value => Sys2Proof.Machine.execTrootWrite host vf value s
  | .tspaceWrite host vf value => Sys2Proof.Machine.execTspaceWrite host vf value s
  | .copyBytesPerformed copy write k => Sys2Proof.Machine.execCopyBytesPerformed copy write k s
  | .copyComplete copy => Sys2Proof.Machine.execCopyComplete copy s
  | .copyEndsOnFault copy k => Sys2Proof.Machine.execCopyEndsOnFault copy k s
  | .ssleepWake hart => Sys2Proof.Machine.execSsleepWake hart s
  | .ringRelEffective unit ring slot => Sys2Proof.Machine.execRingRelEffective unit ring slot s
  | .userInterrupt hart => Sys2Proof.Machine.execUserInterrupt hart s
  | .mzeroComplete op => Sys2Proof.Machine.execMzeroComplete op s
  | .mmaComplete op cell => Sys2Proof.Machine.execMmaComplete op cell s
  | .moutComplete op cell => Sys2Proof.Machine.execMoutComplete op cell s
  | .mbarMarkComplete unit obj => Sys2Proof.Machine.execMbarMarkComplete unit obj s
  | .streamedOperandFault op => Sys2Proof.Machine.execStreamedOperandFault op s
  | .walkerBatchStart hart => Sys2Proof.Machine.execWalkerBatchStart hart s
  | .walkerBatchCommit hart => Sys2Proof.Machine.execWalkerBatchCommit hart s
  | .laneTrapDelivery hart => Sys2Proof.Machine.execLaneTrapDelivery hart s
  | .spawnAccept hart => Sys2Proof.Machine.execSpawnAccept hart s
  | .taskRetirement vf task => Sys2Proof.Machine.execTaskRetirement vf task s
  | .aggregatorBatchApply die => Sys2Proof.Machine.execAggregatorBatchApply die s
  | .frontierPush die vf job loc => Sys2Proof.Machine.execFrontierPush die vf job loc s
  | .messageConsumption vf job index => Sys2Proof.Machine.execMessageConsumption vf job index s
  | .peerBatchReceive peer vf job changes message => Sys2Proof.Machine.execPeerBatchReceive peer vf job changes message s
  | .peerUnreachable peer => Sys2Proof.Machine.execPeerUnreachable peer s
  | .launchPacket q packet => Sys2Proof.Machine.execLaunchPacket q packet s
  | .fencePacket q buffers => Sys2Proof.Machine.execFencePacket q buffers s
  | .fenceConditionPoll q => Sys2Proof.Machine.execFenceConditionPoll q s
  | .placementRound => Sys2Proof.Machine.execPlacementRound s
  | .berthSwap hart => Sys2Proof.Machine.execBerthSwap hart s
  | .roleMark unit hart => Sys2Proof.Machine.execRoleMark unit hart s
  | .preemptionRequest unit => Sys2Proof.Machine.execPreemptionRequest unit s
  | .preemptionTimeout unit => Sys2Proof.Machine.execPreemptionTimeout unit s
  | .contextRestore unit place => Sys2Proof.Machine.execContextRestore unit place s
  | .granuleFill hart granule => Sys2Proof.Machine.execGranuleFill hart granule s
  | .harbourmasterTakeover die usable => Sys2Proof.Machine.execHarbourmasterTakeover die usable s
  | .standbyActive die => Sys2Proof.Machine.execStandbyActive die s
  | .fieldTestStart cluster => Sys2Proof.Machine.execFieldTestStart cluster s
  | .fieldTestFail cluster => Sys2Proof.Machine.execFieldTestFail cluster s
  | .monitorSample unit x => Sys2Proof.Machine.execMonitorSample unit x s
  | .powerOn firmwareOk => Sys2Proof.Machine.execPowerOn firmwareOk s
  | .thermalThrottle die => Sys2Proof.Machine.execThermalThrottle die s
  | .thermalShutdown die => Sys2Proof.Machine.execThermalShutdown die s
  | .claim host scope prio nonce lease => Sys2Proof.Machine.execClaim host scope prio nonce lease s
  | .renew host scope lease => Sys2Proof.Machine.execRenew host scope lease s
  | .release host scope => Sys2Proof.Machine.execRelease host scope s
  | .grant host scope recipient lease => Sys2Proof.Machine.execGrant host scope recipient lease s
  | .claimWindowExpiry scope => Sys2Proof.Machine.execClaimWindowExpiry scope s
  | .leaseLapse scope => Sys2Proof.Machine.execLeaseLapse scope s
  | .read host addr len => Sys2Proof.Machine.execRead host addr len s
  | .write host addr data => Sys2Proof.Machine.execWrite host addr data s
  | .load host vf base len image frames => Sys2Proof.Machine.execLoad host vf base len image frames s
  | .unload host vf base force => Sys2Proof.Machine.execUnload host vf base force s
  | .mgmtTlbi host vf scope va => Sys2Proof.Machine.execMgmtTlbi host vf scope va s
  | .jobnew host vf job chart gate slack peers => Sys2Proof.Machine.execJobnew host vf job chart gate slack peers s
  | .cancel host vf job => Sys2Proof.Machine.execCancel host vf job s
  | .mgmtHold host vf job loc time => Sys2Proof.Machine.execMgmtHold host vf job loc time s
  | .mgmtDrop host vf job loc time => Sys2Proof.Machine.execMgmtDrop host vf job loc time s
  | .answer host vf task resume => Sys2Proof.Machine.execAnswer host vf task resume s
  | .relaunch host vf task => Sys2Proof.Machine.execRelaunch host vf task s
  | .discard host vf task => Sys2Proof.Machine.execDiscard host vf task s
  | .unhalt host vf hart => Sys2Proof.Machine.execUnhalt host vf hart s
  | .unquarantine host target => Sys2Proof.Machine.execUnquarantine host target s
  | .attest host nonce => Sys2Proof.Machine.execAttest host nonce s
  | .monitorRead host unit => Sys2Proof.Machine.execMonitorRead host unit s
  | .monitorConfigure host unit cfg edges => Sys2Proof.Machine.execMonitorConfigure host unit cfg edges s
  | .recordStart host vf addr len => Sys2Proof.Machine.execRecordStart host vf addr len s
  | .recordStop host vf => Sys2Proof.Machine.execRecordStop host vf s
  | .recordRead host vf => Sys2Proof.Machine.execRecordRead host vf s
  | .softError target multi => Sys2Proof.Machine.execSoftError target multi s
  | .fieldTestPass cluster => Sys2Proof.Machine.execFieldTestPass cluster s

end Sys2Proof.Machine
end

