-- ==== Sys2Proof/Machine/Issue.lean ====
section
/-! DEFINITION. How an agent issues its next word: what comes before it, its fetch, its decode (R39, R86, R119, R131,
R132, R145, R253, R257, R353, R359, R435). -/

namespace Sys2Proof.Machine

/-! ### The S-stream -/

/-- A hart in a wait looks again at what it waits for (R435). -/
def State.resume (s : State) (hid : Nat) (w : Wait) : Out :=
  match w with
  | .swait ld st cp mx ts => .next (s.trySwait hid ld st cp mx ts)
  | .barWait c g o => .next (s.tryBarWait hid c g o)
  | .ssleep c g p => .next (s.trySsleep hid c g p)
  | .ringRes q d => .next (s.tryRingRes hid q d)
  | .ringGet q d => .next (s.tryRingGet hid q d)
  | .fwait l t => .next (s.tryFwait hid l t)
  | .cpyg _ => .next (s.tryCpyg hid)
  | .mwait n g => .next (s.tryMwait hid n g)
  | .mmaSlot acc a b m => .next (s.tryMma hid acc a b m)
  | .sendGate d p t x => .next (s.trySend hid d p t x)
  | .sget d => .next (s.trySget hid d)
  | .lsync n => .next (s.tryLsync hid n)
  | .lrun e => .next (s.tryLrun hid e)
  | .tlbi => .next (s.tryTlbi hid)
  | .spawn .. => execSpawnAccept hid s
  | .mscrub m ops => .next (s.tryMscrub hid m ops)

/-- Whether a waiting lane trap can be taken now: at a boundary of the S-stream, or in a wait of R435 (R359). -/
def Hart.takesLaneTrap (h : Hart) : Bool :=
  h.laneTrap.isSome && h.trapped.isNone && !h.busy && h.walk.isNone && h.wait.all Wait.interruptible

/-- What a hart takes before its next word, or in its wait: a lane trap, then a due user interrupt (R257, R359). -/
def State.asyncDue (s : State) (hid : Nat) (h : Hart) : Option Out :=
  if h.takesLaneTrap then some (execLaneTrapDelivery hid s)
  else if (s.dueInterrupt h).isSome then some (execUserInterrupt hid s)
  else none

/-- The word at the pc, as an instruction fetch reads it (R131). -/
def State.fetchS (s : State) (hid : Nat) (h : Hart) : State × Fetched := s.fetchBytes hid h h.pc 4 accFetch

/-- A word passed by the lane stream is executed, as its slot and block were. A store's checks are done. -/
def LateWord.run (x : LateWord) (s : State) : Out :=
  match x.instr with
  | .st w => laneWord 0x59 w s fun c s =>
      if c.h.full .st then s else s.enterStore c w (memCount 0x59 w) false false x.accs
  | i => exec i s

/-- The oldest lane word that waits behind the lane stream of a hart is executed once the loads it names are performed;
slots and block then stand as they did, and what the slot's own word has killed (R126). DEDUCED (log 86). -/
def State.runLate (s : State) (hid : Nat) : State :=
  match s.hart? hid with
  | none => s
  | some h =>
    match h.late with
    | [] => s
    | x :: rest =>
      if h.ended.isSome || h.suspendedFault || s.saved h then s
      else
        let key := wordKills x.slot
        let there := { h with block := some x.block, slot0 := Slot.zero, slot1 := Slot.zero,
                              kills := SMapOps.set 0 h.kills key x.kills }.setSlot x.slot x.ctx
        match x.run { s.putHart hid there with cur := .lane hid x.slot } with
        | .next t =>
          { t.modHart hid fun k =>
              { k with block := h.block, slot0 := h.slot0, slot1 := h.slot1,
                       kills := SMapOps.set 0 k.kills key (SMapOps.get 0 h.kills key),
                       late := if (k.slot x.slot).off = x.ctx.off then { x with kills := SMapOps.get 0 k.kills key } :: rest
                               else rest } with cur := s.cur }
        | _ => s

/-- S-stream words that the wave's held lane words need not precede: arithmetic, branches, the dispatch of blocks, and the
ring words without a release (R189, R260). -/
def passesLate (w : BitVec 32) : Bool :=
  let op := (w.extractLsb' 26 6).toNat
  decide (op ≤ 0x12) || (op = 0x1C && w.extractLsb' 0 4 ≠ 1)

/-- What the S-stream does with a fetched word: an illegal one traps (R145). Before any other than those above, the lane
words that wait behind the lane stream are executed. -/
def State.runWord (s : State) (hid : Nat) (h : Hart) (n : Nat) : Out :=
  match decodeS h.engine (BitVec.ofNat 32 n) with
  | .ok i => if h.late.isEmpty || passesLate (BitVec.ofNat 32 n) then exec i s else .next (s.runLate hid)
  | .error e => .next (s.illegal hid e)

/-- Fetches and runs the word at the pc. A fetch that fails is a failed access (R35, R39). -/
def State.issueWord (s : State) (hid : Nat) (h : Hart) : Out :=
  let r := s.fetchS hid h
  match r.2 with
  | .ok n => r.1.runWord hid h n
  | .fault c level va => .next (r.1.failAccess hid false .sFetch h.pc [⟨0, va, c, level⟩])
  | .poison | .wait => .next r.1

/-- The S-stream of a hart moves: a hart that has ended or is suspended does not; one at its safe point is saved
when it can be; a wait is tried again; else the next word issues, after the acquire that starts a phase (R86). -/
def State.issueScalar (s : State) (hid : Nat) : Out :=
  match s.hart? hid with
  | none => .next s
  | some h =>
    if h.ended.isSome || h.suspendedFault then .next s
    else if h.safeMask.isSome then .next (s.trySave h.unit)
    else if s.saved h then .next s
    else if h.halted then .next (if s.safeDue hid h then s.safePoint hid allLive else s)
    else match s.asyncDue hid h with
      | some o => o
      | none => match h.wait with
        | some w => if w.safe && s.safeDue hid h then .next (s.safePoint hid allLive) else s.resume hid w
        | none =>
          if h.acq then .next ((s.modHart hid fun h => { h with acq := false }).acquire hid letterK)
          else s.issueWord hid h

/-! ### A lane slot -/

/-- The lane word of a slot, as an instruction fetch reads it (R131). -/
def State.fetchL (s : State) (hid : Nat) (h : Hart) (slot : Bool) : State × Fetched :=
  s.fetchBytes hid h (h.laneAddr slot) 12 accFetch

/-- A failed fetch of a lane word: one record with a lane mask of zero, and in a walker's body the batch and the counts
(R35, R39, R290). DEDUCED (log 32). -/
def State.laneFetchFault (s : State) (hid : Nat) (h : Hart) (slot : Bool) (c : Cause) (level : Nat) (va : Word) : State :=
  let addr := h.laneAddr slot
  let vf := s.hartVf h
  let cls := c.trapClass
  let s1 := s.record vf (faultWords va level c.code 0 vf (s.space vf) (kindCode .laneFetch) addr (s.placeWord h))
  let r : Record := Record.walked ⟨BitVec.ofNat 8 cls.code, BitVec.ofNat 16 c.code, true, false, false, 0, addr, 0, 0, 0⟩ h
  if cls = .translation then s1.suspend hid r
  else (s1.modHart hid fun h => { h with lastRecord := some r }).endHartTask hid cls c.code

/-- The trap of a lane word that fails decode, with the slot's live lanes (R132, R145). -/
def State.illegalLane (s : State) (hid : Nat) (h : Hart) (slot : Bool) (e : DecodeError) : State :=
  s.laneTrap hid slot (if e.reason.laneClass then .illegalLane else .illegal) e.detail.toNat true (h.live slot) 0

/-- A word on lane registers that leaves results and status alone: no mask, no memory, no other lane, no trap. -/
def arithWord (op : Nat) (w : LaneFields) : Bool :=
  decide (op < 0x50) && match laneRule op w with
    | some r => [FieldKind.reg, .reg32, .even].contains r.d
    | none => false

/-- The lane registers that a word behind the lane stream reads, and those it writes. -/
def LateWord.reads (x : LateWord) : List Nat := match laneParts x.instr with | some (op, w) => laneReads op w | none => []
def LateWord.writes (x : LateWord) : List Nat := match laneParts x.instr with | some (op, w) => laneWrites op w | none => []

/-- Whether a word names a register that a word behind the lane stream writes, or writes one that it reads. -/
def Hart.behind (h : Hart) (op : Nat) (w : LaneFields) : Bool :=
  h.late.any fun x => (laneReads op w ++ laneWrites op w).any x.writes.contains || (laneWrites op w).any x.reads.contains

/-- Whether a lane word may be executed before those that wait behind the lane stream: it names no register of theirs, and
changes no mask, split or order of accesses. -/
def Hart.passes (h : Hart) (i : Instr) : Bool :=
  match laneParts i with
  | some (op, w) => !h.behind op w && (op = 0x7A || op = 0x7B || arithWord op w ||
      ([0x58, 0x5A, 0x5C].contains op && decide (w.ord.str = .plain) && h.late.all (·.accs.isEmpty)))
  | none => false

/-- What a slot does with a fetched lane word. -/
def State.runLane (s : State) (hid : Nat) (h : Hart) (slot : Bool) (n : Nat) : Out :=
  match decodeL (BitVec.ofNat 96 n) with
  | .ok i => if h.late.isEmpty || h.passes i then exec i s else .next (s.runLate hid)
  | .error e => .next (s.illegalLane hid h slot e)

/-- Whether the lane stream of a hart may move (R39, R127, R359). -/
def State.lanesGo (s : State) (h : Hart) : Bool := !h.still && !s.saved h && !h.frozen && h.block.isSome

/-- A slot moves: it issues when it is in RUN (R119). DEDUCED (log 44). -/
def State.issueLane (s : State) (hid : Nat) (slot : Bool) : Out :=
  match s.hart? hid with
  | none => .next s
  | some h =>
    if !s.lanesGo h || (h.slot slot).st ≠ .run then .next s
    else
      let r := s.fetchL hid h slot
      match r.2 with
      | .ok n => r.1.runLane hid h slot n
      | .fault c level va => .next (r.1.laneFetchFault hid h slot c level va)
      | .poison | .wait => .next r.1

/-- The accesses of a word that may wait behind the lane stream, with its checks done: none of arithmetic, those of a plain
`st` to places that hold tags whose addresses are in place. -/
def State.lateAccs (s : State) (hid : Nat) (h : Hart) (slot : Bool) (op : Nat) (w : LaneFields) (owed : List RegName) :
    State × Option (List LaneAcc) :=
  let address := laneReads op { w with kc := true }
  if arithWord op w then (s, some [])
  else if op ≠ 0x59 || w.ord.str ≠ .plain || (address.map RegName.v).any owed.contains then (s, none)
  else
    let q := s.memCheck (s.laneCtx hid h slot) w false (esizeOf w * memCount op w) accWrite .laneStore fun _ => true
    if q.2.any fun accs => accs.isEmpty || accs.any q.1.tagless then (s, none) else q

/-- A slot passes a word that names a register an older load, or a word behind the lane stream, has still to write: the word
waits there, and the next one can issue. No rule holds the lane stream at such a word, and R426 has a block's `lend` executed
before a load of it is performed. DEDUCED (log 86). -/
def State.passWord (s : State) (hid : Nat) (h : Hart) (slot : Bool) (i : Instr) : State :=
  match laneParts i, h.block with
  | some (op, w), some b =>
    let owed := h.loads.flatMap LoadReq.targets ++ (h.late.flatMap LateWord.writes).map RegName.v
    let names := laneReads op w ++ laneWrites op w
    let ready := (s.indexFault h names (laneWides op w)).isNone && !h.absentAny names && h.loads.all (·.acq.isNone) &&
      !((laneMasks op w).map RegName.m).any owed.contains
    if !ready || !((names.map RegName.v).any owed.contains || h.behind op w) then s
    else
      let q := s.lateAccs hid h slot op w owed
      match q.2 with
      | some accs => q.1.modHart hid fun k =>
          { k.laneNext slot with late := k.late ++ [⟨i, slot, h.slot slot, b, accs, SMapOps.get 0 k.kills (wordKills slot)⟩] }
      | none => s
  | _, _ => s

/-- The move of a slot past the word it stands at: with the pair undivided, outside a walker's body. -/
def State.holdWord (s : State) (hid : Nat) (slot : Bool) : State :=
  match s.hart? hid with
  | none => s
  | some h =>
    if !s.lanesGo h || (h.slot slot).st ≠ .run || (h.slot !slot).st ≠ .free || h.walk.isSome then s
    else
      let r := s.fetchL hid h slot
      match r.2, r.1.hart? hid with
      | .ok n, some h1 => match decodeL (BitVec.ofNat 96 n) with
        | .ok i => r.1.passWord hid h1 slot i
        | .error _ => r.1
      | _, _ => r.1

/-! ### Moves -/

/-- The hart of an agent. -/
def Agent.hart : Agent → Nat
  | .scalar hid => hid
  | .lane hid _ => hid

/-- Where an agent stands: its pc, or its slot's offset in its block. -/
def Hart.at (h : Hart) : Agent → Nat
  | .scalar _ => h.pc.toNat
  | .lane _ i => (h.slot i).off.toNat

/-- An agent's place before and after a move, when its hart is there. -/
def places (a : Agent) (s t : State) : Option (Nat × Nat) :=
  match s.hart? a.hart, t.hart? a.hart with
  | some h, some k => some (h.at a, k.at a)
  | _, _ => none

/-- The answers a hart's own fetches have had are dropped once it has moved on, and with them what a lane word had killed
(R126), and the mark of a stall (R350). -/
def State.movedOn (s : State) (a : Agent) : State :=
  s.modHart a.hart fun h =>
    let h1 := if h.netFetch.isEmpty then h else { h with netFetch := [] }
    match a with
    | .scalar _ => { h1 with stallS := none }
    | .lane _ slot => { (if h1.kills.isEmpty then h1 else h1.killsOver (wordKills slot)) with stallL := none }

/-- What an agent's move from `s` to `t` leaves: once it stands elsewhere, what belonged to its word is dropped. -/
def afterIssue (s t : State) : State :=
  match places s.cur s t with
  | some p => if p.1 = p.2 then t else t.movedOn s.cur
  | none => t

/-- The acting agent moves. -/
def State.issue (s : State) : Out :=
  match (match s.cur with
    | .scalar hid => s.issueScalar hid
    | .lane hid slot => s.issueLane hid slot) with
  | .next t => .next (afterIssue s t)
  | .fault r => .fault r
  | .refused r => .refused r

/-- One move of the module: an agent issues, an event takes place, a part of a word is performed, or the timebase advances
(R2, R71). DESIGN CHOICE (log 100). -/
def State.move (s : State) (m : Move) : Out :=
  match m with
  | .run a => { s with cur := a }.issue
  | .event i => exec i s
  | .command c => c.run s
  | .lane hart op lane => .next (s.performLane hart op lane)
  | .part hart entry write => .next (s.drainPart hart entry write)
  | .hold hart slot => .next (afterIssue { s with cur := .lane hart slot } (s.holdWord hart slot))
  | .late hart => .next (s.runLate hart)
  | .tick n => .next { s with time := s.time + BitVec.ofNat 64 n }

/-! ### What goes on in the background

The spec bounds no order between the agents and the parts of the module (R112, R113), and promises that all of them make
progress (R116). When no move is scheduled the acting agent moves. When its S-stream does not advance, everything else that
can go on does so once, a tick passes, and the next S-stream that can move acts from then on: so every hart gets its turn,
and what a program waits for comes about. -/

/-- Moves of a hart beside its S-stream: its berth, its lane stream, absent registers, loads and the words behind them, stores,
and what its own wait needs to hear. -/
def State.hartMoves (s : State) (hid : Nat) (h : Hart) : List Move :=
  let job := match s.hartTcb h with | some t => t.job.toNat | none => 0
  let push (l : Nat) : Move := .event (.frontierPush h.die (s.hartVf h) job l)
  [.event (.berthSwap hid), .event (.laneBlockStart hid), .run (.lane hid false), .run (.lane hid true)] ++
  h.absent.map (fun g => .event (.granuleFill hid g)) ++
  h.loads.map (fun q => .event (.loadReturn hid q.op)) ++ (if h.late.isEmpty then [] else [.late hid]) ++
  [.event (.storeQueueDrain hid [])] ++
  (match h.wait with
    | some (.fwait l _) => [push l]
    | some (.sendGate ..) => (List.range 64).map push
    | some (.ssleep ..) => [.event (.ssleepWake hid)]
    | _ => [])

/-- The move of an access in flight on this module. -/
def Flight.moves (id : Nat) (f : Flight) : List Move :=
  match f.kind with
  | .home _ => [.event (.homeSectorWrite id [])]
  | .posted _ _ => [.event (.postedClusterWrite id)]
  | .atomics _ | .clusterAtomics _ _ => [.event (.atomicAtHome id 0 [])]
  | _ => []

/-- The moves of a copy: its first destination sector not yet performed, or its end. -/
def Copy.moves (id : Nat) (c : Copy) : List Move :=
  match (List.range c.work.sectors.length).find? fun k => !c.done.contains k with
  | some k => [.event (.copyEndsOnFault id k)]
  | none => [.event (.copyComplete id)]

/-- The move of a tile operation. -/
def TileOp.moves (id : Nat) (t : TileOp) : List Move :=
  match t.kind with
  | .mzero => [.event (.mzeroComplete id)]
  | .mma .. => [.event (.mmaComplete id none)]
  | .mout .. => [.event (.moutComplete id none)]

/-- The moves of a unit: its marks and ring releases, the timeout of its pre-emption, and its restoring. -/
def State.unitMoves (s : State) (id : Nat) (g : Gang) : List Move :=
  g.marks.map (fun m => .event (.mbarMarkComplete id m.obj)) ++
  g.rels.map (fun x => .event (.ringRelEffective id x.ring x.slot)) ++
  (if g.preempt.isSome then [.event (.preemptionTimeout id)] else []) ++
  (if g.st = .saved then (s.restorePlace g).toList.map fun p => .event (.contextRestore id p) else [])

/-- The entries of a table of optional things. -/
def present {α β : Type} (m : SMap (Option α)) (f : Nat → α → List β) : List β :=
  m.flatMap fun p => match p.2 with | some x => f p.1 x | none => []

/-- Frontier pushes to the dies that have not heard of a location's frontier as it stands: one follows every batch that moves one
(R323). -/
def Job.pushes (j : Job) (key : Nat) : List Move :=
  ((List.range 64).filter fun l => j.kind l ≠ .unused).flatMap fun l =>
    ((List.range Config.dies).filter fun d => j.applied && j.dieFront d l ≠ some (j.frontier l)).map fun d =>
      .event (.frontierPush d (key / 256) (key % 256) l)

/-- Moves of the tasks and jobs. -/
def State.progMoves (s : State) : List Move :=
  (List.range Config.dies).map (fun d => .event (.aggregatorBatchApply d)) ++
  present s.prog.jobs (fun k j => j.pushes k ++
    (if j.messages.isEmpty then [] else [.event (.messageConsumption (k / 256) (k % 256) 0)])) ++
  present s.prog.tasks (fun k t =>
    if t.st = .running then [.event (.taskRetirement (k / 2 ^ 32) (k % 2 ^ 32))] else []) ++
  (s.mod.queues.flatMap fun p => if p.2.fence.isEmpty then [] else [.event (.fenceConditionPoll p.1)]) ++
  (if s.prog.tasks.isEmpty && s.mod.queues.isEmpty then [] else [.event .placementRound])

/-- Moves of the module's parts: standbys, the management endpoint's accepted commands, and the timebase. -/
def State.modMoves (s : State) : List Move :=
  (s.mod.harbour.flatMap fun p => if p.2 = .takingOver then [.event (.standbyActive p.1)] else []) ++
  s.mod.accepted.map (fun p => .command p.2) ++
  (if s.mod.power = .on then [.tick 1] else [])

/-- Everything that can go on beside the S-streams. DESIGN CHOICE (log 2). -/
def State.moves (s : State) : List Move :=
  present s.harts s.hartMoves ++ present s.mem.flights Flight.moves ++ present s.copies Copy.moves ++
  present s.tileOps TileOp.moves ++ present s.gangs s.unitMoves ++ s.progMoves ++ s.modMoves

/-- Some moves take place one after another; the agent that acts stays. -/
def State.each (s : State) (ms : List Move) : State :=
  ms.foldl (fun s m => match s.move m with | .next t => { t with cur := s.cur } | _ => s) s

/-- Claim windows that are over end (R392). -/
def State.settleWindows (s : State) : State :=
  s.mod.owners.foldl (fun s o => if s.windowOver o.scope then s.settleClaims o.scope else s) s

/-- The other S-streams, the ones after `hid` first; a lane slot's own S-stream comes before them. -/
def State.others (s : State) (hid : Nat) : List Nat :=
  let ids := present s.harts fun k _ => [k]
  (match s.cur with | .lane .. => [hid] | .scalar _ => []) ++
  ids.filter (fun k => decide (hid < k)) ++ ids.filter (fun k => decide (k < hid))

/-- The first of some S-streams whose move changes anything moves, and acts from then on. -/
def State.turnTo (s : State) : List Nat → State
  | [] => s
  | k :: ks =>
    match s.move (.run (.scalar k)) with
    | .next t => if ({ t with cur := s.cur } : State) = s then s.turnTo ks else t
    | _ => s.turnTo ks

/-- What goes on beside an agent's move from `s` to `t`, when it has not advanced. DESIGN CHOICE (log 2). -/
def background (s t : State) : State :=
  let goOn (t : State) : State := (t.each t.moves).settleWindows.turnTo (t.others s.cur.hart)
  match places s.cur s t with
  | some p => if p.1 < p.2 then t else goOn t
  | none => goOn t

/-- The next move: the next scheduled one; with none scheduled, the acting agent moves, and when it does not advance
everything else does. DESIGN CHOICE (log 2). -/
def State.advance (s : State) : Out :=
  match s.sched with
  | m :: rest => ({ s with sched := rest } : State).move m
  | [] =>
    match s.issue with
    | .next t => .next (background s t)
    | .fault r => .fault r
    | .refused r => .refused r

end Sys2Proof.Machine
end

