-- ==== Sys2Proof/Machine/Step.lean ====
section
/-! DEFINITION. One step of the module, and how a test places the next instruction. -/

namespace Sys2Proof.Machine

/-- One step: the next move of the module. -/
def step (s : State) : Host.Outcome State Fault Refusal := s.advance

/-- `s` with one resident unit, whose hart fetches next the word `w` of `nbits` bits: a crane thread for a word of
the tile group, a wave for another S-stream word, a wave's lane slot 0 for a lane word. DESIGN CHOICE (log 20). -/
def State.withFetchWord (s : State) (nbits w : Nat) : State := s.placed nbits w

end Sys2Proof.Machine
end

