-- ==== Sys2Proof/Machine/Claims.lean ====
section
/-! DEFINITION. The terms in which statements about one move are made: when an agent's next word runs its meaning, and
what a word that only writes registers leaves alone. -/

namespace Sys2Proof.Machine

/-- The S-stream of hart `hid`, which is `h`, is next to run a word that reads and writes the registers given: it is the
acting agent, no pending access is still to write one of them or to be performed first, and none that is read holds an
uncorrectable error. -/
structure ScalarReady (s : State) (hid : Nat) (h : Hart) (reads writes : List SReg) : Prop where
  acts : s.cur = .scalar hid
  hart : s.hart? hid = some h
  ready : s.awaitRegs hid h true ((reads ++ writes).map fun r => .s r.toNat) = none
  sound : ∀ r ∈ reads, s.upsetAt (.scalarReg hid r.toNat) = false

/-- None of the registers holds a proposal. -/
def Hart.Settled (h : Hart) (rs : List SReg) : Prop := ∀ r ∈ rs, (h.getS r).tag = false

/-- A lane slot of hart `hid`, which is `h`, is next to run a word that names the registers given: it is the acting
agent, every register index is in range and present, nothing is awaited, and no lane of the guard reads an uncorrectable
error in the registers it reads of its own. -/
structure LaneReady (s : State) (hid : Nat) (slot : Bool) (h : Hart) (reads writes masks wides : List Nat)
    (own : Nat → List Nat) (guard : Hart → Word32) : Prop where
  acts : s.cur = .lane hid slot
  hart : s.hart? hid = some h
  inRange : s.indexFault h (reads ++ writes) wides = none
  present : h.absentAny (reads ++ writes) = false
  ready : s.awaitRegs hid h false ((reads ++ writes).map .v ++ masks.map .m) = none
  sound : s.struck hid (own (s.declared h)) (h.live slot &&& guard h) = 0

/-- A lane slot is next to run the single lane word of an opcode. -/
def LaneReadyFor (op : Nat) (w : LaneFields) (s : State) (hid : Nat) (slot : Bool) (h : Hart) : Prop :=
  LaneReady s hid slot h (laneReads op w) (laneWrites op w) (laneMasks op w) (laneWides op w) (laneOwn op w) (laneGuard op w)

/-- The fields of a lane word with every operand and modifier at zero; type b32 is code 0. -/
def laneZero : LaneFields :=
  ⟨.b32, 0, 0, 0, 0, 0, .rne, false, false, false, false, false, false, false, false, false, 0, 0⟩

/-- The S-stream of a hart goes to an address. -/
def State.goTo (s : State) (hid : Nat) (pc : Word) : State := s.modHart hid fun h => { h with pc := pc }

/-- A release is over: its word goes on. -/
def State.released (s : State) (hid : Nat) : State := s.modHart hid fun h => { h with busy := false }

/-- The release part of a word, if its strength has one, is over, and leaves `u` (R78). -/
def ReleaseDone (s : State) (hid : Nat) (o : Ord) (u : State) : Prop :=
  if o.str = .rel ∨ o.str = .ar then ∃ v, s.release hid o.obs = (v, true) ∧ u = v.released hid else u = s

/-- A scalar store's bytes: the low bytes of the register, with its tag (R192). -/
def storedPart (acc : LaneAcc) (x : TV) (size : Nat) : StorePart := ⟨acc.pa, size, x.val.toNat % 2 ^ (8 * size), x.tag⟩

/-- The phase-completion test of R97; `dec` says that the event was a PEND decrement. -/
def phaseTest (b : Barrier) (dec : Bool) : Barrier :=
  if b.arr = b.exp ∧ b.pend = 0 ∧ (b.exp ≠ 0 ∨ dec = true) then { b with gen := b.gen + 1, arr := 0 } else b

/-- A generation is reached: GEN minus it is zero or positive as a signed number (R98). -/
def genReached (b : Barrier) (g : BitVec 32) : Prop := 0 ≤ (b.gen - g).toInt

/-- The acquire of a barrier form; an empty mask makes none (R99). -/
def State.acquired (s : State) (hid : Nat) (o : Ord) : State := if o.str = .plain then s else s.acquire hid o.obs

/-- The new value of a scalar or inbound atomic by its AOP (R193), on words of `n` bits: the old value, the operand, and
the second operand of `.cas`. -/
def atomicNew {n : Nat} (aop : BitVec 4) (old d d1 : BitVec n) : BitVec n :=
  if aop = 0 then old + d
  else if aop = 1 then old &&& d
  else if aop = 2 then old ||| d
  else if aop = 3 then old ^^^ d
  else if aop = 4 then (if d.toInt < old.toInt then d else old)
  else if aop = 5 then (if old.toInt < d.toInt then d else old)
  else if aop = 6 then (if d.toNat < old.toNat then d else old)
  else if aop = 7 then (if old.toNat < d.toNat then d else old)
  else if aop = 8 then d
  else if old = d then d1 else old

/-- Byte `i` of a sector. -/
def sectorByte (d : SectorData) (i : Nat) : Byte := d.extractLsb' (8 * i) 8

/-- `d` is what a sector write leaves of `old` (R47): its bytes, and P and X by its s, x and whether it covers the
sector. -/
def Merged (old d : DsSector) (w : SWrite) : Prop :=
  (∀ i, i < 128 → sectorByte d.data i = if w.mask.getLsbD i then sectorByte w.data i else sectorByte old.data i) ∧
  d.p = (w.s || (old.p && !w.fc)) ∧ d.x = (w.x || (old.x && !w.fc)) ∧ d.dirty = true

/-- Every sector but one is held by its die store as before, and every byte of GDDR is as before: it reads as before. -/
def HomeFrame (s t : State) (n : Nat) : Prop :=
  (∀ m, m ≠ n → t.dsGet m = s.dsGet m) ∧ ∀ a, byteAt t.mem.mem a = byteAt s.mem.mem a

/-- What a die store holds clean is what GDDR holds (R54), and it holds usable sectors alone. -/
def State.Backed (s : State) : Prop :=
  ∀ n d, s.dsGet n = some d → homeSector n = true ∧ (d.dirty = false → d.view = (gddrRead s.mem.mem n).1.view)

/-- What a lane word writes, and its slot's move to the next word. -/
def State.wrote (s : State) (c : LaneCtx) (o : LaneOut) : State := (s.commit c.hid o).laneNext c.hid c.slot

/-- From `s` to `t`, hart `hid` has changed in its scalar register `d` and its pc alone, no other hart has changed, and
nothing else has but that a latent upset of a written register is gone: every flag and special register, every
accumulator, every queue and every byte of memory is as before. -/
structure RegisterFrame (s : State) (hid : Nat) (h : Hart) (d : SReg) (t : State) : Prop where
  others : ∀ i, i ≠ hid → t.hart? i = s.hart? i
  own : ∃ k, t.hart? hid = some k ∧ k = { h with s := k.s, pc := k.pc } ∧ ∀ r, r ≠ d → k.getS r = h.getS r
  rest : t = { s with harts := t.harts, mem := { s.mem with upsets := t.mem.upsets } }
  upsets : t.mem.upsets.filter (fun u => u.target ≠ .scalarReg hid d.toNat) =
    s.mem.upsets.filter fun u => u.target ≠ .scalarReg hid d.toNat
  bytes : ∀ a, byteAt t.mem.mem a = byteAt s.mem.mem a
  sectors : ∀ n, (t.homeRead n).2 = (s.homeRead n).2

/-- As `RegisterFrame`, for a lane word of slot `slot` that writes the registers and lanes of `ws`: every other lane
register, every mask but those of `ms`, the scalar registers and the whole of memory are as before. -/
structure LaneFrame (s : State) (hid : Nat) (slot : Bool) (h : Hart) (ws : List (Nat × Nat)) (ms : List Nat) (t : State) :
    Prop where
  others : ∀ i, i ≠ hid → t.hart? i = s.hart? i
  own : ∃ k, t.hart? hid = some k ∧
    k = { h with v := k.v, m := k.m, fstat := k.fstat, wstat := k.wstat, slot0 := k.slot0, slot1 := k.slot1,
                 older := k.older } ∧
    k.slot (!slot) = h.slot (!slot) ∧
    (∀ r l, l < 32 → (r, l) ∉ ws → k.getV r l = h.getV r l) ∧ ∀ m, m ∉ ms → k.getM m = h.getM m
  rest : t = { s with harts := t.harts, mem := { s.mem with upsets := t.mem.upsets } }
  upsets : t.mem.upsets.filter (fun u => ws.all fun p => u.target ≠ .laneReg hid p.1 p.2) =
    s.mem.upsets.filter fun u => ws.all fun p => u.target ≠ .laneReg hid p.1 p.2
  bytes : ∀ a, byteAt t.mem.mem a = byteAt s.mem.mem a
  sectors : ∀ n, (t.homeRead n).2 = (s.homeRead n).2

/-- What a lane register, or a pair, holds in a lane. -/
def Hart.laneVal (h : Hart) (wide : Bool) (r l : Nat) : Val :=
  if wide then ⟨(h.getV64 r l).val.toNat, (h.getV64 r l).tag⟩ else ⟨(h.getV r l).val.toNat, (h.getV r l).tag⟩

/-- The registers and lanes that a result of some lanes takes. -/
def destRegs (wide : Bool) (d : Nat) (lanes : List Nat) : List (Nat × Nat) :=
  lanes.flatMap fun l => if wide then [(d, l), (d + 1, l)] else [(d, l)]

/-- FSTAT after a word whose lanes met the conditions `st`; `prop` says that a result is a proposal (R163). -/
def fstatAfter (h : Hart) (st : Stat) (prop : Bool) : Word :=
  if st = 0 then h.fstat else h.fstat ||| BitVec.ofNat 64 st.toNat ||| (if prop then 64 else 0)

/-- From `s` to `t`, slot `slot` of hart `hid`, which is `h`, has run a word that leaves the value `v` and its tag in
register (or pair) `d` of every executed lane, has set the conditions `st` in FSTAT, has gone on to the next lane word,
and has changed nothing else. -/
structure LaneResult (s : State) (hid : Nat) (slot : Bool) (h : Hart) (wide : Bool) (d : Nat) (v : Nat → Val) (st : Stat)
    (t : State) : Prop where
  frame : LaneFrame s hid slot h (destRegs wide d (lanesOf (h.live slot))) [] t
  own : ∃ k, t.hart? hid = some k ∧ k.slot slot = { h.slot slot with off := (h.slot slot).off + 1 } ∧ k.wstat = h.wstat ∧
    k.fstat = fstatAfter h st ((lanesOf (h.live slot)).any fun l => (v l).tag) ∧
    ∀ l ∈ lanesOf (h.live slot), k.laneVal wide d l = v l

/-- As `LaneResult`, for a word that leaves a bit and its tag in mask register `m` of every executed lane. -/
structure LaneMaskResult (s : State) (hid : Nat) (slot : Bool) (h : Hart) (m : Nat) (v : Nat → Bool × Bool) (t : State) :
    Prop where
  frame : LaneFrame s hid slot h [] [m] t
  own : ∃ k, t.hart? hid = some k ∧ k.slot slot = { h.slot slot with off := (h.slot slot).off + 1 } ∧
    k.fstat = h.fstat ∧ k.wstat = h.wstat ∧ ∀ l, l < 32 → ((k.getM m).bit l, (k.getM m).tag l) =
      if (h.live slot).getLsbD l then v l else ((h.getM m).bit l, (h.getM m).tag l)

/-! ### Conditions and forms of the S-stream, as the manual's tables give them -/

/-- The 3-bit condition of R182. -/
def scalarCondition (cc : BitVec 3) (x y : Word) : Bool :=
  if cc = 0 then x = y
  else if cc = 1 then x ≠ y
  else if cc = 2 then x.toInt < y.toInt
  else if cc = 3 then y.toInt ≤ x.toInt
  else if cc = 4 then x.toInt ≤ y.toInt
  else if cc = 5 then y.toInt < x.toInt
  else if cc = 6 then x.toNat < y.toNat
  else y.toNat ≤ x.toNat

/-- The condition of a branch (R185), for the six codes it assigns. -/
def branchCondition (cond : BitVec 4) (x : Word) : Bool :=
  if cond = 0 then x = 0
  else if cond = 1 then x ≠ 0
  else if cond = 2 then x.toInt < 0
  else if cond = 3 then 0 ≤ x.toInt
  else if cond = 4 then x.toInt ≤ 0
  else 0 < x.toInt

/-- The S-stream forms that touch nothing but one scalar register and the pc: the registers each reads, those among
them that must be settled, and the one it writes, if any (R180 to R187, R195, R200). `csrr` of FSTAT may await an atomic. -/
def registerForm (i : Instr) : Option (List SReg × List SReg × List SReg) :=
  match i with
  | .sadd d a b | .ssub d a b | .smul d a b | .smulh d a b | .smulhn d a b | .sdiv d a b | .sdivn d a b | .srem d a b
  | .sremn d a b | .sand d a b | .sor d a b | .sxor d a b | .sshl d a b | .sshr d a b | .ssra d a b | .smin d a b
  | .smax d a b | .sminn d a b | .smaxn d a b | .scmp d a b _ | .sbfx d a b _ | .slea d a b _ => some ([a, b], [], [d])
  | .scmov d a b _ | .sbfi d a b => some ([a, b, d], [], [d])
  | .sclz d a | .spop d a | .sext d a _ | .saddi d a _ | .sandi d a _ | .sori d a _ | .sxori d a _ | .sshli d a _
  | .sshri d a _ | .ssrai d a _ | .scmpi d a _ _ => some ([a], [], [d])
  | .smovl d _ => some ([], [], [d])
  | .sshor d _ => some ([d], [], [d])
  | .sclk d _ => some ([], [], [d])
  | .feat d c => if c.toNat < 2 then some ([], [], [d]) else none
  | .csrr d n => if n ≠ 0 ∧ (csrOf n).isSome then some ([], [], [d]) else none
  | .sbr _ a _ | .sjmpr a => some ([a], [a], [])
  | .sjmp _ => some ([], [], [])
  | .scall _ => some ([], [], [63])
  | .sret => some ([63], [63], [])
  | .scallr a => some ([a], [a], [63])
  | .sloop a _ => some ([a], [a], [a])
  | _ => none

/-- The tree of R222 after `k` of its steps, at position `p`: `x` gives the executed lanes' elements, `f` combines two, and
a tag joins with each. -/
def treeValue (f : Nat → Nat → Nat) (x : Nat → Option Val) : Nat → Nat → Option Val
  | 0, p => x p
  | k + 1, p =>
    if p < 2 ^ k then treeValue f x k p
    else match treeValue f x k (p - 2 ^ k), treeValue f x k p with
      | none, v => v
      | some u, none => some u
      | some u, some v => some ⟨f u.n v.n, u.tag || v.tag⟩

/-- A register, or a pair, of a lane as it was before the writes of the last `n` moments since the innermost split (R226). -/
def Hart.laneWas (h : Hart) (n : Nat) (wide : Bool) (r l : Nat) : Val :=
  let lo := h.agedV n r l
  let hi := h.agedV n (r + 1) l
  if wide then ⟨(hi.val ++ lo.val).toNat, lo.tag || hi.tag⟩ else ⟨lo.val.toNat, lo.tag⟩

/-! ### Numbers, as the manual's tables give them -/

/-- A rounding mode seen from the other side of zero. -/
def mirrored (md : Rnd) : Rnd := if md = .rdn then .rup else if md = .rup then .rdn else md

/-- A function of f32 that is odd in every mode: the mode mirrored, its result changes sign alone. -/
def OddFunction (f : Rnd → FVal → FVal × Stat) : Prop :=
  ∀ md x, f (mirrored md) x.negate = ((f md x).1.negate, (f md x).2)

/-- A value is the integer `n`. -/
def FVal.IsInt (x : FVal) (n : Int) : Prop := x.eqv (FVal.ofInt n) = true

/-- The special results and the exact ones of the special functions (R157, R165, R214), in a rounding mode: the table's rows,
NaN for a NaN, exact powers of two, integers and half integers, and the symmetry of each. An exact value is rounded once: it
sets no status unless it leaves the format. -/
structure SpecialResults (md : Rnd) : Prop where
  nan : ∀ f ∈ [fexp2Of, flog2Of, frcpOf, frsqOf, fsinpiOf, fcospiOf, ftanhOf], f md .nan = (.nan, stNone)
  exp2Inf : fexp2Of md (.inf true) = (.fin false 0 0, stNone) ∧ fexp2Of md (.inf false) = (.inf false, stNone)
  exp2Int : ∀ neg m e n, FVal.IsInt (.fin neg m e) n → fexp2Of md (.fin neg m e) = fmtF32.round md (.fin false 1 n)
  log2Inf : flog2Of md (.inf false) = (.inf false, stNone) ∧ flog2Of md (.inf true) = (.nan, stNV)
  log2Zero : ∀ neg e, flog2Of md (.fin neg 0 e) = (.inf true, stDZ)
  log2Neg : ∀ m e, m ≠ 0 → flog2Of md (.fin true m e) = (.nan, stNV)
  log2Pow : ∀ (j : Nat) (e : Int), flog2Of md (.fin false (2 ^ j) e) = fmtF32.round md (FVal.ofInt (e + j))
  rcpInf : ∀ neg, frcpOf md (.inf neg) = (.fin neg 0 0, stNone)
  rcpZero : ∀ neg e, frcpOf md (.fin neg 0 e) = (.inf neg, stDZ)
  rcpPow : ∀ neg (j : Nat) (e : Int), frcpOf md (.fin neg (2 ^ j) e) = fmtF32.round md (.fin neg 1 (-(e + j)))
  rsqInf : frsqOf md (.inf false) = (.fin false 0 0, stNone) ∧ frsqOf md (.inf true) = (.nan, stNV)
  rsqZero : ∀ neg e, frsqOf md (.fin neg 0 e) = (.inf neg, stDZ)
  rsqNeg : ∀ m e, m ≠ 0 → frsqOf md (.fin true m e) = (.nan, stNV)
  rsqPow : ∀ (j : Nat) (e k : Int), e + j = 2 * k → frsqOf md (.fin false (2 ^ j) e) = fmtF32.round md (.fin false 1 (-k))
  sinInf : ∀ neg, fsinpiOf md (.inf neg) = (.nan, stNV)
  sinInt : ∀ neg m e n, FVal.IsInt (.fin neg m e) n → fsinpiOf md (.fin neg m e) = (.fin neg 0 0, stNone)
  sinHalf : ∀ neg m e n, FVal.IsInt (.fin neg m (e + 1)) n → n % 2 = 1 →
    fsinpiOf md (.fin neg m e) = (.fin (decide (n % 4 = 3)) 1 0, stNone)
  cosInf : ∀ neg, fcospiOf md (.inf neg) = (.nan, stNV)
  cosInt : ∀ neg m e n, FVal.IsInt (.fin neg m e) n → fcospiOf md (.fin neg m e) = (.fin (decide (n % 2 = 1)) 1 0, stNone)
  cosHalf : ∀ neg m e n, FVal.IsInt (.fin neg m (e + 1)) n → n % 2 = 1 → fcospiOf md (.fin neg m e) = (.fin false 0 0, stNone)
  tanhInf : ∀ neg, ftanhOf md (.inf neg) = (.fin neg 1 0, stNone)
  tanhZero : ∀ neg e, ftanhOf md (.fin neg 0 e) = (.fin neg 0 e, stNone)
  rcpOdd : OddFunction frcpOf
  sinOdd : OddFunction fsinpiOf
  tanhOdd : OddFunction ftanhOf
  cosEven : ∀ x, fcospiOf md x.negate = fcospiOf md x

/-- A floating type's row of R156: its sign as a code, its infinity, its largest finite code, its default NaN, and the power
of two just above every finite value. -/
structure FormatRow where
  ty : LType
  sign : Nat
  inf : Option Nat
  max : Nat
  nan : Option Nat
  top : Int
deriving DecidableEq, Repr

/-- The table of R156. -/
def formatRows : List FormatRow :=
  [⟨.f64, 0x8000000000000000, some 0x7FF0000000000000, 0x7FEFFFFFFFFFFFFF, some 0x7FF8000000000000, 1024⟩,
   ⟨.f32, 0x80000000, some 0x7F800000, 0x7F7FFFFF, some 0x7FC00000, 128⟩,
   ⟨.a26, 0x80000000, some 0x7F800000, 0x7F7FFFC0, some 0x7FC00000, 128⟩,
   ⟨.f16, 0x8000, some 0x7C00, 0x7BFF, some 0x7E00, 16⟩,
   ⟨.bf16, 0x8000, some 0x7F80, 0x7F7F, some 0x7FC0, 128⟩,
   ⟨.e5m2, 0x80, some 0x7C, 0x7B, some 0x7E, 16⟩,
   ⟨.e4m3, 0x80, none, 0x7E, some 0x7F, 9⟩,
   ⟨.e3m2, 0x20, none, 0x1F, none, 5⟩,
   ⟨.e2m3, 0x20, none, 0x1F, none, 3⟩,
   ⟨.e2m1, 0x8, none, 0x7, none, 3⟩]

/-- Rounding that goes away from zero on overflow: to nearest, or toward the value's own infinity. -/
def awayFromZero (md : Rnd) (neg : Bool) : Bool := md = .rne || (md = .rdn && neg) || (md = .rup && !neg)

/-- The rows of R166 for a floating target: a NaN, an infinity, a value beyond the format, and a zero. -/
def FloatTarget (r : FormatRow) (md : Rnd) (sat : Bool) : Prop :=
  let out (x : FVal) : Nat × Stat := (r.ty.image (convFloat r.ty md sat x).1, (convFloat r.ty md sat x).2)
  out .nan = (match r.nan with | some n => (n, 0) | none => (0, stNV)) ∧
  ∀ neg, let sg := if neg then r.sign else 0
    out (.inf neg) = (if sat then (sg + r.max, 0) else match r.inf, r.nan with
      | some i, _ => (sg + i, 0)
      | none, some n => (n, stNV)
      | none, none => (sg + r.max, stOF)) ∧
    (∀ m e, m ≠ 0 → r.top ≤ e + (m.log2 : Int) → out (.fin neg m e) =
      if sat || !awayFromZero md neg then (sg + r.max, stOF ||| stNX) else match r.inf, r.nan with
        | some i, _ => (sg + i, stOF ||| stNX)
        | none, some n => (n, stNV ||| stOF ||| stNX)
        | none, none => (sg + r.max, stOF ||| stNX)) ∧
    ∀ e, out (.fin neg 0 e) = ((if r.nan = none then 0 else sg), 0)

/-- `z` is the quotient `q / d` rounded to an integer in a mode (R162). -/
def RoundedTo (md : Rnd) (q : Int) (d : Nat) (z : Int) : Prop :=
  match md with
  | .rtz => z = q.tdiv d
  | .rdn => z = q / d
  | .rup => z = -(-q / d)
  | .rne => 2 * (q - z * d).natAbs ≤ d ∧ (2 * (q - z * d).natAbs = d → z % 2 = 0)

/-- The rows of R166 for an integer target: a NaN gives 0 with NV; a value rounds by the mode to an integer, clamped to the
type's range, with NV by a clamp when .sat is 0; infinities clamp too. -/
def IntTarget (t : LType) (md : Rnd) (sat : Bool) : Prop :=
  let nv : Stat := if sat then 0 else stNV
  convToInt t md sat .nan = (0, stNV) ∧ convToInt t md sat (.inf true) = (t.minInt, nv) ∧
  convToInt t md sat (.inf false) = (t.maxInt, nv) ∧
  ∀ (neg : Bool) (m : Nat) (e : Int),
    let q : Int := (if neg then -1 else 1) * (m * 2 ^ e.toNat : Nat)
    let d : Nat := 2 ^ (-e).toNat
    ∀ z, RoundedTo md q d z → convToInt t md sat (.fin neg m e) =
      if z < t.minInt then (t.minInt, nv) else if t.maxInt < z then (t.maxInt, nv)
      else (z, if q % d = 0 then 0 else stNX)

/-- The rows of R169 to R172, and their worked example: the scale of a magnitude, the decoding and the encoding of an
element, and the spare. -/
structure QuantResults (md : Rnd) (sat : Bool) : Prop where
  scale : ∀ p ∈ [(LType.e2m1, (2 : Int)), (.e3m2, 4), (.e2m3, 2), (.e4m3, 8), (.e5m2, 15)],
    qsclOf p.1 .nan = (0xFF, stNV) ∧ (∀ neg, qsclOf p.1 (.inf neg) = (0xFF, stNV)) ∧
    (∀ neg e, qsclOf p.1 (.fin neg 0 e) = (0, 0)) ∧ ∀ neg m e, m ≠ 0 →
      let x := e + (m.log2 : Int) - p.2
      qsclOf p.1 (.fin neg m e) = if x < -127 then (0, stSCLO) else ((x + 127).toNat, 0)
  unpackBad : ∀ t spare code, t ∈ [LType.e2m1, .e3m2, .e2m3, .e4m3, .e5m2] →
    qunpOf t md sat 0xFF spare code = (0x7FC00000, 0)
  unpackSpare : ∀ scale spare, scale < 255 → spare < 256 → qunpOf .e2m1 md sat scale spare 8 =
    let r := convFloat .f32 md sat ((fmtE4m3.decode spare).scale (scale - 127))
    (LType.f32.image r.1, r.2)
  unpackCodes : (List.range 16).map (fun c => qunpOf .e2m1 md sat 127 0x4E c) =
    [0, 0x3F000000, 0x3F800000, 0x3FC00000, 0x40000000, 0x40400000, 0x40800000, 0x40C00000, 0x40E00000, 0xBF000000,
      0xBF800000, 0xBFC00000, 0xC0000000, 0xC0400000, 0xC0800000, 0xC0C00000].map fun n => (n, 0)
  packBad : ∀ spare x, qpackOf .e2m1 md sat 0xFF spare x = (0, stNV) ∧ qpackOf .e3m2 md sat 0xFF spare x = (0, stNV) ∧
    qpackOf .e2m3 md sat 0xFF spare x = (0, stNV) ∧ qpackOf .e4m3 md sat 0xFF spare x = (0x7F, 0) ∧
    qpackOf .e5m2 md sat 0xFF spare x = (0x7E, 0)
  packNan : ∀ scale spare, scale < 255 → qpackOf .e2m1 md sat scale spare .nan = (0, stNV)
  packZero : ∀ scale spare neg e, scale < 255 → qpackOf .e2m1 md sat scale spare (.fin neg 0 e) = (0, 0)
  packCode : ∀ scale spare code, scale < 255 → spare < 256 → code < 16 → code ≠ 8 →
    qpackOf .e2m1 md sat scale spare ((LType.e2m1.value code).scale (scale - 127)) = (code, 0)
  packWide : ∀ t ∈ [LType.e3m2, .e2m3, .e4m3, .e5m2], ∀ scale spare x, scale < 255 → qpackOf t md sat scale spare x =
    (t.image (convFloat t md sat (x.scale (127 - scale))).1, (convFloat t md sat (x.scale (127 - scale))).2)
  packBlock : [0x40E00000, 0x40A00000, 0xC0200000, 0x3E800000, 0xBDCCCCCD, 0x40400000, 0x40D00000, 0x3F800000].map
      (fun n => qpackOf .e2m1 .rne sat 0x7F 0x4E (LType.f32.value n)) =
    [(8, 0), (6, stNX), (0xC, stNX), (0, stNX), (0, stNX), (5, 0), (7, stNX), (2, 0)]
  spareBad : ∀ x, qspareOf md sat 0xFF x = (0x7F, stNV)
  spareCode : ∀ scale code, scale < 255 → code < 256 → code % 128 ≠ 127 →
    qspareOf md sat scale ((fmtE4m3.decode code).scale (scale - 127)) = (code, 0)

end Sys2Proof.Machine
end

