-- ==== Sys2Proof/Certificates/Slice0/Obligations.lean ====
section
/-! DEFINITION. The statements for the provers, each a Prop. The premises speak of the state and the operands alone. -/

section

open Sys2Proof Sys2Proof.Machine

/-! ### Encoding and decoding -/

/-- Words that the manual's examples spell out decode to the forms they stand for, one or more of each family. -/
def Obligations.WrittenWordsDecode : Prop :=
  decodeS .wave 0x04618700 = .ok (.sadd 6 6 7) ∧
  decodeS .wave 0x0830FFFC = .ok (.saddi 3 3 (-4)) ∧
  decodeS .wave 0x4005FFFD = .ok (.sloop 5 (-3)) ∧
  decodeS .wave 0x44024000 = .ok (.lrun 9) ∧
  decodeS .wave 0x506120E0 = .ok (.sst 6 4 ⟨.rel, 1⟩ .b64 0) ∧
  decodeS .wave 0x6401E122 = .ok (.barWait 7 ⟨.acq, 1⟩ 2) ∧
  decodeS .wave 0x6CA10620 = .ok (.cpy 10 4 6 2) ∧
  decodeS .wave 0x70C00502 = .ok (.ringGet 12 5) ∧
  decodeS .wave 0x75431000 = .ok (.spawn 20 12 16) ∧
  decodeS .wave 0x7D430A00 = .ok (.wloop 20 12 10) ∧
  decodeS .crane 0x883188F0 = .ok (.mma 3 6 8 15) ∧
  decodeS .wave 0xFC014002 = .ok (.tlbiVa 5) ∧
  decodeL 0x0046_0500_6000_0008_0800_0064 =
    .ok (.add { laneZero with ty := .i32, d := 10, a := 3, sat := true, imm := true, imm16 := 100 }) ∧
  decodeL 0x08D4_0200_2010_0600_0000_0000 = .ok (.fma { laneZero with ty := .f32, d := 4, a := 1, b := 2, c := 3 }) ∧
  decodeL 0x1400_0280_A000_0000_0803_0001 =
    .ok (.shfl { laneZero with d := 5, a := 5, imm := true, aux := 3, imm16 := 1 }) ∧
  decodeL 0x1600_0080_8010_0000_4421_0010 =
    .ok (.ld { laneZero with d := 1, a := 4, b := 2, ka := true, aux := 0x421, imm16 := 16 }) ∧
  decodeL 0x1CD2_0100_4000_0600_1000_0000 = .ok (.dcor { laneZero with ty := .f64, d := 2, a := 2, c := 3, kc := true }) ∧
  decodeL 0x1E00_0000_0000_0040_0000_0028 = .ok (.lbr { laneZero with msel := 1, imm16 := 40 })

/-- R131 to R134, R146 and the family encodings: the word of a well-formed S-stream form decodes to that form, with every
operand at every value the encoding admits, on the engine whose form it is. -/
def Obligations.ScalarEncodeDecode : Prop :=
  ∀ (i : Instr) (w : BitVec 32), i.wf = true → encodeS i = some w → decodeS (engineOf w) w = .ok i

/-- R135, R139 and the family encodings: the word of a well-formed lane form, the pair word included, decodes to that form,
with every operand at every value the encoding admits. -/
def Obligations.LaneEncodeDecode : Prop :=
  ∀ (i : Instr) (w : BitVec 96), i.wf = true → encodeL i = some w → decodeL w = .ok i

/-- No bit of a word is ignored (R132): a word that decodes is the word of what it decodes to, which is well-formed; in the
S-stream and in the lane stream. -/
def Obligations.DecodedWordIsTheEncoding : Prop :=
  (∀ (e : Engine) (w : BitVec 32) (i : Instr), decodeS e w = .ok i → i.wf = true ∧ encodeS i = some w) ∧
  ∀ (w : BitVec 96) (i : Instr), decodeL w = .ok i → i.wf = true ∧ encodeL i = some w

/-! ### One step -/

/-- A step runs the decoded instruction. With no move scheduled, an S-stream with nothing to take first fetches the word at
its pc, and a lane slot in RUN fetches its lane word, no lane word waiting behind the lane stream that has to come first
(log 86); where the fetch answers `n` in state `s1` and `n` decodes to `i`, the step is `exec i s1`, followed by what goes
on beside it. With an event scheduled next, the step is the event's `exec`.
The model's readings or choices in it: log 2, 86. -/
def Obligations.StepRunsTheDecodedInstruction : Prop :=
  (∀ (s s1 : State) (hid : Nat) (h : Hart) (n : Nat) (i : Instr),
    s.sched = [] → s.cur = .scalar hid → s.hart? hid = some h → h.still = false → s.saved h = false →
    s.asyncDue hid h = none → h.wait = none → h.acq = false → h.late = [] ∨ passesLate (BitVec.ofNat 32 n) = true →
    s.fetchBytes hid h h.pc 4 accFetch = (s1, .ok n) → decodeS h.engine (BitVec.ofNat 32 n) = .ok i →
    step s = match exec i s1 with
      | .next t => .next (background s (afterIssue s t))
      | .fault r => .fault r
      | .refused r => .refused r) ∧
  (∀ (s s1 : State) (hid : Nat) (slot : Bool) (h : Hart) (n : Nat) (i : Instr),
    s.sched = [] → s.cur = .lane hid slot → s.hart? hid = some h → s.lanesGo h = true → (h.slot slot).st = .run →
    h.late = [] ∨ h.passes i = true → s.fetchBytes hid h (h.laneAddr slot) 12 accFetch = (s1, .ok n) → decodeL (BitVec.ofNat 96 n) = .ok i →
    step s = match exec i s1 with
      | .next t => .next (background s (afterIssue s t))
      | .fault r => .fault r
      | .refused r => .refused r) ∧
  ∀ (s : State) (i : Instr) (rest : List Move), s.sched = .event i :: rest → step s = exec i { s with sched := rest }

/-- The module always goes on (R145, R357): with no event scheduled from outside, a step answers a next state from every
state; what an instruction cannot do is a trap, a stall or the end of a task, and never the end of the run.
The model's readings or choices in it: log 2. -/
def Obligations.ModuleNeverStops : Prop :=
  ∀ s : State, s.sched = [] → ∃ t, step s = .next t

/-- Every step keeps memory in its canonical form: addresses strictly rising, and no byte listed that equals what an
unlisted address reads as.
The model's readings or choices in it: log 3. -/
def Obligations.StepKeepsMemoryCanonical : Prop :=
  ∀ s t : State, Memory.wf s.mem.mem → step s = .next t → Memory.wf t.mem.mem

/-- What reset leaves: memory with nothing listed, no hart, unit, copy, task or job, the timebase at 0, every launch queue's
register and the TROOT, TSPACE and ROLE registers of every VF at 0 (VFSCHED at weight 1), and the wave-scope control
registers and FMT of every hart a phase starts at the values of R200 and R295. That the timebase starts at 0 is the model's
choice (log 1).
The model's readings or choices in it: log 3. -/
def Obligations.ResetState : Prop :=
  let s := State.reset
  Memory.wf s.mem.mem ∧ s.mem.mem = [] ∧ s.harts = [] ∧ s.gangs = [] ∧ s.copies = [] ∧ s.tileOps = [] ∧
  s.prog.tasks = [] ∧ s.prog.jobs = [] ∧ s.time = 0 ∧ (∀ a, byteAt s.mem.mem a = 0) ∧
  (∀ vf, (s.vfRegs vf).troot = 0 ∧ (s.vfRegs vf).tspace = 0 ∧ (s.vfRegs vf).roleLow = 0 ∧ (s.vfRegs vf).roleHigh = 0 ∧
    (s.vfRegs vf).roleTime = 0 ∧ (s.vfRegs vf).sched = 1) ∧
  (∀ q, (s.queue q).ctl = 0) ∧
  ∀ unit e gang index core part berth role start pc,
    let h := Hart.fresh unit e gang index core part berth role start pc
    h.fstat = 0 ∧ h.wstat = 0 ∧ h.corrLimit = 3 ∧ h.corrKappa = 0x3FE0000000000000 ∧ h.corrOvf = 0 ∧ h.fmt = fmtReset ∧
    (∀ r, h.getS r = TV.zero) ∧ (∀ k, h.getK k = TV.zero) ∧ (∀ r l, h.getV r l = LV.zero) ∧ h.m0 = BitVec.allOnes 32

/-! ### The S-stream: registers -/

/-- R180, R183, R184: the two-source forms write their values, tagged by both sources (R177), and move on; each immediate
form has the effect of its register form with the immediate for b, settled; the two constant forms. -/
def Obligations.ScalarArithmeticResults : Prop :=
  (∀ (s : State) (hid : Nat) (h : Hart) (d a b : SReg), ScalarReady s hid h [a, b] [d] →
    let x := (h.getS a).val
    let y := (h.getS b).val
    let n := (y.extractLsb' 0 6).toNat
    let gives (i : Instr) (v : Word) : Prop := exec i s = .next (s.result hid d ⟨v, (h.getS a).tag || (h.getS b).tag⟩)
    gives (.sadd d a b) (x + y) ∧ gives (.ssub d a b) (x - y) ∧ gives (.smul d a b) (x * y) ∧
    gives (.smulh d a b) ((x.signExtend 128 * y.signExtend 128).extractLsb' 64 64) ∧
    gives (.smulhn d a b) ((x.zeroExtend 128 * y.zeroExtend 128).extractLsb' 64 64) ∧
    gives (.sand d a b) (x &&& y) ∧ gives (.sor d a b) (x ||| y) ∧ gives (.sxor d a b) (x ^^^ y) ∧
    gives (.sshl d a b) (x <<< n) ∧ gives (.sshr d a b) (x >>> n) ∧ gives (.ssra d a b) (x.sshiftRight n) ∧
    gives (.smin d a b) (if x.toInt < y.toInt then x else y) ∧ gives (.smax d a b) (if x.toInt < y.toInt then y else x) ∧
    gives (.sminn d a b) (if x.toNat < y.toNat then x else y) ∧ gives (.smaxn d a b) (if x.toNat < y.toNat then y else x) ∧
    ∀ sh : BitVec 3, gives (.slea d a b sh) (x + y <<< sh.toNat)) ∧
  ∀ (s : State) (hid : Nat) (h : Hart) (d a : SReg) (i : BitVec 14) (n : BitVec 6) (c : BitVec 20),
    let x := (h.getS a).val
    let t := (h.getS a).tag
    (ScalarReady s hid h [a] [d] →
      exec (.saddi d a i) s = .next (s.result hid d ⟨x + i.signExtend 64, t⟩) ∧
      exec (.sandi d a i) s = .next (s.result hid d ⟨x &&& i.signExtend 64, t⟩) ∧
      exec (.sori d a i) s = .next (s.result hid d ⟨x ||| i.signExtend 64, t⟩) ∧
      exec (.sxori d a i) s = .next (s.result hid d ⟨x ^^^ i.signExtend 64, t⟩) ∧
      exec (.sshli d a n) s = .next (s.result hid d ⟨x <<< n.toNat, t⟩) ∧
      exec (.sshri d a n) s = .next (s.result hid d ⟨x >>> n.toNat, t⟩) ∧
      exec (.ssrai d a n) s = .next (s.result hid d ⟨x.sshiftRight n.toNat, t⟩)) ∧
    (ScalarReady s hid h [] [d] → exec (.smovl d c) s = .next (s.result hid d ⟨c.signExtend 64, false⟩)) ∧
    (ScalarReady s hid h [d] [d] → exec (.sshor d c) s =
      .next (s.result hid d ⟨(h.getS d).val <<< 20 ||| c.zeroExtend 64, (h.getS d).tag⟩))

/-- R181: quotients and remainders with their corners, and bit fields clipped to the register's end. No division traps; an
empty field leaves the destination of `sbfi` unchanged, value and tag, and gives 0 in `sbfx`. -/
def Obligations.ScalarDivisionAndBitFields : Prop :=
  ∀ (s : State) (hid : Nat) (h : Hart) (d a b : SReg),
    let x := (h.getS a).val
    let y := (h.getS b).val
    let t := (h.getS a).tag || (h.getS b).tag
    let o := (y.extractLsb' 0 8).toNat
    let w := min (y.extractLsb' 8 8).toNat (64 - o)
    let empty := (y.extractLsb' 8 8).toNat = 0 ∨ 64 ≤ o
    (ScalarReady s hid h [a, b] [d] →
      exec (.sdiv d a b) s = .next (s.result hid d ⟨if y = 0 then 0
        else if x = BitVec.intMin 64 ∧ y = -1 then BitVec.intMin 64 else BitVec.ofInt 64 (x.toInt.tdiv y.toInt), t⟩) ∧
      exec (.srem d a b) s = .next (s.result hid d ⟨if y = 0 then x
        else if x = BitVec.intMin 64 ∧ y = -1 then 0
        else BitVec.ofInt 64 (x.toInt - y.toInt * x.toInt.tdiv y.toInt), t⟩) ∧
      exec (.sdivn d a b) s = .next (s.result hid d ⟨if y = 0 then 0 else BitVec.ofNat 64 (x.toNat / y.toNat), t⟩) ∧
      exec (.sremn d a b) s = .next (s.result hid d ⟨if y = 0 then x else BitVec.ofNat 64 (x.toNat % y.toNat), t⟩) ∧
      (∃ v : Word, exec (.sbfx d a b false) s = .next (s.result hid d ⟨v, t⟩) ∧ (empty → v = 0) ∧
        (¬empty → ∀ i, v.getLsbD i = (decide (i < w) && x.getLsbD (o + i)))) ∧
      ∃ v : Word, exec (.sbfx d a b true) s = .next (s.result hid d ⟨v, t⟩) ∧ (empty → v = 0) ∧
        (¬empty → ∀ i, i < 64 → v.getLsbD i = if i < w then x.getLsbD (o + i) else x.getLsbD (o + w - 1))) ∧
    (ScalarReady s hid h [a, b, d] [d] →
      (empty → exec (.sbfi d a b) s = .next (s.nextPc hid)) ∧
      (¬empty → ∃ v : Word, exec (.sbfi d a b) s = .next (s.result hid d ⟨v, t || (h.getS d).tag⟩) ∧
        ∀ i, v.getLsbD i = if o ≤ i ∧ i < o + w then x.getLsbD (i - o) else (h.getS d).val.getLsbD i))

/-- R182: the eight conditions of `scmp` and `scmpi`. -/
def Obligations.ScalarCompareConditions : Prop :=
  ∀ (s : State) (hid : Nat) (h : Hart) (d a b : SReg) (cc : BitVec 3) (i : BitVec 11),
    (ScalarReady s hid h [a, b] [d] → exec (.scmp d a b cc) s = .next (s.result hid d
      ⟨if scalarCondition cc (h.getS a).val (h.getS b).val then 1 else 0, (h.getS a).tag || (h.getS b).tag⟩)) ∧
    (ScalarReady s hid h [a] [d] → exec (.scmpi d a cc i) s = .next (s.result hid d
      ⟨if scalarCondition cc (h.getS a).val (i.signExtend 64) then 1 else 0, (h.getS a).tag⟩))

/-- R180: `scmov` keeps or takes the value by b, its tag joining a, b and the old d in both cases; `sclz` counts the zero
bits above the highest one, 64 of them in 0; `spop` counts one bits; `sext` extends its 8, 16 or 32 low bits. -/
def Obligations.ScalarSelectCountExtend : Prop :=
  ∀ (s : State) (hid : Nat) (h : Hart) (d a b : SReg),
    let x := (h.getS a).val
    let t := (h.getS a).tag
    (ScalarReady s hid h [a, b, d] [d] → ∀ nz : Bool, exec (.scmov d a b nz) s = .next (s.result hid d
      ⟨if ((h.getS b).val ≠ 0) = (nz = true) then x else (h.getS d).val, t || (h.getS b).tag || (h.getS d).tag⟩)) ∧
    (ScalarReady s hid h [a] [d] →
      exec (.sclz d a) s = .next (s.result hid d
        ⟨BitVec.ofNat 64 ((List.range 64).takeWhile fun i => !x.getMsbD i).length, t⟩) ∧
      exec (.spop d a) s = .next (s.result hid d ⟨BitVec.ofNat 64 ((List.range 64).filter fun i => x.getLsbD i).length, t⟩) ∧
      exec (.sext d a 0) s = .next (s.result hid d ⟨(x.extractLsb' 0 8).signExtend 64, t⟩) ∧
      exec (.sext d a 1) s = .next (s.result hid d ⟨(x.extractLsb' 0 16).signExtend 64, t⟩) ∧
      exec (.sext d a 2) s = .next (s.result hid d ⟨(x.extractLsb' 0 32).signExtend 64, t⟩) ∧
      exec (.sext d a 3) s = .next (s.result hid d ⟨(x.extractLsb' 0 8).zeroExtend 64, t⟩) ∧
      exec (.sext d a 4) s = .next (s.result hid d ⟨(x.extractLsb' 0 16).zeroExtend 64, t⟩) ∧
      exec (.sext d a 5) s = .next (s.result hid d ⟨(x.extractLsb' 0 32).zeroExtend 64, t⟩))

/-- R177: what writing a result means. The named register holds it, s0 stays zero and settled whatever is written, every
other scalar register and the rest of the hart are as before, and the pc is at the next word. And: R180 to R187, R195, R200:
the frame of the S-stream forms that touch scalar registers and the pc alone. Each goes on when its registers are ready and
its settled-only operands are settled; it changes its destination (s63 in the calls, the counter in `sloop`) and the pc, and
nothing else of the machine: no flag, no special register, no byte of memory. -/
def Obligations.ScalarResultAndFrame : Prop :=
  (∀ (s : State) (hid : Nat) (h : Hart) (d : SReg) (x : TV), s.hart? hid = some h →
    ∃ k, (s.result hid d x).hart? hid = some k ∧ (d ≠ 0 → k.getS d = x) ∧ k.getS 0 = TV.zero ∧ k.pc = h.pc + 4 ∧
      RegisterFrame s hid h d (s.result hid d x)) ∧
  ∀ (i : Instr) (reads settled writes : List SReg) (s : State) (hid : Nat) (h : Hart),
    registerForm i = some (reads, settled, writes) → ScalarReady s hid h reads writes → h.Settled settled →
    ∃ t, exec i s = .next t ∧ RegisterFrame s hid h (writes.headD 0) t

/-! ### The S-stream: control transfer -/

/-- R185: `sbr` goes to its own address plus 4 times the offset when the register meets the condition, else to the next
word; a proposal takes the tag fault; conditions 6 to 15 are reserved encodings. -/
def Obligations.ScalarBranch : Prop :=
  (∀ (s : State) (hid : Nat) (h : Hart) (cond : BitVec 4) (a : SReg) (off : BitVec 16), cond.toNat < 6 →
    ScalarReady s hid h [a] [] →
    (h.Settled [a] → exec (.sbr cond a off) s = .next (s.goTo hid
      (if branchCondition cond (h.getS a).val then h.pc + off.signExtend 64 * 4 else h.pc + 4))) ∧
    (¬h.Settled [a] → exec (.sbr cond a off) s = .next (s.tagTrap hid))) ∧
  ∀ (e : Engine) (cond : BitVec 4) (a : SReg) (off : BitVec 16),
    decodeS e ((0x0C : BitVec 6) ++ cond ++ a ++ off) =
      if cond.toNat < 6 then .ok (.sbr cond a off) else .error ⟨.select, true⟩

/-- R186: jumps, calls and returns. A register target ignores bits 1:0; the call by register reads its target before it
writes s63; a target that is a proposal takes the tag fault, and s63 is not written. -/
def Obligations.ScalarJumpsAndCalls : Prop :=
  ∀ (s : State) (hid : Nat) (h : Hart) (a : SReg) (off : BitVec 26),
    let target := h.pc + off.signExtend 64 * 4
    let link (pc : Word) : State := (s.setS hid 63 ⟨h.pc + 4, false⟩).goTo hid pc
    (ScalarReady s hid h [] [] → exec (.sjmp off) s = .next (s.goTo hid target)) ∧
    (ScalarReady s hid h [] [63] → exec (.scall off) s = .next (link target)) ∧
    (ScalarReady s hid h [63] [] → exec .sret s = .next
      (if (h.getS 63).tag then s.tagTrap hid else s.goTo hid ((h.getS 63).val &&& ~~~3))) ∧
    (ScalarReady s hid h [a] [] → exec (.sjmpr a) s = .next
      (if (h.getS a).tag then s.tagTrap hid else s.goTo hid ((h.getS a).val &&& ~~~3))) ∧
    (ScalarReady s hid h [a] [63] → exec (.scallr a) s = .next
      (if (h.getS a).tag then s.tagTrap hid else link ((h.getS a).val &&& ~~~3)))

/-- R187: `sloop` takes the tag fault on a proposal; else it decrements the register modulo 2^64, settled, and branches
while it is not zero; a count of 0 wraps; with s0 the decrement is discarded and the branch always taken; conditions 1 to 15
are reserved encodings. -/
def Obligations.ScalarLoopStep : Prop :=
  (∀ (s : State) (hid : Nat) (h : Hart) (a : SReg) (off : BitVec 16), ScalarReady s hid h [a] [a] →
    ((h.getS a).tag = true → exec (.sloop a off) s = .next (s.tagTrap hid)) ∧
    ((h.getS a).tag = false → exec (.sloop a off) s = .next ((s.setS hid a ⟨(h.getS a).val - 1, false⟩).goTo hid
      (if (h.getS a).val - 1 ≠ 0 then h.pc + off.signExtend 64 * 4 else h.pc + 4))) ∧
    (a = 0 → exec (.sloop a off) s = .next ((s.setS hid 0 ⟨-1, false⟩).goTo hid (h.pc + off.signExtend 64 * 4)))) ∧
  ∀ (e : Engine) (cond : BitVec 4) (a : SReg) (off : BitVec 16), cond ≠ 0 →
    decodeS e ((0x10 : BitVec 6) ++ cond ++ a ++ off) = .error ⟨.select, true⟩

/-! ### The S-stream: lane dispatch -/

/-- R188, R189, R117, R118: on a vector wave `lrun` queues its block with a snapshot of k0 to k15 when the queue has room
and stalls when it holds four; `lsync` goes on when no block is queued or running, else it waits for those that are; `sget`
pops the oldest entry of the FIFO; `kset` writes a uniform register with its source's tag.
The model's readings or choices in it: log 30. -/
def Obligations.LaneDispatch : Prop :=
  ∀ (s : State) (hid : Nat) (h : Hart) (a d : SReg) (k : BitVec 4),
    (h.roleBad .vector = false → ScalarReady s hid h [a] [] → h.Settled [a] →
      (∀ n, n < 16 → s.upsetAt (.uniformReg hid n) = false) →
      (h.blocks < 4 → exec (.lrun a) s = .next (s.fresh.2.putHart hid
        { h with queue := h.queue ++ [⟨(h.getS a).val &&& ~~~3, h.k, s.fresh.1⟩], wait := none, pc := h.pc + 4 })) ∧
      (4 ≤ h.blocks → exec (.lrun a) s = .next (s.putHart hid { h with wait := some (.lrun ((h.getS a).val &&& ~~~3)) }))) ∧
    (h.roleBad .vector = false → h.inLaneHandler = false → ScalarReady s hid h [] [] →
      (h.blocks = 0 → exec .lsync s = .next (s.putHart hid { h with synced := s.nextId, wait := none, pc := h.pc + 4 })) ∧
      (h.blocks ≠ 0 → exec .lsync s = .next (s.putHart hid { h with wait := some (.lsync h.blocks) }))) ∧
    (ScalarReady s hid h [] [d] → ∀ x rest, h.fifo = x :: rest →
      exec (.sget d) s = .next (((s.putHart hid { h with fifo := rest }).setS hid d x).endWait hid)) ∧
    (ScalarReady s hid h [a] [] → exec (.kset k a) s = .next
      ((s.putHart hid { h.setK k.toNat (h.getS a) with pc := h.pc + 4 }).clearUpset (.uniformReg hid k.toNat)))

/-! ### The S-stream: memory -/

/-- R192, R90: a scalar load whose address is settled and passes its checks issues: one more operation in ld, one more
pending load of `size` bytes at the aligned address, and the pc at the next word; no register is written yet. With ld at its
largest value it stalls. -/
def Obligations.ScalarLoadIssues : Prop :=
  ∀ (s u : State) (hid : Nat) (h : Hart) (d a : SReg) (sz : Size) (off : BitVec 5) (acc : LaneAcc),
    ScalarReady s hid h [a] [d] → h.Settled [a] →
    (h.full .ld = true → let stall := .next (s.stallsOn hid true .ld)
      exec (.sld d a ⟨.plain, 0⟩ sz off) s = stall ∧ exec (.sldc d a ⟨.plain, 0⟩ sz) s = stall) ∧
    (h.full .ld = false →
      let load (form : LoadForm) : State := (u.issueLoad hid true fun op =>
        ⟨op, form, [acc], sz.bytes, 1, false, d.toNat, none, h.pc, .scalarLoad, [], 0, .walker⟩).1
      (s.scalarCheck hid h accRead .scalarLoad false
          (alignTo ((h.getS a).val + BitVec.ofNat 64 (off.toNat * sz.bytes)) sz.bytes) =
          (u, some acc) →
        exec (.sld d a ⟨.plain, 0⟩ sz off) s = .next ((load .sld).nextPc hid)) ∧
      (s.scalarClusterCheck hid h .scalarLoad (alignTo (h.getS a).val sz.bytes) sz.bytes = (u, some acc) →
        exec (.sldc d a ⟨.plain, 0⟩ sz) s = .next ((load .sldc).nextPc hid)))

/-- R192, R49, R79: the return of a wave's only pending access, a plain scalar load of memory that nothing queued or in
flight touches: the register holds the bytes of its sector at the place the L1 gives, zero-extended, with the sector's
effective tag, and the operation has left ld. (Of a load from before the entry of a running trap handler, s56 to s61 stand
in the hidden slots, R359.) An acquire load is performed as it issues, after its acquire. -/
def Obligations.ScalarLoadReturns : Prop :=
  (∀ (s u : State) (hid : Nat) (h : Hart) (q : LoadReq) (acc : LaneAcc) (v : View),
    s.hart? hid = some h → h.loads = [q] → h.storeQ = [] → s.mem.flights = [] → q.form = .sld → q.lanes = [acc] →
    q.acq = none → q.count = 1 → 0 < q.dst → q.dst < 64 → acc.mt = .normal → acc.tag = false → isCtl acc.pa = false →
    isNet acc.pa = false → q.late = 0 → s.l1Victim h.core (sectorOf acc.pa) = none →
    (∀ f, h.trapped = some f → f.since ≤ q.op ∨ q.dst < 56 ∨ 61 < q.dst) →
    s.l1View h.core (sectorOf acc.pa) = (u, v) → v.x = false →
    ∃ t k, exec (.loadReturn hid q.op) s = .next t ∧ t.hart? hid = some k ∧
      k.getS (sreg q.dst) = ⟨BitVec.ofNat 64 (sectorBytes v.data (acc.pa % 128) q.esize), v.p⟩ ∧
      k.loads = [] ∧ k.ld = completeIn h.ld q.op ∧ k.pc = h.pc ∧ k.m = h.m ∧ k.v = h.v ∧
      ∀ r, r ≠ sreg q.dst → k.getS r = h.getS r) ∧
  ∀ (s u : State) (hid : Nat) (h : Hart) (d a : SReg) (o : Ord) (sz : Size) (off : BitVec 5) (acc : LaneAcc),
    ScalarReady s hid h [a] [d] → h.Settled [a] → h.full .ld = false → o.str = .acq →
    s.scalarCheck hid h accRead .scalarLoad false
      (alignTo ((h.getS a).val + BitVec.ofNat 64 (off.toNat * sz.bytes)) sz.bytes) = (u, some acc) →
    let r := u.issueLoad hid true fun op =>
      ⟨op, .sld, [acc], sz.bytes, 1, false, d.toNat, some o.obs, h.pc, .scalarLoad, [], 0, .walker⟩
    exec (.sld d a o sz off) s = .next ((r.1.nextPc hid).performLoad hid r.2).1

/-- R192, R193, R47, R72, R78, R80, R90: a scalar store or atomic that passes its checks, once its sector's older loads and
its release are done, is counted. A plain store enters the store queue with the low bytes of its register and the register's
tag; a release store enters it too and is performed as it leaves; an atomic is queued with its operands and their tags, and
its acquire part follows. The pc is at the next word.
The model's readings or choices in it: log 45. -/
def Obligations.ScalarStoresAndAtomics : Prop :=
  (∀ (s u v w : State) (hid : Nat) (h : Hart) (d a : SReg) (o : Ord) (sz : Size) (off : BitVec 5) (acc : LaneAcc),
    ScalarReady s hid h [d, a] [] → h.Settled [a] → h.full .st = false →
    let part := storedPart acc (h.getS d) sz.bytes
    let f := w.fresh
    ReleaseDone v hid o w →
    (s.scalarCheck hid h accWrite .scalarStore (h.getS d).tag
        (alignTo ((h.getS a).val + BitVec.ofNat 64 (off.toNat * sz.bytes)) sz.bytes) = (u, some acc) →
      ((h.getS d).tag && u.tagless acc) = false → u.loadsBefore hid false sz.bytes [acc] = (v, true) →
      exec (.sst d a o sz off) s = .next
        ((if o.str = .rel then f.2.storeRelease hid f.1 false [(acc.mt, part)]
          else f.2.enqueue hid f.1 (storeEntries f.1 false [(acc.mt, part)])).nextPc hid)) ∧
    (s.scalarClusterCheck hid h .scalarStore (alignTo (h.getS a).val sz.bytes) sz.bytes = (u, some acc) →
      u.loadsBefore hid true sz.bytes [acc] = (v, true) →
      exec (.sstc d a o sz) s = .next
        ((if o.str = .rel then f.2.storeRelease hid f.1 true [(acc.mt, part)]
          else f.2.enqueue hid f.1 [writeEntry f.1 .cluster false (sectorWrites [part])]).nextPc hid))) ∧
  ∀ (s u v w : State) (hid : Nat) (h : Hart) (d a : SReg) (o : Ord) (wide : Bool) (aop : BitVec 4) (acc : LaneAcc),
    let cas := decide (aop = 9)
    let d1 := sreg (d.toNat + 1)
    let size := if wide then 8 else 4
    aop.toNat < 10 → ScalarReady s hid h (if cas then [d, d1, a] else [d, a]) [d] → h.Settled [a] →
    h.full .ld = false → h.full .st = false →
    let tag := (h.getS d).tag || (cas && (h.getS d1).tag)
    s.scalarCheck hid h accAtomic .scalarAtomic tag (alignTo (h.getS a).val size) = (u, some acc) →
    (tag && u.tagless acc) = false → u.loadsBefore hid false size [acc] = (v, true) → ReleaseDone v hid o w →
    let f := w.fresh
    let req : AtomReq := ⟨none, acc.pa, size, scalarAop aop, (h.getS d).val.toNat % 2 ^ (8 * size),
      (h.getS d1).val.toNat % 2 ^ (8 * size), tag, false, d.toNat, h.pc⟩
    exec (.satom d a o wide aop) s = .next
      (((f.2.enqueueAtomic hid f.1 false (o.str = .rel || o.str = .ar) [req]).nextPc hid).atomFinish hid f.1 true o h.pc)

/-- R178: a proposal in a settled-only operand of the S-stream takes the tag fault at that word, before the word changes
anything: branches and jumps, the loop counter, `lrun`, scalar addresses, `ssleep`, `safe`, `phase`, `yield`, `csrw`. -/
def Obligations.SettledOnlyOperandsFault : Prop :=
  ∀ (s : State) (hid : Nat) (h : Hart) (a b d : SReg) (o : Ord) (sz : Size) (off : BitVec 5) (o16 : BitVec 16)
    (cond : BitVec 4) (c : BitVec 4) (w : Bool) (aop : BitVec 4) (n : BitVec 10),
    (h.getS a).tag = true →
    let faults (i : Instr) : Prop := exec i s = .next (s.tagTrap hid)
    (ScalarReady s hid h [a] [] → faults (.sbr cond a o16) ∧ faults (.sjmpr a) ∧ faults (.csrw a n) ∧
      faults (.safe a) ∧ faults (.yield a) ∧ (h.roleBad .vector = false → faults (.lrun a))) ∧
    (ScalarReady s hid h [a] [63] → faults (.scallr a)) ∧
    (ScalarReady s hid h [63] [] → a = 63 → faults .sret) ∧
    (ScalarReady s hid h [a] [a] → faults (.sloop a o16)) ∧
    (ScalarReady s hid h [a] [d] → faults (.sld d a o sz off) ∧ faults (.sldc d a o sz)) ∧
    (ScalarReady s hid h [d, a] [] → faults (.sst d a o sz off) ∧ faults (.sstc d a o sz)) ∧
    (aop.toNat < 9 → ScalarReady s hid h [d, a] [d] → faults (.satom d a o w aop)) ∧
    (ScalarReady s hid h [d, sreg (d.toNat + 1), a] [d] → faults (.satom d a o w 9)) ∧
    (ScalarReady s hid h [a, b] [] → faults (.ssleep a b c) ∧ faults (.phase a b)) ∧
    (ScalarReady s hid h [b, a] [] → faults (.ssleep b a c) ∧ faults (.phase b a))

/-! ### The S-stream: waits, fences and special values -/

/-- R194 to R196, R98, R101: `swait` closes the open batch, then goes on when every counter is at or below its threshold and
waits otherwise; a fence goes on when its release is done and its acquire made; `sclk` returns the named value, settled;
`ssleep` on an initialised barrier sleeps before its time; from then on, at once or by SSLEEP_WAKE, it goes on when the
generation is reached and takes the missed-promise trap when it is not. -/
def Obligations.WaitsFencesAndClock : Prop :=
  (∀ (s : State) (hid : Nat) (h : Hart),
    (∀ (ld st : BitVec 6) (cp mx : BitVec 4) (ts : BitVec 6) (k : Hart), ScalarReady s hid h [] [] →
      let u := s.closeBatch hid
      u.hart? hid = some k →
      let w : Wait := .swait ld.toNat st.toNat cp.toNat mx.toNat ts.toNat
      exec (.swait ld st cp mx ts) s = .next
        (if k.count .ld ≤ ld.toNat ∧ k.count .st ≤ st.toNat ∧ k.count .cp ≤ cp.toNat ∧ k.count .mx ≤ mx.toNat ∧
            k.count .ts ≤ ts.toNat then u.putHart hid { k with wait := none, pc := k.pc + 4 }
         else u.putHart hid { k with wait := some w })) ∧
    (∀ (o : Ord) (u : State), ScalarReady s hid h [] [] → ReleaseDone s hid o u →
      exec (.sfence o) s = .next ((if o.str = .rel then u else u.acquire hid o.obs).nextPc hid)) ∧
    (∀ (d : SReg), ScalarReady s hid h [] [d] →
      let gives (n : BitVec 4) (x : Word) : Prop := exec (.sclk d n) s = .next (s.result hid d ⟨x, false⟩)
      gives 0 s.time ∧ gives 1 (BitVec.ofNat 64 h.index) ∧ gives 2 (BitVec.ofNat 64 h.gang) ∧
      gives 3 (BitVec.ofNat 64 h.coreNo) ∧ gives 4 (BitVec.ofNat 64 h.cluster) ∧ gives 5 (BitVec.ofNat 64 h.die)) ∧
    ∀ (a b : SReg) (c : BitVec 4) (x y : Barrier) (k : Hart), ScalarReady s hid h [a, b] [] → h.Settled [a, b] →
      s.barrier? h c.toNat = some x → x.init = true →
      let u := s.closeBatch hid
      u.hart? hid = some k → u.barrier? k c.toNat = some y →
      let promise := (h.getS a).val
      let g := (h.getS b).val.extractLsb' 0 32
      (u.time.toNat < promise.toNat →
        exec (.ssleep a b c) s = .next (u.putHart hid { k with wait := some (.ssleep c.toNat g promise) })) ∧
      (promise.toNat ≤ u.time.toNat → 0 ≤ (y.gen - g).toInt →
        exec (.ssleep a b c) s = .next (u.putHart hid { k with wait := none, pc := k.pc + 4 })) ∧
      (promise.toNat ≤ u.time.toNat → (y.gen - g).toInt < 0 →
        exec (.ssleep a b c) s = .next ((u.putHart hid { k with wait := none }).missedPromise hid c.toNat y g promise))) ∧
  ∀ (s : State) (hid : Nat) (h : Hart) (c : Nat) (g : BitVec 32) (promise : Word) (b : Barrier),
    s.hart? hid = some h → h.wait = some (.ssleep c g promise) → h.still = false → s.saved h = false → s.barrier? h c = some b →
    promise.toNat ≤ s.time.toNat →
    exec (.ssleepWake hid) s = .next
      (if 0 ≤ (b.gen - g).toInt then s.putHart hid { h with wait := none, pc := h.pc + 4 }
       else (s.putHart hid { h with wait := none }).missedPromise hid c b g promise)


/-! ### Barriers and user interrupts -/

/-- R256, R97, R99: `bar.init` sets the expected count and clears the failure fields of a quiet barrier, and is misuse on a
count above 63 or a barrier with arrivals or owed bytes; `bar.arrive`, once its release is done, counts an arrival and
applies the phase-completion test, and is misuse when ARR would pass EXP, the barrier unchanged. And: R256: the tag check
comes first, then the declared count, then INIT: a barrier form that names a barrier at or beyond the gang's count, or one
that is not initialised, takes the barrier-misuse trap once its operands are settled. -/
def Obligations.BarrierInitArriveAndMisuse : Prop :=
  (∀ (s : State) (hid : Nat) (h : Hart) (a : SReg) (o : Ord) (c : BitVec 4) (b : Barrier), s.barrier? h c.toNat = some b →
    (ScalarReady s hid h [a] [] → h.Settled [a] →
      let n := (h.getS a).val
      (n.toNat < 64 → b.arr = 0 → b.pend = 0 → exec (.barInit a c) s = .next ((s.putBarrier h c.toNat
        { b with exp := n.extractLsb' 0 6, cflt := false, ccause := 0, init := true }).nextPc hid)) ∧
      (64 ≤ n.toNat ∨ b.arr ≠ 0 ∨ b.pend ≠ 0 → exec (.barInit a c) s = .next (s.barrierTrap hid (some b)))) ∧
    (ScalarReady s hid h [] [] → b.init = true → ∀ (u : State) (y : Barrier), ReleaseDone s hid o u →
      u.barrier? h c.toNat = some y →
      (y.arr.toNat < y.exp.toNat → exec (.barArrive o c) s = .next ((u.putBarrier h c.toNat
        (phaseTest { y with arr := y.arr + 1 } false)).nextPc hid)) ∧
      (y.exp.toNat ≤ y.arr.toNat → exec (.barArrive o c) s = .next (u.barrierTrap hid (some y))))) ∧
  ∀ (s : State) (hid : Nat) (h : Hart) (a b d : SReg) (o : Ord) (c : BitVec 4) (x : Option Barrier),
    s.barrier? h c.toNat = x → (∀ y, x = some y → y.init = false) →
    let misuse (i : Instr) : Prop := exec i s = .next (s.barrierTrap hid x)
    let tagFault (i : Instr) : Prop := exec i s = .next (s.tagTrap hid)
    (ScalarReady s hid h [] [] → misuse (.barArrive o c)) ∧
    (ScalarReady s hid h [a] [] → (h.Settled [a] → misuse (.barWait a o c)) ∧ (¬h.Settled [a] → tagFault (.barWait a o c)) ∧
      (¬h.Settled [a] → tagFault (.barInit a c)) ∧ (h.Settled [a] → x = none → misuse (.barInit a c))) ∧
    (ScalarReady s hid h [a] [d] →
      (h.Settled [a] → misuse (.barTest d a o c)) ∧ (¬h.Settled [a] → tagFault (.barTest d a o c))) ∧
    (ScalarReady s hid h [a, d] [] →
      (h.Settled [a, d] → misuse (.barArm d a o c)) ∧ (¬h.Settled [a, d] → tagFault (.barArm d a o c))) ∧
    (ScalarReady s hid h [a, b] [] →
      (h.Settled [a, b] → misuse (.ssleep a b c)) ∧ (¬h.Settled [a, b] → tagFault (.ssleep a b c)))

/-- R98, R99, R256, R257: `bar.wait` closes the open batch and goes on, after its acquire, when the generation its register
names is reached, else waits; `bar.test` returns GEN, CCAUSE, CFLT and whether it is reached, and acquires when it is;
`bar.arm` disarms, replaces or adds an armed interrupt, and a third is misuse. And: R257: a due user interrupt fires at a
boundary: it is disarmed, its acquire made, the pc saved and the handler entered; `uret` goes back to the saved pc, and
outside a handler does nothing. Which of two due interrupts fires (log 56), and that `uret` does the same inside a trap
handler that has interrupted a user handler (log 108), is the model's choice. -/
def Obligations.BarrierWaitTestAndInterrupts : Prop :=
  (∀ (s : State) (hid : Nat) (h : Hart) (a d : SReg) (o : Ord) (c : BitVec 4) (b : Barrier),
    s.barrier? h c.toNat = some b → b.init = true →
    let g := (h.getS a).val.extractLsb' 0 32
    (∀ (k : Hart) (y : Barrier), ScalarReady s hid h [a] [] → h.Settled [a] →
      let u := s.closeBatch hid
      u.hart? hid = some k → u.barrier? k c.toNat = some y →
      let w := u.waiting hid (.barWait c.toNat g o)
      (genReached y g → exec (.barWait a o c) s = .next ((w.acquired hid o).endWait hid)) ∧
      (¬genReached y g → exec (.barWait a o c) s = .next w)) ∧
    (ScalarReady s hid h [a] [d] → h.Settled [a] →
      let word (r : Bool) : Word :=
        b.gen ++ (0 : BitVec 24) ++ b.ccause ++ (0 : BitVec 2) ++ BitVec.ofBool b.cflt ++ BitVec.ofBool r
      (genReached b g → exec (.barTest d a o c) s = .next ((s.result hid d ⟨word true, false⟩).acquired hid o)) ∧
      (¬genReached b g → exec (.barTest d a o c) s = .next (s.result hid d ⟨word false, false⟩))) ∧
    (ScalarReady s hid h [a, d] [] → h.Settled [a, d] →
      let new : Armed := ⟨c.toNat, g, (h.getS d).val, o⟩
      let put (l : List Armed) : State := s.putHart hid { h with armed := l, pc := h.pc + 4 }
      let mine := h.armed.any fun y => y.bar = c.toNat
      (d = 0 → exec (.barArm d a o c) s = .next (put (h.armed.filter fun y => y.bar ≠ c.toNat))) ∧
      (d ≠ 0 → mine = true →
        exec (.barArm d a o c) s = .next (put (h.armed.map fun y => if y.bar = c.toNat then new else y))) ∧
      (d ≠ 0 → mine = false → h.armed.length < 2 → exec (.barArm d a o c) s = .next (put (h.armed ++ [new]))) ∧
      (d ≠ 0 → mine = false → 2 ≤ h.armed.length → exec (.barArm d a o c) s = .next (s.barrierTrap hid (some b))))) ∧
  (∀ (s : State) (hid : Nat) (h : Hart) (x : Armed), s.hart? hid = some h → h.still = false → s.saved h = false →
    h.wait = none → s.dueInterrupt h = some x →
    exec (.userInterrupt hid) s = .next ((s.acquired hid x.ord).modHart hid fun k =>
      { k with armed := k.armed.filter (· ≠ x), userReturn := some k.pc, pc := x.handler &&& ~~~3 })) ∧
  ∀ (s : State) (hid : Nat) (h : Hart), ScalarReady s hid h [] [] →
    (∀ a, h.userReturn = some a →
      exec .uret s = .next (s.putHart hid { h with userReturn := none, pc := a &&& ~~~3 })) ∧
    (h.userReturn = none → exec .uret s = .next (s.putHart hid { h with pc := h.pc + 4 }))

/-! ### Copies -/

/-- R247 to R250, R100, R97, R94: a linear copy of a loader wave on an initialised barrier, well-formed, of at least one
byte and without a slot commit, goes to its cluster's engine: the barrier owes its bytes and counts its arrival, d holds a
promise that is settled, at least 64 ticks ahead and no earlier than the engine's last, and the wave moves on. A tensor copy
whose map is read and valid does the same, owing its box's bytes.
The model's readings or choices in it: log 27. -/
def Obligations.CopyIssues : Prop :=
  (∀ (s : State) (hid : Nat) (h : Hart) (d a b : SReg) (c : BitVec 4) (y : Barrier),
    let x := (h.getS b).val
    let n := ctlLen x
    let old := SMapOps.get 0 s.promises h.cluster
    h.engine = .wave → h.roleBad .loader = false → ScalarReady s hid h (group a 2 ++ [b]) [d] →
    h.Settled (group a 2 ++ [b]) → s.barrier? h c.toNat = some y → y.init = true → cpyBad x false = false →
    ctlCmt x = false → n ≠ 0 → s.copyStalls h = false → y.pend.toNat + n < 2 ^ 48 →
    (ctlArv x = true → y.arr.toNat < y.exp.toNat) →
    ∃ t k p id v, exec (.cpy d a b c) s = .next t ∧ t.hart? hid = some k ∧ k.pc = h.pc + 4 ∧
      (d ≠ 0 → k.getS d = ⟨p, false⟩) ∧ Nat.min (2 ^ 64 - 1) (s.time.toNat + 64) ≤ p.toNat ∧ old.toNat ≤ p.toNat ∧
      t.barrier? k c.toNat = some (phaseTest
        { y with pend := y.pend + BitVec.ofNat 48 n, arr := if ctlArv x then y.arr + 1 else y.arr } false) ∧
      t.copy? id = some v ∧ v.owed = n ∧ v.promise = p ∧ v.bar = some c.toNat ∧ v.hart = hid ∧ v.active = false ∧
      (∃ batch, v.work = .linear [⟨hid, batch, 0, 0, d, (h.getS a).val.toNat / 16 * 16, ctlSsp x = 1,
        (h.sAt a 1).val.toNat / 16 * 16, ctlDsp x = 1, n⟩]) ∧
      ∀ r, r ≠ d → k.getS r = h.getS r) ∧
  ∀ (s u : State) (hid : Nat) (h : Hart) (d a b : SReg) (c : BitVec 4) (y : Barrier) (m : List Word) (tm : TMap),
    let x := (h.getS b).val
    let n := tm.bytes
    h.engine = .wave → h.roleBad .loader = false → ScalarReady s hid h (group a 5 ++ [b]) [d] →
    h.Settled (group a 5 ++ [b]) → s.barrier? h c.toNat = some y → y.init = true →
    s.readMap hid h ((h.getS a).val &&& ~~~127) = (u, .words m) → tmapOf m = some tm →
    ((h.coords a).drop tm.boxes.length).all (fun z => z = 0) = true → cpytBad x false = false → ctlCmt x = false → n ≠ 0 →
    u.copyStalls h = false → y.pend.toNat + n < 2 ^ 48 →
    (ctlArv x = true → y.arr.toNat < y.exp.toNat) →
    ∃ t k p id v, exec (.cpyt d a b c) s = .next t ∧ t.hart? hid = some k ∧ k.pc = h.pc + 4 ∧
      (d ≠ 0 → k.getS d = ⟨p, false⟩) ∧ Nat.min (2 ^ 64 - 1) (s.time.toNat + 64) ≤ p.toNat ∧
      t.barrier? k c.toNat = some (phaseTest
        { y with pend := y.pend + BitVec.ofNat 48 n, arr := if ctlArv x then y.arr + 1 else y.arr } false) ∧
      t.copy? id = some v ∧ v.owed = n ∧ v.promise = p ∧ v.bar = some c.toNat ∧
      v.work = .tensor m ((h.coords a).take tm.boxes.length) (ctlDir x) (ctlCaddr x)

/-- R251, R94, R252: the first of several slices of a gang copy opens it on its barrier, counts its bytes and its arrival,
and its wave waits for the others. `cpcl` closes the open batch. `cpq` answers the timebase when no copy that it asks about
is in flight, else an estimate at least 64 ticks ahead (a free value beyond that, log 11).
The model's readings or choices in it: log 26. -/
def Obligations.GangCopyBatchAndQuery : Prop :=
  (∀ (s : State) (hid : Nat) (h : Hart) (d a b : SReg) (c : BitVec 4) (y : Barrier) (g : Gang),
    let x := (h.getS b).val
    let n := ctlLen x
    h.engine = .wave → h.roleBad .loader = false → ScalarReady s hid h (group a 2 ++ [b]) [d] →
    h.Settled (group a 2 ++ [b]) → s.unit? h.unit = some g → s.barrier? h c.toNat = some y → y.init = true →
    g.openCopy h.gang c.toNat = none → ctlSli x ≤ ctlNsl x → ctlNsl x ≠ 0 → ctlCmt x = false → s.copyStalls h = false →
    y.pend.toNat + n < 2 ^ 48 → (ctlArv x = true → y.arr.toNat < y.exp.toNat) →
    ∃ t k u v sl, exec (.cpyg d a b c) s = .next t ∧ t.hart? hid = some k ∧ k.pc = h.pc ∧ k.wait = some (.cpyg c.toNat) ∧
      k.s = h.s ∧ t.unit? h.unit = some u ∧ v ∈ u.gangCopies ∧ v.bar = c.toNat ∧ v.gang = h.gang ∧ v.nsl = ctlNsl x ∧
      v.slices = [sl] ∧ sl.hart = hid ∧ sl.index = ctlSli x ∧ sl.len = n ∧
      t.barrier? k c.toNat = some (phaseTest
        { y with pend := y.pend + BitVec.ofNat 48 n, arr := if ctlArv x then y.arr + 1 else y.arr } false)) ∧
  ∀ (s : State) (hid : Nat) (h : Hart) (d : SReg) (c : BitVec 4),
    (h.roleBad .loader = false → ScalarReady s hid h [] [] → exec .cpcl s = .next ((s.closeBatch hid).nextPc hid)) ∧
    (ScalarReady s hid h [] [d] →
      let asked := s.queried hid h (if h.engine = .crane then none else some c.toNat)
      (asked = false → exec (.cpq d c) s = .next (s.result hid d ⟨s.time, false⟩)) ∧
      (asked = true → ∃ p : Word, Nat.min (2 ^ 64 - 1) (s.time.toNat + 64) ≤ p.toNat ∧
        exec (.cpq d c) s = .next (({ s with free := s.free + 1 } : State).result hid d ⟨p, false⟩)))

/-- R102, R103, R95, R97, R253: the events of a wave's copy. A read takes one source sector at its point of performance; a
write into the cluster store performs one destination sector with the pieces read and lowers PEND by its bytes; a copy all
of whose sectors are performed completes its batches and leaves; one that meets a failed access leaves on a fault, which its
barrier keeps, PEND falling by what was still owed. -/
def Obligations.CopyEvents : Prop :=
  ∀ (s : State) (id : Nat) (c : Copy), s.copy? id = some c →
    (∀ k sec ps src u v, c.active = true → c.read.any (fun r => r.1 = k) = false → c.sector? (k / 128) = some (sec, ps) →
      (sourceSectors ps)[k % 128]? = some src → src.1 = false →
      s.engineRead c.cluster c.vf (BitVec.ofNat 64 ((((partsFrom ps src).head?).bind fun p => p.src.map Prod.snd).getD 0))
        .copyRead = (u, .view v) →
      exec (.copyBytesPerformed id false k) s = .next (u.copyTake id k (partsFrom ps src) v)) ∧
    (∀ i n ps (pieces : List (Nat × SWrite)) v, c.active = true → c.sector? i = some ((true, n), ps) → s.copySent id i = false →
      ((List.range (sourceSectors ps).length).map fun j => c.read.find? fun r => r.1 = 128 * i + j) = pieces.map some →
      s.granuleRead c.unit (ps.map fun p => (p.dst, p.len)) n .copyWrite = .view v →
      exec (.copyBytesPerformed id true i) s = .next ((s.modUnit c.unit fun g =>
        g.clusterWrite (sectorWriteOf n ps (pieces.map Prod.snd))).copyPerformed id i (partBytes ps))) ∧
    (c.allDone = true → c.owed = 0 → c.ring = none →
      exec (.copyComplete id) s = .next (c.batches.foldl (fun s b => s.batchCheck b.1 b.2) (s.dropCopy id))) ∧
    (∀ i b g sec ps src u f, c.active = true → c.bar = some b → s.unit? c.unit = some g → c.sector? i = some (sec, ps) →
      sourceSectors ps = [src] → src.1 = false → c.read.any (fun r => r.1 = 128 * i) = false →
      s.engineRead c.cluster c.vf (BitVec.ofNat 64 ((((partsFrom ps src).head?).bind fun p => p.src.map Prod.snd).getD 0))
        .copyRead = (u, .bad f) →
      ∃ t w, exec (.copyEndsOnFault id i) s = .next t ∧ t.copy? id = none ∧ t.unit? c.unit = some w ∧
        w.bar c.gang b = phaseTest { g.bar c.gang b with
          pend := (g.bar c.gang b).pend - BitVec.ofNat 48 c.owed, cflt := true, ccause := f.code } true)

/-! ### Rings -/

/-- R259, R260: taking a slot. With the slot at its index in the state it takes and no earlier waiter, `ring.res` makes it
RES and `ring.get` HELD, the index advances round the ring, d holds the slot's cluster offset, settled, and the wave moves
on; otherwise it waits, last of the ring's waiters. The acquire(m) of `ring.get` stands where it takes the slot: it moves no
fill generation, L1 copy or earlier access (R79), and the wave issues nothing while it waits. A change of the number of FULL
slots is noted with its time (R352). And: R259, R260, R106: handing a slot on. `ring.cmt`, after its release of m, makes a
RES slot FULL and flips its phase bit; `ring.rel` of a HELD slot with no engine read in flight or to come makes it FREE and
flips the bit, and RING_REL_EFFECTIVE does so for one that waited once its reads are performed. An address that names no
slot in that state is ring misuse.
The model's readings or choices in it: log 28, 29. -/
def Obligations.RingOperations : Prop :=
  (∀ (s : State) (hid : Nat) (h : Hart) (d : SReg) (q : BitVec 6) (r : Ring),
    ScalarReady s hid h [] [d] → h.batchOpen = none → s.ring? h q.toNat = some r → r.waiters = [] →
    let offset (i : Nat) : Word := BitVec.ofNat 64 (128 * (r.base + i * (r.ssz + 1)))
    let took (t : State) (i : Nat) (r' : Ring) : Prop := ∃ k, t.hart? hid = some k ∧ k.pc = h.pc + 4 ∧ k.wait = none ∧
      (d ≠ 0 → k.getS d = ⟨offset i, false⟩) ∧ (∀ x, x ≠ d → k.getS x = h.getS x) ∧ t.ring? k q.toNat = some r'
    let waits (t : State) (w : Wait) (prod : Bool) : Prop := ∃ k, t.hart? hid = some k ∧ k = { h with wait := some w } ∧
      t.ring? k q.toNat = some { r with waiters := [⟨hid, prod, h.trapped.isSome⟩] }
    ((r.slot r.pi).1 = .free → ∃ t, exec (.ringRes d q) s = .next t ∧
      took t r.pi { r.setSlot r.pi (.res, (r.slot r.pi).2) with pi := (r.pi + 1) % (r.nsl + 1) }) ∧
    ((r.slot r.pi).1 ≠ .free → ∃ t, exec (.ringRes d q) s = .next t ∧ waits t (.ringRes q.toNat d) true) ∧
    ((r.slot r.ci).1 = .full → ∃ t, exec (.ringGet d q) s = .next t ∧
      took t r.ci (({ r.setSlot r.ci (.held, (r.slot r.ci).2) with ci := (r.ci + 1) % (r.nsl + 1) } : Ring).stamped r s.time) ∧
      t.mem.cg = s.mem.cg ∧ t.mem.hz = s.mem.hz ∧ t.mem.l1 = s.mem.l1 ∧ ∃ k, t.hart? hid = some k ∧ k.loads = h.loads ∧ k.storeQ = h.storeQ) ∧
    ((r.slot r.ci).1 ≠ .full → ∃ t, exec (.ringGet d q) s = .next t ∧ waits t (.ringGet q.toNat d) false)) ∧
  (∀ (s : State) (hid : Nat) (h : Hart) (a : SReg) (q : BitVec 6), ScalarReady s hid h [a] [] → h.Settled [a] →
    let off := (h.getS a).val
    (∀ r i u, s.ring? h q.toNat = some r → r.slotIn off.toNat .res = some i → ReleaseDone s hid ⟨.rel, letterM⟩ u →
      exec (.ringCmt a q) s = .next
        ((u.modRing h.unit q.toNat fun r => r.setSlot i (.full, !(r.slot i).2)).nextPc hid)) ∧
    ((s.ring? h q.toNat).bind (fun r => r.slotIn off.toNat .res) = none →
      exec (.ringCmt a q) s = .next (s.ringTrap hid q.toNat off)) ∧
    (∀ g r i, s.unit? h.unit = some g → g.ring q.toNat = some r → r.slotIn off.toNat .held = some i →
      g.rels.any (fun x => x.ring = q.toNat && x.slot = i) = false → s.hartTileOps hid = [] → s.hartCopies hid = [] →
      g.hartSlices hid (r.offset i) r.slotBytes = [] →
      ∃ t k, exec (.ringRel a q) s = .next t ∧ t.hart? hid = some k ∧ k = { h with pc := h.pc + 4 } ∧
        t.ring? k q.toNat = some (r.setSlot i (.free, !(r.slot i).2))) ∧
    (∀ g, s.unit? h.unit = some g → (g.ring q.toNat).bind (fun r => r.slotIn off.toNat .held) = none →
      exec (.ringRel a q) s = .next (s.ringTrap hid q.toNat off))) ∧
  ∀ (s : State) (u q i : Nat) (g : Gang) (x : RingRel) (r : Ring), s.unit? u = some g →
    g.rels.find? (fun x => x.ring = q && x.slot = i) = some x → s.relReady g x = true → g.ring q = some r →
    ∃ t g', exec (.ringRelEffective u q i) s = .next t ∧ t.unit? u = some g' ∧
      g'.ring q = some ((r.setSlot i (.free, !(r.slot i).2)).stamped r s.time) ∧ g'.rels = g.rels.filter (· ≠ x)

/-! ### Events of the memory system -/

/-- R47, R54, R73, R432: the oldest write of a core to a sector is performed at its home. The sector's bytes, P and X become
what the sector write leaves of them, a partial write-back's other bytes those of the home; where the die store displaces
nothing (log 5), every other sector and every byte of GDDR is as before. A read at the home installs the sector, corrected
where one bit was wrong, and neither it nor the sectors evicted to make room, dirty ones written back to GDDR with a fresh
code, change any sector's data, P or X, when what the die store holds clean is what GDDR holds. Memory stays canonical.
The model's readings or choices in it: log 5, 15. -/
def Obligations.HomeWritesFillsAndEvictions : Prop :=
  (∀ (s : State) (op hid core n ld : Nat) (w : SWrite) (evict : List Nat),
    s.flight? op = some ⟨hid, core, n, ld, .home w⟩ →
    (s.oldest op fun f => f.core = core && f.kind.touches w.sector && !f.kind.remote) = true → w.sector ∉ evict →
    ∃ t, exec (.homeSectorWrite op evict) s = .next t ∧ t.flight? op = none ∧
      Merged (s.homeRead w.sector).2 (t.homeRead w.sector).2 w ∧
      (s.dieVictim w.sector = none → evict = [] → HomeFrame s t w.sector)) ∧
  ∀ (s : State) (n : Nat) (evict : List Nat), Memory.wf s.mem.mem → s.Backed → homeSector n = true →
    ∃ t, exec (.homeSectorRead n evict) s = .next t ∧ Memory.wf t.mem.mem ∧ t.Backed ∧
      (n ∉ evict → t.dsGet n = some (s.homeRead n).2) ∧
      ∀ m, homeSector m = true → (t.homeRead m).2.view = (s.homeRead m).2.view

/-- R48, R193: a scalar atomic is applied at its home. The old value goes to its register with the sector's P OR the
address's tag; the new value replaces it, P taking in the operands' tags; every other byte of the sector, and where the die
store displaces nothing (log 5) every other sector, is as before. (Of an atomic from before the entry of a running trap
handler, s56 to s61 stand in the hidden slots, R359.) -/
def Obligations.AtomicAtHomeResult : Prop :=
  ∀ (s : State) (op hid core n ld : Nat) (r : AtomReq) (aop : BitVec 4) (h : Hart) (wide : Bool),
    let size := if wide then 8 else 4
    let sec := sectorOf r.addr
    let d := (s.homeRead sec).2
    let old := BitVec.ofNat (8 * size) (sectorBytes d.data (r.addr % 128) size)
    let new := atomicNew aop old (BitVec.ofNat (8 * size) r.v) (BitVec.ofNat (8 * size) r.new)
    s.flight? op = some ⟨hid, core, n, ld, .atomics [r]⟩ →
    (s.oldest op fun f => f.core = core && f.kind.touches sec && !f.kind.remote) = true → aop.toNat < 10 →
    r.op = scalarAop aop → r.size = size → r.v < 2 ^ (8 * size) → r.new < 2 ^ (8 * size) →
    r.lane = none → 0 < r.dst → r.dst < 64 → s.hart? hid = some h → h.killed = false → d.x = false →
    (∀ f, h.trapped = some f → f.since ≤ n ∨ r.dst < 56 ∨ 61 < r.dst) → s.dieVictim sec = none →
    ∃ t k, exec (.atomicAtHome op 0 []) s = .next t ∧ t.flight? op = none ∧ t.hart? hid = some k ∧
      k.getS (sreg r.dst) = ⟨old.zeroExtend 64, d.p || r.s⟩ ∧ (∀ x, x ≠ sreg r.dst → k.getS x = h.getS x) ∧
      Merged d (t.homeRead sec).2 ⟨sec, byteRun (r.addr % 128) size, sectorPlace new.toNat (r.addr % 128) size,
        r.opTag || r.s, false, false⟩ ∧ HomeFrame s t sec

/-- R57, R62, R63, R72, R73, R47: the head of a store queue leaves it. A plain store enters the core's L1 sector without a
fill, a write-through updates an allocated copy and goes to its home, a store to the cluster store is posted to its slice;
no home sector and no register changes yet. A posted write that is its core's oldest to the granule and its wave's oldest to
the slice is performed there: the granule's bytes, P and X merge as a sector's do, and no other granule of the reservation
changes. A store of an L1 set that is full displaces a line first (log 5). -/
def Obligations.StoresLeaveTheQueueAndReachTheSlice : Prop :=
  (∀ (s : State) (hid : Nat) (h : Hart) (e : SqEntry) (rest : List SqEntry) (w : SWrite),
    s.hart? hid = some h → h.storeQ = e :: rest → s.queueHeld hid = false → e.writes = [w] → e.rel = false →
    (e.kind = .l1 ∨ e.kind = .through ∨ e.kind = .cluster) → (e.kind = .through → isNet (128 * w.sector) = false) →
    (e.kind = .l1 → s.l1Victim h.core w.sector = none) →
    ∃ t k, exec (.storeQueueDrain hid []) s = .next t ∧ t.hart? hid = some k ∧ k.storeQ = rest ∧
      k.s = h.s ∧ k.k = h.k ∧ k.v = h.v ∧ k.m = h.m ∧ k.pc = h.pc ∧
      t.mem.ds = s.mem.ds ∧ t.mem.mem = s.mem.mem ∧
      (e.kind = .l1 → t.l1Get h.core w.sector = some (((s.l1Get h.core w.sector).getD L1Sector.empty).store w)) ∧
      (e.kind = .through → t.l1Get h.core w.sector = (s.l1Get h.core w.sector).map (·.through w) ∧
        t.flight? s.nextId = some ⟨hid, h.core, e.op, 0, .home w⟩) ∧
      (e.kind = .cluster → t.flight? s.nextId = some ⟨hid, h.core, e.op, 0, .posted h.unit w⟩)) ∧
  ∀ (s : State) (op hid core n ld u : Nat) (w : SWrite) (g : Gang), s.flight? op = some ⟨hid, core, n, ld, .posted u w⟩ →
    (s.oldest op fun f => f.core = core && f.kind.touchesGranule u w.sector) = true →
    (s.oldest op fun f => f.hart = hid && f.core = core && f.kind.postedTo u w.sector) = true → s.unit? u = some g →
    ∃ t g', exec (.postedClusterWrite op) s = .next t ∧ t.flight? op = none ∧ t.unit? u = some g' ∧
      (∀ a, SMapOps.get 0 g'.cbytes a = if a / 128 = w.sector ∧ w.mask.getLsbD (a % 128) then sectorByte w.data (a % 128)
        else SMapOps.get 0 g.cbytes a) ∧
      (∀ m, g'.granuleTags m = if m = w.sector then
          (w.s || ((g.granuleTags m).1 && !w.fc), w.x || ((g.granuleTags m).2 && !w.fc)) else g.granuleTags m) ∧
      t.mem.mem = s.mem.mem ∧ t.mem.ds = s.mem.ds ∧ t.mem.l1 = s.mem.l1

/-- R16 to R21, R24, R25: a walk for a core that reaches a leaf caches its translation at the core and at its die, with A
set in the leaf's home sector where it was clear. A walk that fails caches no translation. No register and no unit changes.
And: R58: before a core's fill generation would pass 255, every clean copy of its L1 becomes invalid, every dirty one keeps
its dirty bytes alone, and both counts return to 0; no other core's copy changes.
The model's readings or choices in it: log 4. -/
def Obligations.WalksAndFillGenerations : Prop :=
  (∀ (s u : State) (core vf : Nat) (va : Word) (cached : Bool) (r : Walked), canonical va = true →
    core < Config.cores + Config.clusters → s.walk (coreDie core) vf va cached = (u, r) →
    ∃ t, exec (.tlbMissWalk core vf va cached) s = .next t ∧ t.harts = s.harts ∧ t.gangs = s.gangs ∧
      (∀ c l, r = .failed c l → t.mem.tlb = s.mem.tlb) ∧
      (∀ e level a, r = .leaf e level a →
        t.mem.tlb.head? = some (tlbOf (.die (coreDie core)) vf (s.space vf) va e level a) ∧
        tlbOf (.core core) vf (s.space vf) va e level a ∈ t.mem.tlb ∧
        t.mem.ds = (if pteA e then u else u.setPteBit a 6).mem.ds)) ∧
  ∀ (s : State) (core : Nat), s.cgOf core = 255 → ∃ t, exec (.fillGenerationWrap core) s = .next t ∧
    t.cgOf core = 0 ∧ t.hzOf core = 0 ∧
    (∀ sec, sec < 2 ^ 45 → t.l1Get core sec = (s.l1Get core sec).bind fun l =>
      if l.dirty = 0 then none else some { l with filled := false, pf := false, xf := false, gen := 0 }) ∧
    (∀ c sec, c ≠ core → sec < 2 ^ 45 → t.l1Get c sec = s.l1Get c sec ∧ t.cgOf c = s.cgOf c ∧ t.hzOf c = s.hzOf c) ∧
    t.mem.ds = s.mem.ds ∧ t.mem.mem = s.mem.mem ∧ t.harts = s.harts

/-- R32, R68, R238, R242: what completes from outside. A `tlbi` whose VF has no access left that may hold a dropped
translation goes on. A sector from a peer or host fills the L1 for a load that asked through it, its P kept only through a
proposal window, and is held for a load that asked directly; it is let go where the core has a write of that sector under
way; a write reported complete leaves its count; an atomic's answer goes to its register, to a hidden slot of a running
handler being another matter (R359). And: R388, R389, R391, R394, R85: inbound accesses to a VF's endpoint on a powered
module, all of whose runs pass their checks: a read answers its bytes, with the P of each sector, unless a sector is
poisoned; a write of one sector is performed at its home, its P only through a proposal window; an atomic answers the old
value and leaves the new one, and where the die store displaces nothing (log 5) no other sector changes. An access in a
delivery mode or to a VF the module does not have, and an atomic of no assigned operation, is refused, and its sender and
address are logged.
The model's readings or choices in it: log 5, 10, 52, 58, 84. -/
def Obligations.InboundAccessesAndCompletions : Prop :=
  (∀ (s : State) (hid : Nat) (h : Hart), s.hart? hid = some h →
    (∀ u, h.wait = some .tlbi → s.quiesce (s.hartVf h) = (u, true) →
      exec (.tlbiComplete hid) s = .next (u.endWait hid)) ∧
    ∀ (op core n : Nat) (data : SectorData) (p : Bool), core < 256 →
      (∀ key, n ≠ 0 → s.flight? op = some ⟨hid, core, n, n, .netLoad key⟩ →
        let v := s.setFlight op none
        let does (t : State) : Prop := exec (.remoteCompletion op data p) s = .next t
        (v.netBusy h.core key = true → does v) ∧
        ∀ q, v.netBusy h.core key = false → h.loads.find? (fun q => q.op = n) = some q →
          (q.fills key = false → q.keeps key = true → does (v.putHart hid { h with loads := h.loads.map fun q =>
            if q.op = n then { q with remote := q.remote ++ [(key, data, p, false)] } else q })) ∧
          (q.fills key = true → q.keeps key = false → v.l1Victim h.core key = none → does (v.l1Set h.core key (some
            (((v.l1Get h.core key).getD .empty).fill data (p && v.winProp (128 * key)) false (v.cgOf h.core)))))) ∧
      (∀ ld w, s.flight? op = some ⟨hid, core, n, ld, .netWrite w⟩ ∨ s.flight? op = some ⟨hid, core, n, ld, .netRelease w⟩ →
        exec (.remoteCompletion op data p) s = .next ((s.setFlight op none).opCheck hid n ld)) ∧
      ∀ ld rel r, s.flight? op = some ⟨hid, core, n, ld, .netAtomics rel [r]⟩ → r.lane = none → 0 < r.dst → r.dst < 64 →
        h.killed = false → (∀ f, h.trapped = some f → f.since ≤ n ∨ r.dst < 56 ∨ 61 < r.dst) →
        ∃ t k, exec (.remoteCompletion op data p) s = .next t ∧ t.hart? hid = some k ∧
          k.getS (sreg r.dst) = ⟨BitVec.ofNat 64 (sectorBytes data (r.addr % 128) r.size), (p && s.winProp r.addr) || r.s⟩) ∧
  ∀ (s u : State) (a : Arrival) (vf : Nat) (va : Word),
    let up := s.mod.power = .on ∧ vf < 1024 ∧ a.mode ≠ .unsupported
    let by' := senderOf a
    let no := .next (if s.mod.power = .on then (s.emit (.refusedAccess by')).note [BitVec.ofNat 64 by', va] else s)
    (¬up → ∀ len data p wide aop x y,
      exec (.inboundRmaRead a vf va len) s = no ∧ exec (.inboundRmaWrite a vf va data p) s = no ∧
      exec (.inboundRmaAtomic a vf va wide aop x y) s = no) ∧
    (∀ wide aop x y, 10 ≤ aop.toNat → exec (.inboundRmaAtomic a vf va wide aop x y) s = no) ∧
    (up →
      (∀ len ts v bytes p, s.inboundCheck vf accRead (runsOf va len) = (u, .ok ts) →
        u.inboundBytes ts = (v, bytes, p, false) →
        exec (.inboundRmaRead a vf va len) s = .next (v.emit (.bytes by' 0 bytes p))) ∧
      (∀ (data : List Byte) (p : List Bool) (e : TlbEntry) (n : Nat), 0 < n → n ≤ 128 → n = data.length →
        s.inboundCheck vf accWrite (runsOf va n) = (u, .ok [(e, va, n)]) → e.mt ≠ .device →
        exec (.inboundRmaWrite a vf va data p) s = .next ((u.homeWrite ⟨sectorOf (e.pa va), byteRun (e.pa va % 128) n,
          sectorPlace (ofBytes data) (e.pa va % 128) n, s.peerTags a.peer && p.headD false, false, n = 128⟩).emit
            (.response by' 0 true []))) ∧
      ∀ (wide : Bool) (aop : BitVec 4) (x y ea : Word) (e : TlbEntry) (rest : List (TlbEntry × Word × Nat)),
        let size := if wide then 8 else 4
        let v := (u.homeRead (sectorOf (e.pa ea))).2
        let old := BitVec.ofNat (8 * size) (sectorBytes v.data (e.pa ea % 128) size)
        let new := atomicNew aop old (x.setWidth (8 * size)) (y.setWidth (8 * size))
        aop.toNat < 10 → ea = BitVec.ofNat 64 (va.toNat / size * size) →
        s.inboundCheck vf accAtomic [(ea, size)] = (u, .ok ((e, ea, size) :: rest)) → v.x = false →
        u.dieVictim (sectorOf (e.pa ea)) = none →
        ∃ t, exec (.inboundRmaAtomic a vf va wide aop x y) s = .next t ∧
          t.outbox.getLast? = some (.bytes by' 0 (toBytes size old.toNat) [v.p]) ∧
          Merged v (t.homeRead (sectorOf (e.pa ea))).2 ⟨sectorOf (e.pa ea), byteRun (e.pa ea % 128) size,
            sectorPlace new.toNat (e.pa ea % 128) size, false, false, false⟩ ∧ HomeFrame u t (sectorOf (e.pa ea)))

/-! ### Control registers of the module -/

/-- R431, R14, R341, R364, R390, R399: a write of a control register that its rules allow, by a writer that reaches it, on a
powered module with no accepted command of the writer's scope still to complete (R392), changes that register alone and
answers a host; a write its rules forbid is logged and changes no register, and one where no register is changes nothing.
TROOT and TSPACE are written by the owning host of a VF with no resident wave; no cached translation of the old TROOT is
used again.
The model's readings or choices in it: log 8, 9, 10. -/
def Obligations.ControlRegisterWrites : Prop :=
  ∀ (s : State) (w : Writer) (v : Word), s.mod.power = .on → s.writeWaits w = false →
    let done (u : State) : State := match w with | .host h => u.emit (.response h 0x11 true []) | .task .. => u
    let undone (u : State) : State := match w with | .host h => u.emit (.response h 0x11 false []) | .task .. => u
    let refused (addr : Nat) : State := undone (s.note [writerWord w, BitVec.ofNat 64 addr])
    let writes (i : Instr) (off : Nat) (r : CtlReg) (u : State) : Prop := s.reaches w off = true →
      exec i s = .next (if s.ctlAllowed w r v then done u else refused (Config.ctlBase + off))
    (∀ vf, vf < 1024 → writes (.cgrantWrite w vf v) (8 * vf) (.cgrant vf)
      { s with mod := { s.mod with cgrant := SMapOps.set 0 s.mod.cgrant vf v } }) ∧
    (∀ q, q < 4096 →
      let st : BitVec 2 := (s.queue q).ctl.extractLsb' 0 2
      let ctl : Word := v.extractLsb' 2 62 ++ (if hostWriter w = true ∧ v.extractLsb' 0 2 = (0 : BitVec 2) ∧
        st = 2 then 0 else st)
      writes (.qctlWrite w q v) (0x100000 + 8 * q) (.qctl q) (s.setQueue q { s.queue q with ctl := ctl })) ∧
    (∀ vf, vf < 1024 → writes (.vfschedWrite w vf v) (0x108000 + 8 * vf) (.vfsched vf)
      (s.setVfRegs vf { s.vfRegs vf with sched := v })) ∧
    (∀ d, d < 4 →
      let left := SMapOps.set 0 s.mod.errcnt d (errcntWritten (SMapOps.get 0 s.mod.errcnt d) v)
      writes (.errcntWrite w d v) (0x200000 + 8 * d) (.errcnt d) { s with mod := { s.mod with errcnt := left } }) ∧
    (∀ n, n < 2048 → writes (.nwinWrite w n v) (0x300000 + 8 * n) (.nwin n)
      { s with mod := { s.mod with nwin := SMapOps.set 0 s.mod.nwin n v } }) ∧
    (∀ p high, 1 ≤ p → p < 4096 →
      let tab := SMapOps.set (0, 0) s.mod.peertab p (if high then ((s.peer p).1, v) else (v, (s.peer p).2))
      writes (.peertabWrite w p high v) (0x400000 + 16 * p + (if high then 8 else 0)) (.peertab p high)
        { s with mod := { s.mod with peertab := tab } }) ∧
    (∀ n, n < 64 → writes (.mcfgWrite w n v) (0x500000 + 512 * n) (.capture n 0)
      (s.setMonitor n { Monitor.zero with cfg := v, edges := (s.monitor n).edges })) ∧
    (∀ addr r, isCtl addr = true → (addr - Config.ctlBase) % 8 = 0 → ctlRegAt (addr - Config.ctlBase) = some r →
      s.reaches w (addr - Config.ctlBase) = true → s.ctlAllowed w r v = true →
      exec (.controlRegisterWrite w addr v) s = .next (done (s.ctlStore w r v))) ∧
    (∀ addr, isCtl addr = true → ctlRegAt (addr - Config.ctlBase) = none → s.reaches w (addr - Config.ctlBase) = true →
      exec (.controlRegisterWrite w addr v) s = .next (undone s)) ∧
    ∀ host vf, s.ownerOf (.vf vf) = some host → s.scopeBusy (.vf vf) = false → s.vfResident vf = false →
      (v.extractLsb' 52 12 = (0 : BitVec 12) → v.extractLsb' 1 11 = (0 : BitVec 11) → exec (.trootWrite host vf v) s =
        .next (((s.setVfRegs vf { s.vfRegs vf with troot := v }).invalidate vf .vf).emit (.response host 0 true []))) ∧
      (v.toNat < 2 ^ 16 → exec (.tspaceWrite host vf v) s =
        .next ((s.setVfRegs vf { s.vfRegs vf with tspace := v }).emit (.response host 0 true [])))

/-! ### Tasks -/

/-- R326, R327, R111, R319, R328, R397: a `spawn` whose checks pass, with ts not full, is counted in ts, releases k and
waits for its acceptance; SPAWN_ACCEPT, once the die's unit and the VF's TCB area have room (log 79, 98), writes the new
TCB, counts its stamp in the spawner's batch, and returns its identifier, settled. A `send` whose checks pass waits at its
gate, or for room to count, or releases k and records its message; a message of this module joins its job's messages, its
stamp counts in the sender's batch, and d is 0. The identifier is the model's free value (log 16). -/
def Obligations.SpawnAndSend : Prop :=
  (∀ (s u : State) (hid vf task : Nat) (h : Hart) (t : Tcb) (j : Job) (d a b : SReg),
    ScalarReady s hid h (group a 4 ++ [b]) [d] → h.Settled (group a 4 ++ [b]) →
    s.taskOf h = some (vf, task, t) → s.job? vf t.job.toNat = some j →
    let x := (h.getS b).val
    let r (i : Nat) : Word := (h.sAt a i).val
    (h.busy = false → h.full .ts = false ∧ j.kind (spawnNode x) = .node ∧ spawnBad x = false ∧
      listBad (r 1) (r 3) (spawnScnt x) = false ∧ j.timeFault (spawnNode x) (r 2) = none ∧
      j.produceFault t.node.toNat t.time (spawnNode x) (r 2) = none) →
    ReleaseDone (if h.busy then s else s.fresh.2.modHart hid (·.issue .ts s.fresh.1)) hid ⟨.rel, letterK⟩ u →
    exec (.spawn d a b) s = .next (u.waiting hid (.spawn d x (r 0) (r 1) (r 2) (r 3)))) ∧
  (∀ (s : State) (hid vf task : Nat) (h : Hart) (t : Tcb) (d : SReg) (x tpl args time slist : Word),
    s.hart? hid = some h → h.wait = some (.spawn d x tpl args time slist) → s.taskOf h = some (vf, task, t) →
    s.harbourOk h.die = true → s.jobCancelled vf t.job.toNat = false →
    let id := Config.taskId s.free % (2 ^ 32 - 1)
    let pend := x.extractLsb' 16 12
    s.taskIdUsed vf id = false → s.countRoom vf t ⟨x.toNat % 64, time, 1⟩ = true → s.tcbRoom vf = true →
    ∃ v k t', exec (.spawnAccept hid) s = .next v ∧ v.hart? hid = some k ∧ k.wait = none ∧ k.pc = h.pc + 4 ∧
      (d ≠ 0 → k.getS d = ⟨BitVec.ofNat 64 id, false⟩) ∧
      v.tcb? vf id = some (newTcb (if pend = 0 then .ready else .armed) (x.extractLsb' 8 3) t.priv false time t.job
        (x.extractLsb' 0 6) pend (x.extractLsb' 32 6) args tpl slist) ∧
      v.tcb? vf task = some t' ∧ t'.batch = t.batch ++ [⟨x.toNat % 64, time, 1⟩]) ∧
  ∀ (s : State) (hid vf task : Nat) (h : Hart) (t : Tcb) (j : Job) (d a b : SReg),
    ScalarReady s hid h (group a 2 ++ [b]) [d] → h.Settled (group a 2 ++ [b]) → h.full .ts = false →
    s.taskOf h = some (vf, task, t) → s.job? vf t.job.toNat = some j →
    let x := (h.getS b).val
    let payload := (h.getS a).val
    let time := (h.sAt a 1).val
    let edge := x.toNat % 64
    let m : Message := ⟨edge, time, payload⟩
    sendBad x = false → j.kind edge = .edge → s.peerOk j (sendPeer x) = true → j.timeFault edge time = none →
    j.produceFault t.node.toNat t.time edge time = none →
    let room := s.countRoom vf t ⟨edge, time, 1⟩
    (j.gateStalls h.die time = true ∨ room = false →
      exec (.send d a b) s = .next (s.waiting hid (.sendGate d payload time x))) ∧
    (j.gateStalls h.die time = false → room = true → ∀ u k0 t0 j0,
      ReleaseDone (s.putHart hid { h with wait := none }) hid ⟨.rel, letterK⟩ u →
      u.jobCancelled vf t.job.toNat = false → sendPeer x = 0 → u.hart? hid = some k0 → u.tcb? vf task = some t0 →
      u.job? vf t.job.toNat = some j0 →
      ∃ v k t', exec (.send d a b) s = .next v ∧ v.hart? hid = some k ∧ k.pc = k0.pc + 4 ∧ k.wait = none ∧
        (d ≠ 0 → k.getS d = ⟨0, false⟩) ∧ v.job? vf t.job.toNat = some { j0 with messages := j0.messages ++ [m] } ∧
        v.tcb? vf task = some t' ∧ t'.batch = t0.batch ++ [⟨edge, time, 1⟩])

/-- R323, R329, R330, R324, R340: on a used location and a time of its format, `fwait` closes the open batch and goes on,
acquiring k, when the time has passed at the hart's die and no other wait of the job there for an earlier time is open, and
none of an earlier running task of its node to come (log 105), else waits; `fpoll` answers 1 and acquires, or 0; `hold` at a
time the task may produce adds one hold and its stamp, `drop` takes one it holds away, each once its count has room (R319,
log 79); a time word of the wrong format or depth, a hold too many or a drop of none takes its time-format trap.
The model's readings or choices in it: log 19, 79, 105. -/
def Obligations.FrontiersAndHolds : Prop :=
  ∀ (s : State) (hid vf task : Nat) (h : Hart) (t : Tcb) (j : Job) (a b d : SReg),
    h.Settled [a, b] → s.taskOf h = some (vf, task, t) → s.job? vf t.job.toNat = some j →
    let l := (h.getS a).val
    let time := (h.getS b).val
    let n := l.toNat
    let trap (cause : Nat) : State := s.trapWith hid .timeFormat cause l time 0 h.pc
    n < 64 → j.kind n ≠ .unused →
    (j.timeFault n time = none →
      let passed := s.passed h.die vf t.job.toNat n time
      let u := s.closeBatch hid
      (ScalarReady s hid h [a, b] [] →
        let w := u.waiting hid (.fwait n time)
        exec (.fwait a b) s = .next (if passed = true ∧ w.earlierWait hid vf t.job.toNat n time = false ∧
          w.earlierTask vf n t = false then ((w.noteWaited hid n).acquire hid letterK).endWait hid else w)) ∧
      (ScalarReady s hid h [a, b] [d] → exec (.fpoll d a b) s = .next
        (if passed then (u.result hid d ⟨1, false⟩).acquire hid letterK else u.result hid d ⟨0, false⟩)) ∧
      (ScalarReady s hid h [a, b] [] → h.full .ts = false →
        let moved (c : Change) : State := if s.countRoom vf t c then
          ((s.putJob vf t.job.toNat { j with holds := addStamp j.holds c }).countChange hid vf task [c]).nextPc hid else s
        (j.produceFault t.node.toNat t.time n time = none →
          exec (.hold a b) s = .next (if j.holdOk n time then moved ⟨n, time, 1⟩ else trap 4)) ∧
        exec (.drop a b) s = .next (if j.held n time = 0 then trap 4 else moved ⟨n, time, -1⟩))) ∧
    (timeOk time = false ∨ timeDepth time ≠ j.depth n →
      (ScalarReady s hid h [a, b] [] → exec (.fwait a b) s = .next (trap 1) ∧
        (h.full .ts = false → exec (.hold a b) s = .next (trap 1) ∧ exec (.drop a b) s = .next (trap 1))) ∧
      (ScalarReady s hid h [a, b] [d] → exec (.fpoll d a b) s = .next (trap 1)))

/-- R331, R332, R338, R197: `tget` reads the task's own TCB, `tset` writes its priority or its successor list; `exit` closes
the open batch and ends the hart once its blocks have ended; `jcancel` marks the job as cancelled and stops its hart at
once; `safe` and `yield` close the open batch and go on, and stop to be saved with their live set when a pre-emption is
pending, which `yield` asks for. And: R130, R197, R198, R146: a `phase` with nothing due, its descriptor within its limits,
its blocks ended and its counters drained, after its release, puts the hart's carry set and next entry into the phase
record, and the hart stops there for its unit's next phase. A descriptor that breaks a limit is illegal, REASON CARRY. An
open gang copy delays the stop (R114).
The model's readings or choices in it: log 23, 24. -/
def Obligations.TaskSelfEndsAndPhase : Prop :=
  (∀ (s : State) (hid vf task : Nat) (h : Hart) (t : Tcb) (g : Gang) (d a b : SReg),
    s.taskOf h = some (vf, task, t) → s.unit? h.unit = some g →
    (ScalarReady s hid h [] [d] →
      let gives (c : BitVec 4) (x : Word) : Prop := exec (.tget d c) s = .next (s.result hid d ⟨x, false⟩)
      gives 0 (BitVec.ofNat 64 task) ∧ gives 1 t.time ∧
      gives 2 ((0 : BitVec 22) ++ BitVec.ofNat 10 vf ++ (0 : BitVec 8) ++ t.job ++ (0 : BitVec 10) ++ t.node) ∧
      gives 3 t.args ∧ gives 4 (t.relaunch.zeroExtend 64) ∧ gives 5 (t.fcode.zeroExtend 64)) ∧
    (ScalarReady s hid h [a] [] → h.Settled [a] → (h.getS a).val.toNat ≤ 7 → exec (.tset a b 0) s =
      .next ((s.putTcb vf task { t with prio := (h.getS a).val.extractLsb' 0 3 }).nextPc hid)) ∧
    (ScalarReady s hid h [a, b] [] → h.Settled [a, b] →
      let list := (h.getS a).val
      let n := (h.getS b).val
      n.toNat ≤ 63 → listBad t.args list n.toNat = false → exec (.tset a b 1) s =
        .next ((s.putTcb vf task { t with slrel := slrelOf t.args list, scnt := n.extractLsb' 0 6 }).nextPc hid)) ∧
    (∀ k, ScalarReady s hid h [] [] → (s.closeBatch hid).hart? hid = some k →
      (h.blocks = 0 → (s.closeBatch hid).unitPhased h.unit = false → exec .exit s = .next ((s.closeBatch hid).putHart hid
        { k with ended := some .exited, wait := none, armed := [], laneTrap := none, trapped := none })) ∧
      (h.blocks ≠ 0 → h.inLaneHandler = false → exec .exit s = .next (s.closeBatch hid))) ∧
    (∀ j, ScalarReady s hid h [] [] → s.job? vf t.job.toNat = some j → h.trapped = none →
      ∃ u k, exec .jcancel s = .next u ∧ u.jobCancelled vf t.job.toNat = true ∧ u.hart? hid = some k ∧
        k.ended = some .exited ∧ k.s = h.s ∧ k.pc = h.pc) ∧
    (ScalarReady s hid h [a] [] → h.Settled [a] → h.ended = none →
      let on := (s.closeBatch hid).nextPc hid
      (s.safeDue hid h = false → exec (.safe a) s = .next on) ∧
      (h.doomed = false → g.roleMark ≠ some hid → s.jobCancelled vf t.job.toNat = false →
        g.gangCopies = [] → (g.preempt.isSome = true → exec (.safe a) s = .next ((on.closeBatch hid).modHart hid fun k =>
          { k with safeMask := some (h.getS a).val })) ∧
        (g.preempt = none → g.st = .resident →
          ∃ u k g', exec (.yield a) s = .next u ∧ u.hart? hid = some k ∧ k.pc = h.pc + 4 ∧
            k.safeMask = some (h.getS a).val ∧ u.unit? h.unit = some g' ∧ g' = { g with preempt := some s.time })))) ∧
  ∀ (s v : State) (hid : Nat) (h k l : Hart) (t : Tcb) (g : Gang) (a b : SReg),
    ScalarReady s hid h [a, b] [] → h.Settled [a, b] → h.engine = .wave →
    let x := (h.getS a).val
    let entry := (h.getS b).val &&& ~~~3
    let scnt := (x.extractLsb' 22 5).toNat
    let sbase := (x.extractLsb' 16 6).toNat
    let lcnt := (x.extractLsb' 10 6).toNat
    let lbase := (x.extractLsb' 0 10).toNat
    let within := x.toNat < 2 ^ 27 ∧ scnt ≤ 16 ∧ 1 ≤ sbase ∧ sbase + scnt ≤ 64 ∧ lcnt ≤ 32 ∧ lbase + lcnt ≤ s.declared h
    (¬within → exec (.phase a b) s = .next (s.illegal hid ⟨.carry, false⟩)) ∧
    (within → s.safeDue hid h = false → h.blocks = 0 → (s.closeBatch hid).hart? hid = some k → k.drained = true →
      ReleaseDone (s.closeBatch hid) hid ⟨.rel, letterKYM⟩ v → v.hart? hid = some l → v.unit? l.unit = some g →
      v.tcb? g.vf g.task = some t →
      exec (.phase a b) s = .next (v.endPhase hid x entry) ∧
      ((∃ i o, i ≠ hid ∧ i ∈ v.unitHarts l.unit ∧ v.hart? i = some o ∧ o.ended = none) →
        ∃ u k' t' c, v.endPhase hid x entry = u ∧ u.hart? hid = some k' ∧ k'.ended = some .phased ∧
          u.tcb? g.vf g.task = some t' ∧ t'.carries = t.carries ++ [c] ∧ c.entry = entry ∧ c.unit = g.index ∧
          c.m0 = l.getM 0 ∧
          (∀ r, sbase ≤ r → r < sbase + scnt → (r, l.getS (sreg r)) ∈ c.s) ∧ (l.absent = [] → ∀ r n, lbase ≤ r →
            r < lbase + lcnt → n < 32 → SMapOps.get LV.zero c.v (32 * r + n) = SMapOps.get LV.zero l.v (32 * r + n))))

/-! ### Events of the tasks and the progress units -/

/-- R110, R318, R320, R334, R335: the retirement of a finished task that runs on one wave, with nothing in flight and no
successors, forwards its batch with its own stamp taken away and frees its unit and its TCB. A batch that reaches the
aggregator changes its job's counts at once, positives first. FRONTIER_PUSH gives a die the frontier of a location. And:
R328, R396: a message on an edge whose destination has a handler template is consumed by a new READY task at the summary of
its time, the two stamps changing in one batch; a batch of an enabled peer of the job is applied and not forwarded again,
and its message joins the job's; a peer that cannot be reached is told to each of its jobs, counts staying.
The model's readings or choices in it: log 54. -/
def Obligations.RetirementBatchesFrontiersAndMessages : Prop :=
  ((∀ (s u v : State) (vf task : Nat) (t : Tcb) (j : Job), s.tcb? vf task = some t → s.taskOver vf task t = true →
    s.taskDrained vf task = true → s.harbourOk t.die = true → t.leaving = false → t.scnt = 0 → s.jobCancelled vf t.job.toNat = false →
    s.retireReleases ((s.taskUnits vf task).any fun n => match s.unit? n with | some g => g.granules ≠ 0 | none => false)
      (s.taskHarts vf task) = (u, true) → u.job? vf t.job.toNat = some j → j.cancelled = false →
    v = (u.noteRetired vf t (u.taskClusters vf task)).forward t.die
      ⟨vf, t.job.toNat, t.batch ++ [⟨t.node.toNat, t.time, -1⟩], t.msgs, true, []⟩ →
    ∃ w, exec (.taskRetirement vf task) s = .next w ∧ w.tcb? vf task = none ∧
      (∀ n, n ∈ u.taskUnits vf task → w.unit? n = none) ∧ w.prog.dieQ = v.prog.dieQ) ∧
  (∀ (s : State) (die : Nat) (b : Batch) (j : Job), s.harbourOk die = true → s.harbourOk 0 = true →
    s.prog.dieQ.find? (fun p => p.1 = die) = some (die, b) → s.job? b.vf b.job = some j → b.msgs = [] → b.frees = [] →
    j.peers = [] → j.cancelled = false →
    exec (.aggregatorBatchApply die) s = .next (({ s with prog := { s.prog with dieQ := s.prog.dieQ.erase (die, b) } } :
      State).putJob b.vf b.job (j.applyBatch b.changes))) ∧
  ∀ (s : State) (die vf job loc : Nat) (j : Job), s.job? vf job = some j → die < 4 → loc < 64 → j.applied = true →
    ∃ t j', exec (.frontierPush die vf job loc) s = .next t ∧ t.job? vf job = some j' ∧
      j'.dieFront die loc = some (j.frontier loc) ∧ j'.stamps = j.stamps ∧
      ∀ d l, (d ≠ die ∨ l ≠ loc) → j'.dieFront d l = j.dieFront d l) ∧
  (∀ (s : State) (vf job index : Nat) (j : Job) (m : Message) (time : Word), s.job? vf job = some j →
    j.messages[index]? = some m → s.harbourOk 0 = true → s.tcbRoom vf = true → j.cancelled = false →
    j.htpl (j.edgeDst m.edge) ≠ 0 →
    summary (j.path m.edge (j.edgeDst m.edge)) m.time = some time →
    ∃ t id, exec (.messageConsumption vf job index) s = .next t ∧
      t.tcb? vf id = some (newTcb .ready (BitVec.ofNat 3 (j.hpri (j.edgeDst m.edge))) false true time (BitVec.ofNat 8 job)
        (BitVec.ofNat 6 (j.edgeDst m.edge)) 0 0 m.payload (j.htpl (j.edgeDst m.edge)) 0) ∧
      t.job? vf job = some { j with messages := j.messages.eraseIdx index } ∧
      t.prog.dieQ = s.prog.dieQ ++ [(0, ⟨vf, job, [⟨j.edgeDst m.edge, time, 1⟩, ⟨m.edge, m.time, -1⟩], [], true, []⟩)]) ∧
  (∀ (s : State) (peer vf job : Nat) (changes : List Change) (e : BitVec 6) (time payload : Word) (j : Job),
    s.job? vf job = some j → j.peers.contains peer = true → bitOf (s.peer peer).1 63 = true → s.harbourOk 0 = true →
    changes ≠ [] → j.cancelled = false →
    ∃ t, exec (.peerBatchReceive peer vf job changes (some (e, time, payload))) s = .next t ∧ t.prog.dieQ = s.prog.dieQ ∧
      t.job? vf job = some { j.applyBatch changes with messages := j.messages ++ [⟨e.toNat, time, payload⟩] }) ∧
  ∀ (s : State) (peer : Nat), (∀ die, s.harbourOk die = true) →
    ∃ t, exec (.peerUnreachable peer) s = .next t ∧ t.prog = s.prog ∧ t.harts = s.harts ∧
    t.outbox.length = s.outbox.length + (s.jobsOfPeer peer).length


/-! ### Overwriting loops -/

/-- R284, R286, R289: `wcov` sets SET, KEEP, MAPOFF and MLEN of the walker state from settled operands within the rules and
the reservation, and takes the manifest trap, cause NOMAP, on operands that break a rule; `wclr` puts writes of zero over
the whole map into the store queue, counted in no class, and takes that trap before a map is set. -/
def Obligations.WalkerMap : Prop :=
  ∀ (s : State) (hid : Nat) (h : Hart) (g : Gang) (a b : SReg), s.unit? h.unit = some g → g.csize ≤ 2 ^ 21 →
    (ScalarReady s hid h [a, b] [] → h.Settled [a, b] →
      let off := (h.getS a).val
      let ctl := (h.getS b).val
      let len := (ctl.extractLsb' 0 21).toNat
      (off.extractLsb' 0 7 ≠ 0 ∨ ctl &&& 0xFFFFFFFEFFE00000 ≠ 0 ∨ len = 0 ∨ len % 128 ≠ 0 ∨ 2 ^ 20 < len →
        exec (.wcov a b) s = .next (s.walkTrap hid .manifest 6 0)) ∧
      (off.extractLsb' 0 7 = 0 → ctl &&& 0xFFFFFFFEFFE00000 = 0 → len ≠ 0 → len % 128 = 0 → len ≤ 2 ^ 20 →
        off.toNat + len ≤ g.csize →
        ∃ t w, exec (.wcov a b) s = .next t ∧ t.hart? hid = some { h with walker := w, pc := h.pc + 4 } ∧
          w.getLsbD 53 = true ∧ w.getLsbD 52 = ctl.getLsbD 32 ∧ (w.extractLsb' 21 21).toNat = off.toNat ∧
          (w.extractLsb' 0 21).toNat = len ∧ w &&& 0xFFC0000000000000 = 0 ∧ w &&& 0x000FFC0000000000 = 0)) ∧
    (ScalarReady s hid h [] [] →
      (h.walker.getLsbD 53 = false → exec .wclr s = .next (s.walkTrap hid .manifest 6 0)) ∧
      (h.walker.getLsbD 53 = true → h.loads = [] →
        ∃ t k e, exec .wclr s = .next t ∧ t.hart? hid = some k ∧ k.pc = h.pc + 4 ∧ k.storeQ = h.storeQ ++ [e] ∧
          k.st = h.st ∧ e.op = s.nextId ∧ e.kind = .cluster ∧ ∀ n,
          (∃ w ∈ e.writes, w = ⟨n, BitVec.allOnes 128, 0, false, false, true⟩) ↔
            n ∈ rangeSectors (h.walker.extractLsb' 21 21).toNat (h.walker.extractLsb' 0 21).toNat))

/-- R287, R108: `wloop` on settled registers, with no block queued or running, takes MFMT on a misaligned manifest; with the
manifest read it takes NOMAP, MFMT, COUNT or RANGE, in that order (that COUNT comes before RANGE is the model's reading, log
50), or the walker trap, cause DEAD, for lanes that m0 lacks; else the loop begins with ceil(n / W) batches, none executed
or skipped, every register as it is. A batch that starts runs the lanes with an uncovered cell, in slot 0, each with its
iteration in v[IREG]; one with no such lane counts its lanes as skipped and is over. After the last batch `wloop` writes
both counts, settled, puts every lane and mask register back and moves on.
The model's readings or choices in it: log 50. -/
def Obligations.WalkerLoopRuns : Prop :=
  (∀ (s u v : State) (hid : Nat) (h0 h : Hart) (acc : LaneAcc) (x : View) (d a b : SReg),
    ScalarReady s hid h0 [a, a + 1, b] [d, d + 1] → h0.roleBad .vector = false → h0.walk = none → h0.Settled [a, a + 1, b] →
    h0.blocks = 0 → s.settleHart hid = (u, true) → u.hart? hid = some h →
    let start := (h0.getS a).val
    let n := (h0.getS b).val
    let does (t : State) : Prop := exec (.wloop d a b) s = .next t
    (start.toNat % 128 ≠ 0 → does (u.walkTrap hid .manifest 1 0)) ∧
    (start.toNat % 128 = 0 → u.walkRead hid h .scalarLoad false 128 [⟨0, start, false⟩] = (v, .views [(acc, x)]) →
      x.x = false → x.p = false →
      let m := mapWords x.data
      let w := manWidth m
      let trap (c : Nat) : State := v.walkTrap hid .manifest c 0
      (walkSet h.walker = false → does (trap 6)) ∧
      (walkSet h.walker = true → manifestBad m (v.declared h) = true → does (trap 1)) ∧
      (walkSet h.walker = true → manifestBad m (v.declared h) = false →
        (manNiter m < n.toNat → does (trap 2)) ∧
        (n.toNat ≤ manNiter m → 8 * walkLen h.walker < manCells m → does (trap 3)) ∧
        (n.toNat ≤ manNiter m → manCells m ≤ 8 * walkLen h.walker →
          ((∃ l, l < w ∧ h.m0.getLsbD l = false) → ∃ dead, does (v.walkTrap hid .walker 2 dead) ∧
            ∀ l, l < 32 → (dead.getLsbD l = true ↔ l < w ∧ h.m0.getLsbD l = false)) ∧
          ((∀ l, l < w → h.m0.getLsbD l = true) → (∀ k, k < 16 → v.upsetAt (.uniformReg hid k) = false) →
            walkKeep h.walker = true → v.hart? hid = some h → h.absent = [] →
            ∃ t k r, does t ∧ t.hart? hid = some k ∧ k.walk = some r ∧ r.n = n.toNat ∧ r.d = d ∧
              r.batch = (n.toNat + w - 1) / w ∧ r.exe = 0 ∧ r.skp = 0 ∧ r.inBody = false ∧
              r.body = (h0.getS (a + 1)).val &&& ~~~3 ∧ ∀ y l, l < 32 → k.getV y l = h.getV y l))))) ∧
  (∀ (s u v : State) (hid : Nat) (h h1 : Hart) (k k1 : WalkRun) (cs : LaneCells) (vs : List (LaneAcc × View)),
    let ls := batchLanes (manWidth k.manifest) k.n (k.batch - 1)
    s.hart? hid = some h → h.walk = some k → k.inBody = false → k.batch ≠ 0 → h.still = false → s.saved h = false →
    s.safeDue hid h = false →
    s.footprint hid h k.manifest ls (List.range 4) = (u, .cells cs) → (∀ p ∈ cs, ∃ c, p.2 = some c) →
    (∀ p ∈ cs, p.1 < 32) → u.mapViews hid h (cs.filterMap Prod.snd) = (v, some vs) →
    v.hart? hid = some h1 → h1.walk = some k1 → k1.manifest = k.manifest →
    ∃ t k' w' run, exec (.walkerBatchStart hid) s = .next t ∧ t.hart? hid = some k' ∧ k'.walk = some w' ∧
      (∀ l, l < 32 → (run.getLsbD l = true ↔ ∃ c, (l, some c) ∈ cs ∧ coveredIn vs (walkOff h.walker) c = false)) ∧
      w'.lanes = maskOf (ls.map Prod.fst) ∧
      (run = 0 → w'.skp = k1.skp + ls.length ∧ w'.batch = k1.batch - 1 ∧ w'.inBody = k1.inBody ∧ k'.block = h1.block) ∧
      (run ≠ 0 → w'.skp = k1.skp ∧ w'.batch = k1.batch ∧ w'.inBody = true ∧ w'.run = run ∧ w'.stores = [] ∧
        k'.block = some ⟨k.body, k.ksnap, s.nextId⟩ ∧ k'.slot0 = ⟨0, run, false, .run⟩ ∧
        ∀ p ∈ ls, run.getLsbD p.1 = true → k'.getV (manIreg k.manifest) p.1 = ⟨BitVec.ofNat 32 p.2, false⟩)) ∧
  ∀ (s : State) (hid : Nat) (h : Hart) (k : WalkRun) (d a b : SReg),
    ScalarReady s hid h [a, a + 1, b] [d, d + 1] → h.roleBad .vector = false → h.walk = some k → k.inBody = false →
    k.batch = 0 → k.d = d → d.toNat ≤ 62 →
    ∃ t k', exec (.wloop d a b) s = .next t ∧ t.hart? hid = some k' ∧ k'.walk = none ∧ k'.pc = h.pc + 4 ∧
      (d ≠ 0 → k'.getS d = ⟨BitVec.ofNat 64 k.exe, false⟩) ∧ k'.getS (d + 1) = ⟨BitVec.ofNat 64 k.skp, false⟩ ∧
      k'.v = k.savedV ∧ k'.m = k.savedM ∧ ∀ r, r ≠ d → r ≠ d + 1 → k'.getS r = h.getS r

/-- R288: among the cells of a batch no covered cell is written, and a written cell takes the bytes of the highest lane that
stored to it. A body whose stores stay within their lanes' cells and fill them commits: the surviving cells' writes and then
the map's enter the store queue as one st operation, the executed lanes and the skipped ones are counted, and every lane and
mask register is as at `wloop`. A store outside its lane's cells takes OUTSIDE, else a cell written partly takes PARTIAL. -/
def Obligations.WalkerBatchCommits : Prop :=
  (∀ (m : List Word) (ws : List WStore) (covered : Nat → Bool) (x : WinCell), x ∈ winners m ws covered →
    covered x.cell = false ∧ (∃ w ∈ ws, w.lane = x.lane ∧ cellOf m w.addr = some x.cell) ∧
    ∀ w ∈ ws, cellOf m w.addr = some x.cell → w.lane ≤ x.lane) ∧
  ∀ (s : State) (hid : Nat) (h : Hart) (k : WalkRun), s.hart? hid = some h → h.walk = some k → h.loads = [] →
    k.inBody = true → h.block = none → h.still = false → s.saved h = false → h.full .st = false →
    let m := k.manifest
    let ws := lastStores k.stores
    (outsideLanes k ws ≠ [] →
      exec (.walkerBatchCommit hid) s = .next (s.walkTrap hid .manifest 4 (maskOf (outsideLanes k ws)))) ∧
    (outsideLanes k ws = [] → partialLanes m ws ≠ [] →
      exec (.walkerBatchCommit hid) s = .next (s.walkTrap hid .manifest 5 (maskOf (partialLanes m ws)))) ∧
    (outsideLanes k ws = [] → partialLanes m ws = [] → ∀ vs u p,
      let off := walkOff h.walker
      let wins := winners m ws (coveredIn vs off)
      s.mapViews hid h ((storedCells m ws).map Prod.snd) = (s, some vs) → s.placeCells h m wins = (u, p, []) →
      u.hart? hid = some h → wins ≠ [] →
      ∃ t k' w' e, exec (.walkerBatchCommit hid) s = .next t ∧ t.hart? hid = some k' ∧ k'.walk = some w' ∧
        k'.st = h.st ++ [⟨u.nextId, false⟩] ∧ k'.storeQ = h.storeQ ++ cellEntries u.nextId p ++ [e] ∧ e.op = u.nextId ∧
        e.kind = .cluster ∧ e.writes = sectorWrites (mapParts vs off (wins.map WinCell.cell)) ∧
        w'.exe = k.exe + (lanesOf k.run).length ∧
        w'.skp = k.skp + ((lanesOf k.lanes).length - (lanesOf k.run).length) ∧ w'.batch = k.batch - 1 ∧ w'.inBody = false ∧
        k'.v = k.savedV ∧ k'.m = k.savedM)

/-! ### The crane -/

/-- R293 to R302, R346: on a crane thread `mfmt` loads a settled format word that breaks no rule; `mzero`, `mma` and `mout`
whose tile is declared, whose descriptors are settled and whose images pass their checks issue one tile operation, counted
in mx, that keeps the format state and descriptors of the issue; the command of one that streams an operand leaves by the
store queue (R104). A tile at or beyond NACC takes the register trap. -/
def Obligations.CraneIssues : Prop :=
  ∀ (s : State) (hid : Nat) (h : Hart) (g : Gang) (a b : SReg) (acc : BitVec 3) (mask : BitVec 4) (cmt z : Bool),
    s.unit? h.unit = some g → h.engine = .crane →
    let issued (k : TileKind) (streams : Bool) (t : State) : Prop :=
      t.hart? hid = some { h.issue .mx s.nextId with pc := h.pc + 4, storeQ := h.storeQ ++
        if streams then [⟨s.nextId, 0, .tileCmd, false, [], [], [], s.nextId, .scalar 0⟩] else [] } ∧
      t.tileOp? s.nextId = some ⟨hid, h.unit, s.nextId, k, acc.toNat, mask, [], [], h.pc, !streams⟩
    let beyond : State := s.trapWith hid .register 0 (BitVec.ofNat 64 acc.toNat) 0 0 h.pc
    let x := (h.getS a).val
    (ScalarReady s hid h [a] [] → h.Settled [a] → fmtFault x = none →
      ∃ t, exec (.mfmt a) s = .next t ∧ t.hart? hid = some { h with fmt := x, pc := h.pc + 4 }) ∧
    (h.full .mx = false → g.nacc ≤ acc.toNat →
      (ScalarReady s hid h [] [] → exec (.mzero acc mask) s = .next beyond) ∧
      (ScalarReady s hid h [a] [] → exec (.mout a acc mask cmt z) s = .next beyond)) ∧
    (h.full .mx = false → acc.toNat < g.nacc →
      (ScalarReady s hid h [] [] → ∃ t, exec (.mzero acc mask) s = .next t ∧ issued .mzero false t) ∧
      (ScalarReady s hid h [a] [] → h.Settled [a] → descSrc x ≠ 2 → (descMc x = true → (enginesOf mask).length ≤ 1) →
        (cmt = true → g.moutCommitFault x mask = none) → descBad x 0 false = false →
        g.checkImage x 0 mask moutBytes false = .ok →
        ∃ t, exec (.mout a acc mask cmt z) s = .next t ∧ issued (.mout x z cmt) false t) ∧
      (ScalarReady s hid h [a, b] [] → ScalarReady s hid h (h.descNext a ++ h.descNext b) [] → h.wait = none → ∀ xa y ya ta tb,
        h.desc a = .ok x xa → h.desc b = .ok y ya → fmtA h.fmt = some ta → fmtB h.fmt = some tb →
        g.checkImage x xa mask (imageBytes h.fmt ta) true = .ok → g.checkImage y ya mask (imageBytes h.fmt tb) true = .ok →
        ∃ t, exec (.mma acc a b mask) s = .next t ∧
          issued (.mma x y xa ya h.fmt) (descSrc x = 2 || descSrc y = 2) t))

/-- R300, R301, R308, R173, R160: MZERO_COMPLETE sets every cell of its tile to +0 and clears its poison, on the engines of
the mask alone. MMA_COMPLETE of one cell, its row and column read, adds the chunk into that cell of an unpoisoned tile, as
`mma_cell` over the decoded elements gives it, and into no other; a poisoned sector that was read poisons the tile. And:
R302, R104: MOUT_COMPLETE of one cell of an unpoisoned tile puts the cell's f32 pattern at its place in a sector write with
s = 1, x = 0, FC = 1; the sector write is made when its last cell joins it. `.z` then sets the cell to +0, and no other cell
changes. A poisoned tile's sectors are zeros with x = 1. And: R309, R35, R39: a streamed image that faults kills the convoy:
its task is FAULTED with the fault's code and the unit released, and with no other tile operation of it left every tile is
+0 and clear of poison, and its marks are gone. One whose pages are all read changes nothing but what the reads do.
The model's readings or choices in it: log 49, 95. -/
def Obligations.TileOperationsCompleteOrFault : Prop :=
  (((∀ (s : State) (op : Nat) (t : TileOp) (g : Gang), s.tileOp? op = some t → s.unit? t.unit = some g → t.kind = .mzero →
    SMapOps.wf 0 g.tiles = true →
    t.acc < 8 → s.tileBusy t.hart t.acc t.mask op = false →
    ∃ v k, exec (.mzeroComplete op) s = .next v ∧ v.tileOp? op = none ∧ v.unit? t.unit = some k ∧
      (∀ e c, e < 4 → t.mask.getLsbD e = true → c < 4096 → k.cell e t.acc c = 0 ∧ k.poisonOf e t.acc = false) ∧
      (g.st ≠ .released → ∀ e a c, e < 4 → a < 8 → c < 4096 → ¬(a = t.acc ∧ t.mask.getLsbD e = true) →
        k.cell e a c = g.cell e a c ∧ k.poisonOf e a = g.poisonOf e a)) ∧
  ∀ (s u1 u : State) (op e i j : Nat) (t0 t : TileOp) (g : Gang) (x y : Operand),
    s.tileOp? op = some t0 → t0.operand 0 = some x → t0.operand 1 = some y → e < 4 → i < 64 → j < 64 →
    s.cellOpen op t0 e (64 * i + j) = true →
    s.tileReads op 0 e (x.rowSectors e i) = (u1, .ok) → u1.tileReads op 1 e (y.rowSectors e j) = (u, .ok) →
    u.tileOp? op = some t → t.operand 0 = some x → t.operand 1 = some y → u.unit? t.unit = some g → t.acc < 8 →
    ∃ v k, exec (.mmaComplete op (some (e, i, j))) s = .next v ∧ v.unit? t.unit = some k ∧
      (4096 * (enginesOf t.mask).length ≤ t.done.length + 1 → v.tileOp? op = none) ∧ (g.st ≠ .released →
      (t.readPoison e = true → k.poisonOf e t.acc = true) ∧
      (∀ e' a, e' < 4 → a < 8 → (e', a) ≠ (e, t.acc) → k.poisonOf e' a = g.poisonOf e' a) ∧
      (t.readPoison e = false → g.poisonOf e t.acc = false → k.poisonOf e t.acc = false ∧
        k.cell e t.acc (64 * i + j) = cellImage (mmaCell (cellValue (g.cell e t.acc (64 * i + j))) (fmtK x.fmt / 4)
          (List.zip (t.row 0 e i x) (t.row 1 e j y)))) ∧
      ∀ e' a c, e' < 4 → a < 8 → c < 4096 → (e', a, c) ≠ (e, t.acc, 64 * i + j) → k.cell e' a c = g.cell e' a c)) ∧
  ∀ (s : State) (op e i j : Nat) (t : TileOp) (g : Gang) (x : Word) (z cmt : Bool),
    s.tileOp? op = some t → t.kind = .mout x z cmt → s.unit? t.unit = some g → e < 4 → i < 64 → j < 64 → t.acc < 8 →
    s.cellOpen op t e (64 * i + j) = true →
    let c := 64 * i + j
    let dst := imageStart x 0 e + 4 * c
    let key := e * 2 ^ 58 + sectorOf dst
    let m := byteRun (dst % 128) 4
    let old := (t.out.find? fun w => w.sector = key).getD ⟨key, 0, 0, true, false, true⟩
    dst % 128 + 4 ≤ 128 → old.s = true → old.fc = true →
    ∃ v k, exec (.moutComplete op (some (e, i, j))) s = .next v ∧ v.unit? t.unit = some k ∧
      (4096 * (enginesOf t.mask).length ≤ t.done.length + 1 → v.tileOp? op = none) ∧ (t.done.length + 1 < 4096 →
      (∀ e' a c', e' < 4 → a < 8 → c' < 4096 → k.cell e' a c' =
        if z = true ∧ (e', a, c') = (e, t.acc, c) then 0 else g.cell e' a c') ∧
      (old.mask ||| m ≠ BitVec.allOnes 128 → k.cbytes = g.cbytes ∧ k.ctags = g.ctags ∧
        ∃ t1 w, v.tileOp? op = some t1 ∧ w ∈ t1.out ∧ w.sector = key ∧ w.mask = old.mask ||| m ∧
          w.x = (old.x || g.poisonOf e t.acc) ∧ w.s = true ∧ w.fc = true ∧
          sectorBytes w.data (dst % 128) 4 = (g.cell e t.acc c).toNat ∧
          ∀ b, b < 128 → m.getLsbD b = false → sectorByte w.data b = sectorByte old.data b) ∧
      (old.mask ||| m = BitVec.allOnes 128 →
        k.granuleTags (sectorOf dst) = (true, old.x || g.poisonOf e t.acc) ∧
        (SMapOps.wf 0 g.cbytes = true → k.granule (sectorOf dst) = if old.x || g.poisonOf e t.acc then 0 else
          mergeBytes m old.data (sectorPlace (g.cell e t.acc c).toNat (dst % 128) 4))))) ∧
  ∀ (s u : State) (op : Nat) (t : TileOp) (x y : Operand) (f w : Failure) (fs : List Failure) (g : Gang) (c : Tcb),
    s.tileOp? op = some t → t.mask = 1 → t.operand 0 = some x → t.operand 1 = some y →
    (descSrc x.desc ≠ 2 → descSrc y.desc ≠ 2 → exec (.streamedOperandFault op) s = .next s) ∧
    (descSrc x.desc = 2 → descSrc y.desc ≠ 2 → s.imageFailures op 0 0 (x.allSectors 0) = (u, []) →
      exec (.streamedOperandFault op) s = .next u) ∧
    (descSrc x.desc = 2 → descSrc y.desc ≠ 2 → s.imageFailures op 0 0 (x.allSectors 0) = (u, f :: fs) →
      worstFailure (f :: fs) = some w → u.unit? t.unit = some g → g.st ≠ .released → u.tcb? g.vf g.task = some c →
      u.jobCancelled g.vf c.job.toNat = false → u.harbourOk c.die = true → SMapOps.wf none u.tileOps = true →
      (∀ i o, i ≠ op → u.tileOp? i = some o → o.unit ≠ t.unit) →
      ∃ v k c', exec (.streamedOperandFault op) s = .next v ∧ v.unit? t.unit = some k ∧ k.st = .released ∧ k.marks = [] ∧
        (∀ e a n, e < 4 → a < 8 → n < 4096 → k.cell e a n = 0 ∧ k.poisonOf e a = false) ∧
        v.tcb? g.vf g.task = some c' ∧ c'.st = .faulted ∧
        c'.fcode = BitVec.ofNat 16 (w.cause.trapClass.code * 256 + w.cause.code % 256) ∧ c'.batch = [])

/-- R304 to R306: `mbar` gives d the object's generation plus its pending marks plus one and queues a mark on the thread's
operations, or stalls at 16; the oldest mark completes when they have, adding one to the generation; `mwait` goes on when
the generation is reached; `mpsn` reads the poison flags of a tile that no earlier operation of the thread still changes;
`mscrub` waits for the accepted operations, then clears every tile of its engines. -/
def Obligations.CraneBarriersPoisonAndScrub : Prop :=
  ∀ (s : State) (hid : Nat) (h : Hart) (g : Gang) (d a : SReg) (n mask : BitVec 4) (acc : BitVec 3),
    s.unit? h.unit = some g → h.engine = .crane →
    let pending := (g.marks.filter fun m => m.obj = n.toNat).length
    let gen := (h.getS a).val.extractLsb' 0 32
    (ScalarReady s hid h [] [d] →
      (16 ≤ pending → exec (.mbar d n) s = .next s) ∧
      (pending < 16 → ∃ t k, exec (.mbar d n) s = .next t ∧ t.hart? hid = some k ∧ k.pc = h.pc + 4 ∧
        (d ≠ 0 → k.getS d = ⟨(g.mgen n.toNat + BitVec.ofNat 32 (pending + 1)).zeroExtend 64, false⟩) ∧
        t.unit? h.unit = some { g with marks := g.marks ++ [⟨n.toNat, hid, s.hartTileOps hid⟩] }) ∧
      (acc.toNat < g.nacc → s.tileBusy hid acc.toNat mask s.nextId = false →
        ∃ t k, exec (.mpsn d acc mask) s = .next t ∧ t.hart? hid = some k ∧ k.pc = h.pc + 4 ∧
          (d ≠ 0 → (k.getS d).tag = false ∧ ∀ e, e < 64 → ((k.getS d).val.getLsbD e = true ↔
            e < 4 ∧ mask.getLsbD e = true ∧ g.poisonOf e acc.toNat = true)))) ∧
    (ScalarReady s hid h [a] [] → h.Settled [a] → h.wait = none → ∃ t k, exec (.mwait a n) s = .next t ∧
      t.hart? hid = some k ∧ (if 0 ≤ (g.mgen n.toNat - gen).toInt then k = { h with pc := h.pc + 4 } else
        k = { h with wait := some (.mwait n.toNat gen) })) ∧
    (ScalarReady s hid h [] [] → h.wait = none →
      (SMapOps.wf 0 g.tiles = true →
        (∀ p ∈ s.tileOps, ∀ o, p.2 = some o → o.unit ≠ h.unit ∨ o.mask &&& mask = 0) →
        ∃ t k, exec (.mscrub mask) s = .next t ∧ t.hart? hid = some { h with pc := h.pc + 4 } ∧
        t.unit? h.unit = some k ∧ ∀ e b c, e < 4 → b < 8 → c < 4096 →
          k.cell e b c = (if mask.getLsbD e then 0 else g.cell e b c) ∧
          k.poisonOf e b = (if mask.getLsbD e then false else g.poisonOf e b)) ∧
      ∀ id o, s.tileOp? id = some o → o.unit = h.unit → o.mask &&& mask ≠ 0 → ∃ t ops, exec (.mscrub mask) s = .next t ∧
        id ∈ ops ∧ t.hart? hid = some { h with wait := some (.mscrub mask ops) }) ∧
    ∀ m, (g.marks.find? fun x => x.obj = n.toNat) = some m →
      (m.ops.any (fun id => (s.tileOp? id).isSome) = true → exec (.mbarMarkComplete h.unit n.toNat) s = .next s) ∧
      (m.ops.any (fun id => (s.tileOp? id).isSome) = false → ∃ t k, exec (.mbarMarkComplete h.unit n.toNat) s = .next t ∧
        t.unit? h.unit = some k ∧ k.marks = g.marks.erase m ∧ k.mgen n.toNat = g.mgen n.toNat + 1)


/-! ### Traps, control registers, invalidation -/

/-- R199, R358 to R361: `trap n` of a hart with no handler active reads its vector word: if it is nonzero, s56 to s61 go to
the hidden slots, the record takes their place, settled (the next word, class 0x19, the trapping word, n, 0, 0), and the pc
goes to the vector word; if it is zero the task is FAULTED with FCODE 0x1900. In a handler it is nested: the first record
goes to the fault queue, as a fault record of its trapping word (log 18), and the task ends. LANE_TRAP_DELIVERY enters the
handler of a waiting lane trap the same way, the pc in s56 and WAIT as the S-stream waits. `rte` goes to s56 with bits 1:0
clear, restores s56 to s61 from the hidden slots, and, where s57 says lane stream, unfreezes the queue and, without LRETRY,
moves the slot past its word.
The model's readings or choices in it: log 18, 51. -/
def Obligations.TrapEntryAndReturn : Prop :=
  ∀ (s u : State) (hid w : Nat) (h : Hart) (n : BitVec 10),
    (ScalarReady s hid h [] [] →
      (∀ f g, h.trapped = some f → s.unit? h.unit = some g →
        ∃ cause kind, 1 ≤ cause ∧ cause ≤ 0x14 ∧ kind < 16 ∧
          exec (.trap n) s = .next ((s.record g.vf (faultWords f.record.faddr 15 cause f.record.lanes g.vf (s.space g.vf) kind
            f.record.faddr (s.placeWord h))).endTask g.vf g.task .software 0)) ∧
      (h.trapped = none → s.fetchBytes hid h (s.vectorBase h + 100) 4 accRead = (u, .ok w) → u.hart? hid = some h →
        (w ≠ 0 → ∃ t k f, exec (.trap n) s = .next t ∧ t.hart? hid = some k ∧ k.pc = s.vectorBase h + 100 ∧
          k.getS 56 = ⟨h.pc + 4, false⟩ ∧ k.getS 57 = ⟨0x0000190000000000, false⟩ ∧ k.getS 58 = ⟨h.pc, false⟩ ∧
          k.getS 59 = ⟨n.zeroExtend 64, false⟩ ∧ k.getS 60 = ⟨0, false⟩ ∧ k.getS 61 = ⟨0, false⟩ ∧
          (∀ r : SReg, r.toNat < 56 ∨ 61 < r.toNat → k.getS r = h.getS r) ∧ k.trapped = some f ∧
          f.saved = [h.getS 56, h.getS 57, h.getS 58, h.getS 59, h.getS 60, h.getS 61]) ∧
        (∀ g c, w = 0 → u.unit? h.unit = some g → u.tcb? g.vf g.task = some c → u.jobCancelled g.vf c.job.toNat = false →
          u.harbourOk c.die = true →
          ∃ t c', exec (.trap n) s = .next t ∧ t.tcb? g.vf g.task = some c' ∧ c'.st = .faulted ∧ c'.fcode = 0x1900))) ∧
    (∀ t : LaneTrap, s.hart? hid = some h → h.laneTrap = some t → h.still = false → s.saved h = false → h.trapped = none →
      h.busy = false → h.wait = none → h.walk = none →
      (classNamed t.record.cls).code = t.record.cls.toNat →
      let vec := s.vectorBase h + BitVec.ofNat 64 (4 * t.record.cls.toNat)
      s.fetchBytes hid h vec 4 accRead = (u, .ok w) → u.hart? hid = some h → w ≠ 0 →
      ∃ v k, exec (.laneTrapDelivery hid) s = .next v ∧ v.hart? hid = some k ∧ k.pc = vec ∧ k.laneTrap = none ∧
        k.getS 56 = ⟨h.pc, false⟩ ∧ k.getS 57 = ⟨t.record.detail ++ t.record.cls ++ BitVec.ofBool t.record.lane ++
          BitVec.ofBool t.record.lretry ++ (0 : BitVec 6) ++ t.record.lanes, false⟩ ∧
        k.getS 58 = ⟨t.record.faddr, false⟩ ∧ k.getS 59 = ⟨t.record.arg0, false⟩ ∧ k.frozen = h.frozen) ∧
    (ScalarReady s hid h [] [] → h.trapped = none → exec .rte s = .next (s.nextPc hid)) ∧
    (ScalarReady s hid h [56, 57] [58, 59, 60, 61] →
      (∀ f a b c d e g, h.trapped = some f → f.saved = [a, b, c, d, e, g] →
        let x := (h.getS 57).val
        ∃ t k, exec .rte s = .next t ∧ t.hart? hid = some k ∧ k.pc = (h.getS 56).val &&& ~~~3 ∧ k.trapped = none ∧
          k.getS 56 = a ∧ k.getS 57 = b ∧ k.getS 58 = c ∧ k.getS 59 = d ∧ k.getS 60 = e ∧ k.getS 61 = g ∧
          (∀ r : SReg, r.toNat < 56 ∨ 61 < r.toNat → k.getS r = h.getS r) ∧
          k.frozen = (h.frozen && !x.getLsbD 39) ∧ k.wait = (if x.getLsbD 37 then f.waiting else none) ∧
          k.slot (!f.slot) = h.slot (!f.slot) ∧ (k.slot f.slot).off = (h.slot f.slot).off +
            if x.getLsbD 39 = true ∧ x.getLsbD 38 = false ∧ f.record.lane = true then 1 else 0))

/-- R199, R200, R14, R30 to R33: `csrr` returns each control register, settled but for FSTAT's PROP; `csrw` writes a
wave-scope register by its layout, and TROOT and its companions on a privileged wave alone: elsewhere it is the PRIV fault,
and a must-be-zero bit the CSRZ fault. `feat` returns FEAT0 and FEAT1. A `tlbi` of a wave that is not privileged is the PRIV
fault; of one that is, after its release, the scope's entries are gone and it waits for what still uses them. `halt` stops
the wave at the next word and sends its record. FSTAT is read and written after the floating atomics issued before (R164),
and no cached translation of an old TROOT is used again.
The model's readings or choices in it: log 6, 42, 52, 82, 90. -/
def Obligations.ControlRegistersInvalidationHalt : Prop :=
  (∀ (s : State) (hid : Nat) (h : Hart) (d a : SReg),
    let vf := s.hartVf h
    let x := (h.getS a).val
    let float := (s.openAtomics hid h).find? fun p => p.2.lane.isSome && p.2.op.floats
    (ScalarReady s hid h [] [d] →
      let reads (n : BitVec 10) (v : TV) : Prop := exec (.csrr d n) s = .next (s.result hid d v)
      (float = none → reads 0x000 ⟨h.fstat, h.fstat.getLsbD 6⟩) ∧
      (∀ p, float = some p → exec (.csrr d 0) s = .next (s.performNow hid p.1)) ∧ reads 0x001 ⟨h.wstat, false⟩ ∧
        reads 0x010 ⟨h.corrLimit, false⟩ ∧
      reads 0x011 ⟨h.corrKappa, false⟩ ∧ reads 0x012 ⟨h.corrOvf, false⟩ ∧ reads 0x020 ⟨(s.vfRegs vf).troot, false⟩ ∧
      reads 0x021 ⟨(s.vfRegs vf).tspace, false⟩ ∧ reads 0x030 ⟨(s.vfRegs vf).roleLow, false⟩ ∧
      reads 0x031 ⟨(s.vfRegs vf).roleHigh, false⟩ ∧ reads 0x032 ⟨(s.vfRegs vf).roleTime, false⟩ ∧
      exec (.feat d 0) s = .next (s.result hid d ⟨Config.feat0, false⟩) ∧
      exec (.feat d 1) s = .next (s.result hid d ⟨Config.feat1, false⟩) ∧
      ∀ c : BitVec 4, 2 ≤ c.toNat → exec (.feat d c) s = .next (s.illegal hid ⟨.select, true⟩)) ∧
    (ScalarReady s hid h [a] [] → h.Settled [a] →
      let own (n : BitVec 10) (k : Hart) : Prop := exec (.csrw a n) s = .next (s.putHart hid { k with pc := h.pc + 4 })
      let priv (n : BitVec 10) (bad : Bool) (u : State) : Prop :=
        (s.privileged h = false → exec (.csrw a n) s = .next (s.sysFault hid .csrWrite .priv 0)) ∧
        (s.privileged h = true → bad = true → exec (.csrw a n) s = .next (s.sysFault hid .csrWrite .csrz 0)) ∧
        (s.privileged h = true → bad = false → exec (.csrw a n) s = .next (u.nextPc hid))
      let set (r : VfRegs) : State := s.setVfRegs vf r
      (float = none → own 0x000 { h with fstat := x &&& 0x7F }) ∧
      (∀ p, float = some p → exec (.csrw a 0) s = .next (s.performNow hid p.1)) ∧ own 0x001 { h with wstat := x &&& 3 } ∧
      own 0x010 { h with corrLimit := x &&& 0xFF } ∧ own 0x011 { h with corrKappa := x } ∧
      own 0x012 { h with corrOvf := x &&& 1 } ∧
      priv 0x020 (x &&& 0xFFF0000000000FFE ≠ 0) ((set { s.vfRegs vf with troot := x }).invalidate vf .vf) ∧
      priv 0x021 (2 ^ 16 ≤ x.toNat) (set { s.vfRegs vf with tspace := x }) ∧
      priv 0x030 false (set { s.vfRegs vf with roleLow := x &&& 63 }) ∧
      priv 0x031 false (set { s.vfRegs vf with roleHigh := x &&& 63 }) ∧
      priv 0x032 false (set { s.vfRegs vf with roleTime := x &&& 0xFFFFFFFF }))) ∧
  ∀ (s : State) (hid : Nat) (h : Hart) (a : SReg),
    let vf := s.hartVf h
    let va := (h.getS a).val
    (ScalarReady s hid h [] [] → ∃ t, exec .halt s = .next t ∧
      t.hart? hid = some { h with halted := true, pc := h.pc + 4 } ∧ ((∀ die, s.harbourOk die = true) →
      ∃ id place, t.outbox = s.outbox ++ [.record vf [3, id, h.pc + 4, place]])) ∧
    (h.engine = .wave → s.privileged h = false →
      (ScalarReady s hid h [a] [] → exec (.tlbiVa a) s = .next (s.sysFault hid .tlbi .priv 0)) ∧
      (ScalarReady s hid h [] [] → exec .tlbiSpace s = .next (s.sysFault hid .tlbi .priv 0) ∧
        exec .tlbiVf s = .next (s.sysFault hid .tlbi .priv 0))) ∧
    (h.engine = .wave → s.privileged h = true → ∀ u, ReleaseDone s hid ⟨.rel, letterK⟩ u →
      let done (i : Instr) (sc : InvScope) (gone : TlbEntry → Prop) : Prop := ∃ t,
        t = (u.invalidate vf sc).waiting hid .tlbi ∧ exec i s = .next (t.tryTlbi hid) ∧
        (∀ e, e ∈ t.mem.tlb ↔ e ∈ u.mem.tlb ∧ ¬gone e) ∧ ∀ k, u.hart? hid = some k →
          ∀ v j, t.quiesce (t.hartVf k) = (v, true) → v.hart? hid = some j →
          t.tryTlbi hid = v.putHart hid { j with wait := none, pc := j.pc + 4 }
      (ScalarReady s hid h [a] [] → h.Settled [a] → (canonical va = true →
          done (.tlbiVa a) (.va va) fun e => e.hits vf (u.space vf) va = true) ∧
        (canonical va = false → exec (.tlbiVa a) s = .next (s.sysFault hid .tlbi .canon va))) ∧
      (ScalarReady s hid h [] [] → done .tlbiSpace .space (fun e => e.vf = vf ∧ e.space = some (u.space vf)) ∧
        done .tlbiVf .vf fun e => e.vf = vf))

/-! ### Lane words -/

/-- R202, R203, R206, R207, R209: the integer lane forms, element by element in the word's type: exact results clamped under
sat and wrapped otherwise, bitwise results, shifts by the count modulo the width, counts and the bit reversal of a 32- or
64-bit value, and the bit fields. Each is tagged by its sources, the shadow bit and a narrow type; only d of the executed
lanes changes. -/
def Obligations.LaneIntegerResults : Prop :=
  ∀ (s : State) (hid : Nat) (slot : Bool) (h : Hart) (w : LaneFields),
    let c := s.laneCtx hid h slot
    let n := w.ty.width
    let sh := (h.slot slot).shadow || w.ty.narrow
    let e (x : Val) (i : Nat) : BitVec n := BitVec.ofNat n (elemOf w.ty x.n i)
    let z (x : BitVec n) : Int := if w.ty.signed then x.toInt else x.toNat
    let low : Int := if w.ty.signed then -(2 ^ (n - 1) : Nat) else 0
    let high : Int := if w.ty.signed then (2 ^ (n - 1) : Nat) - 1 else (2 ^ n : Nat) - 1
    let fin (x : Int) : BitVec n := BitVec.ofInt n (if w.sat then max low (min high x) else x)
    let gives (i : Instr) (op : Nat) (f : Nat → Nat → BitVec n) (tag : Nat → Bool) : Prop :=
      LaneReadyFor op w s hid slot h → ∃ t v, exec i s = .next t ∧ LaneResult s hid slot h w.ty.pair w.d.toNat v 0 t ∧
        ∀ l ∈ lanesOf (h.live slot), (v l).tag = tag l ∧ ∀ j, j < w.ty.elems → e (v l) j = f l j
    let one (l : Nat) : Bool := (c.a w l).tag || sh
    let two (l : Nat) : Bool := (c.a w l).tag || (c.b w l).tag || sh
    let a (l j : Nat) : BitVec n := e (c.a w l) j
    let b (l j : Nat) : BitVec n := e (c.b w l) j
    let by' (l j : Nat) : Nat := (b l j).toNat % n
    gives (.add w) 0x01 (fun l j => fin (z (a l j) + z (b l j))) two ∧
    gives (.sub w) 0x02 (fun l j => fin (z (a l j) - z (b l j))) two ∧
    gives (.mul w) 0x03 (fun l j => fin (z (a l j) * z (b l j))) two ∧
    gives (.mulh w) 0x04 (fun l j => BitVec.ofInt n ((z (a l j) * z (b l j)) / (2 ^ n : Nat))) two ∧
    gives (.mad w) 0x05 (fun l j => fin (z (a l j) * z (b l j) + z (e (c.c w l) j))) (fun l => two l || (c.c w l).tag) ∧
    gives (.and w) 0x06 (fun l j => a l j &&& b l j) two ∧
    gives (.or w) 0x07 (fun l j => a l j ||| b l j) two ∧
    gives (.xor w) 0x08 (fun l j => a l j ^^^ b l j) two ∧
    gives (.shl w) 0x09 (fun l j => a l j <<< by' l j) two ∧
    gives (.shr w) 0x0A (fun l j => a l j >>> by' l j) two ∧
    (w.ty.signed = true → gives (.sra w) 0x0B (fun l j => (a l j).sshiftRight (by' l j)) two) ∧
    gives (.min w) 0x0C (fun l j => if z (a l j) ≤ z (b l j) then a l j else b l j) two ∧
    gives (.max w) 0x0D (fun l j => if z (a l j) ≤ z (b l j) then b l j else a l j) two ∧
    gives (.abs w) 0x0E (fun l j => fin (z (a l j)).natAbs) one ∧
    (32 ≤ n →
      gives (.pop w) 0x13 (fun l j => BitVec.ofNat n ((List.range n).filter (a l j).getLsbD).length) one ∧
      gives (.brev w) 0x14 (fun l j => (a l j).reverse) one ∧
      (LaneReadyFor 0x12 w s hid slot h → ∃ t v, exec (.clz w) s = .next t ∧
        LaneResult s hid slot h w.ty.pair w.d.toNat v 0 t ∧ ∀ l ∈ lanesOf (h.live slot), (v l).tag = one l ∧
          (v l).n ≤ n ∧ (∀ i, n - (v l).n ≤ i → (a l 0).getLsbD i = false) ∧
          ((v l).n < n → (a l 0).getLsbD (n - 1 - (v l).n) = true)) ∧
      let o (l : Nat) : Nat := (c.b w l).n % 256
      let g (l : Nat) : Nat := min ((c.b w l).n / 256 % 256) (n - o l)
      let empty (l : Nat) : Prop := (c.b w l).n / 256 % 256 = 0 ∨ n ≤ o l
      let old (l : Nat) : Val := h.laneVal w.ty.pair w.d.toNat l
      (LaneReadyFor 0x10 w s hid slot h → ∃ t v, exec (.bfx w) s = .next t ∧
        LaneResult s hid slot h w.ty.pair w.d.toNat v 0 t ∧ ∀ l ∈ lanesOf (h.live slot), (v l).tag = two l ∧
          (empty l → (v l).n = 0) ∧ (¬empty l → ∀ i, i < n → (v l).n.testBit i =
            if i < g l then (c.a w l).n.testBit (o l + i) else w.ty.signed && (c.a w l).n.testBit (o l + g l - 1))) ∧
      (LaneReadyFor 0x11 w s hid slot h → ∃ t v, exec (.bfi w) s = .next t ∧
        LaneResult s hid slot h w.ty.pair w.d.toNat v 0 t ∧ ∀ l ∈ lanesOf (h.live slot), (empty l → v l = old l) ∧
          (¬empty l → (v l).tag = ((c.a w l).tag || (c.b w l).tag || (old l).tag || (h.slot slot).shadow) ∧
            ∀ i, i < n → (v l).n.testBit i =
              if o l ≤ i ∧ i < o l + g l then (c.a w l).n.testBit (i - o l) else (old l).n.testBit i)))

/-- R202, R205, R210 to R212, R214, R215, R162, R163: the floating lane forms, element by element: the exact value of the
modified operands rounded once in the word's mode, the maximum instead of an infinity by overflow under sat; `fmin`, `fmax`
and `frnd` exactly. The FSTAT bits met in any executed lane are set, and PROP with them when a result is a proposal. The
special functions give the rows of their table, exact powers of two, integers and half integers, and keep their symmetries.
The model's readings or choices in it: log 42, 88. -/
def Obligations.LaneFloatResults : Prop :=
  ∀ (s : State) (hid : Nat) (slot : Bool) (h : Hart) (w : LaneFields),
    let c := s.laneCtx hid h slot
    let sh := (h.slot slot).shadow || w.ty.narrow
    let x (l j : Nat) : FVal := (w.ty.value (elemOf w.ty (c.a w l).n j)).modify w.nega w.absa
    let y (l j : Nat) : FVal := (w.ty.value (elemOf w.ty (c.b w l).n j)).modify w.negb w.absb
    let z (l j : Nat) : FVal := w.ty.value (elemOf w.ty (c.c w l).n j)
    let once (fin : Bool) (v : FVal × Stat) : FVal × Stat :=
      let r := w.ty.fmt.round w.rnd v.1
      (if w.sat && fin && r.1.isInf && r.2 &&& stOF ≠ 0 then w.ty.fmt.max r.1.sign else r.1, v.2 ||| r.2)
    let given (i : Instr) (op : Nat) (f : Nat → Nat → FVal × Stat) (tag : Nat → Bool) : Prop :=
      LaneReadyFor op w s hid slot h → ∃ t v st, exec i s = .next t ∧
        LaneResult s hid slot h w.ty.pair w.d.toNat v st t ∧
        (∀ l ∈ lanesOf (h.live slot), (v l).tag = tag l ∧ ∀ j, j < w.ty.elems →
          elemOf w.ty (v l).n j = w.ty.image (f l j).1 % 2 ^ w.ty.width) ∧
        ∀ b, b < 6 → (st.getLsbD b = true ↔ ∃ l ∈ lanesOf (h.live slot), ∃ j, j < w.ty.elems ∧ (f l j).2.getLsbD b = true)
    let one (l : Nat) : Bool := (c.a w l).tag || sh
    let two (l : Nat) : Bool := (c.a w l).tag || (c.b w l).tag || sh
    let both (l j : Nat) : Bool := (x l j).isFin && (y l j).isFin
    given (.fadd w) 0x20 (fun l j => once (both l j) (FVal.add w.rnd (x l j) (y l j))) two ∧
    given (.fsub w) 0x21 (fun l j => once (both l j) (FVal.add w.rnd (x l j) (y l j).negate)) two ∧
    given (.fmul w) 0x22 (fun l j => once (both l j) ((x l j).mul (y l j))) two ∧
    given (.fma w) 0x23 (fun l j => once (both l j && (z l j).isFin) (FVal.fma w.rnd (x l j) (y l j) (z l j)))
      (fun l => two l || (c.c w l).tag) ∧
    given (.fmin w) 0x24 (fun l j => ((x l j).min (y l j), 0)) two ∧
    given (.fmax w) 0x25 (fun l j => ((x l j).max (y l j), 0)) two ∧
    given (.fdiv w) 0x27 (fun l j => once (both l j) ((x l j).div (y l j))) two ∧
    given (.fsqrt w) 0x28 (fun l j => once false (x l j).sqrt) one ∧
    given (.fexp2 w) 0x29 (fun l j => fexp2Of w.rnd (x l j)) one ∧
    given (.flog2 w) 0x2A (fun l j => flog2Of w.rnd (x l j)) one ∧
    given (.frcp w) 0x2B (fun l j => frcpOf w.rnd (x l j)) one ∧
    given (.frsq w) 0x2C (fun l j => frsqOf w.rnd (x l j)) one ∧
    given (.fsinpi w) 0x2D (fun l j => fsinpiOf w.rnd (x l j)) one ∧
    given (.fcospi w) 0x2E (fun l j => fcospiOf w.rnd (x l j)) one ∧
    given (.ftanh w) 0x2F (fun l j => ftanhOf w.rnd (x l j)) one ∧
    given (.frnd w) 0x31 (fun l j => ((x l j).integral w.rnd, 0)) one ∧
    (32 ≤ w.ty.width →
      given (.fscale w) 0x32 (fun l j => once (x l j).isFin ((x l j).scale (signedOf 32 (c.b32 .i32 w l).n), 0))
        (fun l => one l || (c.b32 .i32 w l).tag) ∧
      (LaneReadyFor 0x30 w s hid slot h → ∃ t v, exec (.fclass w) s = .next t ∧
        LaneResult s hid slot h false w.d.toNat v 0 t ∧ ∀ l ∈ lanesOf (h.live slot),
          (v l).tag = ((c.a w l).tag || (h.slot slot).shadow) ∧
          let f := w.ty.value (c.a w l).n
          (f = .nan → (v l).n = 256) ∧ (f = .inf true → (v l).n = 1) ∧ (f = .inf false → (v l).n = 128) ∧
          ∀ neg m e, f = .fin neg m e → (v l).n = if m = 0 then (if neg then 8 else 16)
            else if f.abs.lt (.fin false 1 (1 - (w.ty.fmt.bias : Int))) then (if neg then 4 else 32)
            else if neg then 2 else 64)) ∧
    ∀ md, SpecialResults md

/-- R156 to R160, R166 to R172, R203: `cvt` converts each element of its source registers into the next element of its
destination registers; `qscl`, `qpack`, `qunp` and `qspare` of every executed lane, by the scale and spare of their
register. A narrow type makes a proposal; `qscl` neither reads nor writes a narrow value. A conversion takes the table's row
of its target: NaNs, infinities, overflow, zeros, and an integer's rounding and clamp; a scale, an element and a spare are
as the rules' text and worked example give them.
The model's readings or choices in it: log 39, 42. -/
def Obligations.LaneConversionResults : Prop :=
  ∀ (s : State) (hid : Nat) (slot : Bool) (h : Hart) (w : LaneFields),
    let c := s.laneCtx hid h slot
    let sh := (h.slot slot).shadow
    let u := type2 w
    let a (i l : Nat) : Val := h.laneVal false (w.a.toNat + i) l
    let sc (l : Nat) : Nat := (c.src false w.kb w.b l).n % 256
    let sp (l : Nat) : Nat := (c.src false w.kb w.b l).n / 256 % 256
    let set (st : Stat) (f : Nat → Nat → Stat) (n : Nat) : Prop := ∀ b, b < 6 →
      (st.getLsbD b = true ↔ ∃ l ∈ lanesOf (h.live slot), ∃ j, j < n ∧ (f l j).getLsbD b = true)
    let gives (i : Instr) (op : Nat) (f : Nat → Nat × Stat) (tag : Nat → Bool) : Prop :=
      LaneReadyFor op w s hid slot h → ∃ t v st, exec i s = .next t ∧ LaneResult s hid slot h false w.d.toNat v st t ∧
        (∀ l ∈ lanesOf (h.live slot), v l = ⟨(f l).1 % 2 ^ 32, tag l⟩) ∧ set st (fun l _ => (f l).2) 1
    let moved (k : Hart) : Prop := k.slot slot = { h.slot slot with off := (h.slot slot).off + 1 }
    gives (.qscl w) 0x41 (fun l => qsclOf w.ty (LType.f32.value (a 0 l).n).abs) (fun l => (a 0 l).tag || sh) ∧
    gives (.qspare w) 0x44 (fun l => let r := qspareOf w.rnd w.sat (sc l) (LType.f32.value (a 0 l).n)
      (r.1 * 256 + sc l, r.2)) (fun _ => true) ∧
    (LaneReadyFor 0x42 w s hid slot h → ∃ t v st, exec (.qpack w) s = .next t ∧
      LaneResult s hid slot h false w.d.toNat v st t ∧
      let f (l j : Nat) : Nat × Stat := qpackOf w.ty w.rnd w.sat (sc l) (sp l) (LType.f32.value (a j l).n)
      (∀ l ∈ lanesOf (h.live slot), (v l).tag = true ∧ ∀ j, j < w.ty.elems →
        elemOf w.ty (v l).n j = (f l j).1 % 2 ^ w.ty.width) ∧ set st (fun l j => (f l j).2) w.ty.elems) ∧
    (LaneReadyFor 0x43 w s hid slot h → ∃ t k st, exec (.qunp w) s = .next t ∧ t.hart? hid = some k ∧ moved k ∧
      let f (l j : Nat) : Nat × Stat := qunpOf u w.rnd w.sat (sc l) (sp l) (elemOf u (a 0 l).n j)
      LaneFrame s hid slot h ((lanesOf (h.live slot)).flatMap fun l => (List.range u.elems).map fun j => (w.d.toNat + j, l))
        [] t ∧ k.fstat = fstatAfter h st (decide (h.live slot ≠ 0)) ∧ set st (fun l j => (f l j).2) u.elems ∧
      ∀ l ∈ lanesOf (h.live slot), ∀ j, j < u.elems → k.laneVal false (w.d.toNat + j) l = ⟨(f l j).1 % 2 ^ 32, true⟩) ∧
    (LaneReadyFor 0x40 w s hid slot h →
      let ty := w.ty
      let n := max 1 (32 / min ty.width u.width)
      let from' (l i : Nat) : Val :=
        h.laneVal u.pair (w.a.toNat + if u.pair then 2 * (i / u.elems) else i / u.elems) l
      let f (l i : Nat) : Nat × Stat := convert u ty w.rnd w.sat (elemOf u (from' l i).n (i % u.elems))
      let tag (l : Nat) : Bool := (List.range n).any (fun i => (from' l i).tag) || sh || ty.narrow || u.narrow
      let reg (i : Nat) : Nat := w.d.toNat + if ty.pair then 2 * (i / ty.elems) else i / ty.elems
      ∃ t k st, exec (.cvt w) s = .next t ∧ t.hart? hid = some k ∧ moved k ∧
        LaneFrame s hid slot h ((List.range n).flatMap fun i => destRegs ty.pair (reg i) (lanesOf (h.live slot))) [] t ∧
        k.fstat = fstatAfter h st ((lanesOf (h.live slot)).any tag) ∧ set st (fun l j => (f l j).2) n ∧
        ∀ l ∈ lanesOf (h.live slot), ∀ i, i < n → (k.laneVal ty.pair (reg i) l).tag = tag l ∧
          elemOf ty (k.laneVal ty.pair (reg i) l).n (i % ty.elems) = (f l i).1 % 2 ^ ty.width) ∧
    ∀ md sat, QuantResults md sat ∧ (∀ r ∈ formatRows, FloatTarget r md sat) ∧
      (∀ t : LType, t.isInt = true → IntTarget t md sat) ∧
      (∀ src dst code, src.isInt = true → dst.isInt = true → sat = false → convert src dst md sat code =
        (wrap dst.width (src.intValue code), 0)) ∧
      (∀ src dst code, src.isInt = true → dst.isInt = true → sat = true → convert src dst md sat code =
        (wrap dst.width (max dst.minInt (min dst.maxInt (src.intValue code))), 0)) ∧
      (∀ src dst code, src.isInt = false → dst.isInt = true → convert src dst md sat code =
        (wrap dst.width (convToInt dst md sat (src.value code)).1, (convToInt dst md sat (src.value code)).2)) ∧
      (∀ src dst code, dst.isInt = false →
        let y := convFloat dst md sat (if src.isInt then FVal.ofInt (src.intValue code) else src.value code)
        convert src dst md sat code = (dst.image y.1, y.2)) ∧
      convert .i32 .n32 md true 0xFFFFFFFB = (0, 0) ∧ convert .n64 .i64 md true (2 ^ 63) = (2 ^ 63 - 1, 0) ∧
      convert .i8 .n32 md true 0xFB = (0, 0) ∧ convert .e2m1 .f32 md sat 8 = (0x80000000, 0) ∧
      convert .e8m0 .f32 md sat 0xFF = (0x7FC00000, 0)

/-- R202, R208, R213, R216, R217, R221, R281: `cmp` and `fcmp` write the bit of their condition, a NaN making every `fcmp`
condition but ne and un false; the mask operations, `mmov`, `vote` and `ptst` write the executed lanes' bits and tags; `sel`
takes the tag of the source it chooses and of its selector bit. `vote.ballot` pushes the selector's executed lanes onto the
FIFO and stalls while it is full; in a walker's body it takes the walker trap, cause FORM. `pchk` goes on when no executed
lane's operand is a proposal, else takes the tag trap.
The model's readings or choices in it: log 41, 43. -/
def Obligations.LaneMasksAndTests : Prop :=
  ∀ (s : State) (hid : Nat) (slot : Bool) (h : Hart) (w : LaneFields),
    let c := s.laneCtx hid h slot
    let sh := (h.slot slot).shadow
    let m := h.getM w.msel.toNat
    let q := h.getM w.a.toNat
    let x (l : Nat) : Val := c.a w l
    let y (l : Nat) : Val := c.b w l
    let P := lanesOf (h.live slot)
    let sub := w.aux.toNat % 4
    let mask (i : Instr) (op : Nat) (f : Nat → Bool × Bool) : Prop := LaneReadyFor op w s hid slot h →
      ∃ t, exec i s = .next t ∧ LaneMaskResult s hid slot h w.d.toNat f t
    let reg (i : Instr) (op : Nat) (f : Nat → Val) : Prop := LaneReadyFor op w s hid slot h →
      ∃ t, exec i s = .next t ∧ LaneResult s hid slot h w.ty.pair w.d.toNat f 0 t
    let z (n : Nat) : Int := if w.ty.signed then (BitVec.ofNat w.ty.width n).toInt else n % 2 ^ w.ty.width
    let u (l : Nat) : FVal := (w.ty.value (x l).n).modify w.nega w.absa
    let v (l : Nat) : FVal := (w.ty.value (y l).n).modify w.negb w.absb
    let nan (l : Nat) : Bool := (u l).isNaN || (v l).isNaN
    let xy (l : Nat) : Bool := (x l).tag || (y l).tag || sh
    (∀ cc : Nat, w.aux.toNat % 8 = cc → cc < 6 → mask (.cmp w) 0x0F fun l => (
      if cc = 0 then z (x l).n = z (y l).n else if cc = 1 then z (x l).n ≠ z (y l).n
      else if cc = 2 then z (x l).n < z (y l).n else if cc = 3 then z (y l).n ≤ z (x l).n
      else if cc = 4 then z (x l).n ≤ z (y l).n else z (y l).n < z (x l).n, xy l)) ∧
    (∀ cc : Nat, w.aux.toNat % 8 = cc → mask (.fcmp w) 0x26 fun l => (
      if cc = 0 then !nan l && (u l).eqv (v l) else if cc = 1 then nan l || !(u l).eqv (v l)
      else if cc = 2 then !nan l && (u l).lt (v l) else if cc = 3 then !nan l && !(u l).lt (v l)
      else if cc = 4 then !nan l && !(v l).lt (u l) else if cc = 5 then !nan l && (v l).lt (u l)
      else if cc = 6 then nan l else !nan l, xy l)) ∧
    mask (.mand w) 0x49 (fun l => (q.bit l && m.bit l, q.tag l || m.tag l || sh)) ∧
    mask (.mor w) 0x4A (fun l => (q.bit l || m.bit l, q.tag l || m.tag l || sh)) ∧
    mask (.mxor w) 0x4B (fun l => (q.bit l != m.bit l, q.tag l || m.tag l || sh)) ∧
    mask (.mnot w) 0x4C (fun l => (!m.bit l, m.tag l || sh)) ∧
    (sub = 0 → mask (.mmov w) 0x4D fun l => (m.bit l, m.tag l || sh)) ∧
    (sub = 1 → mask (.mmov w) 0x4D fun l => (decide ((x l).n ≠ 0), (x l).tag || sh)) ∧
    (sub = 2 → reg (.mmov w) 0x4D fun l => ⟨if m.bit l then 1 else 0, m.tag l || sh⟩) ∧
    (w.ty.width = 32 ∨ w.ty.width = 64 → (w.imm = true → w.ty = .b32 ∨ w.ty = .b64) →
      reg (.sel w) 0x48 fun l => if m.bit l then ⟨(x l).n, (x l).tag || m.tag l || sh⟩
        else ⟨(y l).n, (y l).tag || m.tag l || sh⟩) ∧
    (sub = 0 → mask (.vote w) 0x52 fun _ => (P.all m.bit, P.any m.tag || sh)) ∧
    (sub = 1 → mask (.vote w) 0x52 fun _ => (P.any m.bit, P.any m.tag || sh)) ∧
    (sub = 2 → h.walking = false → P ≠ [] → LaneReadyFor 0x52 w s hid slot h →
      (8 ≤ h.fifo.length → exec (.vote w) s = .next s) ∧
      (h.fifo.length < 8 → ∃ x : Word, exec (.vote w) s = .next (s.putHart hid ({ h with fifo := h.fifo ++
        [(⟨x, P.any m.tag || sh⟩ : TV)] }.laneNext slot)) ∧ ∀ l, x.getLsbD l = (decide (l ∈ P) && m.bit l))) ∧
    (sub = 2 → h.walking = true → P ≠ [] → LaneReadyFor 0x52 w s hid slot h →
      ∃ ls, exec (.vote w) s = .next (s.walkTrap hid .walker 1 ls) ∧ ∀ l, l < 32 → (ls.getLsbD l = true ↔ l ∈ P)) ∧
    (sub = 2 → P = [] → LaneReadyFor 0x52 w s hid slot h → exec (.vote w) s = .next (s.putHart hid (h.laneNext slot))) ∧
    let wide (l : Nat) : WideReg := h.wide (wideBase (s.declared h) w.a.toNat) l
    let tested (l : Nat) : Bool :=
      if sub = 0 then (x l).tag else if sub = 1 then q.tag l else (wide l).xt || (wide l).sh
    mask (.ptst w) 0x75 (fun l => (tested l, sh)) ∧
    (LaneReadyFor 0x76 w s hid slot h →
      ((∀ l ∈ P, tested l = false) → exec (.pchk w) s = .next (s.putHart hid (h.laneNext slot))) ∧
      ((∃ l ∈ P, tested l = true) → ∃ ls, exec (.pchk w) s = .next (s.laneTrap hid slot .tag 1 false ls 0) ∧
        ∀ l, l < 32 → (ls.getLsbD l = true ↔ l ∈ P ∧ tested l = true)))

/-- R202, R218 to R227, R118, R125, R127, R43: a shuffle or permute gives each executed lane the value of the lane it names,
as it was before the word, a dead one 0, a proposal, with DEADSRC; of a lane of the other slot it is the value at some
moment since the split, for each lane read on its own. An integer `redu` or `scan` gives the sum, least, greatest or bitwise
combination of the executed lanes (of those up to, or before, each lane), and a floating one that of the fixed tree, whose
every addition sets FSTAT; `redu` to the FIFO pushes it, or stalls on a full FIFO, and in a walker's body takes the walker
trap, cause FORM; `srd` gives the special value; `movx` and `movxd` reach the register each lane's index names, or take the
register trap with the lanes whose index is out of range.
The model's readings or choices in it: log 42, 43, 103. -/
def Obligations.LaneCrossResults : Prop :=
  ∀ (s : State) (hid : Nat) (slot : Bool) (h : Hart) (w : LaneFields), s.mem.upsets = [] → h.ended = none →
    let c := s.laneCtx hid h slot
    let sh := (h.slot slot).shadow
    let P := lanesOf (h.live slot)
    let wide := w.ty.pair
    let n := w.ty.width
    let reg (f : Bool) (ks : Bool) (x : BitVec 10) (l : Nat) : Val := c.src f ks x l
    let apart (l : Nat) : Prop := h.older ≠ [] ∧ (h.slot !slot).mask.getLsbD l = true
    let from' (ks : Bool) (x : BitVec 10) (age : Nat → Nat) (l : Nat) : Val := if h.m0.getLsbD l = false then ⟨0, true⟩
      else if ks = false ∧ apart l then h.laneWas (age l) wide x.toNat l else reg wide ks x l
    let gather (i : Instr) (op : Nat) (v : (Nat → Nat) → Nat → Val) (dead : Prop) : Prop := LaneReadyFor op w s hid slot h →
      ∃ t k, exec i s = .next t ∧ t.hart? hid = some k ∧
        (∃ age : Nat → Nat, (∀ l, age l ≤ (h.older.headD []).length) ∧ ∀ l ∈ P, k.laneVal wide w.d.toNat l = v age l) ∧
        LaneFrame s hid slot h (destRegs wide w.d.toNat P) [] { t with free := s.free } ∧
        (h.older = [] → t.free = s.free) ∧ k.fstat = h.fstat ∧
        (dead → k.wstat = h.wstat ||| 1) ∧ (¬dead → k.wstat = h.wstat)
    let idx (l : Nat) : Nat := (if w.imm then w.imm16.toNat else (reg false w.kb w.b l).n) % 32
    let by' (l : Nat) : Bool := if w.imm then false else (reg false w.kb w.b l).tag
    let mode := w.aux.toNat % 4
    let src (l : Nat) : Nat := if mode = 0 then idx l else if mode = 1 then (if idx l ≤ l then l - idx l else l)
      else if mode = 2 then (if l + idx l < 32 then l + idx l else l) else l ^^^ idx l
    gather (.shfl w) 0x50 (fun age l => let v := from' w.ka w.a age (src l); ⟨v.n, v.tag || by' l || sh⟩)
      (∃ l ∈ P, h.m0.getLsbD (src l) = false) ∧
    gather (.perm w) 0x51 (fun age l =>
        let j := (reg false w.kc w.c l).n % 64
        let v := if j < 32 then from' w.ka w.a age j
          else if w.imm then (if h.m0.getLsbD (j - 32) then ⟨immValue w.ty w.imm16, false⟩ else ⟨0, true⟩)
          else from' w.kb w.b age (j - 32)
        ⟨v.n, v.tag || (reg false w.kc w.c l).tag || sh⟩)
      (∃ l ∈ P, h.m0.getLsbD ((reg false w.kc w.c l).n % 32) = false) ∧
    (let z (x : Nat) : Int := if w.ty.signed then (BitVec.ofNat n x).toInt else x % 2 ^ n
     let op := w.aux.toNat % 16
     let low : Int := if w.ty.signed then -(2 ^ (n - 1) : Nat) else 0
     let high : Int := if w.ty.signed then (2 ^ (n - 1) : Nat) - 1 else (2 ^ n : Nat) - 1
     let total (Q : List Nat) (r : Nat) : Prop := r < 2 ^ n ∧
       if op = 0 then r = (Q.map fun l => (c.a w l).n).sum % 2 ^ n
       else if op = 1 then (∀ l ∈ Q, z r ≤ z (c.a w l).n) ∧ ((Q = [] ∧ z r = high) ∨ ∃ l ∈ Q, r = (c.a w l).n)
       else if op = 2 then (∀ l ∈ Q, z (c.a w l).n ≤ z r) ∧ ((Q = [] ∧ z r = low) ∨ ∃ l ∈ Q, r = (c.a w l).n)
       else ∀ i, i < n → r.testBit i = if op = 3 then Q.all (fun l => (c.a w l).n.testBit i)
         else if op = 4 then Q.any fun l => (c.a w l).n.testBit i
         else ((Q.filter fun l => (c.a w l).n.testBit i).length % 2 = 1)
     let tag (Q : List Nat) : Bool := Q.any (fun l => (c.a w l).tag) || sh
     let full := w.aux.getLsbD 4
     32 ≤ n → w.ty.isFloat = false →
       (full = false → LaneReadyFor 0x53 w s hid slot h → ∃ t v, exec (.redu w) s = .next t ∧
         LaneResult s hid slot h wide w.d.toNat v 0 t ∧ ∀ l ∈ P, (v l).tag = tag P ∧ total P (v l).n) ∧
       (full = true → h.walking = false → LaneReadyFor 0x53 w s hid slot h →
         (8 ≤ h.fifo.length → exec (.redu w) s = .next s) ∧
         (h.fifo.length < 8 → ∃ (x : Word), exec (.redu w) s = .next (s.putHart hid
           ({ h with fifo := h.fifo ++ [(⟨x, tag P⟩ : TV)] }.laneNext slot)) ∧ total P x.toNat)) ∧
       (LaneReadyFor 0x54 w s hid slot h → ∃ t v, exec (.scan w) s = .next t ∧
         LaneResult s hid slot h wide w.d.toNat v 0 t ∧ ∀ l ∈ P,
           let Q := P.filter fun p => if full then p < l else p ≤ l
           (v l).tag = tag Q ∧ total Q (v l).n)) ∧
    (w.ty = .f32 ∨ w.ty = .f64 → w.aux.toNat % 16 < 3 →
      let op := w.aux.toNat % 16
      let full := w.aux.getLsbD 4
      let sum (x y : Nat) : FVal × Stat :=
        let r := FVal.add w.rnd (w.ty.value x) (w.ty.value y)
        let q := w.ty.fmt.round w.rnd r.1
        (q.1, r.2 ||| q.2)
      let f (x y : Nat) : Nat := w.ty.image (if op = 0 then (sum x y).1
        else if op = 1 then (w.ty.value x).min (w.ty.value y) else (w.ty.value x).max (w.ty.value y))
      let x (l : Nat) : Option Val := if l ∈ P then some (c.a w l) else none
      let one : Val := ⟨w.ty.image (if op = 0 then .fin false 0 0 else .inf (decide (op = 2))), false⟩
      let at' (p : Nat) : Val := (treeValue f x 5 p).getD one
      let status (st : Stat) : Prop := ∀ b, b < 6 → (st.getLsbD b = true ↔ op = 0 ∧ ∃ k < 5, ∃ p < 32, 2 ^ k ≤ p ∧
        ∃ u v, treeValue f x k (p - 2 ^ k) = some u ∧ treeValue f x k p = some v ∧ (sum u.n v.n).2.getLsbD b = true)
      ∃ st, status st ∧
        (full = false → LaneReadyFor 0x53 w s hid slot h → ∃ t v, exec (.redu w) s = .next t ∧
          LaneResult s hid slot h wide w.d.toNat v st t ∧ ∀ l ∈ P, v l = ⟨(at' 31).n % 2 ^ n, (at' 31).tag || sh⟩) ∧
        (full = true → h.walking = false → LaneReadyFor 0x53 w s hid slot h →
          (8 ≤ h.fifo.length → exec (.redu w) s = .next s) ∧
          (h.fifo.length < 8 → exec (.redu w) s = .next (s.putHart hid
            ({ h with fifo := h.fifo ++ [(⟨BitVec.ofNat 64 (at' 31).n, (at' 31).tag || sh⟩ : TV)],
                      fstat := fstatAfter h st ((at' 31).tag || sh) }.laneNext slot)))) ∧
        (LaneReadyFor 0x54 w s hid slot h → ∃ t v, exec (.scan w) s = .next t ∧
          LaneResult s hid slot h wide w.d.toNat v st t ∧ ∀ l ∈ P,
            let r := if full = false then at' l else if l = 0 then one else at' (l - 1)
            v l = ⟨r.n % 2 ^ n, r.tag || sh⟩)) ∧
    (w.aux.getLsbD 4 = true → h.walking = true → P ≠ [] → LaneReadyFor 0x53 w s hid slot h →
      ∃ ls, exec (.redu w) s = .next (s.walkTrap hid .walker 1 ls) ∧ ∀ l, l < 32 → (ls.getLsbD l = true ↔ l ∈ P)) ∧
    (LaneReadyFor 0x55 w s hid slot h → w.aux.toNat % 16 < 7 → (w.aux.toNat % 16 = 0 → w.ty = .b64) →
      (w.aux.toNat % 16 ≠ 0 → w.ty = .b32) → ∃ t v, exec (.srd w) s = .next t ∧
        LaneResult s hid slot h wide w.d.toNat v 0 t ∧ ∀ l ∈ P, (v l).tag = sh ∧ (v l).n =
          let k := w.aux.toNat % 16
          if k = 0 then s.time.toNat else (if k = 1 then h.index else if k = 2 then h.gang else if k = 3 then h.coreNo
            else if k = 4 then h.cluster else if k = 5 then h.die else l) % 2 ^ 32) ∧
    (let i (l : Nat) : Nat := (reg false w.ka w.a l).n + w.imm16.toNat
     let bad (l : Nat) : Prop := s.declared h ≤ i l ∨ (wide = true ∧ i l % 2 = 1)
     h.absent = [] → h.loads = [] → h.storeQ = [] → s.mem.flights = [] →
       ((∃ l ∈ P, bad l) → ∃ ls x, (∀ l, l < 32 → (ls.getLsbD l = true ↔ l ∈ P ∧ bad l)) ∧
         (∃ l ∈ P, bad l ∧ i l = x) ∧ (∀ l ∈ P, bad l → x ≤ i l) ∧
         (LaneReadyFor 0x56 w s hid slot h → exec (.movx w) s =
           .next (s.laneTrap hid slot .register 0 true ls (BitVec.ofNat 64 x))) ∧
         (LaneReadyFor 0x57 w s hid slot h → exec (.movxd w) s =
           .next (s.laneTrap hid slot .register 0 true ls (BitVec.ofNat 64 x)))) ∧
       ((∀ l ∈ P, ¬bad l) →
         (LaneReadyFor 0x56 w s hid slot h → ∃ t, exec (.movx w) s = .next t ∧
           LaneResult s hid slot h wide w.d.toNat (fun l => ⟨(h.laneVal wide (i l) l).n,
             (h.laneVal wide (i l) l).tag || (reg false w.ka w.a l).tag || sh⟩) 0 t) ∧
         (LaneReadyFor 0x57 w s hid slot h → w.imm = false → ∃ t k, exec (.movxd w) s = .next t ∧ t.hart? hid = some k ∧
           LaneFrame s hid slot h (P.flatMap fun l => destRegs wide (i l) [l]) [] t ∧
           ∀ l ∈ P, k.laneVal wide (i l) l = ⟨(c.b w l).n, (c.b w l).tag || (reg false w.ka w.a l).tag || sh⟩)))

/-- R231 to R237, R90, R49: a lane's address is base + index × scale + offset, aligned down to the access; the lanes are the
executed ones that the guard names. A load or tag read that passes its checks issues one operation counted in ld, and the
slot moves on; with ld full it stalls. When a lane's load returns, its register holds the bytes, extended by its type, with
the sector's tag or its address's, and nothing else of the hart changes. -/
def Obligations.LaneLoads : Prop :=
  (∀ (s : State) (hid : Nat) (slot : Bool) (h : Hart) (w : LaneFields) (cluster : Bool) (size l : Nat),
    let c := s.laneCtx hid h slot
    let base : Word := BitVec.ofNat 64 (c.src (!cluster) w.ka w.a l).n
    let index : BitVec 32 := if w.imm then 0 else BitVec.ofNat 32 (c.src false w.kb w.b l).n
    let at' := base + (index.signExtend 64 <<< (w.aux.toNat / 512)) + w.imm16.signExtend 64
    let ea := c.ea w cluster size l
    (0 < size → ea.toNat % size = 0 ∧ ea.toNat ≤ at'.toNat ∧ at'.toNat < ea.toNat + size) ∧
    (l ∈ c.memLanes w ↔ l < 32 ∧ (h.live slot).getLsbD l = true ∧ (h.getM w.msel.toNat).bit l = true)) ∧
  (∀ (s u : State) (hid : Nat) (slot : Bool) (h : Hart) (w : LaneFields) (accs : List LaneAcc),
    h.walking = false →
    let c := s.laneCtx hid h slot
    let tagread : LoadForm := if w.aux.toNat / 128 % 4 = 0 then .tagP else .tagX
    let e := w.ty.width / 8
    let issues (i : Instr) (op : Nat) (form : LoadForm) (cluster : Bool) (kind : AccessKind) : Prop :=
      LaneReadyFor op w s hid slot h → (h.full .ld = true → exec i s = .next (s.stallsOn hid false .ld)) ∧
        (h.full .ld = false → s.memCheck c w cluster (e * memCount op w) accRead kind (fun _ => false) = (u, some accs) →
          let r := u.issueLoad hid true fun id => ⟨id, form, accs, e, memCount op w, w.ty.signed, w.d.toNat,
            if w.ord.str = .acq then some w.ord.obs else none, h.laneAddr slot, kind, [], 0, .walker⟩
          exec i s = .next (if w.ord.str = .acq then ((r.1.laneNext hid slot).performLoad hid r.2).1
            else r.1.laneNext hid slot))
    issues (.ld w) 0x58 .ld false .laneLoad ∧ issues (.ldd w) 0x5A .ldd false .laneDirect ∧
    issues (.ldc w) 0x5C .ldc true .laneDirect ∧ issues (.tagrd w) 0x61 tagread false .laneLoad) ∧
  (∀ (s : State) (hid : Nat) (slot : Bool) (h : Hart) (w : LaneFields), LaneReadyFor 0x60 w s hid slot h → h.loads = [] →
    h.storeQ = [] → ∃ t k, exec (.pref w) s = .next t ∧ t.hart? hid = some k ∧ k.s = h.s ∧ k.v = h.v ∧ k.m = h.m ∧
      k.fstat = h.fstat ∧ k.slot slot = { h.slot slot with off := (h.slot slot).off + 1 }) ∧
  ∀ (s u : State) (hid : Nat) (h : Hart) (q : LoadReq) (acc : LaneAcc) (v : View),
    s.hart? hid = some h → h.loads = [q] → h.storeQ = [] → s.mem.flights = [] → q.form = .ld → q.lanes = [acc] →
    q.acq = none → q.count = 1 → q.esize = 1 ∨ q.esize = 2 ∨ q.esize = 4 → acc.mt = .normal → isCtl acc.pa = false →
    isNet acc.pa = false → q.late = 0 → s.l1Victim h.core (sectorOf acc.pa) = none →
    s.l1View h.core (sectorOf acc.pa) = (u, v) → v.x = false → acc.lane < 32 →
    h.m0.getLsbD acc.lane = true → acc.pa % 128 + q.esize ≤ 128 →
    let n := sectorBytes v.data (acc.pa % 128) q.esize
    ∃ t k, exec (.loadReturn hid q.op) s = .next t ∧ t.hart? hid = some k ∧ k.getV q.dst acc.lane =
        ⟨if q.signed then (BitVec.ofNat (8 * q.esize) n).signExtend 32 else BitVec.ofNat 32 n, v.p || acc.tag⟩ ∧
      k.loads = [] ∧ k.ld = completeIn h.ld q.op ∧ k.s = h.s ∧ k.m = h.m ∧ k.slot0 = h.slot0 ∧ k.slot1 = h.slot1 ∧
      ∀ r l, l < 32 → (r, l) ≠ (q.dst, acc.lane) → k.getV r l = h.getV r l

/-- R231 to R236, R239 to R242, R78: a lane store or atomic that passes its checks, once its sectors' older loads and its
release are done, is one operation: a plain store enters the store queue with each lane's elements, in order, and the OR of
their tags and its address's, a release store entering it as entries performed at their point, and an atomic is queued for
every live lane, its acquire part following. In a walker's body a plain `st` is recorded, and the body takes the walker
trap, cause FORM, on every other one: a release `st`, `std`, `stc`, `atom` and `atomc`.
The model's readings or choices in it: log 43, 45, 93. -/
def Obligations.LaneStoresAndAtomics : Prop :=
  ∀ (s u v x : State) (hid : Nat) (slot : Bool) (h k : Hart) (w : LaneFields) (accs : List LaneAcc),
    let c := s.laneCtx hid h slot
    let e := w.ty.width / 8
    let wide := w.ty.pair
    let o := w.ord
    let item (l i : Nat) : Val := if w.kc then c.src wide true w.c l
      else h.laneVal wide (w.c.toNat + if wide then 2 * i else i) l
    let f := x.fresh
    x.hart? hid = some k → k.ended = none → ReleaseDone v hid o x →
    let live := accs.filter fun a => k.m0.getLsbD a.lane
    let stores (i : Instr) (op : Nat) (cluster direct : Bool) (kind : AccessKind) : Prop := LaneReadyFor op w s hid slot h →
      let dat (l : Nat) : Bool := (c.data w (memCount op w) l).tag
      (h.walking = false → h.full .st = true → exec i s = .next (s.stallsOn hid false .st)) ∧
      (h.walking = false → h.full .st = false →
        s.memCheck c w cluster (e * memCount op w) accWrite kind dat = (u, some accs) →
        (cluster = false → u.tagCheck c w accs dat = none) →
        u.loadsBefore hid cluster (e * memCount op w) accs = (v, true) →
        ∃ parts : List (MemType × StorePart),
          parts.map (fun p => (p.1, p.2.addr, p.2.len)) = live.map (fun a => (a.mt, a.pa, e * memCount op w)) ∧
          (∀ p ∈ List.zip parts live, p.1.2.s = ((List.range (memCount op w)).any (fun j => (item p.2.lane j).tag) || p.2.tag) ∧
            ∀ j, j < memCount op w → p.1.2.val / 2 ^ (8 * e * j) % 2 ^ (8 * e) = (item p.2.lane j).n % 2 ^ (8 * e)) ∧
          exec i s = .next ((if o.str = .rel then f.2.storeRelease hid f.1 cluster parts
            else if cluster then f.2.enqueue hid f.1
              (if parts.isEmpty then [] else [writeEntry f.1 .cluster false (sectorWrites (parts.map Prod.snd))])
            else f.2.enqueue hid f.1 (storeEntries f.1 direct parts)).laneNext hid slot))
    let atomics (i : Instr) (op : Nat) (cluster : Bool) (kind : AccessKind) : Prop := LaneReadyFor op w s hid slot h →
      let dat (l : Nat) : Bool := (c.c w l).tag || (isCas w && (c.reg wide (w.c.toNat + if wide then 2 else 1) l).tag)
      (h.walking = false → h.full .ld = true ∨ h.full .st = true →
        exec i s = .next (s.stallsOn hid false (if h.full .ld then .ld else .st))) ∧
      (h.walking = false → h.full .ld = false → h.full .st = false →
        s.memCheck c w cluster e accAtomic kind dat = (u, some accs) →
        (cluster = false → u.tagCheck c w accs dat = none) → u.loadsBefore hid cluster e accs = (v, true) →
        let req (a : LaneAcc) : AtomReq := ⟨some a.lane, a.pa, e, laneAop w, (c.c w a.lane).n,
          if isCas w then (c.reg wide (w.c.toNat + if wide then 2 else 1) a.lane).n else 0,
          (c.c w a.lane).tag || (isCas w && (c.reg wide (w.c.toNat + if wide then 2 else 1) a.lane).tag), a.tag,
          w.d.toNat, h.laneAddr slot⟩
        exec i s = .next (((f.2.enqueueAtomic hid f.1 cluster (o.str = .rel || o.str = .ar) (live.map req)).laneNext hid
          slot).atomFinish hid f.1 false o (h.laneAddr slot)))
    let banned (i : Instr) (op : Nat) : Prop := LaneReadyFor op w s hid slot h → h.walking = true → c.memLanes w ≠ [] →
      ∃ ls, exec i s = .next (s.walkTrap hid .walker 1 ls) ∧ ∀ l, l < 32 → (ls.getLsbD l = true ↔ l ∈ c.memLanes w)
    (∀ r, LaneReadyFor 0x59 w s hid slot h → h.walk = some r → r.inBody = true → o.str = .plain →
      let dat (l : Nat) : Bool := (c.data w (memCount 0x59 w) l).tag
      s.memCheck c w false (e * memCount 0x59 w) accWrite .laneStore dat = (u, some accs) →
      u.tagCheck c w accs dat = none → u.hart? hid = some h →
      let r' : WalkRun := { r with stores := r.stores ++ accs.flatMap (c.walkStores w (memCount 0x59 w)) }
      exec (.st w) s = .next (u.putHart hid ({ h with walk := some r' }.laneNext slot))) ∧
    stores (.st w) 0x59 false false .laneStore ∧ stores (.std w) 0x5B false true .laneDirect ∧
    stores (.stc w) 0x5D true false .laneDirect ∧ atomics (.atom w) 0x5E false .laneAtomic ∧
    atomics (.atomc w) 0x5F true .laneDirect ∧ (o.str ≠ .plain → banned (.st w) 0x59) ∧ banned (.std w) 0x5B ∧
    banned (.stc w) 0x5D ∧ banned (.atom w) 0x5E ∧ banned (.atomc w) 0x5F

/-- R268 to R271, R274 to R280, R175, R176: on settled operands `dinit` starts and `dacc` extends each executed lane's
accumulator, XT and SH with it; `drnd` writes its rounding, tagged by it; `dcor` writes y = x + r, settled exactly when it
is accepted and no shadow stands, sets in FSTAT what the roundings of r, y and lim meet, with PROP where some lane's y is a
proposal, and clears or counts the record; `drst` clears a record or reads it. Nothing else of the wide state changes. A
proposal in a settled-only operand takes the lane tag trap with those lanes and the operand's number; an overflow that
CORR_OVF asks for, or a lane at the limit of CORR_LIMIT, traps after the writes.
The model's readings or choices in it: log 40, 41, 42, 104. -/
def Obligations.DefectCorrectionResults : Prop :=
  ∀ (s : State) (hid : Nat) (slot : Bool) (h : Hart) (w : LaneFields), w.ty.width = 32 ∨ w.ty.width = 64 →
    h.walk = none →
    let c := s.laneCtx hid h slot
    let sh := (h.slot slot).shadow
    let P := lanesOf (h.live slot)
    let base (n : Nat) : Nat := s.declared h + 12 * n
    let acc (n l : Nat) : WideReg := h.wide (base n) l
    let regs (n : Nat) : List (Nat × Nat) := P.flatMap fun l => (List.range 12).map fun i => (base n + i, l)
    let next (k : Hart) : Prop := k.slot slot = { h.slot slot with off := (h.slot slot).off + 1 } ∧ k.laneTrap = h.laneTrap
    let trapped (k : Hart) (cls : TrapClass) (n : Nat) (f : Nat → Prop) : Prop := k.slot slot = h.slot slot ∧ k.frozen = true ∧
      ∃ ls, k.laneTrap = some ⟨slot, laneRecord cls 0 false ls (h.laneAddr slot) (BitVec.ofNat 64 n)⟩ ∧
        ∀ l, l < 32 → (ls.getLsbD l = true ↔ l ∈ P ∧ f l)
    let tagFault (i : Instr) (n : Nat) (f : Nat → Bool) : Prop := (∃ l ∈ P, f l = true) →
      ∃ ls, exec i s = .next (s.laneTrap hid slot .tag n true ls 0) ∧ ∀ l, l < 32 → (ls.getLsbD l = true ↔ l ∈ P ∧ f l = true)
    let writes (i : Instr) (n : Nat) (x : Nat → WideReg) (past : Nat → Prop) : Prop :=
      ∃ t k, exec i s = .next t ∧ t.hart? hid = some k ∧ (∀ l ∈ P, k.wide (base n) l = x l) ∧ k.fstat = h.fstat ∧ k.m = h.m ∧
        k.s = h.s ∧ (∀ r l, l < 32 → (r, l) ∉ regs n → k.getV r l = h.getV r l) ∧
        ((∀ l ∈ P, ¬past l) → next k) ∧ ((∃ l ∈ P, past l) → trapped k .wideOverflow n past)
    let ereg := w.aux.getLsbD 0
    let d := w.d.toNat
    let ta (l : Nat) : Bool := (c.a w l).tag
    let tb (l : Nat) : Bool := (c.b w l).tag
    let tc (l : Nat) : Bool := (c.c w l).tag
    (LaneReadyFor 0x70 w s hid slot h → w.imm = false →
      let e (l : Nat) : Int := ((if ereg then BitVec.ofNat 12 (c.c w l).n else w.imm16.extractLsb' 0 12).toInt)
      let x (l : Nat) : WideReg :=
        { acc d l with w := wideInit (w.ty.value (c.b w l).n) (e l), xt := false, sh := sh }
      tagFault (.dinit w) 2 tb ∧ ((∀ l ∈ P, tb l = false) → ereg = true → tagFault (.dinit w) 3 tc) ∧
      ((∀ l ∈ P, tb l = false) → (ereg = true → ∀ l ∈ P, tc l = false) →
        writes (.dinit w) d x fun l => h.corrOvf.getLsbD 0 = true ∧ (x l).w.ov = true)) ∧
    (LaneReadyFor 0x71 w s hid slot h → w.imm = false →
      let x (l : Nat) : WideReg :=
        { acc d l with w := wideAcc (acc d l).w (w.ty.value (c.a w l).n) (w.ty.value (c.b w l).n) (!ereg),
                       xt := (acc d l).xt || tb l, sh := (acc d l).sh || sh }
      tagFault (.dacc w) 1 ta ∧ ((∀ l ∈ P, ta l = false) → writes (.dacc w) d x fun l =>
        h.corrOvf.getLsbD 0 = true ∧ (x l).w.ov = true ∧ (acc d l).w.ov = false)) ∧
    (LaneReadyFor 0x72 w s hid slot h →
      let f (l : Nat) : FVal × Stat := wideRound (acc w.a.toNat l).w w.ty.fmt w.rnd
      ∃ t v st, exec (.drnd w) s = .next t ∧ LaneResult s hid slot h w.ty.pair d v st t ∧
        (∀ l ∈ P, v l = ⟨w.ty.image (f l).1 % 2 ^ w.ty.width, (acc w.a.toNat l).xt || (acc w.a.toNat l).sh || sh⟩) ∧
        ∀ b, b < 6 → (st.getLsbD b = true ↔ ∃ l ∈ P, (f l).2.getLsbD b = true)) ∧
    (LaneReadyFor 0x73 w s hid slot h →
      let n := w.b.toNat
      let r (l : Nat) : FVal := (wideRound (acc n l).w w.ty.fmt .rne).1
      let y (l : Nat) : FVal := (w.ty.fmt.round .rne (FVal.add .rne (w.ty.value (c.a w l).n) (r l)).1).1
      let lim (l : Nat) : FVal := (w.ty.fmt.round .rne ((w.ty.value (c.c w l).n).mul (y l).abs).1).1
      let met (l : Nat) : Stat := (wideRound (acc n l).w w.ty.fmt .rne).2 ||| (FVal.add .rne (w.ty.value (c.a w l).n) (r l)).2 |||
        (w.ty.fmt.round .rne (FVal.add .rne (w.ty.value (c.a w l).n) (r l)).1).2 |||
        ((w.ty.value (c.c w l).n).mul (y l).abs).2 |||
        (w.ty.fmt.round .rne ((w.ty.value (c.c w l).n).mul (y l).abs).1).2
      let accept (l : Nat) : Bool := !(r l).isNaN && !(y l).isNaN && !(lim l).isNaN &&
        ((r l).isZero || !(lim l).lt (r l).abs)
      let kappa := fmtF64.decode h.corrKappa.toNat
      let non (l : Nat) : Bool := (acc n l).pass ≠ 0 && !kappa.isNaN && ((r l).abs.isNaN ||
        (fmtF64.round .rne (kappa.mul (fmtF64.decode (acc n l).last.toNat)).1).1.lt (r l).abs)
      let nc (l : Nat) : Nat := if non l then min ((acc n l).nc + 1) 255 else 0
      let limit := (h.corrLimit.extractLsb' 0 8).toNat
      let stops (l : Nat) : Prop := accept l = false ∧ non l = true ∧ limit ≠ 0 ∧ limit ≤ nc l
      tagFault (.dcor w) 3 tc ∧ ((∀ l ∈ P, tc l = false) →
        ∃ t k st, exec (.dcor w) s = .next t ∧ t.hart? hid = some k ∧ k.m = h.m ∧ k.s = h.s ∧
          k.fstat = fstatAfter h st (P.any fun l => !(accept l && !(acc n l).sh && !sh)) ∧
          (∀ b, b < 6 → (st.getLsbD b = true ↔ ∃ l ∈ P, (met l).getLsbD b = true)) ∧
          (∀ l ∈ P, k.laneVal w.ty.pair d l =
            ⟨w.ty.image (y l) % 2 ^ w.ty.width, !(accept l && !(acc n l).sh && !sh)⟩ ∧
            k.wide (base n) l = if accept l then { acc n l with pass := 0, nc := 0, last := 0 } else
              { acc n l with nc := nc l, pass := min ((acc n l).pass + 1) 65535,
                             last := BitVec.ofNat 64 (fmtF64.encode (r l).abs) }) ∧
          (∀ q l, l < 32 → (q, l) ∉ regs n ++ destRegs w.ty.pair d P → k.getV q l = h.getV q l) ∧
          ((∀ l ∈ P, ¬stops l) → next k) ∧ ((∃ l ∈ P, stops l) → trapped k .nonConvergence n stops))) ∧
    (LaneReadyFor 0x74 w s hid slot h →
      (w.aux.toNat % 4 = 0 → writes (.drst w) d (fun l => { acc d l with pass := 0, nc := 0, last := 0 }) fun _ => False) ∧
      (w.aux.toNat % 4 = 1 → ∃ t k, exec (.drst w) s = .next t ∧ t.hart? hid = some k ∧ next k ∧
        LaneFrame s hid slot h (P.flatMap fun l => (List.range 4).map fun i => (d + i, l)) [] t ∧ ∀ l ∈ P,
          let x := acc w.a.toNat l
          k.getV d l = ⟨BitVec.ofNat 32 (x.nc * 2 ^ 16 + x.pass), sh⟩ ∧
          k.getV (d + 1) l = ⟨BitVec.ofInt 12 x.w.e |>.zeroExtend 32 |>.or (BitVec.ofNat 32 (x.w.nv.toNat * 2 ^ 12 +
            x.w.st.toNat * 2 ^ 13 + x.w.ov.toNat * 2 ^ 14 + x.xt.toNat * 2 ^ 15 + x.sh.toNat * 2 ^ 16)), sh⟩ ∧
          k.getV (d + 2) l = ⟨x.last.extractLsb' 0 32, sh⟩ ∧ k.getV (d + 3) l = ⟨x.last.extractLsb' 32 32, sh⟩))

/-- R117, R119, R120, R122, R229, R230, R43, R143: a block starts in slot 0 with m0; `lbr` splits its slot's lanes by the
selector, the shadow set on a proposal, the other slot going onto the stack, and the 65th entry traps with nothing changed;
`ljoin` waits for the other side, or merges the pair into the slot that made it and pops; a join at another word, with no
pair, or an unbalanced `lend` takes the JOIN trap; `lend` ends the block; `lnop` moves on; `ltrap` takes the lane software
trap of its code, in a walker's body the walker trap. A pair word computes both operations from the registers as they were,
as their single words do. Every word whose register is at or beyond the declared count takes the register trap.
The model's readings or choices in it: log 43. -/
def Obligations.LaneControlAndPairs : Prop :=
  (∀ (s : State) (hid : Nat) (h : Hart) (b : Block) (rest : List Block), s.hart? hid = some h → h.still = false →
    s.saved h = false → h.late = [] → h.block = none → h.queue = b :: rest → h.frozen = false → h.walk = none →
    exec (.laneBlockStart hid) s = .next (s.putHart hid { h with
      block := some b, queue := rest, slot0 := ⟨0, h.m0, false, .run⟩, slot1 := ⟨0, 0, false, .free⟩, csh := false,
      corg := false, stack := [], older := [] })) ∧
  (∀ (s : State) (hid op n : Nat) (slot : Bool) (h : Hart) (w : LaneFields) (i : Instr), s.cur = .lane hid slot →
    s.hart? hid = some h → laneInstr op w = some i →
    s.indexFault h (laneReads op w ++ laneWrites op w) (laneWides op w) = some n →
    exec i s = .next (s.laneTrap hid slot .register 0 true h.m0 (BitVec.ofNat 64 n))) ∧
  (∀ (s : State) (hid : Nat) (slot : Bool) (h : Hart) (w : LaneFields),
    let me := h.slot slot
    let other := h.slot !slot
    let act := h.live slot
    let m := h.getM w.msel.toNat
    let join : State := s.laneTrap hid slot .illegalLane Reason.join.code true act 0
    (LaneReadyFor 0x78 w s hid slot h →
      (other.st ≠ .free → h.stack.length = 64 →
        exec (.lbr w) s = .next (s.laneTrap hid slot .divergence 0 true act 0)) ∧
      (other.st = .free ∨ h.stack.length ≠ 64 → ∃ k,
        exec (.lbr w) s = .next ((s.putHart hid k).clearUpset (.stack hid h.stack.length)) ∧
        k = { h with slot0 := k.slot0, slot1 := k.slot1, csh := me.shadow, corg := slot, stack := k.stack,
                     older := [] :: h.older } ∧
        k.stack = (if other.st = .free then h.stack else ⟨other, h.csh, h.corg⟩ :: h.stack) ∧
        (let sh := me.shadow || (decide (∃ l ∈ lanesOf act, m.tag l = true))
         k.slot slot = ⟨me.off + 1, act &&& ~~~m.bits, sh, if act &&& ~~~m.bits ≠ 0 ∨ act = 0 then .run else .waitAny⟩ ∧
         k.slot (!slot) = ⟨w.aux.extractLsb' 0 8 ++ w.imm16, act &&& m.bits, sh,
          if act &&& m.bits ≠ 0 then .run else .waitAny⟩))) ∧
    (LaneReadyFor 0x79 w s hid slot h →
      (other.st = .free → h.stack = [] → exec (.ljoin w) s = .next join) ∧
      (other.st = .wait → other.off ≠ me.off → exec (.ljoin w) s = .next join) ∧
      (other.st = .run → exec (.ljoin w) s = .next (s.putHart hid (h.setSlot slot { me with st := .wait }))) ∧
      (other.st = .wait ∧ other.off = me.off ∨ other.st = .waitAny →
        let back : Slot := ⟨me.off + 1, h.slot0.mask ||| h.slot1.mask, h.csh, .run⟩
        (h.stack = [] → ∃ k, exec (.ljoin w) s = .next (s.putHart hid k) ∧
          k = { h with slot0 := k.slot0, slot1 := k.slot1, older := h.older.tail } ∧ k.slot h.corg = back ∧
            k.slot (!h.corg) = ⟨0, 0, false, .free⟩) ∧
        ∀ e rest, h.stack = e :: rest → s.upsetAt (.stack hid rest.length) = false → ∃ k, exec (.ljoin w) s = .next (s.putHart hid k) ∧
          k = { h with slot0 := k.slot0, slot1 := k.slot1, stack := rest, csh := e.csh, corg := e.corg,
                       older := h.older.tail } ∧
          k.slot h.corg = back ∧ k.slot (!h.corg) = e.other)) ∧
    (LaneReadyFor 0x7A w s hid slot h →
      (other.st ≠ .free ∨ h.stack ≠ [] → exec (.lend w) s = .next join) ∧
      (other.st = .free → h.stack = [] → ∃ k, exec (.lend w) s = .next (s.putHart hid k) ∧
        k = { h with block := none, slot0 := k.slot0, slot1 := k.slot1, csh := false, corg := false, older := [],
                     wait := k.wait } ∧
        k.slot0.st = .free ∧ k.slot1.st = .free ∧ (h.wait = none → k.wait = none))) ∧
    (LaneReadyFor 0x7B w s hid slot h → exec (.lnop w) s = .next (s.putHart hid (h.laneNext slot))) ∧
    (LaneReadyFor 0x7C w s hid slot h →
      (act = 0 → exec (.ltrap w) s = .next (s.putHart hid (h.laneNext slot))) ∧
      (act ≠ 0 → h.walking = false → exec (.ltrap w) s =
        .next (s.laneTrap hid slot .laneSoftware 0 false act ((w.imm16.extractLsb' 0 10).zeroExtend 64))) ∧
      (act ≠ 0 → h.walking = true → ∃ ls, exec (.ltrap w) s = .next (s.walkTrap hid .walker 1 ls) ∧
        ∀ l, l < 32 → (ls.getLsbD l = true ↔ l ∈ lanesOf act)))) ∧
  ∀ (s : State) (hid : Nat) (slot : Bool) (h : Hart) (x y : CompactOp) (ox oy : Nat),
    let c := s.laneCtx hid h slot
    copLane x.cop = some ox → copLane y.cop = some oy →
    (∀ i, laneInstr ox x.single = some i → LaneReadyFor ox x.single s hid slot h →
      exec i s = .next (s.wrote c (computeOf ox c x.single))) ∧
    (LaneReady s hid slot h (laneReads ox x.single ++ laneReads oy y.single)
        (laneWrites ox x.single ++ laneWrites oy y.single) (laneMasks ox x.single ++ laneMasks oy y.single) []
        (fun _ => laneReads ox x.single ++ laneReads oy y.single) (fun _ => BitVec.allOnes 32) →
      ∃ t k, exec (.pairLaneWord x y) s = .next t ∧
        t = (s.commitBoth hid (computeOf ox c x.single) (computeOf oy c y.single)).laneNext hid slot ∧ t.hart? hid = some k ∧
        k.slot slot = { h.slot slot with off := (h.slot slot).off + 1 })

/-! ### Queues, placement, pre-emption -/

/-- R318, R341 to R345, R334, R338, R388: a packet of a disabled queue, or that comes by another delivery mode, is refused,
and withheld without room or while the harbourmaster is not active; a good LAUNCH that heads a running queue leaves it and
becomes a TCB, ARMED or READY, with +1 at its stamp applied at the aggregator at once, or in a cancelled job none; without
room for a TCB it waits; one that breaks a field rule, or whose time has passed, stops its queue; a good FENCE fences it,
and a bad one or a packet of another type stops it. A poll lets the queue go on when every condition holds, and stops it on
a counter that faults or is poisoned. The identifier is the model's free value (log 16).
The model's readings or choices in it: log 54, 57, 59, 60, 98. -/
def Obligations.LaunchQueues : Prop :=
  ∀ (s : State) (n : Nat), s.mod.power = .on → n < 4096 →
    let q := s.queue n
    let vf := qVf q.ctl
    let st (v : State) : BitVec 2 := (v.queue n).ctl.extractLsb' 0 2
    (∀ (p : List Words) (d : Delivery) (host : Nat), p ≠ [] →
      (∀ b, p = [b] → exec (.launchPacket ⟨d, host, n⟩ b) s = exec (.fencePacket ⟨d, host, n⟩ p) s) ∧
      (q.ctl.getLsbD 63 = false ∨ d = .unsupported →
        exec (.fencePacket ⟨d, host, n⟩ p) s = .next (s.emit (.response host n false []))) ∧
      (q.ctl.getLsbD 63 = true → d ≠ .unsupported → s.harbourOk 0 = false ∨ s.mayTakeAll n p p.length = false →
        exec (.fencePacket ⟨d, host, n⟩ p) s = .next s) ∧
      (q.ctl.getLsbD 63 = true → d ≠ .unsupported → s.harbourOk 0 = true → s.mayTakeAll n p p.length = true →
        q.packets = [] → st s = 0 →
        let ty := ((p.headD []).getD 0 0).extractLsb' 56 8
        (ty = 2#8 → fenceBad p = false → ∃ v, exec (.fencePacket ⟨d, host, n⟩ p) s = .next v ∧ st v = 1 ∧
          (v.queue n).packets = [p] ∧ (v.queue n).fence = (fenceSlots p).take (fenceCount p)) ∧
        (ty ≠ 1#8 → ty ≠ 2#8 ∨ fenceBad p = true → ∃ v, exec (.fencePacket ⟨d, host, n⟩ p) s = .next v ∧ st v = 2 ∧
          (v.queue n).packets = [] ∧ v.prog = s.prog))) ∧
    (∀ (b : Words) (d : Delivery) (host : Nat), q.ctl.getLsbD 63 = true → d ≠ .unsupported → s.harbourOk 0 = true →
      s.mayTakeAll n [b] 1 = true → q.packets = [] → st s = 0 →
      let u := s.logInput vf (1 :: BitVec.ofNat 64 host :: BitVec.ofNat 64 n :: b)
      let x := b.getD 0 0
      let job := (x.extractLsb' 24 8).toNat
      let node := (x.extractLsb' 16 6).toNat
      let id := Config.taskId u.free % (2 ^ 32 - 1)
      let plus : Change := ⟨node, b.getD 1 0, 1⟩
      x.extractLsb' 56 8 = 1#8 → u.queue n = q →
      (u.launchBad vf [b] = true ∨ u.launchLate vf [b] = true → ∃ v, exec (.launchPacket ⟨d, host, n⟩ b) s = .next v ∧
        st v = 2 ∧ (v.queue n).packets = [] ∧ v.prog = u.prog) ∧
      (u.launchBad vf [b] = false → u.launchLate vf [b] = false →
        (u.tcbRoom vf = false → ∃ v, exec (.launchPacket ⟨d, host, n⟩ b) s = .next v ∧ st v = 0 ∧
          (v.queue n).packets = [[b]] ∧ v.prog = u.prog) ∧
        (u.tcbRoom vf = true → u.jobCancelled vf job = true → ∃ v, exec (.launchPacket ⟨d, host, n⟩ b) s = .next v ∧ st v = 0 ∧
          (v.queue n).packets = [] ∧ v.prog.tasks = u.prog.tasks ∧ v.prog.dieQ = u.prog.dieQ) ∧
        (u.tcbRoom vf = true → u.jobCancelled vf job = false → u.taskIdUsed vf id = false →
          ∃ v, exec (.launchPacket ⟨d, host, n⟩ b) s = .next v ∧ st v = 0 ∧ (v.queue n).packets = [] ∧
          v.prog.dieQ = u.prog.dieQ ∧ (∀ j, u.job? vf job = some j → v.job? vf job =
            some { j with stamps := addStamp j.stamps plus, applied := true }) ∧
          v.tcb? vf id = some (newTcb (if x.extractLsb' 44 12 = (0 : BitVec 12) then .ready else .armed)
            (x.extractLsb' 35 3) (q.ctl.getLsbD 62) false (b.getD 1 0) (x.extractLsb' 24 8) (x.extractLsb' 16 6)
            (x.extractLsb' 44 12) (x.extractLsb' 38 6) (b.getD 3 0) (b.getD 2 0) (b.getD 4 0))))) ∧
    ∀ (u : State) (gs : List HmGot) (p : List Words), st s = 1 → s.harbourOk 0 = true → q.packets = [p] →
      s.hmSectors 0 vf (q.fence.map fenceAddr) = (u, some gs) → u.mod = s.mod →
      let holds (x : (Word × Word) × HmGot) : Prop :=
        let value := x.2.word (fenceAddr x.1)
        let cmp := x.1.1.extractLsb' 0 3
        if cmp = 0#3 then value = x.1.2 else if cmp = 1#3 then value ≠ x.1.2
        else if cmp = 2#3 then x.1.2.toNat ≤ value.toNat else if cmp = 3#3 then value.toNat < x.1.2.toNat
        else if cmp = 4#3 then x.1.2.toInt ≤ value.toInt else value.toInt < x.1.2.toInt
      ((∃ g ∈ gs, g.failed = true) → ∃ v, exec (.fenceConditionPoll n) s = .next v ∧ st v = 2 ∧ (v.queue n).packets = []) ∧
      ((∀ g ∈ gs, g.failed = false) →
        ((∀ x ∈ q.fence.zip gs, holds x) → ∃ v, exec (.fenceConditionPoll n) s = .next v ∧ st v = 0 ∧
          (v.queue n).packets = [] ∧ (v.queue n).fence = []) ∧
        ((∃ x ∈ q.fence.zip gs, ¬holds x) → exec (.fenceConditionPoll n) s = .next (u.hmDone 0)))

/-- R345 to R350, R352, R353, R355, R45, R96, R123, R124: a round places the one unit of a READY task that fits: the task is
RUNNING, at its bucket's entry, and each wave starts at it with s1, s2 and the preload, m0 full but for the lanes it has
lost in an earlier incarnation, its pad mask and every other register zero, settled. A berth swap moves a stalled wave to a
free pending berth, or changes places with a ready pending one, which is promoted when an active berth is free; a wave of a
ring starved or in surplus for the dwell time is marked; a pre-emption is asked for, and a member that misses its time ends
the task; a saved unit whose turn it is, within what its VF's turn has left, is placed anew, or ends when a barrier's image
is bad, and its absent granules are filled.
The model's readings or choices in it: log 31, 63, 64, 67, 68, 69. -/
def Obligations.PlacementAndPreemption : Prop :=
  (∀ (s u : State) (vf task : Nat) (t : Tcb) (d : PlaceData) (p : Place), s.mod.power = .on → s.harbourOk 0 = true →
    s.mod.queues = [] → s.gangs = [] → s.mod.images = [] → task < 2 ^ 32 → s.prog.tasks = [(taskKey vf task, some t)] →
    t.st = .ready → t.placed = 0 → t.carries = [] → t.data = none → s.jobCancelled vf t.job.toNat = false →
    (s.vfRegs vf).sched.extractLsb' 0 8 ≠ 0#8 → s.placeReads 0 vf t = (u, .ok d) → u.prog = s.prog → u.gangs = [] →
    u.findRoom d.need = some p → d.tpl.count = 1 →
    ∃ v, exec .placementRound s = .next v ∧ v.unit? u.nextId = some (d.gang vf task 0 p.cluster p.cbase u.time) ∧
      v.tcb? vf task = some { t with st := .running, entry := d.entry, placed := 1, units := 1, die := clusterDie p.cluster,
                                     data := some d } ∧
      ∀ i k, (d.members u.nextId 0 t.args d.entry p)[i]? = some k → ∃ k', v.hart? (u.nextId + 1 + i) = some k' ∧
        k' = { k with m := k'.m } ∧ (∀ n, n ≠ 0 → k'.getM n = k.getM n) ∧ (k'.getM 0).tags = 0 ∧
        ∀ l, l < 32 → (k'.m0.getLsbD l = true ↔ ∀ x ∈ t.dead, x.1 = 0 → x.2.1 = k.member → x.2.2.getLsbD l = false)) ∧
  (∀ (d : PlaceData) (unit index core i part berth : Nat) (args entry : Word) (p : Place) (l : List (Nat × Nat)),
    d.tpl.convoy = false → p.gangs = [(core, l)] → l[i]? = some (part, berth) →
    ∃ h, (d.members unit index args entry p)[i]? = some h ∧ h.unit = unit ∧ h.engine = .wave ∧ h.index = i ∧ h.core = core ∧
      h.part = part ∧ h.berth = berth ∧ h.pc = entry &&& ~~~3 ∧ h.role = (if d.tpl.roles.getLsbD i then .loader else .vector) ∧
      h.m0 = BitVec.allOnes 32 ∧ h.fstat = 0 ∧ h.wstat = 0 ∧ h.corrLimit = 3 ∧ h.corrKappa = 0x3FE0000000000000 ∧
      (∀ b, b < 32 → ((h.getM 7).bit b = true ↔ 32 * (index * d.tpl.waves + i) + b < d.shape % 2 ^ 32)) ∧
      (∀ r b, h.getV r b = LV.zero) ∧ (∀ r, h.getK r = TV.zero) ∧ (d.pre = [] → ∀ r : SReg, h.getS r =
        if r = 1 then ⟨args, false⟩ else if r = 2 then ⟨BitVec.ofNat 64 index, false⟩ else TV.zero)) ∧
  (∀ (s : State) (hid : Nat) (h : Hart), s.hart? hid = some h → h.engine = .wave → h.ended = none → s.saved h = false →
    let free (l : List Nat) : Option Nat := l.find? fun b => !(s.mates h).any fun x => x.2.berth = b
    let ready := (s.mates h).find? fun x => x.2.pendingBerth && !x.2.stalls && x.2.ended.isNone && !x.2.suspendedFault &&
      !x.2.halted && x.2.safeMask.isNone
    (h.pendingBerth = false →
      (h.stalls = false → exec (.berthSwap hid) s = .next s) ∧
      (h.stalls = true → ready = none → ∀ b, free ((List.range Config.berths).drop 8) = some b →
        exec (.berthSwap hid) s = .next (s.putHart hid { h with berth := b, pendingBerth := true })) ∧
      (h.stalls = true → ∀ i x, ready = some (i, x) → i ≠ hid → s.hart? i = some x → ∃ t, exec (.berthSwap hid) s = .next t ∧
        t.hart? hid = some { h with berth := x.berth, pendingBerth := true } ∧
        t.hart? i = some { x with berth := h.berth, pendingBerth := false })) ∧
    (h.pendingBerth = true → ∀ b x, free (List.range 8) = some b → ready = some (hid, x) →
      exec (.berthSwap hid) s = .next (s.putHart hid { h with berth := b, pendingBerth := false }))) ∧
  (∀ (s : State) (u hid : Nat) (h : Hart) (g : Gang), s.unit? u = some g → s.hart? hid = some h → h.unit = u →
    (g.convoy = true → g.lentry ≠ 0 → (s.vfRegs g.vf).roleTime ≠ 0 → g.roleMark = none → g.st = .resident →
      h.engine = .wave → h.ended = none → s.harbourOk (clusterDie g.cluster) = true →
      s.starves u hid h g (s.vfRegs g.vf).roleLow.toNat (s.vfRegs g.vf).roleTime.toNat = true ∨
        surplus s.time h g (s.vfRegs g.vf).roleHigh.toNat (s.vfRegs g.vf).roleTime.toNat = true →
      exec (.roleMark u hid) s = .next (s.putUnit u { g with roleMark := some hid })) ∧
    (g.st = .resident → g.preempt = none → ∃ v k, exec (.preemptionRequest u) s = .next v ∧
      v.unit? u = some { g with preempt := some s.time } ∧ v.hart? hid = some k ∧ k = { h with reached := false }) ∧
    (∀ t0, g.preempt = some t0 →
      (s.time.toNat < t0.toNat + Config.preemptTicks → exec (.preemptionTimeout u) s = .next s) ∧
      (t0.toNat + Config.preemptTicks ≤ s.time.toNat → h.hasReached = false → ∀ c, s.tcb? g.vf g.task = some c →
        s.harbourOk c.die = true → s.jobCancelled g.vf c.job.toNat = false → ∃ t c', exec (.preemptionTimeout u) s = .next t ∧
          t.tcb? g.vf g.task = some c' ∧ c'.st = .faulted ∧ c'.fcode = faultCode .preemptTimeout 0)) ∧
    (g.st = .saved → s.mod.power = .on → s.restoreTurn g = true → s.quotaOf g.vf ≠ 0 → s.harbourOk 0 = true →
      (∀ c, s.tcb? g.vf g.task = some c → s.harbourOk c.die = true) →
      (∀ place p, (∀ b ∈ g.bars, b.2.rsv = 0 ∧ b.2.ccause.toNat < 7) → s.roomAt g.need place = some p →
        (∀ i k, i ∈ s.unitHarts u → s.hart? i = some k → k.doomed = false) →
        ∃ t g' k, exec (.contextRestore u place) s = .next t ∧ t.unit? u = some g' ∧ g'.st = .resident ∧
          g'.cluster = p.cluster ∧ g'.bars = g.bars ∧ t.hart? hid = some k ∧ k.s = h.s ∧ k.m = h.m ∧ k.pc = h.pc ∧
          k.wait = h.wait ∧ k.safeMask = none) ∧
      ∀ place b, b ∈ g.bars → (b.2.rsv ≠ 0 ∨ 7 ≤ b.2.ccause.toNat) → ∀ c, s.tcb? g.vf g.task = some c →
        s.jobCancelled g.vf c.job.toNat = false →
          ∃ t c', exec (.contextRestore u place) s = .next t ∧
          t.tcb? g.vf g.task = some c' ∧ c'.st = .faulted ∧ c'.fcode = faultCode .barrierMisuse 0) ∧
    ∀ n, h.absent.contains n = true → ∃ k, exec (.granuleFill hid n) s = .next (s.putHart hid k) ∧
      k.absent = h.absent.filter (· ≠ n) ∧ k = { h with v := k.v, absent := k.absent } ∧
      ∀ r l, l < 32 → (r / 16 ≠ n → k.getV r l = h.getV r l) ∧ (r / 16 = n → SMapOps.wf LV.zero h.ctxV = true →
        (∀ p ∈ h.v, p.1 / 512 ≠ n) → k.getV r l = SMapOps.get LV.zero h.ctxV (32 * r + l)))

/-- R2, R66, R363 to R366, R394, R399, R401: a take-over holds its die until its standby is active, which delivers what was
held, or leaves it down; a structural test of an idle cluster runs, passes, or fails: then the cluster is quarantined, each
VF that retired a task there gets its record, and the list its handle names is kept. A sample joins an enabled capture
unit's count, sum, least and greatest. Power-on gives a machine of zeros; heat changes no result, or shuts the module down
with everything lost but the management log, which notes it. A multi-bit upset poisons what it strikes, or is latent under a
register; a corrected one is counted alone; a cached translation or walk entry is dropped.
The model's readings or choices in it: log 10, 17, 75, 76, 77. -/
def Obligations.ModuleEvents : Prop :=
  (∀ (s : State) (die : Nat), die < 4 → let harbour (v : State) : Harbour := SMapOps.get .active v.mod.harbour die
    (s.harbourOk die = true → (∃ v, exec (.harbourmasterTakeover die true) s = .next v ∧ harbour v = .takingOver ∧
        v = { s with mod := { s.mod with harbour := v.mod.harbour } }) ∧
      ∃ v, exec (.harbourmasterTakeover die false) s = .next v ∧ harbour v = .down ∧ v.outbox.length = s.outbox.length + 1) ∧
    (harbour s = .takingOver → (∀ x ∈ s.mod.held, x.1 ≠ die) → ∃ v, exec (.standbyActive die) s = .next v ∧
      v.harbourOk die = true ∧ v = { s with mod := { s.mod with harbour := v.mod.harbour } }) ∧
    (harbour s = .takingOver → ∀ vf words, s.mod.held = [(die, .record vf words)] → ∃ v, exec (.standbyActive die) s = .next v ∧
      v.harbourOk die = true ∧ v.mod.held = [] ∧ v.outbox = s.outbox ++ [.record vf words]) ∧
    (∃ v, exec (.thermalThrottle die) s = .next v ∧ v = { s with mod := { s.mod with throttled := v.mod.throttled } } ∧
      die ∈ v.mod.throttled) ∧
    (s.mod.power = .on → ∃ v, exec (.thermalShutdown die) s = .next v ∧ v.mod.power = .down ∧ v.harts = [] ∧ v.gangs = [] ∧
      v.prog.tasks = [] ∧ v.mem.mem = [] ∧ v.mod.log = s.mod.log ++ [[BitVec.ofNat 64 die, s.time]])) ∧
  (∀ (s : State) (ok : Bool), (s.mod.power = .on → exec (.powerOn ok) s = .next s) ∧ (s.mod.power ≠ .on →
    ∃ v, exec (.powerOn ok) s = .next v ∧ v.mod.power = (if ok then .on else .refused) ∧ v.harts = [] ∧ v.gangs = [] ∧
      v.mod.log = s.mod.log ∧ v.mod.accepted = [] ∧ v.mod.owners = [] ∧
      v.prog.tasks = [] ∧ v.mem.tlb = [] ∧ (∀ a, byteAt v.mem.mem a = 0) ∧ ∀ n, homeSector n = true →
        (v.homeRead n).2.view = ⟨0, false, false⟩)) ∧
  (∀ (s : State) (c : Nat), c < Config.clusters → let f := s.fieldTest c
    (s.mod.power = .on → f.running = false → s.clusterHolds c = false → f.next.toNat ≤ s.time.toNat →
      s.harbourOk (clusterDie c) = true → ∃ v, exec (.fieldTestStart c) s = .next v ∧ (v.fieldTest c).running = true ∧
        (v.fieldTest c).next = s.time + 0x40000000) ∧
    (f.running = true → (∃ v, exec (.fieldTestPass c) s = .next v ∧ (v.fieldTest c).running = false ∧
        (v.fieldTest c).retired = [] ∧ (v.fieldTest c).pass = s.time) ∧
      ∃ v, exec (.fieldTestFail c) s = .next v ∧ (v.fieldTest c).running = false ∧ c ∈ v.mod.quarClusters ∧
        v.outbox.length = s.outbox.length + ((f.retired.map entryVf).eraseDups).length ∧
        (Config.listHandle s.free, f.retired.take 4096) ∈ v.mod.lists ∧
        ∀ w ∈ f.retired, ∃ peers words, .suspect (entryVf w) peers words ∈ v.outbox)) ∧
  (∀ (s : State) (u : Nat) (x : Word), u < 64 → let m := s.monitor u
    (m.cfg.getLsbD 63 = false → exec (.monitorSample u x) s = .next s) ∧
    let src := m.cfg.extractLsb' 48 8
    let sel := (m.cfg.extractLsb' 0 48).toNat
    let y : Word := if src = 2#8 then BitVec.ofNat 64 (s.queue sel).held
      else if src = 3#8 then (match (s.unit? (sel / 64)).bind fun g => g.ring (sel % 64) with
        | some r => BitVec.ofNat 64 r.occupancy
        | none => 0)
      else x
    (m.cfg.getLsbD 63 = true → ∃ v, exec (.monitorSample u x) s = .next v ∧ let k := v.monitor u
      k.count = m.count + 1 ∧ k.sum.toNat = min (2 ^ 64 - 1) (m.sum.toNat + y.toNat) ∧ k.cfg = m.cfg ∧ k.edges = m.edges ∧
      k.min.toNat = (if m.count = 0 then y.toNat else min m.min.toNat y.toNat) ∧ k.max.toNat = max m.max.toNat y.toNat)) ∧
  ∀ (s : State) (multi : Bool) (u n c hid r l : Nat) (g : Gang) (d : DsSector),
    let struck (t : UpsetTarget) : Prop := exec (.softError (.laneReg hid r l) false) s = .next s ∧
      ∃ v, exec (.softError (.laneReg hid r l) true) s = .next v ∧ t = .laneReg hid r l ∧ v.upsetAt t = true ∧
        v = { s with harts := v.harts, mem := { s.mem with upsets := v.mem.upsets } } ∧
        ∀ i k, s.hart? i = some k → ∃ k', v.hart? i = some k' ∧ k' = { k with walk := k'.walk } ∧
          (i ≠ hid ∨ k.walking = true ∨ k.walk = none → k' = k) ∧
          ∀ w, i = hid → k.walk = some w → k.walking = false → ∃ x, k'.walk = some { w with savedX := x } ∧ (r, l) ∈ x
    struck (.laneReg hid r l) ∧
    (s.dsGet n = some d → exec (.softError (.dieStore n) false) s = .next (s.countCE (homeDie n)) ∧
      exec (.softError (.dieStore n) true) s =
        .next ((s.dsSet n (some { d with data := 0, x := true })).countUE (homeDie n))) ∧
    (s.unit? u = some g → n < g.granules → ∃ v k, exec (.softError (.clusterGranule u n) multi) s = .next v ∧
      v.unit? u = some k ∧ k.granule n = g.granule n ∧ k.granuleTags n = ((g.granuleTags n).1, (g.granuleTags n).2 || multi)) ∧
    (s.unit? u = some g → r < 4 → n < g.nacc → ∃ v k, exec (.softError (.tile u r n) multi) s = .next v ∧
      v.unit? u = some k ∧ k.tiles = g.tiles ∧ k.poisonOf r n = (g.poisonOf r n || multi)) ∧
    (∀ h, s.hart? hid = some h → h.ended = none → exec (.softError (.checker hid) false) s = .next (s.countRetry h.die)) ∧
    exec (.softError (.translation c) multi) s = .next { s with mem := { s.mem with tlb := s.mem.tlb.eraseIdx c } } ∧
    exec (.softError (.walkEntry c) multi) s = .next { s with mem := { s.mem with walks := s.mem.walks.eraseIdx c } }

/-! ### The management endpoint -/

/-- R392, R393, R394: on a module that is up, a claim of a vacant scope joins its window and an owned scope refuses it; the
end of the window grants the claim of highest priority and nonce, alone of its kind, and answers every other; the owner
renews, releases or grants, a lease of 1 to 3,600 seconds; a lease that has run out leaves the scope vacant. A command from
another host, or of a code that is not listed, is refused, logged, and changes nothing else. READ returns the bytes of GDDR
as their home holds them, with their P, and WRITE replaces them.
The model's readings or choices in it: log 10, 17, 71, 72, 102. -/
def Obligations.ManagementOwnership : Prop :=
  ∀ (s : State) (host : Nat) (sc : OwnScope), s.mod.power = .on →
    let o := s.scopeRec sc
    let held (v : State) (x : Option (Nat × Word)) : Prop := (v.scopeRec sc).owner = x ∧
      v = { s with outbox := v.outbox, mod := { s.mod with owners := v.mod.owners, log := v.mod.log } }
    let answered (v : State) (code : Nat) (ok : Bool) : Prop := Output.response host code ok [] ∈ v.outbox
    let lapse (n : Nat) : Word := s.time + BitVec.ofNat 64 (n * 1000000000)
    (∀ code, code ∉ commandCodes → (HostCmd.unlisted host code).run s = .next (s.refuse host code 0)) ∧
    (∀ prio nonce lease, s.windowOver sc = false → s.scopeBusy sc = false → 1 ≤ lease → lease ≤ 3600 → scopeExists sc = true →
      (s.ownerOf sc = none → ∃ v, exec (.claim host sc prio nonce lease) s = .next v ∧ held v none ∧ v.outbox = s.outbox ∧
        (v.scopeRec sc).claims = o.claims ++ [⟨host, prio, nonce, lease⟩] ∧
        (v.scopeRec sc).firstClaim = if o.claims = [] then s.time else o.firstClaim) ∧
      (s.ownerOf sc ≠ none → exec (.claim host sc prio nonce lease) s = .next (s.refuse host 1 0))) ∧
    (∀ best, s.windowOver sc = true → best ∈ o.claims → (∀ y ∈ o.claims, y = best ∨ y.prio.toNat < best.prio.toNat ∨
        y.prio = best.prio ∧ y.nonce.toNat < best.nonce.toNat) → (o.claims.filter (· = best)).length = 1 →
      ∃ v, exec (.claimWindowExpiry sc) s = .next v ∧ held v (some (best.host, lapse best.lease)) ∧
        (v.scopeRec sc).claims = [] ∧ Output.response best.host 1 true [] ∈ v.outbox ∧
        ∀ y ∈ o.claims, y ≠ best → Output.response y.host 1 false [] ∈ v.outbox) ∧
    (s.windowOver sc = false → exec (.claimWindowExpiry sc) s = .next s) ∧
    (∀ h l, o.owner = some (h, l) → (l.toNat ≤ s.time.toNat → ∃ v, exec (.leaseLapse sc) s = .next v ∧ held v none) ∧
      (s.time.toNat < l.toNat → exec (.leaseLapse sc) s = .next s)) ∧
    (∀ r lease, s.ownerOf sc = some host → s.mod.accepted = [] →
      (∃ v, exec (.release host sc) s = .next v ∧ held v none ∧ answered v 3 true) ∧
      (1 ≤ lease → lease ≤ 3600 →
        (∃ v, exec (.renew host sc lease) s = .next v ∧ held v (some (host, lapse lease)) ∧ answered v 2 true) ∧
        ∃ v, exec (.grant host sc r lease) s = .next v ∧ held v (some (r, lapse lease)) ∧ answered v 4 true)) ∧
    (∀ r lease, s.ownerOf sc ≠ some host → exec (.release host sc) s = .next (s.refuse host 3 0) ∧
      exec (.renew host sc lease) s = .next (s.refuse host 2 0) ∧ exec (.grant host sc r lease) s = .next (s.refuse host 4 0)) ∧
    (∀ a len, isGddr a = true → 0 < len → a % 128 + len ≤ 128 → s.dieVictim (sectorOf a) = none →
      let x := (s.homeRead (sectorOf a)).2
      (x.x = false → ∃ v, exec (.read host a len) s = .next v ∧
        v.outbox = s.outbox ++ [.bytes host 0x10 (toBytes len (sectorBytes x.data (a % 128) len)) [x.p]] ∧
        HomeFrame s v (sectorOf a)) ∧
      (x.x = true → ∃ v, exec (.read host a len) s = .next v ∧ answered v 0x10 false)) ∧
    (∀ a (bs : List Byte), s.ownerOf .module ≠ some host → s.mod.accepted = [] →
      exec (.write host a bs) s = .next (s.refuse host 0x11 (BitVec.ofNat 64 a))) ∧
    ∀ a (bs : List Byte), s.ownerOf .module = some host → s.mod.accepted = [] → s.mgmtBusy = false → isGddr a = true →
      bs ≠ [] → a % 128 + bs.length ≤ 128 → s.dieVictim (sectorOf a) = none →
        ∃ v, exec (.write host a bs) s = .next v ∧ answered v 0x11 true ∧ HomeFrame s v (sectorOf a) ∧
        Merged (s.homeRead (sectorOf a)).2 (v.homeRead (sectorOf a)).2 (smallWrite a bs.length (ofBytes bs))

/-- R34, R39, R113, R199, R330, R334, R338, R356, R364, R386, R394, R395, R399, R400: the commands of a VF's or the module's
owner: a job is made from a chart, cancelled, held and let go; a faulted task is relaunched, answered or discarded; a halted
wave goes on; a quarantine ends; an image is loaded or unloaded; translations are dropped; monitors and recorders are set
and read, and the identity is attested. From any other host each is refused. A LOAD is accepted with its bytes written, and
completes in a later step with its leaves; a command that must wait is kept, and completes whoever owns the scope by then.
The model's readings or choices in it: log 10, 13, 31, 54, 57, 73, 74, 75, 78, 102. -/
def Obligations.ManagementCommands : Prop :=
  (∀ (s u : State) (host vf len : Nat) (base va : Word) (scope : BitVec 4) (bytes : List Byte) (frames : List Nat),
    s.mod.power = .on →
    let load : Option OwnScope × HostCmd := (some (.vf vf), .load host vf base len bytes frames)
    let drop : Option OwnScope × HostCmd := (some (.vf vf), .mgmtTlbi host vf scope va)
    (∀ ss note, s.mod.accepted = [load] → s.loadingAt vf base = true → sectionsOf bytes = some (ss, note) →
      (s.publishImage vf base ss frames = (u, true) → exec (.load host vf base len bytes frames) s =
        .next (((u.endLoad vf base true).respond host 0x20 true [0]).unaccept load)) ∧
      (s.publishImage vf base ss frames = (u, false) → exec (.load host vf base len bytes frames) s =
        .next (((s.endLoad vf base false).loadRefused host base .space).unaccept load))) ∧
    (s.mod.accepted = [drop] → scope.toNat < 3 → canonical va = true → s.quiesce vf = (u, true) →
      exec (.mgmtTlbi host vf scope va) s = .next ((u.respond host 0x22 true []).unaccept drop))) ∧
  ∀ (s : State) (host vf job : Nat), s.mod.power = .on → s.mod.accepted = [] →
    let ok (v : State) (code : Nat) : Prop := ∃ w, Output.response host code true w ∈ v.outbox
    let does (i : Instr) (code : Nat) (f : State → Prop) : Prop := ∃ v, exec i s = .next v ∧ ok v code ∧ f v
    let at' (i : Instr) (code : Nat) (addr : Word) : Prop := exec i s = .next (s.refuse host code addr)
    let refuses (i : Instr) (code : Nat) : Prop := at' i code 0
    (s.ownerOf (.vf vf) ≠ some host → ∀ a b base time force answer bytes peers hid,
      at' (.load host vf base a bytes peers) 0x20 base ∧ at' (.unload host vf base force) 0x21 base ∧
      at' (.mgmtTlbi host vf 1 base) 0x22 base ∧ refuses (.jobnew host vf job a b a peers) 0x30 ∧
      refuses (.cancel host vf job) 0x31 ∧ refuses (.mgmtHold host vf job a time) 0x32 ∧
      refuses (.mgmtDrop host vf job a time) 0x33 ∧ refuses (.answer host vf a answer) 0x34 ∧
      refuses (.relaunch host vf a) 0x35 ∧ refuses (.discard host vf a) 0x36 ∧ refuses (.unhalt host vf hid) 0x37 ∧
      refuses (.recordStart host vf base a) 0x42 ∧ refuses (.recordStop host vf) 0x42 ∧ refuses (.recordRead host vf) 0x42) ∧
    (s.ownerOf .module ≠ some host → ∀ q u e cfg, refuses (.unquarantine host q) 0x38 ∧
      refuses (.monitorConfigure host u cfg e) 0x41) ∧
    (s.ownerOf (.vf vf) = some host →
      (∀ base len bytes frames u got, s.loadImage vf base len bytes frames = (u, got) →
        exec (.load host vf base len bytes frames) s = .next (match got with
          | .refused e => (u.respond host 0x20 false [BitVec.ofNat 64 e.code]).note [BitVec.ofNat 64 host, base]
          | .wait | .placed => u.accept (some (.vf vf), .load host vf base len bytes frames))) ∧
      (∀ base i, (s.mod.images.find? fun x => x.vf = vf && x.base = base) = some i → s.imageUsed i = true →
        does (.unload host vf base false) 0x21 fun v => v.harts = s.harts ∧ v.mem = s.mem ∧
          ∀ x ∈ v.mod.images, x.vf = vf → x.base = base → x.leaving = true) ∧
      (∀ base i u, (s.mod.images.find? fun x => x.vf = vf && x.base = base) = some i → s.imageUsed i = false →
        (s.removeImage i).quiesce vf = (u, true) →
        exec (.unload host vf base false) s = .next (u.respond host 0x21 true [])) ∧
      (s.vfHarts vf = [] → s.mem.flights = [] → does (.mgmtTlbi host vf 2 0) 0x22 fun v =>
        (∀ e ∈ v.mem.tlb, e.vf ≠ vf) ∧ (∀ e ∈ v.mem.walks, e.vf ≠ vf) ∧ v.harts = s.harts ∧ v.prog = s.prog) ∧
      (∀ scope va u, scope.toNat < 3 → (scope = 0 → canonical va = true) →
        (s.invalidate vf (if scope = 0 then .va va else if scope = 1 then .space else .vf)).quiesce vf = (u, false) →
        exec (.mgmtTlbi host vf scope va) s = .next (u.accept (some (.vf vf), .mgmtTlbi host vf scope va))) ∧
      (∀ scope va, 3 ≤ scope.toNat → at' (.mgmtTlbi host vf scope va) 0x22 va) ∧
      (∀ chart gate slack peers, Config.activeJobs ≤ s.activeJobs →
        refuses (.jobnew host vf job chart gate slack peers) 0x30) ∧
      (∀ chart c gate slack peers, (s.charts vf)[chart]? = some c → job < 256 → (slack = 0 ∨ gate < 64) → slack < 256 →
        s.activeJobs < Config.activeJobs → peers.length ≤ 15 → (∀ p ∈ peers, 1 ≤ p ∧ p < 4096) → s.job? vf job = none →
        does (.jobnew host vf job chart gate slack peers) 0x30 fun v => ∃ j, v.job? vf job = some j ∧ j.gate = gate ∧
          j.slack = slack ∧ j.peers = peers ∧ j.stamps = [] ∧ j.holds = [] ∧ j.messages = [] ∧ j.cancelled = false ∧
          ∀ n, n < 64 → j.kind n = (jobOfChart c gate slack peers).kind n) ∧
      (∀ j, s.job? vf job = some j →
        (∃ v, exec (.cancel host vf job) s = .next v ∧ v.jobCancelled vf job = true) ∧
        ∀ loc time, loc < 64 → j.kind loc ≠ .unused → j.timeFault loc time = none →
          (j.holdOk loc time = true → j.cancelled = false → does (.mgmtHold host vf job loc time) 0x32 fun v =>
            v.job? vf job = some { j with holds := addStamp j.holds ⟨loc, time, 1⟩,
                                          stamps := addStamp j.stamps ⟨loc, time, 1⟩, applied := true } ∧
            v.prog.dieQ = s.prog.dieQ) ∧
          (j.held loc time ≠ 0 → j.cancelled = false → does (.mgmtDrop host vf job loc time) 0x33 fun v =>
            v.job? vf job = some { j with holds := addStamp j.holds ⟨loc, time, -1⟩,
                                          stamps := addStamp j.stamps ⟨loc, time, -1⟩, applied := true } ∧
            v.prog.dieQ = s.prog.dieQ)) ∧
      (∀ task t, s.tcb? vf task = some t → s.gangs = [] → t.st = .faulted →
        let ready : Tcb := { t with st := .ready, batch := [], spilt := 0, msgs := [], placed := 0, units := 0, carries := [],
                                    data := none, waited := [], relaunch := if t.relaunch = 0xFFFF then t.relaunch else t.relaunch + 1 }
        does (.relaunch host vf task) 0x35 (fun v => v.tcb? vf task = some ready) ∧
        (memoryCode t.fcode = true → does (.answer host vf task true) 0x34 (fun v => v.tcb? vf task = some ready) ∧
          does (.answer host vf task false) 0x34 fun v => v.tcb? vf task = some t) ∧
        (t.leaving = false → t.succs = [] → s.jobCancelled vf t.job.toNat = false → does (.discard host vf task) 0x36 fun v =>
          v.tcb? vf task = none ∧ v.prog.dieQ = s.prog.dieQ ++ [(t.die, ⟨vf, t.job.toNat,
            positivesFirst (t.batch ++ [⟨t.node.toNat, t.time, -1⟩]), t.msgs, true, []⟩)])) ∧
      (∀ hid h, s.hart? hid = some h → s.hartVf h = vf → h.halted = true →
        does (.unhalt host vf hid) 0x37 fun v => v.hart? hid = some { h with halted := false }) ∧
      ∀ addr len, let rec' (v : State) : Recorder := SMapOps.get Recorder.zero v.mod.recorders vf
        does (.recordStart host vf addr len) 0x42 (fun v => rec' v = ⟨true, addr, len, []⟩) ∧
        does (.recordStop host vf) 0x42 (fun v => rec' v = { rec' s with running := false }) ∧
        ∃ v, exec (.recordRead host vf) s = .next v ∧
          v.outbox = s.outbox ++ [.response host 0x42 true (rec' s).log.flatten]) ∧
    (s.ownerOf .module = some host →
      (∀ n, does (.unquarantine host (.partition n)) 0x38 (fun v => n ∉ v.mod.quarParts ∧
        v.mod.quarEngines = s.mod.quarEngines) ∧
        does (.unquarantine host (.engine n)) 0x38 (fun v => n ∉ v.mod.quarEngines ∧ v.mod.quarParts = s.mod.quarParts) ∧
        does (.unquarantine host (.cluster n)) 0x38 fun v => n ∉ v.mod.quarClusters ∧ v.mod.quarParts = s.mod.quarParts) ∧
      ∀ u cfg edges, u < 64 → edges.length ≤ 31 → s.ctlAllowed (.host host) (.capture u 0) cfg = true →
        does (.monitorConfigure host u cfg edges) 0x41 fun v => let m := v.monitor u
          m.cfg = cfg ∧ m.count = 0 ∧ m.sum = 0 ∧ ∀ i, m.edges = SMapOps.setMany 0 (s.monitor u).edges
            ((List.range edges.length).zip edges) ∧ (i < edges.length → (v.monitor u).word (1 + i) = edges.getD i 0)) ∧
    (∀ u, u < 64 → does (.monitorRead host u) 0x41 fun v => ∃ w, .response host 0x41 true w ∈ v.outbox ∧ w.length = 64 ∧
      w[32]? = some (s.monitor u).min ∧ w[34]? = some (s.monitor u).count) ∧
    ∀ nonce, does (.attest host nonce) 0x40 fun v => ∃ w, .response host 0x40 true w ∈ v.outbox ∧ w.head? = some nonce ∧
      w[13]? = some Config.feat0 ∧ w[14]? = some Config.feat1

end
end

