-- ==== Sys2Proof/Laws/SMap.lean ====
section
/-! SUPPORT. The laws of sparse maps: reading after a write, and that every write keeps the canonical form. -/

namespace Sys2Proof.Machine

variable {α : Type} (d : α)

@[simp] theorem SMapOps.get_nil (k : Nat) : SMapOps.get d [] k = d := rfl

/-- Reading above `k` sees nothing of what a cut at `k` drops. -/
theorem SMapOps.get_dropWhile (m : SMap α) (k j : Nat) :
    SMapOps.get d (m.dropWhile fun p => decide (p.1 ≤ k)) j = if j ≤ k then d else SMapOps.get d m j := by
  induction m with
  | nil => simp
  | cons p m ih =>
    simp only [List.dropWhile_cons, decide_eq_true_eq]
    split
    · rw [ih, SMapOps.get]
      grind
    · rw [SMapOps.get]
      grind

theorem SMapOps.get_erase (m : SMap α) (k j : Nat) :
    SMapOps.get d (SMapOps.erase m k) j = if j = k then d else SMapOps.get d m j := by
  induction m with
  | nil => simp [SMapOps.erase]
  | cons p m ih =>
    simp only [SMapOps.erase]
    split
    · rw [SMapOps.get_dropWhile]
      grind [SMapOps.get]
    · grind [SMapOps.get]

theorem SMapOps.get_insert (m : SMap α) (k j : Nat) (x : α) :
    SMapOps.get d (SMapOps.insert m k x) j = if j = k then x else SMapOps.get d m j := by
  induction m with
  | nil => grind [SMapOps.insert, SMapOps.get]
  | cons p m ih => grind [SMapOps.insert, SMapOps.get]

variable [DecidableEq α]

/-- A read after a write: the value written at its key, what was there at every other. -/
theorem SMapOps.get_set (m : SMap α) (k j : Nat) (x : α) :
    SMapOps.get d (SMapOps.set d m k x) j = if j = k then x else SMapOps.get d m j := by
  unfold SMapOps.set
  split
  · rename_i h
    rw [SMapOps.get_erase, h]
  · exact SMapOps.get_insert d m k j x

@[simp] theorem SMapOps.get_set_self (m : SMap α) (k : Nat) (x : α) :
    SMapOps.get d (SMapOps.set d m k x) k = x := by simp [SMapOps.get_set]

theorem SMapOps.get_set_ne (m : SMap α) {k j : Nat} (x : α) (h : j ≠ k) :
    SMapOps.get d (SMapOps.set d m k x) j = SMapOps.get d m j := by simp [SMapOps.get_set, h]

/-! ### The canonical form -/

omit [DecidableEq α] in
theorem SMapOps.above_trans {m : SMap α} {j k : Nat} (h : j ≤ k) (a : SMapOps.above k m = true) :
    SMapOps.above j m = true := by
  induction m with
  | nil => rfl
  | cons p m ih => simp only [SMapOps.above, Bool.and_eq_true, decide_eq_true_eq] at a ⊢; exact ⟨by omega, ih a.2⟩

omit [DecidableEq α] in
theorem SMapOps.get_above {m : SMap α} {k : Nat} (a : SMapOps.above k m = true) : SMapOps.get d m k = d := by
  cases m with
  | nil => rfl
  | cons p m => simp only [SMapOps.above, Bool.and_eq_true, decide_eq_true_eq] at a; grind [SMapOps.get]

omit [DecidableEq α] in
theorem SMapOps.above_dropWhile {m : SMap α} {k : Nat} (a : SMapOps.above k m = true) :
    (m.dropWhile fun p => decide (p.1 ≤ k)) = m := by
  cases m with
  | nil => rfl
  | cons p m => simp only [SMapOps.above, Bool.and_eq_true, decide_eq_true_eq] at a; rw [List.dropWhile_cons_of_neg]; simpa using a.1

omit [DecidableEq α] in
theorem SMapOps.above_erase {m : SMap α} {j : Nat} (k : Nat) (a : SMapOps.above j m = true) :
    SMapOps.above j (SMapOps.erase m k) = true := by
  have dw : ∀ l : SMap α, SMapOps.above j l = true → SMapOps.above j (l.dropWhile fun p => decide (p.1 ≤ k)) = true := by
    intro l
    induction l with
    | nil => simp
    | cons p l ih => intro h; simp only [List.dropWhile_cons]; split <;> grind [SMapOps.above]
  induction m with
  | nil => rfl
  | cons p m ih =>
    simp only [SMapOps.above, Bool.and_eq_true, decide_eq_true_eq] at a
    simp only [SMapOps.erase]
    split
    · exact dw m a.2
    · split <;> simp [SMapOps.above, a, ih a.2]

omit [DecidableEq α] in
theorem SMapOps.above_insert {m : SMap α} {j k : Nat} (x : α) (h : j < k) (a : SMapOps.above j m = true) :
    SMapOps.above j (SMapOps.insert m k x) = true := by
  induction m with
  | nil => simp [SMapOps.insert, SMapOps.above, h]
  | cons p m ih =>
    simp only [SMapOps.above, Bool.and_eq_true, decide_eq_true_eq] at a
    simp only [SMapOps.insert]
    split
    · simp [SMapOps.above, h, a]
    · split <;> simp [SMapOps.above, h, a, ih a.2]

theorem SMapOps.wf_erase {m : SMap α} (k : Nat) (w : SMapOps.wf d m = true) : SMapOps.wf d (SMapOps.erase m k) = true := by
  induction m with
  | nil => rfl
  | cons p m ih =>
    simp only [SMapOps.wf, Bool.and_eq_true, decide_eq_true_eq] at w
    simp only [SMapOps.erase]
    split
    · rename_i h; rw [h, SMapOps.above_dropWhile w.1.2]; exact w.2
    · split
      · simp [SMapOps.wf, w]
      · simp [SMapOps.wf, w, SMapOps.above_erase k w.1.2, ih w.2]

theorem SMapOps.wf_insert {m : SMap α} (k : Nat) {x : α} (h : x ≠ d) (w : SMapOps.wf d m = true) :
    SMapOps.wf d (SMapOps.insert m k x) = true := by
  induction m with
  | nil => simp [SMapOps.insert, SMapOps.wf, SMapOps.above, h]
  | cons p m ih =>
    simp only [SMapOps.wf, Bool.and_eq_true, decide_eq_true_eq] at w
    simp only [SMapOps.insert]
    split
    · rename_i e; simp [SMapOps.wf, h, w, e]
    · split
      · rename_i l
        simp [SMapOps.wf, SMapOps.above, h, w, l, SMapOps.above_trans (Nat.le_of_lt l) w.1.2]
      · simp [SMapOps.wf, w, ih w.2, SMapOps.above_insert x (by omega : p.1 < k) w.1.2]

/-- Every write keeps the canonical form. -/
theorem SMapOps.wf_set {m : SMap α} (k : Nat) (x : α) (w : SMapOps.wf d m = true) :
    SMapOps.wf d (SMapOps.set d m k x) = true := by
  unfold SMapOps.set
  split
  · exact SMapOps.wf_erase d k w
  · exact SMapOps.wf_insert d k ‹_› w

theorem SMapOps.wf_setMany (xs : List (Nat × α)) {m : SMap α} (w : SMapOps.wf d m = true) :
    SMapOps.wf d (SMapOps.setMany d m xs) = true := by
  induction xs generalizing m with
  | nil => exact w
  | cons p xs ih => exact ih (SMapOps.wf_set d p.1 p.2 w)

/-- Two canonical maps that read alike are equal. -/
theorem SMapOps.ext {m n : SMap α} (hm : SMapOps.wf d m = true) (hn : SMapOps.wf d n = true)
    (h : ∀ k, SMapOps.get d m k = SMapOps.get d n k) : m = n := by
  induction m generalizing n with
  | nil =>
    cases n with
    | nil => rfl
    | cons q n =>
      simp only [SMapOps.wf, Bool.and_eq_true, decide_eq_true_eq] at hn
      have := h q.1
      simp [SMapOps.get] at this
      exact absurd this.symm hn.1.1
  | cons p m ih =>
    cases n with
    | nil =>
      simp only [SMapOps.wf, Bool.and_eq_true, decide_eq_true_eq] at hm
      have := h p.1
      simp [SMapOps.get] at this
      exact absurd this hm.1.1
    | cons q n =>
      simp only [SMapOps.wf, Bool.and_eq_true, decide_eq_true_eq] at hm hn
      obtain ⟨j, x⟩ := p
      obtain ⟨k, y⟩ := q
      have e : j = k := by
        have h1 := h j
        have h2 := h k
        simp only [SMapOps.get] at h1 h2
        grind
      subst e
      have e2 : x = y := by simpa [SMapOps.get] using h j
      subst e2
      congr 1
      refine ih hm.2 hn.2 fun i => ?_
      by_cases hi : i ≤ j
      · rw [SMapOps.get_above d (SMapOps.above_trans hi hm.1.2), SMapOps.get_above d (SMapOps.above_trans hi hn.1.2)]
      · have := h i
        simpa [SMapOps.get, show i ≠ j by omega, show ¬ i < j by omega] using this

/-- Writing what is already there changes nothing. -/
theorem SMapOps.set_get {m : SMap α} (k : Nat) (w : SMapOps.wf d m = true) :
    SMapOps.set d m k (SMapOps.get d m k) = m :=
  SMapOps.ext d (SMapOps.wf_set d k _ w) w fun j => by rw [SMapOps.get_set]; grind

/-- The later of two writes of one key stands. -/
theorem SMapOps.set_set {m : SMap α} (k : Nat) (x y : α) (w : SMapOps.wf d m = true) :
    SMapOps.set d (SMapOps.set d m k x) k y = SMapOps.set d m k y :=
  SMapOps.ext d (SMapOps.wf_set d k _ (SMapOps.wf_set d k _ w)) (SMapOps.wf_set d k _ w) fun j => by
    simp only [SMapOps.get_set]; grind

end Sys2Proof.Machine
end

