-- ==== Sys2Proof/Laws/State.lean ====
section
/-! SUPPORT. One lemma for each field and update of the state, and reading each table after a write to it. -/

namespace Sys2Proof.Machine

/-! ### Reading a table after a write -/

theorem State.hart?_putHart (s : State) (i j : Nat) (h : Hart) :
    (s.putHart i h).hart? j = if j = i then some h else s.hart? j := by
  simp only [State.hart?, State.putHart, SMapOps.get_set]

@[simp] theorem State.hart?_putHart_self (s : State) (i : Nat) (h : Hart) : (s.putHart i h).hart? i = some h := by
  simp [State.hart?_putHart]

theorem State.hart?_dropHart (s : State) (i j : Nat) :
    (s.dropHart i).hart? j = if j = i then none else s.hart? j := by
  simp only [State.hart?, State.dropHart, SMapOps.get_set]

theorem State.unit?_putUnit (s : State) (u v : Nat) (g : Gang) :
    (s.putUnit u g).unit? v = if v = u then some g else s.unit? v := by
  simp only [State.unit?, State.putUnit, SMapOps.get_set]

@[simp] theorem State.unit?_putUnit_self (s : State) (u : Nat) (g : Gang) : (s.putUnit u g).unit? u = some g := by
  simp [State.unit?_putUnit]

theorem State.unit?_dropUnit (s : State) (u v : Nat) :
    (s.dropUnit u).unit? v = if v = u then none else s.unit? v := by
  simp only [State.unit?, State.dropUnit, SMapOps.get_set]

theorem State.copy?_putCopy (s : State) (i j : Nat) (c : Copy) :
    (s.putCopy i c).copy? j = if j = i then some c else s.copy? j := by
  simp only [State.copy?, State.putCopy, SMapOps.get_set]

theorem State.tileOp?_putTileOp (s : State) (i j : Nat) (t : TileOp) :
    (s.putTileOp i t).tileOp? j = if j = i then some t else s.tileOp? j := by
  simp only [State.tileOp?, State.putTileOp, SMapOps.get_set]

theorem State.tcb?_setTcb (s : State) (vf i vf' j : Nat) (t : Option Tcb) :
    (s.setTcb vf i t).tcb? vf' j = if taskKey vf' j = taskKey vf i then t else s.tcb? vf' j := by
  simp only [State.tcb?, State.setTcb, SMapOps.get_set]

@[simp] theorem State.tcb?_setTcb_self (s : State) (vf i : Nat) (t : Option Tcb) : (s.setTcb vf i t).tcb? vf i = t := by
  simp [State.tcb?_setTcb]

@[simp] theorem State.tcb?_putTcb_self (s : State) (vf i : Nat) (t : Tcb) : (s.putTcb vf i t).tcb? vf i = some t := by
  simp [State.putTcb]

theorem State.job?_setJob (s : State) (vf i vf' j : Nat) (x : Option Job) :
    (s.setJob vf i x).job? vf' j = if jobKey vf' j = jobKey vf i then x else s.job? vf' j := by
  simp only [State.job?, State.setJob, SMapOps.get_set]

@[simp] theorem State.job?_putJob_self (s : State) (vf i : Nat) (j : Job) : (s.putJob vf i j).job? vf i = some j := by
  simp [State.putJob, State.job?_setJob]

theorem State.dsGet_dsSet (s : State) (n m : Nat) (d : Option DsSector) :
    (s.dsSet n d).dsGet m = if m = n then d else s.dsGet m := by
  simp only [State.dsGet, State.dsSet, SMapOps.get_set]

theorem State.flight?_setFlight (s : State) (i j : Nat) (f : Option Flight) :
    (s.setFlight i f).flight? j = if j = i then f else s.flight? j := by
  simp only [State.flight?, State.setFlight, SMapOps.get_set]

theorem State.monitor_setMonitor (s : State) (u v : Nat) (x : Monitor) :
    (s.setMonitor u x).monitor v = if v = u then x else s.monitor v := by
  simp only [State.monitor, State.setMonitor, SMapOps.get_set]

/-- A hart that is there is changed; every other stays. -/
theorem State.hart?_modHart (s : State) (i j : Nat) (f : Hart → Hart) :
    (s.modHart i f).hart? j = if j = i then (s.hart? i).map f else s.hart? j := by
  unfold State.modHart
  cases h : s.hart? i with
  | some k => simp [State.hart?_putHart]
  | none => split <;> simp_all

theorem State.unit?_modUnit (s : State) (u v : Nat) (f : Gang → Gang) :
    (s.modUnit u f).unit? v = if v = u then (s.unit? u).map f else s.unit? v := by
  unfold State.modUnit
  cases h : s.unit? u with
  | some k => simp [State.unit?_putUnit]
  | none => split <;> simp_all

theorem State.modHart_of_hart (s : State) {i : Nat} {h : Hart} (f : Hart → Hart) (e : s.hart? i = some h) :
    s.modHart i f = s.putHart i (f h) := by simp [State.modHart, e]

/-! ### The registers of a hart -/

theorem Hart.getS_setS (h : Hart) (q r : SReg) (x : TV) :
    (h.setS q x).getS r = if r = q ∧ r ≠ 0 then x else h.getS r := by
  unfold Hart.setS Hart.getS
  split <;> split <;> simp_all [SMapOps.get_set, ← BitVec.toNat_inj]

@[simp] theorem Hart.getS_zero (h : Hart) : h.getS 0 = TV.zero := rfl

theorem Hart.getK_setK (h : Hart) (q r : Nat) (x : TV) : (h.setK q x).getK r = if r = q then x else h.getK r :=
  SMapOps.get_set ..

theorem Hart.getM_setM (h : Hart) (q r : Nat) (x : MaskReg) : (h.setM q x).getM r = if r = q then x else h.getM r :=
  SMapOps.get_set ..

theorem Hart.getV_setV (h : Hart) (q r l p : Nat) (x : LV) :
    (h.setV q p x).getV r l = if r * 32 + l = q * 32 + p then x else h.getV r l := SMapOps.get_set ..

/-- A scalar write changes the register file alone. -/
theorem Hart.setS_frame (h : Hart) (r : SReg) (x : TV) : h.setS r x = { h with s := (h.setS r x).s } := by
  unfold Hart.setS; split <;> rfl

/-- After a scalar write, the hart holds the value; no other hart changes. -/
theorem State.hart?_setS (s : State) (i j : Nat) (r : SReg) (x : TV) :
    (s.setS i r x).hart? j = if j = i then (s.hart? i).map (·.setS r x) else s.hart? j := by
  rw [← State.hart?_modHart]
  unfold State.setS State.clearUpset
  split <;> rfl

@[simp] theorem State.hart?_emit (s : State) (o : Output) (i : Nat) : (s.emit o).hart? i = s.hart? i := rfl

@[simp] theorem State.hart?_setMem (s : State) (m : List Host.Cell) (i : Nat) : (s.setMem m).hart? i = s.hart? i := rfl

@[simp] theorem State.hart?_dsSet (s : State) (n i : Nat) (d : Option DsSector) : (s.dsSet n d).hart? i = s.hart? i := rfl

@[simp] theorem State.hart?_putUnit (s : State) (u i : Nat) (g : Gang) : (s.putUnit u g).hart? i = s.hart? i := rfl

@[simp] theorem State.unit?_putHart (s : State) (u i : Nat) (h : Hart) : (s.putHart i h).unit? u = s.unit? u := rfl

/-! ### What each update of the state leaves alone -/

@[simp] theorem State.putHart_cur (s : State) (i : Nat) (h : Hart) : (s.putHart i h).cur = s.cur := rfl
@[simp] theorem State.putHart_sched (s : State) (i : Nat) (h : Hart) : (s.putHart i h).sched = s.sched := rfl
@[simp] theorem State.putHart_free (s : State) (i : Nat) (h : Hart) : (s.putHart i h).free = s.free := rfl
@[simp] theorem State.putHart_nextId (s : State) (i : Nat) (h : Hart) : (s.putHart i h).nextId = s.nextId := rfl
@[simp] theorem State.putHart_time (s : State) (i : Nat) (h : Hart) : (s.putHart i h).time = s.time := rfl
@[simp] theorem State.putHart_gangs (s : State) (i : Nat) (h : Hart) : (s.putHart i h).gangs = s.gangs := rfl
@[simp] theorem State.putHart_copies (s : State) (i : Nat) (h : Hart) : (s.putHart i h).copies = s.copies := rfl
@[simp] theorem State.putHart_promises (s : State) (i : Nat) (h : Hart) : (s.putHart i h).promises = s.promises := rfl
@[simp] theorem State.putHart_tileOps (s : State) (i : Nat) (h : Hart) : (s.putHart i h).tileOps = s.tileOps := rfl
@[simp] theorem State.putHart_mem (s : State) (i : Nat) (h : Hart) : (s.putHart i h).mem = s.mem := rfl
@[simp] theorem State.putHart_prog (s : State) (i : Nat) (h : Hart) : (s.putHart i h).prog = s.prog := rfl
@[simp] theorem State.putHart_mod (s : State) (i : Nat) (h : Hart) : (s.putHart i h).mod = s.mod := rfl
@[simp] theorem State.putHart_outbox (s : State) (i : Nat) (h : Hart) : (s.putHart i h).outbox = s.outbox := rfl

@[simp] theorem State.dropHart_cur (s : State) (i : Nat) : (s.dropHart i).cur = s.cur := rfl
@[simp] theorem State.dropHart_sched (s : State) (i : Nat) : (s.dropHart i).sched = s.sched := rfl
@[simp] theorem State.dropHart_free (s : State) (i : Nat) : (s.dropHart i).free = s.free := rfl
@[simp] theorem State.dropHart_nextId (s : State) (i : Nat) : (s.dropHart i).nextId = s.nextId := rfl
@[simp] theorem State.dropHart_time (s : State) (i : Nat) : (s.dropHart i).time = s.time := rfl
@[simp] theorem State.dropHart_gangs (s : State) (i : Nat) : (s.dropHart i).gangs = s.gangs := rfl
@[simp] theorem State.dropHart_copies (s : State) (i : Nat) : (s.dropHart i).copies = s.copies := rfl
@[simp] theorem State.dropHart_promises (s : State) (i : Nat) : (s.dropHart i).promises = s.promises := rfl
@[simp] theorem State.dropHart_tileOps (s : State) (i : Nat) : (s.dropHart i).tileOps = s.tileOps := rfl
@[simp] theorem State.dropHart_mem (s : State) (i : Nat) : (s.dropHart i).mem = s.mem := rfl
@[simp] theorem State.dropHart_prog (s : State) (i : Nat) : (s.dropHart i).prog = s.prog := rfl
@[simp] theorem State.dropHart_mod (s : State) (i : Nat) : (s.dropHart i).mod = s.mod := rfl
@[simp] theorem State.dropHart_outbox (s : State) (i : Nat) : (s.dropHart i).outbox = s.outbox := rfl

@[simp] theorem State.putUnit_cur (s : State) (u : Nat) (g : Gang) : (s.putUnit u g).cur = s.cur := rfl
@[simp] theorem State.putUnit_sched (s : State) (u : Nat) (g : Gang) : (s.putUnit u g).sched = s.sched := rfl
@[simp] theorem State.putUnit_free (s : State) (u : Nat) (g : Gang) : (s.putUnit u g).free = s.free := rfl
@[simp] theorem State.putUnit_nextId (s : State) (u : Nat) (g : Gang) : (s.putUnit u g).nextId = s.nextId := rfl
@[simp] theorem State.putUnit_time (s : State) (u : Nat) (g : Gang) : (s.putUnit u g).time = s.time := rfl
@[simp] theorem State.putUnit_harts (s : State) (u : Nat) (g : Gang) : (s.putUnit u g).harts = s.harts := rfl
@[simp] theorem State.putUnit_copies (s : State) (u : Nat) (g : Gang) : (s.putUnit u g).copies = s.copies := rfl
@[simp] theorem State.putUnit_promises (s : State) (u : Nat) (g : Gang) : (s.putUnit u g).promises = s.promises := rfl
@[simp] theorem State.putUnit_tileOps (s : State) (u : Nat) (g : Gang) : (s.putUnit u g).tileOps = s.tileOps := rfl
@[simp] theorem State.putUnit_mem (s : State) (u : Nat) (g : Gang) : (s.putUnit u g).mem = s.mem := rfl
@[simp] theorem State.putUnit_prog (s : State) (u : Nat) (g : Gang) : (s.putUnit u g).prog = s.prog := rfl
@[simp] theorem State.putUnit_mod (s : State) (u : Nat) (g : Gang) : (s.putUnit u g).mod = s.mod := rfl
@[simp] theorem State.putUnit_outbox (s : State) (u : Nat) (g : Gang) : (s.putUnit u g).outbox = s.outbox := rfl

@[simp] theorem State.dropUnit_cur (s : State) (u : Nat) : (s.dropUnit u).cur = s.cur := rfl
@[simp] theorem State.dropUnit_sched (s : State) (u : Nat) : (s.dropUnit u).sched = s.sched := rfl
@[simp] theorem State.dropUnit_free (s : State) (u : Nat) : (s.dropUnit u).free = s.free := rfl
@[simp] theorem State.dropUnit_nextId (s : State) (u : Nat) : (s.dropUnit u).nextId = s.nextId := rfl
@[simp] theorem State.dropUnit_time (s : State) (u : Nat) : (s.dropUnit u).time = s.time := rfl
@[simp] theorem State.dropUnit_harts (s : State) (u : Nat) : (s.dropUnit u).harts = s.harts := rfl
@[simp] theorem State.dropUnit_copies (s : State) (u : Nat) : (s.dropUnit u).copies = s.copies := rfl
@[simp] theorem State.dropUnit_promises (s : State) (u : Nat) : (s.dropUnit u).promises = s.promises := rfl
@[simp] theorem State.dropUnit_tileOps (s : State) (u : Nat) : (s.dropUnit u).tileOps = s.tileOps := rfl
@[simp] theorem State.dropUnit_mem (s : State) (u : Nat) : (s.dropUnit u).mem = s.mem := rfl
@[simp] theorem State.dropUnit_prog (s : State) (u : Nat) : (s.dropUnit u).prog = s.prog := rfl
@[simp] theorem State.dropUnit_mod (s : State) (u : Nat) : (s.dropUnit u).mod = s.mod := rfl
@[simp] theorem State.dropUnit_outbox (s : State) (u : Nat) : (s.dropUnit u).outbox = s.outbox := rfl

@[simp] theorem State.putCopy_cur (s : State) (i : Nat) (c : Copy) : (s.putCopy i c).cur = s.cur := rfl
@[simp] theorem State.putCopy_sched (s : State) (i : Nat) (c : Copy) : (s.putCopy i c).sched = s.sched := rfl
@[simp] theorem State.putCopy_free (s : State) (i : Nat) (c : Copy) : (s.putCopy i c).free = s.free := rfl
@[simp] theorem State.putCopy_nextId (s : State) (i : Nat) (c : Copy) : (s.putCopy i c).nextId = s.nextId := rfl
@[simp] theorem State.putCopy_time (s : State) (i : Nat) (c : Copy) : (s.putCopy i c).time = s.time := rfl
@[simp] theorem State.putCopy_harts (s : State) (i : Nat) (c : Copy) : (s.putCopy i c).harts = s.harts := rfl
@[simp] theorem State.putCopy_gangs (s : State) (i : Nat) (c : Copy) : (s.putCopy i c).gangs = s.gangs := rfl
@[simp] theorem State.putCopy_promises (s : State) (i : Nat) (c : Copy) : (s.putCopy i c).promises = s.promises := rfl
@[simp] theorem State.putCopy_tileOps (s : State) (i : Nat) (c : Copy) : (s.putCopy i c).tileOps = s.tileOps := rfl
@[simp] theorem State.putCopy_mem (s : State) (i : Nat) (c : Copy) : (s.putCopy i c).mem = s.mem := rfl
@[simp] theorem State.putCopy_prog (s : State) (i : Nat) (c : Copy) : (s.putCopy i c).prog = s.prog := rfl
@[simp] theorem State.putCopy_mod (s : State) (i : Nat) (c : Copy) : (s.putCopy i c).mod = s.mod := rfl
@[simp] theorem State.putCopy_outbox (s : State) (i : Nat) (c : Copy) : (s.putCopy i c).outbox = s.outbox := rfl

@[simp] theorem State.dropCopy_cur (s : State) (i : Nat) : (s.dropCopy i).cur = s.cur := rfl
@[simp] theorem State.dropCopy_sched (s : State) (i : Nat) : (s.dropCopy i).sched = s.sched := rfl
@[simp] theorem State.dropCopy_free (s : State) (i : Nat) : (s.dropCopy i).free = s.free := rfl
@[simp] theorem State.dropCopy_nextId (s : State) (i : Nat) : (s.dropCopy i).nextId = s.nextId := rfl
@[simp] theorem State.dropCopy_time (s : State) (i : Nat) : (s.dropCopy i).time = s.time := rfl
@[simp] theorem State.dropCopy_harts (s : State) (i : Nat) : (s.dropCopy i).harts = s.harts := rfl
@[simp] theorem State.dropCopy_gangs (s : State) (i : Nat) : (s.dropCopy i).gangs = s.gangs := rfl
@[simp] theorem State.dropCopy_promises (s : State) (i : Nat) : (s.dropCopy i).promises = s.promises := rfl
@[simp] theorem State.dropCopy_tileOps (s : State) (i : Nat) : (s.dropCopy i).tileOps = s.tileOps := rfl
@[simp] theorem State.dropCopy_mem (s : State) (i : Nat) : (s.dropCopy i).mem = s.mem := rfl
@[simp] theorem State.dropCopy_prog (s : State) (i : Nat) : (s.dropCopy i).prog = s.prog := rfl
@[simp] theorem State.dropCopy_mod (s : State) (i : Nat) : (s.dropCopy i).mod = s.mod := rfl
@[simp] theorem State.dropCopy_outbox (s : State) (i : Nat) : (s.dropCopy i).outbox = s.outbox := rfl

@[simp] theorem State.putTileOp_cur (s : State) (i : Nat) (t : TileOp) : (s.putTileOp i t).cur = s.cur := rfl
@[simp] theorem State.putTileOp_sched (s : State) (i : Nat) (t : TileOp) : (s.putTileOp i t).sched = s.sched := rfl
@[simp] theorem State.putTileOp_free (s : State) (i : Nat) (t : TileOp) : (s.putTileOp i t).free = s.free := rfl
@[simp] theorem State.putTileOp_nextId (s : State) (i : Nat) (t : TileOp) : (s.putTileOp i t).nextId = s.nextId := rfl
@[simp] theorem State.putTileOp_time (s : State) (i : Nat) (t : TileOp) : (s.putTileOp i t).time = s.time := rfl
@[simp] theorem State.putTileOp_harts (s : State) (i : Nat) (t : TileOp) : (s.putTileOp i t).harts = s.harts := rfl
@[simp] theorem State.putTileOp_gangs (s : State) (i : Nat) (t : TileOp) : (s.putTileOp i t).gangs = s.gangs := rfl
@[simp] theorem State.putTileOp_copies (s : State) (i : Nat) (t : TileOp) : (s.putTileOp i t).copies = s.copies := rfl
@[simp] theorem State.putTileOp_promises (s : State) (i : Nat) (t : TileOp) : (s.putTileOp i t).promises = s.promises := rfl
@[simp] theorem State.putTileOp_mem (s : State) (i : Nat) (t : TileOp) : (s.putTileOp i t).mem = s.mem := rfl
@[simp] theorem State.putTileOp_prog (s : State) (i : Nat) (t : TileOp) : (s.putTileOp i t).prog = s.prog := rfl
@[simp] theorem State.putTileOp_mod (s : State) (i : Nat) (t : TileOp) : (s.putTileOp i t).mod = s.mod := rfl
@[simp] theorem State.putTileOp_outbox (s : State) (i : Nat) (t : TileOp) : (s.putTileOp i t).outbox = s.outbox := rfl

@[simp] theorem State.dropTileOp_cur (s : State) (i : Nat) : (s.dropTileOp i).cur = s.cur := rfl
@[simp] theorem State.dropTileOp_sched (s : State) (i : Nat) : (s.dropTileOp i).sched = s.sched := rfl
@[simp] theorem State.dropTileOp_free (s : State) (i : Nat) : (s.dropTileOp i).free = s.free := rfl
@[simp] theorem State.dropTileOp_nextId (s : State) (i : Nat) : (s.dropTileOp i).nextId = s.nextId := rfl
@[simp] theorem State.dropTileOp_time (s : State) (i : Nat) : (s.dropTileOp i).time = s.time := rfl
@[simp] theorem State.dropTileOp_harts (s : State) (i : Nat) : (s.dropTileOp i).harts = s.harts := rfl
@[simp] theorem State.dropTileOp_gangs (s : State) (i : Nat) : (s.dropTileOp i).gangs = s.gangs := rfl
@[simp] theorem State.dropTileOp_copies (s : State) (i : Nat) : (s.dropTileOp i).copies = s.copies := rfl
@[simp] theorem State.dropTileOp_promises (s : State) (i : Nat) : (s.dropTileOp i).promises = s.promises := rfl
@[simp] theorem State.dropTileOp_mem (s : State) (i : Nat) : (s.dropTileOp i).mem = s.mem := rfl
@[simp] theorem State.dropTileOp_prog (s : State) (i : Nat) : (s.dropTileOp i).prog = s.prog := rfl
@[simp] theorem State.dropTileOp_mod (s : State) (i : Nat) : (s.dropTileOp i).mod = s.mod := rfl
@[simp] theorem State.dropTileOp_outbox (s : State) (i : Nat) : (s.dropTileOp i).outbox = s.outbox := rfl

@[simp] theorem State.setTcb_cur (s : State) (vf i : Nat) (t : Option Tcb) : (s.setTcb vf i t).cur = s.cur := rfl
@[simp] theorem State.setTcb_sched (s : State) (vf i : Nat) (t : Option Tcb) : (s.setTcb vf i t).sched = s.sched := rfl
@[simp] theorem State.setTcb_free (s : State) (vf i : Nat) (t : Option Tcb) : (s.setTcb vf i t).free = s.free := rfl
@[simp] theorem State.setTcb_nextId (s : State) (vf i : Nat) (t : Option Tcb) : (s.setTcb vf i t).nextId = s.nextId := rfl
@[simp] theorem State.setTcb_time (s : State) (vf i : Nat) (t : Option Tcb) : (s.setTcb vf i t).time = s.time := rfl
@[simp] theorem State.setTcb_harts (s : State) (vf i : Nat) (t : Option Tcb) : (s.setTcb vf i t).harts = s.harts := rfl
@[simp] theorem State.setTcb_gangs (s : State) (vf i : Nat) (t : Option Tcb) : (s.setTcb vf i t).gangs = s.gangs := rfl
@[simp] theorem State.setTcb_copies (s : State) (vf i : Nat) (t : Option Tcb) : (s.setTcb vf i t).copies = s.copies := rfl
@[simp] theorem State.setTcb_promises (s : State) (vf i : Nat) (t : Option Tcb) : (s.setTcb vf i t).promises = s.promises := rfl
@[simp] theorem State.setTcb_tileOps (s : State) (vf i : Nat) (t : Option Tcb) : (s.setTcb vf i t).tileOps = s.tileOps := rfl
@[simp] theorem State.setTcb_mem (s : State) (vf i : Nat) (t : Option Tcb) : (s.setTcb vf i t).mem = s.mem := rfl
@[simp] theorem State.setTcb_mod (s : State) (vf i : Nat) (t : Option Tcb) : (s.setTcb vf i t).mod = s.mod := rfl
@[simp] theorem State.setTcb_outbox (s : State) (vf i : Nat) (t : Option Tcb) : (s.setTcb vf i t).outbox = s.outbox := rfl
@[simp] theorem State.setTcb_prog_jobs (s : State) (vf i : Nat) (t : Option Tcb) : (s.setTcb vf i t).prog.jobs = s.prog.jobs := rfl
@[simp] theorem State.setTcb_prog_dieQ (s : State) (vf i : Nat) (t : Option Tcb) : (s.setTcb vf i t).prog.dieQ = s.prog.dieQ := rfl

@[simp] theorem State.setJob_cur (s : State) (vf i : Nat) (j : Option Job) : (s.setJob vf i j).cur = s.cur := rfl
@[simp] theorem State.setJob_sched (s : State) (vf i : Nat) (j : Option Job) : (s.setJob vf i j).sched = s.sched := rfl
@[simp] theorem State.setJob_free (s : State) (vf i : Nat) (j : Option Job) : (s.setJob vf i j).free = s.free := rfl
@[simp] theorem State.setJob_nextId (s : State) (vf i : Nat) (j : Option Job) : (s.setJob vf i j).nextId = s.nextId := rfl
@[simp] theorem State.setJob_time (s : State) (vf i : Nat) (j : Option Job) : (s.setJob vf i j).time = s.time := rfl
@[simp] theorem State.setJob_harts (s : State) (vf i : Nat) (j : Option Job) : (s.setJob vf i j).harts = s.harts := rfl
@[simp] theorem State.setJob_gangs (s : State) (vf i : Nat) (j : Option Job) : (s.setJob vf i j).gangs = s.gangs := rfl
@[simp] theorem State.setJob_copies (s : State) (vf i : Nat) (j : Option Job) : (s.setJob vf i j).copies = s.copies := rfl
@[simp] theorem State.setJob_promises (s : State) (vf i : Nat) (j : Option Job) : (s.setJob vf i j).promises = s.promises := rfl
@[simp] theorem State.setJob_tileOps (s : State) (vf i : Nat) (j : Option Job) : (s.setJob vf i j).tileOps = s.tileOps := rfl
@[simp] theorem State.setJob_mem (s : State) (vf i : Nat) (j : Option Job) : (s.setJob vf i j).mem = s.mem := rfl
@[simp] theorem State.setJob_mod (s : State) (vf i : Nat) (j : Option Job) : (s.setJob vf i j).mod = s.mod := rfl
@[simp] theorem State.setJob_outbox (s : State) (vf i : Nat) (j : Option Job) : (s.setJob vf i j).outbox = s.outbox := rfl
@[simp] theorem State.setJob_prog_tasks (s : State) (vf i : Nat) (j : Option Job) : (s.setJob vf i j).prog.tasks = s.prog.tasks := rfl
@[simp] theorem State.setJob_prog_dieQ (s : State) (vf i : Nat) (j : Option Job) : (s.setJob vf i j).prog.dieQ = s.prog.dieQ := rfl

@[simp] theorem State.emit_cur (s : State) (o : Output) : (s.emit o).cur = s.cur := rfl
@[simp] theorem State.emit_sched (s : State) (o : Output) : (s.emit o).sched = s.sched := rfl
@[simp] theorem State.emit_free (s : State) (o : Output) : (s.emit o).free = s.free := rfl
@[simp] theorem State.emit_nextId (s : State) (o : Output) : (s.emit o).nextId = s.nextId := rfl
@[simp] theorem State.emit_time (s : State) (o : Output) : (s.emit o).time = s.time := rfl
@[simp] theorem State.emit_harts (s : State) (o : Output) : (s.emit o).harts = s.harts := rfl
@[simp] theorem State.emit_gangs (s : State) (o : Output) : (s.emit o).gangs = s.gangs := rfl
@[simp] theorem State.emit_copies (s : State) (o : Output) : (s.emit o).copies = s.copies := rfl
@[simp] theorem State.emit_promises (s : State) (o : Output) : (s.emit o).promises = s.promises := rfl
@[simp] theorem State.emit_tileOps (s : State) (o : Output) : (s.emit o).tileOps = s.tileOps := rfl
@[simp] theorem State.emit_mem (s : State) (o : Output) : (s.emit o).mem = s.mem := rfl
@[simp] theorem State.emit_prog (s : State) (o : Output) : (s.emit o).prog = s.prog := rfl
@[simp] theorem State.emit_mod (s : State) (o : Output) : (s.emit o).mod = s.mod := rfl

@[simp] theorem State.setMem_cur (s : State) (m : List Host.Cell) : (s.setMem m).cur = s.cur := rfl
@[simp] theorem State.setMem_sched (s : State) (m : List Host.Cell) : (s.setMem m).sched = s.sched := rfl
@[simp] theorem State.setMem_free (s : State) (m : List Host.Cell) : (s.setMem m).free = s.free := rfl
@[simp] theorem State.setMem_nextId (s : State) (m : List Host.Cell) : (s.setMem m).nextId = s.nextId := rfl
@[simp] theorem State.setMem_time (s : State) (m : List Host.Cell) : (s.setMem m).time = s.time := rfl
@[simp] theorem State.setMem_harts (s : State) (m : List Host.Cell) : (s.setMem m).harts = s.harts := rfl
@[simp] theorem State.setMem_gangs (s : State) (m : List Host.Cell) : (s.setMem m).gangs = s.gangs := rfl
@[simp] theorem State.setMem_copies (s : State) (m : List Host.Cell) : (s.setMem m).copies = s.copies := rfl
@[simp] theorem State.setMem_promises (s : State) (m : List Host.Cell) : (s.setMem m).promises = s.promises := rfl
@[simp] theorem State.setMem_tileOps (s : State) (m : List Host.Cell) : (s.setMem m).tileOps = s.tileOps := rfl
@[simp] theorem State.setMem_prog (s : State) (m : List Host.Cell) : (s.setMem m).prog = s.prog := rfl
@[simp] theorem State.setMem_mod (s : State) (m : List Host.Cell) : (s.setMem m).mod = s.mod := rfl
@[simp] theorem State.setMem_outbox (s : State) (m : List Host.Cell) : (s.setMem m).outbox = s.outbox := rfl
@[simp] theorem State.setMem_mem_ds (s : State) (m : List Host.Cell) : (s.setMem m).mem.ds = s.mem.ds := rfl
@[simp] theorem State.setMem_mem_l1 (s : State) (m : List Host.Cell) : (s.setMem m).mem.l1 = s.mem.l1 := rfl
@[simp] theorem State.setMem_mem_cg (s : State) (m : List Host.Cell) : (s.setMem m).mem.cg = s.mem.cg := rfl
@[simp] theorem State.setMem_mem_hz (s : State) (m : List Host.Cell) : (s.setMem m).mem.hz = s.mem.hz := rfl
@[simp] theorem State.setMem_mem_flights (s : State) (m : List Host.Cell) : (s.setMem m).mem.flights = s.mem.flights := rfl
@[simp] theorem State.setMem_mem_tlb (s : State) (m : List Host.Cell) : (s.setMem m).mem.tlb = s.mem.tlb := rfl
@[simp] theorem State.setMem_mem_walks (s : State) (m : List Host.Cell) : (s.setMem m).mem.walks = s.mem.walks := rfl
@[simp] theorem State.setMem_mem_upsets (s : State) (m : List Host.Cell) : (s.setMem m).mem.upsets = s.mem.upsets := rfl

@[simp] theorem State.dsSet_cur (s : State) (n : Nat) (d : Option DsSector) : (s.dsSet n d).cur = s.cur := rfl
@[simp] theorem State.dsSet_sched (s : State) (n : Nat) (d : Option DsSector) : (s.dsSet n d).sched = s.sched := rfl
@[simp] theorem State.dsSet_free (s : State) (n : Nat) (d : Option DsSector) : (s.dsSet n d).free = s.free := rfl
@[simp] theorem State.dsSet_nextId (s : State) (n : Nat) (d : Option DsSector) : (s.dsSet n d).nextId = s.nextId := rfl
@[simp] theorem State.dsSet_time (s : State) (n : Nat) (d : Option DsSector) : (s.dsSet n d).time = s.time := rfl
@[simp] theorem State.dsSet_harts (s : State) (n : Nat) (d : Option DsSector) : (s.dsSet n d).harts = s.harts := rfl
@[simp] theorem State.dsSet_gangs (s : State) (n : Nat) (d : Option DsSector) : (s.dsSet n d).gangs = s.gangs := rfl
@[simp] theorem State.dsSet_copies (s : State) (n : Nat) (d : Option DsSector) : (s.dsSet n d).copies = s.copies := rfl
@[simp] theorem State.dsSet_promises (s : State) (n : Nat) (d : Option DsSector) : (s.dsSet n d).promises = s.promises := rfl
@[simp] theorem State.dsSet_tileOps (s : State) (n : Nat) (d : Option DsSector) : (s.dsSet n d).tileOps = s.tileOps := rfl
@[simp] theorem State.dsSet_prog (s : State) (n : Nat) (d : Option DsSector) : (s.dsSet n d).prog = s.prog := rfl
@[simp] theorem State.dsSet_mod (s : State) (n : Nat) (d : Option DsSector) : (s.dsSet n d).mod = s.mod := rfl
@[simp] theorem State.dsSet_outbox (s : State) (n : Nat) (d : Option DsSector) : (s.dsSet n d).outbox = s.outbox := rfl
@[simp] theorem State.dsSet_mem_mem (s : State) (n : Nat) (d : Option DsSector) : (s.dsSet n d).mem.mem = s.mem.mem := rfl
@[simp] theorem State.dsSet_mem_l1 (s : State) (n : Nat) (d : Option DsSector) : (s.dsSet n d).mem.l1 = s.mem.l1 := rfl
@[simp] theorem State.dsSet_mem_cg (s : State) (n : Nat) (d : Option DsSector) : (s.dsSet n d).mem.cg = s.mem.cg := rfl
@[simp] theorem State.dsSet_mem_hz (s : State) (n : Nat) (d : Option DsSector) : (s.dsSet n d).mem.hz = s.mem.hz := rfl
@[simp] theorem State.dsSet_mem_flights (s : State) (n : Nat) (d : Option DsSector) : (s.dsSet n d).mem.flights = s.mem.flights := rfl
@[simp] theorem State.dsSet_mem_tlb (s : State) (n : Nat) (d : Option DsSector) : (s.dsSet n d).mem.tlb = s.mem.tlb := rfl
@[simp] theorem State.dsSet_mem_walks (s : State) (n : Nat) (d : Option DsSector) : (s.dsSet n d).mem.walks = s.mem.walks := rfl
@[simp] theorem State.dsSet_mem_upsets (s : State) (n : Nat) (d : Option DsSector) : (s.dsSet n d).mem.upsets = s.mem.upsets := rfl

@[simp] theorem State.l1Set_cur (s : State) (c n : Nat) (l : Option L1Sector) : (s.l1Set c n l).cur = s.cur := rfl
@[simp] theorem State.l1Set_sched (s : State) (c n : Nat) (l : Option L1Sector) : (s.l1Set c n l).sched = s.sched := rfl
@[simp] theorem State.l1Set_free (s : State) (c n : Nat) (l : Option L1Sector) : (s.l1Set c n l).free = s.free := rfl
@[simp] theorem State.l1Set_nextId (s : State) (c n : Nat) (l : Option L1Sector) : (s.l1Set c n l).nextId = s.nextId := rfl
@[simp] theorem State.l1Set_time (s : State) (c n : Nat) (l : Option L1Sector) : (s.l1Set c n l).time = s.time := rfl
@[simp] theorem State.l1Set_harts (s : State) (c n : Nat) (l : Option L1Sector) : (s.l1Set c n l).harts = s.harts := rfl
@[simp] theorem State.l1Set_gangs (s : State) (c n : Nat) (l : Option L1Sector) : (s.l1Set c n l).gangs = s.gangs := rfl
@[simp] theorem State.l1Set_copies (s : State) (c n : Nat) (l : Option L1Sector) : (s.l1Set c n l).copies = s.copies := rfl
@[simp] theorem State.l1Set_promises (s : State) (c n : Nat) (l : Option L1Sector) : (s.l1Set c n l).promises = s.promises := rfl
@[simp] theorem State.l1Set_tileOps (s : State) (c n : Nat) (l : Option L1Sector) : (s.l1Set c n l).tileOps = s.tileOps := rfl
@[simp] theorem State.l1Set_prog (s : State) (c n : Nat) (l : Option L1Sector) : (s.l1Set c n l).prog = s.prog := rfl
@[simp] theorem State.l1Set_mod (s : State) (c n : Nat) (l : Option L1Sector) : (s.l1Set c n l).mod = s.mod := rfl
@[simp] theorem State.l1Set_outbox (s : State) (c n : Nat) (l : Option L1Sector) : (s.l1Set c n l).outbox = s.outbox := rfl
@[simp] theorem State.l1Set_mem_mem (s : State) (c n : Nat) (l : Option L1Sector) : (s.l1Set c n l).mem.mem = s.mem.mem := rfl
@[simp] theorem State.l1Set_mem_ds (s : State) (c n : Nat) (l : Option L1Sector) : (s.l1Set c n l).mem.ds = s.mem.ds := rfl
@[simp] theorem State.l1Set_mem_cg (s : State) (c n : Nat) (l : Option L1Sector) : (s.l1Set c n l).mem.cg = s.mem.cg := rfl
@[simp] theorem State.l1Set_mem_hz (s : State) (c n : Nat) (l : Option L1Sector) : (s.l1Set c n l).mem.hz = s.mem.hz := rfl
@[simp] theorem State.l1Set_mem_flights (s : State) (c n : Nat) (l : Option L1Sector) : (s.l1Set c n l).mem.flights = s.mem.flights := rfl
@[simp] theorem State.l1Set_mem_tlb (s : State) (c n : Nat) (l : Option L1Sector) : (s.l1Set c n l).mem.tlb = s.mem.tlb := rfl
@[simp] theorem State.l1Set_mem_walks (s : State) (c n : Nat) (l : Option L1Sector) : (s.l1Set c n l).mem.walks = s.mem.walks := rfl
@[simp] theorem State.l1Set_mem_upsets (s : State) (c n : Nat) (l : Option L1Sector) : (s.l1Set c n l).mem.upsets = s.mem.upsets := rfl

@[simp] theorem State.setFlight_cur (s : State) (i : Nat) (f : Option Flight) : (s.setFlight i f).cur = s.cur := rfl
@[simp] theorem State.setFlight_sched (s : State) (i : Nat) (f : Option Flight) : (s.setFlight i f).sched = s.sched := rfl
@[simp] theorem State.setFlight_free (s : State) (i : Nat) (f : Option Flight) : (s.setFlight i f).free = s.free := rfl
@[simp] theorem State.setFlight_nextId (s : State) (i : Nat) (f : Option Flight) : (s.setFlight i f).nextId = s.nextId := rfl
@[simp] theorem State.setFlight_time (s : State) (i : Nat) (f : Option Flight) : (s.setFlight i f).time = s.time := rfl
@[simp] theorem State.setFlight_harts (s : State) (i : Nat) (f : Option Flight) : (s.setFlight i f).harts = s.harts := rfl
@[simp] theorem State.setFlight_gangs (s : State) (i : Nat) (f : Option Flight) : (s.setFlight i f).gangs = s.gangs := rfl
@[simp] theorem State.setFlight_copies (s : State) (i : Nat) (f : Option Flight) : (s.setFlight i f).copies = s.copies := rfl
@[simp] theorem State.setFlight_promises (s : State) (i : Nat) (f : Option Flight) : (s.setFlight i f).promises = s.promises := rfl
@[simp] theorem State.setFlight_tileOps (s : State) (i : Nat) (f : Option Flight) : (s.setFlight i f).tileOps = s.tileOps := rfl
@[simp] theorem State.setFlight_prog (s : State) (i : Nat) (f : Option Flight) : (s.setFlight i f).prog = s.prog := rfl
@[simp] theorem State.setFlight_mod (s : State) (i : Nat) (f : Option Flight) : (s.setFlight i f).mod = s.mod := rfl
@[simp] theorem State.setFlight_outbox (s : State) (i : Nat) (f : Option Flight) : (s.setFlight i f).outbox = s.outbox := rfl
@[simp] theorem State.setFlight_mem_mem (s : State) (i : Nat) (f : Option Flight) : (s.setFlight i f).mem.mem = s.mem.mem := rfl
@[simp] theorem State.setFlight_mem_ds (s : State) (i : Nat) (f : Option Flight) : (s.setFlight i f).mem.ds = s.mem.ds := rfl
@[simp] theorem State.setFlight_mem_l1 (s : State) (i : Nat) (f : Option Flight) : (s.setFlight i f).mem.l1 = s.mem.l1 := rfl
@[simp] theorem State.setFlight_mem_cg (s : State) (i : Nat) (f : Option Flight) : (s.setFlight i f).mem.cg = s.mem.cg := rfl
@[simp] theorem State.setFlight_mem_hz (s : State) (i : Nat) (f : Option Flight) : (s.setFlight i f).mem.hz = s.mem.hz := rfl
@[simp] theorem State.setFlight_mem_tlb (s : State) (i : Nat) (f : Option Flight) : (s.setFlight i f).mem.tlb = s.mem.tlb := rfl
@[simp] theorem State.setFlight_mem_walks (s : State) (i : Nat) (f : Option Flight) : (s.setFlight i f).mem.walks = s.mem.walks := rfl
@[simp] theorem State.setFlight_mem_upsets (s : State) (i : Nat) (f : Option Flight) : (s.setFlight i f).mem.upsets = s.mem.upsets := rfl

@[simp] theorem State.setVfRegs_cur (s : State) (vf : Nat) (r : VfRegs) : (s.setVfRegs vf r).cur = s.cur := rfl
@[simp] theorem State.setVfRegs_sched (s : State) (vf : Nat) (r : VfRegs) : (s.setVfRegs vf r).sched = s.sched := rfl
@[simp] theorem State.setVfRegs_free (s : State) (vf : Nat) (r : VfRegs) : (s.setVfRegs vf r).free = s.free := rfl
@[simp] theorem State.setVfRegs_nextId (s : State) (vf : Nat) (r : VfRegs) : (s.setVfRegs vf r).nextId = s.nextId := rfl
@[simp] theorem State.setVfRegs_time (s : State) (vf : Nat) (r : VfRegs) : (s.setVfRegs vf r).time = s.time := rfl
@[simp] theorem State.setVfRegs_harts (s : State) (vf : Nat) (r : VfRegs) : (s.setVfRegs vf r).harts = s.harts := rfl
@[simp] theorem State.setVfRegs_gangs (s : State) (vf : Nat) (r : VfRegs) : (s.setVfRegs vf r).gangs = s.gangs := rfl
@[simp] theorem State.setVfRegs_copies (s : State) (vf : Nat) (r : VfRegs) : (s.setVfRegs vf r).copies = s.copies := rfl
@[simp] theorem State.setVfRegs_promises (s : State) (vf : Nat) (r : VfRegs) : (s.setVfRegs vf r).promises = s.promises := rfl
@[simp] theorem State.setVfRegs_tileOps (s : State) (vf : Nat) (r : VfRegs) : (s.setVfRegs vf r).tileOps = s.tileOps := rfl
@[simp] theorem State.setVfRegs_mem (s : State) (vf : Nat) (r : VfRegs) : (s.setVfRegs vf r).mem = s.mem := rfl
@[simp] theorem State.setVfRegs_prog (s : State) (vf : Nat) (r : VfRegs) : (s.setVfRegs vf r).prog = s.prog := rfl
@[simp] theorem State.setVfRegs_outbox (s : State) (vf : Nat) (r : VfRegs) : (s.setVfRegs vf r).outbox = s.outbox := rfl

@[simp] theorem State.setQueue_cur (s : State) (q : Nat) (x : Queue) : (s.setQueue q x).cur = s.cur := rfl
@[simp] theorem State.setQueue_sched (s : State) (q : Nat) (x : Queue) : (s.setQueue q x).sched = s.sched := rfl
@[simp] theorem State.setQueue_free (s : State) (q : Nat) (x : Queue) : (s.setQueue q x).free = s.free := rfl
@[simp] theorem State.setQueue_nextId (s : State) (q : Nat) (x : Queue) : (s.setQueue q x).nextId = s.nextId := rfl
@[simp] theorem State.setQueue_time (s : State) (q : Nat) (x : Queue) : (s.setQueue q x).time = s.time := rfl
@[simp] theorem State.setQueue_harts (s : State) (q : Nat) (x : Queue) : (s.setQueue q x).harts = s.harts := rfl
@[simp] theorem State.setQueue_gangs (s : State) (q : Nat) (x : Queue) : (s.setQueue q x).gangs = s.gangs := rfl
@[simp] theorem State.setQueue_copies (s : State) (q : Nat) (x : Queue) : (s.setQueue q x).copies = s.copies := rfl
@[simp] theorem State.setQueue_promises (s : State) (q : Nat) (x : Queue) : (s.setQueue q x).promises = s.promises := rfl
@[simp] theorem State.setQueue_tileOps (s : State) (q : Nat) (x : Queue) : (s.setQueue q x).tileOps = s.tileOps := rfl
@[simp] theorem State.setQueue_mem (s : State) (q : Nat) (x : Queue) : (s.setQueue q x).mem = s.mem := rfl
@[simp] theorem State.setQueue_prog (s : State) (q : Nat) (x : Queue) : (s.setQueue q x).prog = s.prog := rfl
@[simp] theorem State.setQueue_outbox (s : State) (q : Nat) (x : Queue) : (s.setQueue q x).outbox = s.outbox := rfl

@[simp] theorem State.setMonitor_cur (s : State) (u : Nat) (x : Monitor) : (s.setMonitor u x).cur = s.cur := rfl
@[simp] theorem State.setMonitor_sched (s : State) (u : Nat) (x : Monitor) : (s.setMonitor u x).sched = s.sched := rfl
@[simp] theorem State.setMonitor_free (s : State) (u : Nat) (x : Monitor) : (s.setMonitor u x).free = s.free := rfl
@[simp] theorem State.setMonitor_nextId (s : State) (u : Nat) (x : Monitor) : (s.setMonitor u x).nextId = s.nextId := rfl
@[simp] theorem State.setMonitor_time (s : State) (u : Nat) (x : Monitor) : (s.setMonitor u x).time = s.time := rfl
@[simp] theorem State.setMonitor_harts (s : State) (u : Nat) (x : Monitor) : (s.setMonitor u x).harts = s.harts := rfl
@[simp] theorem State.setMonitor_gangs (s : State) (u : Nat) (x : Monitor) : (s.setMonitor u x).gangs = s.gangs := rfl
@[simp] theorem State.setMonitor_copies (s : State) (u : Nat) (x : Monitor) : (s.setMonitor u x).copies = s.copies := rfl
@[simp] theorem State.setMonitor_promises (s : State) (u : Nat) (x : Monitor) : (s.setMonitor u x).promises = s.promises := rfl
@[simp] theorem State.setMonitor_tileOps (s : State) (u : Nat) (x : Monitor) : (s.setMonitor u x).tileOps = s.tileOps := rfl
@[simp] theorem State.setMonitor_mem (s : State) (u : Nat) (x : Monitor) : (s.setMonitor u x).mem = s.mem := rfl
@[simp] theorem State.setMonitor_prog (s : State) (u : Nat) (x : Monitor) : (s.setMonitor u x).prog = s.prog := rfl
@[simp] theorem State.setMonitor_outbox (s : State) (u : Nat) (x : Monitor) : (s.setMonitor u x).outbox = s.outbox := rfl

/-! The changes of a hart or unit that may not be there. -/

@[simp] theorem State.modHart_cur (s : State) (i : Nat) (f : Hart → Hart) : (s.modHart i f).cur = s.cur := by unfold State.modHart; split <;> rfl
@[simp] theorem State.modHart_sched (s : State) (i : Nat) (f : Hart → Hart) : (s.modHart i f).sched = s.sched := by unfold State.modHart; split <;> rfl
@[simp] theorem State.modHart_free (s : State) (i : Nat) (f : Hart → Hart) : (s.modHart i f).free = s.free := by unfold State.modHart; split <;> rfl
@[simp] theorem State.modHart_nextId (s : State) (i : Nat) (f : Hart → Hart) : (s.modHart i f).nextId = s.nextId := by unfold State.modHart; split <;> rfl
@[simp] theorem State.modHart_time (s : State) (i : Nat) (f : Hart → Hart) : (s.modHart i f).time = s.time := by unfold State.modHart; split <;> rfl
@[simp] theorem State.modHart_gangs (s : State) (i : Nat) (f : Hart → Hart) : (s.modHart i f).gangs = s.gangs := by unfold State.modHart; split <;> rfl
@[simp] theorem State.modHart_copies (s : State) (i : Nat) (f : Hart → Hart) : (s.modHart i f).copies = s.copies := by unfold State.modHart; split <;> rfl
@[simp] theorem State.modHart_promises (s : State) (i : Nat) (f : Hart → Hart) : (s.modHart i f).promises = s.promises := by unfold State.modHart; split <;> rfl
@[simp] theorem State.modHart_tileOps (s : State) (i : Nat) (f : Hart → Hart) : (s.modHart i f).tileOps = s.tileOps := by unfold State.modHart; split <;> rfl
@[simp] theorem State.modHart_mem (s : State) (i : Nat) (f : Hart → Hart) : (s.modHart i f).mem = s.mem := by unfold State.modHart; split <;> rfl
@[simp] theorem State.modHart_prog (s : State) (i : Nat) (f : Hart → Hart) : (s.modHart i f).prog = s.prog := by unfold State.modHart; split <;> rfl
@[simp] theorem State.modHart_mod (s : State) (i : Nat) (f : Hart → Hart) : (s.modHart i f).mod = s.mod := by unfold State.modHart; split <;> rfl
@[simp] theorem State.modHart_outbox (s : State) (i : Nat) (f : Hart → Hart) : (s.modHart i f).outbox = s.outbox := by unfold State.modHart; split <;> rfl

@[simp] theorem State.modUnit_cur (s : State) (u : Nat) (f : Gang → Gang) : (s.modUnit u f).cur = s.cur := by unfold State.modUnit; split <;> rfl
@[simp] theorem State.modUnit_sched (s : State) (u : Nat) (f : Gang → Gang) : (s.modUnit u f).sched = s.sched := by unfold State.modUnit; split <;> rfl
@[simp] theorem State.modUnit_free (s : State) (u : Nat) (f : Gang → Gang) : (s.modUnit u f).free = s.free := by unfold State.modUnit; split <;> rfl
@[simp] theorem State.modUnit_nextId (s : State) (u : Nat) (f : Gang → Gang) : (s.modUnit u f).nextId = s.nextId := by unfold State.modUnit; split <;> rfl
@[simp] theorem State.modUnit_time (s : State) (u : Nat) (f : Gang → Gang) : (s.modUnit u f).time = s.time := by unfold State.modUnit; split <;> rfl
@[simp] theorem State.modUnit_harts (s : State) (u : Nat) (f : Gang → Gang) : (s.modUnit u f).harts = s.harts := by unfold State.modUnit; split <;> rfl
@[simp] theorem State.modUnit_copies (s : State) (u : Nat) (f : Gang → Gang) : (s.modUnit u f).copies = s.copies := by unfold State.modUnit; split <;> rfl
@[simp] theorem State.modUnit_promises (s : State) (u : Nat) (f : Gang → Gang) : (s.modUnit u f).promises = s.promises := by unfold State.modUnit; split <;> rfl
@[simp] theorem State.modUnit_tileOps (s : State) (u : Nat) (f : Gang → Gang) : (s.modUnit u f).tileOps = s.tileOps := by unfold State.modUnit; split <;> rfl
@[simp] theorem State.modUnit_mem (s : State) (u : Nat) (f : Gang → Gang) : (s.modUnit u f).mem = s.mem := by unfold State.modUnit; split <;> rfl
@[simp] theorem State.modUnit_prog (s : State) (u : Nat) (f : Gang → Gang) : (s.modUnit u f).prog = s.prog := by unfold State.modUnit; split <;> rfl
@[simp] theorem State.modUnit_mod (s : State) (u : Nat) (f : Gang → Gang) : (s.modUnit u f).mod = s.mod := by unfold State.modUnit; split <;> rfl
@[simp] theorem State.modUnit_outbox (s : State) (u : Nat) (f : Gang → Gang) : (s.modUnit u f).outbox = s.outbox := by unfold State.modUnit; split <;> rfl

@[simp] theorem State.clearUpset_cur (s : State) (t : UpsetTarget) : (s.clearUpset t).cur = s.cur := by unfold State.clearUpset; split <;> rfl
@[simp] theorem State.clearUpset_sched (s : State) (t : UpsetTarget) : (s.clearUpset t).sched = s.sched := by unfold State.clearUpset; split <;> rfl
@[simp] theorem State.clearUpset_free (s : State) (t : UpsetTarget) : (s.clearUpset t).free = s.free := by unfold State.clearUpset; split <;> rfl
@[simp] theorem State.clearUpset_nextId (s : State) (t : UpsetTarget) : (s.clearUpset t).nextId = s.nextId := by unfold State.clearUpset; split <;> rfl
@[simp] theorem State.clearUpset_time (s : State) (t : UpsetTarget) : (s.clearUpset t).time = s.time := by unfold State.clearUpset; split <;> rfl
@[simp] theorem State.clearUpset_harts (s : State) (t : UpsetTarget) : (s.clearUpset t).harts = s.harts := by unfold State.clearUpset; split <;> rfl
@[simp] theorem State.clearUpset_gangs (s : State) (t : UpsetTarget) : (s.clearUpset t).gangs = s.gangs := by unfold State.clearUpset; split <;> rfl
@[simp] theorem State.clearUpset_copies (s : State) (t : UpsetTarget) : (s.clearUpset t).copies = s.copies := by unfold State.clearUpset; split <;> rfl
@[simp] theorem State.clearUpset_promises (s : State) (t : UpsetTarget) : (s.clearUpset t).promises = s.promises := by unfold State.clearUpset; split <;> rfl
@[simp] theorem State.clearUpset_tileOps (s : State) (t : UpsetTarget) : (s.clearUpset t).tileOps = s.tileOps := by unfold State.clearUpset; split <;> rfl
@[simp] theorem State.clearUpset_prog (s : State) (t : UpsetTarget) : (s.clearUpset t).prog = s.prog := by unfold State.clearUpset; split <;> rfl
@[simp] theorem State.clearUpset_mod (s : State) (t : UpsetTarget) : (s.clearUpset t).mod = s.mod := by unfold State.clearUpset; split <;> rfl
@[simp] theorem State.clearUpset_outbox (s : State) (t : UpsetTarget) : (s.clearUpset t).outbox = s.outbox := by unfold State.clearUpset; split <;> rfl
@[simp] theorem State.clearUpset_mem_mem (s : State) (t : UpsetTarget) : (s.clearUpset t).mem.mem = s.mem.mem := by unfold State.clearUpset; split <;> rfl
@[simp] theorem State.clearUpset_mem_ds (s : State) (t : UpsetTarget) : (s.clearUpset t).mem.ds = s.mem.ds := by unfold State.clearUpset; split <;> rfl
@[simp] theorem State.clearUpset_mem_l1 (s : State) (t : UpsetTarget) : (s.clearUpset t).mem.l1 = s.mem.l1 := by unfold State.clearUpset; split <;> rfl
@[simp] theorem State.clearUpset_mem_cg (s : State) (t : UpsetTarget) : (s.clearUpset t).mem.cg = s.mem.cg := by unfold State.clearUpset; split <;> rfl
@[simp] theorem State.clearUpset_mem_hz (s : State) (t : UpsetTarget) : (s.clearUpset t).mem.hz = s.mem.hz := by unfold State.clearUpset; split <;> rfl
@[simp] theorem State.clearUpset_mem_flights (s : State) (t : UpsetTarget) : (s.clearUpset t).mem.flights = s.mem.flights := by unfold State.clearUpset; split <;> rfl
@[simp] theorem State.clearUpset_mem_tlb (s : State) (t : UpsetTarget) : (s.clearUpset t).mem.tlb = s.mem.tlb := by unfold State.clearUpset; split <;> rfl
@[simp] theorem State.clearUpset_mem_walks (s : State) (t : UpsetTarget) : (s.clearUpset t).mem.walks = s.mem.walks := by unfold State.clearUpset; split <;> rfl

@[simp] theorem State.nextPc_cur (s : State) (i : Nat) : (s.nextPc i).cur = s.cur := by simp [State.nextPc]
@[simp] theorem State.nextPc_sched (s : State) (i : Nat) : (s.nextPc i).sched = s.sched := by simp [State.nextPc]
@[simp] theorem State.nextPc_free (s : State) (i : Nat) : (s.nextPc i).free = s.free := by simp [State.nextPc]
@[simp] theorem State.nextPc_nextId (s : State) (i : Nat) : (s.nextPc i).nextId = s.nextId := by simp [State.nextPc]
@[simp] theorem State.nextPc_time (s : State) (i : Nat) : (s.nextPc i).time = s.time := by simp [State.nextPc]
@[simp] theorem State.nextPc_gangs (s : State) (i : Nat) : (s.nextPc i).gangs = s.gangs := by simp [State.nextPc]
@[simp] theorem State.nextPc_copies (s : State) (i : Nat) : (s.nextPc i).copies = s.copies := by simp [State.nextPc]
@[simp] theorem State.nextPc_promises (s : State) (i : Nat) : (s.nextPc i).promises = s.promises := by simp [State.nextPc]
@[simp] theorem State.nextPc_tileOps (s : State) (i : Nat) : (s.nextPc i).tileOps = s.tileOps := by simp [State.nextPc]
@[simp] theorem State.nextPc_mem (s : State) (i : Nat) : (s.nextPc i).mem = s.mem := by simp [State.nextPc]
@[simp] theorem State.nextPc_prog (s : State) (i : Nat) : (s.nextPc i).prog = s.prog := by simp [State.nextPc]
@[simp] theorem State.nextPc_mod (s : State) (i : Nat) : (s.nextPc i).mod = s.mod := by simp [State.nextPc]
@[simp] theorem State.nextPc_outbox (s : State) (i : Nat) : (s.nextPc i).outbox = s.outbox := by simp [State.nextPc]

@[simp] theorem State.goTo_cur (s : State) (i : Nat) (a : Word) : (s.goTo i a).cur = s.cur := by simp [State.goTo]
@[simp] theorem State.goTo_sched (s : State) (i : Nat) (a : Word) : (s.goTo i a).sched = s.sched := by simp [State.goTo]
@[simp] theorem State.goTo_free (s : State) (i : Nat) (a : Word) : (s.goTo i a).free = s.free := by simp [State.goTo]
@[simp] theorem State.goTo_nextId (s : State) (i : Nat) (a : Word) : (s.goTo i a).nextId = s.nextId := by simp [State.goTo]
@[simp] theorem State.goTo_time (s : State) (i : Nat) (a : Word) : (s.goTo i a).time = s.time := by simp [State.goTo]
@[simp] theorem State.goTo_gangs (s : State) (i : Nat) (a : Word) : (s.goTo i a).gangs = s.gangs := by simp [State.goTo]
@[simp] theorem State.goTo_copies (s : State) (i : Nat) (a : Word) : (s.goTo i a).copies = s.copies := by simp [State.goTo]
@[simp] theorem State.goTo_promises (s : State) (i : Nat) (a : Word) : (s.goTo i a).promises = s.promises := by simp [State.goTo]
@[simp] theorem State.goTo_tileOps (s : State) (i : Nat) (a : Word) : (s.goTo i a).tileOps = s.tileOps := by simp [State.goTo]
@[simp] theorem State.goTo_mem (s : State) (i : Nat) (a : Word) : (s.goTo i a).mem = s.mem := by simp [State.goTo]
@[simp] theorem State.goTo_prog (s : State) (i : Nat) (a : Word) : (s.goTo i a).prog = s.prog := by simp [State.goTo]
@[simp] theorem State.goTo_mod (s : State) (i : Nat) (a : Word) : (s.goTo i a).mod = s.mod := by simp [State.goTo]
@[simp] theorem State.goTo_outbox (s : State) (i : Nat) (a : Word) : (s.goTo i a).outbox = s.outbox := by simp [State.goTo]

@[simp] theorem State.setS_cur (s : State) (i : Nat) (r : SReg) (x : TV) : (s.setS i r x).cur = s.cur := by simp [State.setS]
@[simp] theorem State.setS_sched (s : State) (i : Nat) (r : SReg) (x : TV) : (s.setS i r x).sched = s.sched := by simp [State.setS]
@[simp] theorem State.setS_free (s : State) (i : Nat) (r : SReg) (x : TV) : (s.setS i r x).free = s.free := by simp [State.setS]
@[simp] theorem State.setS_nextId (s : State) (i : Nat) (r : SReg) (x : TV) : (s.setS i r x).nextId = s.nextId := by simp [State.setS]
@[simp] theorem State.setS_time (s : State) (i : Nat) (r : SReg) (x : TV) : (s.setS i r x).time = s.time := by simp [State.setS]
@[simp] theorem State.setS_gangs (s : State) (i : Nat) (r : SReg) (x : TV) : (s.setS i r x).gangs = s.gangs := by simp [State.setS]
@[simp] theorem State.setS_copies (s : State) (i : Nat) (r : SReg) (x : TV) : (s.setS i r x).copies = s.copies := by simp [State.setS]
@[simp] theorem State.setS_promises (s : State) (i : Nat) (r : SReg) (x : TV) : (s.setS i r x).promises = s.promises := by simp [State.setS]
@[simp] theorem State.setS_tileOps (s : State) (i : Nat) (r : SReg) (x : TV) : (s.setS i r x).tileOps = s.tileOps := by simp [State.setS]
@[simp] theorem State.setS_prog (s : State) (i : Nat) (r : SReg) (x : TV) : (s.setS i r x).prog = s.prog := by simp [State.setS]
@[simp] theorem State.setS_mod (s : State) (i : Nat) (r : SReg) (x : TV) : (s.setS i r x).mod = s.mod := by simp [State.setS]
@[simp] theorem State.setS_outbox (s : State) (i : Nat) (r : SReg) (x : TV) : (s.setS i r x).outbox = s.outbox := by simp [State.setS]
@[simp] theorem State.setS_mem_mem (s : State) (i : Nat) (r : SReg) (x : TV) : (s.setS i r x).mem.mem = s.mem.mem := by simp [State.setS]
@[simp] theorem State.setS_mem_ds (s : State) (i : Nat) (r : SReg) (x : TV) : (s.setS i r x).mem.ds = s.mem.ds := by simp [State.setS]
@[simp] theorem State.setS_mem_l1 (s : State) (i : Nat) (r : SReg) (x : TV) : (s.setS i r x).mem.l1 = s.mem.l1 := by simp [State.setS]
@[simp] theorem State.setS_mem_cg (s : State) (i : Nat) (r : SReg) (x : TV) : (s.setS i r x).mem.cg = s.mem.cg := by simp [State.setS]
@[simp] theorem State.setS_mem_hz (s : State) (i : Nat) (r : SReg) (x : TV) : (s.setS i r x).mem.hz = s.mem.hz := by simp [State.setS]
@[simp] theorem State.setS_mem_flights (s : State) (i : Nat) (r : SReg) (x : TV) : (s.setS i r x).mem.flights = s.mem.flights := by simp [State.setS]
@[simp] theorem State.setS_mem_tlb (s : State) (i : Nat) (r : SReg) (x : TV) : (s.setS i r x).mem.tlb = s.mem.tlb := by simp [State.setS]
@[simp] theorem State.setS_mem_walks (s : State) (i : Nat) (r : SReg) (x : TV) : (s.setS i r x).mem.walks = s.mem.walks := by simp [State.setS]

@[simp] theorem State.completeOp_cur (s : State) (i : Nat) (c : CounterClass) (n : Nat) : (s.completeOp i c n).cur = s.cur := by simp [State.completeOp]
@[simp] theorem State.completeOp_sched (s : State) (i : Nat) (c : CounterClass) (n : Nat) : (s.completeOp i c n).sched = s.sched := by simp [State.completeOp]
@[simp] theorem State.completeOp_free (s : State) (i : Nat) (c : CounterClass) (n : Nat) : (s.completeOp i c n).free = s.free := by simp [State.completeOp]
@[simp] theorem State.completeOp_nextId (s : State) (i : Nat) (c : CounterClass) (n : Nat) : (s.completeOp i c n).nextId = s.nextId := by simp [State.completeOp]
@[simp] theorem State.completeOp_time (s : State) (i : Nat) (c : CounterClass) (n : Nat) : (s.completeOp i c n).time = s.time := by simp [State.completeOp]
@[simp] theorem State.completeOp_gangs (s : State) (i : Nat) (c : CounterClass) (n : Nat) : (s.completeOp i c n).gangs = s.gangs := by simp [State.completeOp]
@[simp] theorem State.completeOp_copies (s : State) (i : Nat) (c : CounterClass) (n : Nat) : (s.completeOp i c n).copies = s.copies := by simp [State.completeOp]
@[simp] theorem State.completeOp_promises (s : State) (i : Nat) (c : CounterClass) (n : Nat) : (s.completeOp i c n).promises = s.promises := by simp [State.completeOp]
@[simp] theorem State.completeOp_tileOps (s : State) (i : Nat) (c : CounterClass) (n : Nat) : (s.completeOp i c n).tileOps = s.tileOps := by simp [State.completeOp]
@[simp] theorem State.completeOp_mem (s : State) (i : Nat) (c : CounterClass) (n : Nat) : (s.completeOp i c n).mem = s.mem := by simp [State.completeOp]
@[simp] theorem State.completeOp_prog (s : State) (i : Nat) (c : CounterClass) (n : Nat) : (s.completeOp i c n).prog = s.prog := by simp [State.completeOp]
@[simp] theorem State.completeOp_mod (s : State) (i : Nat) (c : CounterClass) (n : Nat) : (s.completeOp i c n).mod = s.mod := by simp [State.completeOp]
@[simp] theorem State.completeOp_outbox (s : State) (i : Nat) (c : CounterClass) (n : Nat) : (s.completeOp i c n).outbox = s.outbox := by simp [State.completeOp]

/-! Of the module's records, each changes its own alone. -/

@[simp] theorem State.note_cur (s : State) (w : Words) : (s.note w).cur = s.cur := rfl
@[simp] theorem State.note_sched (s : State) (w : Words) : (s.note w).sched = s.sched := rfl
@[simp] theorem State.note_free (s : State) (w : Words) : (s.note w).free = s.free := rfl
@[simp] theorem State.note_nextId (s : State) (w : Words) : (s.note w).nextId = s.nextId := rfl
@[simp] theorem State.note_time (s : State) (w : Words) : (s.note w).time = s.time := rfl
@[simp] theorem State.note_harts (s : State) (w : Words) : (s.note w).harts = s.harts := rfl
@[simp] theorem State.note_gangs (s : State) (w : Words) : (s.note w).gangs = s.gangs := rfl
@[simp] theorem State.note_copies (s : State) (w : Words) : (s.note w).copies = s.copies := rfl
@[simp] theorem State.note_promises (s : State) (w : Words) : (s.note w).promises = s.promises := rfl
@[simp] theorem State.note_tileOps (s : State) (w : Words) : (s.note w).tileOps = s.tileOps := rfl
@[simp] theorem State.note_mem (s : State) (w : Words) : (s.note w).mem = s.mem := rfl
@[simp] theorem State.note_prog (s : State) (w : Words) : (s.note w).prog = s.prog := rfl
@[simp] theorem State.note_outbox (s : State) (w : Words) : (s.note w).outbox = s.outbox := rfl
@[simp] theorem State.note_mod_power (s : State) (w : Words) : (s.note w).mod.power = s.mod.power := rfl
@[simp] theorem State.note_mod_vfs (s : State) (w : Words) : (s.note w).mod.vfs = s.mod.vfs := rfl
@[simp] theorem State.note_mod_queues (s : State) (w : Words) : (s.note w).mod.queues = s.mod.queues := rfl
@[simp] theorem State.note_mod_cgrant (s : State) (w : Words) : (s.note w).mod.cgrant = s.mod.cgrant := rfl
@[simp] theorem State.note_mod_errcnt (s : State) (w : Words) : (s.note w).mod.errcnt = s.mod.errcnt := rfl
@[simp] theorem State.note_mod_nwin (s : State) (w : Words) : (s.note w).mod.nwin = s.mod.nwin := rfl
@[simp] theorem State.note_mod_peertab (s : State) (w : Words) : (s.note w).mod.peertab = s.mod.peertab := rfl
@[simp] theorem State.note_mod_monitors (s : State) (w : Words) : (s.note w).mod.monitors = s.mod.monitors := rfl
@[simp] theorem State.note_mod_owners (s : State) (w : Words) : (s.note w).mod.owners = s.mod.owners := rfl
@[simp] theorem State.note_mod_images (s : State) (w : Words) : (s.note w).mod.images = s.mod.images := rfl
@[simp] theorem State.note_mod_recorders (s : State) (w : Words) : (s.note w).mod.recorders = s.mod.recorders := rfl
@[simp] theorem State.note_mod_harbour (s : State) (w : Words) : (s.note w).mod.harbour = s.mod.harbour := rfl
@[simp] theorem State.note_mod_tests (s : State) (w : Words) : (s.note w).mod.tests = s.mod.tests := rfl
@[simp] theorem State.note_mod_quarParts (s : State) (w : Words) : (s.note w).mod.quarParts = s.mod.quarParts := rfl
@[simp] theorem State.note_mod_quarEngines (s : State) (w : Words) : (s.note w).mod.quarEngines = s.mod.quarEngines := rfl
@[simp] theorem State.note_mod_quarClusters (s : State) (w : Words) : (s.note w).mod.quarClusters = s.mod.quarClusters := rfl
@[simp] theorem State.note_mod_throttled (s : State) (w : Words) : (s.note w).mod.throttled = s.mod.throttled := rfl
@[simp] theorem State.note_mod_round (s : State) (w : Words) : (s.note w).mod.round = s.mod.round := rfl
@[simp] theorem State.note_mod_held (s : State) (w : Words) : (s.note w).mod.held = s.mod.held := rfl
@[simp] theorem State.note_mod_accepted (s : State) (w : Words) : (s.note w).mod.accepted = s.mod.accepted := rfl
@[simp] theorem State.note_mod_lists (s : State) (w : Words) : (s.note w).mod.lists = s.mod.lists := rfl

@[simp] theorem State.hold_cur (s : State) (d : Nat) (x : Held) : (s.hold d x).cur = s.cur := rfl
@[simp] theorem State.hold_sched (s : State) (d : Nat) (x : Held) : (s.hold d x).sched = s.sched := rfl
@[simp] theorem State.hold_free (s : State) (d : Nat) (x : Held) : (s.hold d x).free = s.free := rfl
@[simp] theorem State.hold_nextId (s : State) (d : Nat) (x : Held) : (s.hold d x).nextId = s.nextId := rfl
@[simp] theorem State.hold_time (s : State) (d : Nat) (x : Held) : (s.hold d x).time = s.time := rfl
@[simp] theorem State.hold_harts (s : State) (d : Nat) (x : Held) : (s.hold d x).harts = s.harts := rfl
@[simp] theorem State.hold_gangs (s : State) (d : Nat) (x : Held) : (s.hold d x).gangs = s.gangs := rfl
@[simp] theorem State.hold_copies (s : State) (d : Nat) (x : Held) : (s.hold d x).copies = s.copies := rfl
@[simp] theorem State.hold_promises (s : State) (d : Nat) (x : Held) : (s.hold d x).promises = s.promises := rfl
@[simp] theorem State.hold_tileOps (s : State) (d : Nat) (x : Held) : (s.hold d x).tileOps = s.tileOps := rfl
@[simp] theorem State.hold_mem (s : State) (d : Nat) (x : Held) : (s.hold d x).mem = s.mem := rfl
@[simp] theorem State.hold_prog (s : State) (d : Nat) (x : Held) : (s.hold d x).prog = s.prog := rfl
@[simp] theorem State.hold_outbox (s : State) (d : Nat) (x : Held) : (s.hold d x).outbox = s.outbox := rfl
@[simp] theorem State.hold_mod_power (s : State) (d : Nat) (x : Held) : (s.hold d x).mod.power = s.mod.power := rfl
@[simp] theorem State.hold_mod_vfs (s : State) (d : Nat) (x : Held) : (s.hold d x).mod.vfs = s.mod.vfs := rfl
@[simp] theorem State.hold_mod_queues (s : State) (d : Nat) (x : Held) : (s.hold d x).mod.queues = s.mod.queues := rfl
@[simp] theorem State.hold_mod_cgrant (s : State) (d : Nat) (x : Held) : (s.hold d x).mod.cgrant = s.mod.cgrant := rfl
@[simp] theorem State.hold_mod_errcnt (s : State) (d : Nat) (x : Held) : (s.hold d x).mod.errcnt = s.mod.errcnt := rfl
@[simp] theorem State.hold_mod_nwin (s : State) (d : Nat) (x : Held) : (s.hold d x).mod.nwin = s.mod.nwin := rfl
@[simp] theorem State.hold_mod_peertab (s : State) (d : Nat) (x : Held) : (s.hold d x).mod.peertab = s.mod.peertab := rfl
@[simp] theorem State.hold_mod_monitors (s : State) (d : Nat) (x : Held) : (s.hold d x).mod.monitors = s.mod.monitors := rfl
@[simp] theorem State.hold_mod_owners (s : State) (d : Nat) (x : Held) : (s.hold d x).mod.owners = s.mod.owners := rfl
@[simp] theorem State.hold_mod_images (s : State) (d : Nat) (x : Held) : (s.hold d x).mod.images = s.mod.images := rfl
@[simp] theorem State.hold_mod_recorders (s : State) (d : Nat) (x : Held) : (s.hold d x).mod.recorders = s.mod.recorders := rfl
@[simp] theorem State.hold_mod_harbour (s : State) (d : Nat) (x : Held) : (s.hold d x).mod.harbour = s.mod.harbour := rfl
@[simp] theorem State.hold_mod_tests (s : State) (d : Nat) (x : Held) : (s.hold d x).mod.tests = s.mod.tests := rfl
@[simp] theorem State.hold_mod_quarParts (s : State) (d : Nat) (x : Held) : (s.hold d x).mod.quarParts = s.mod.quarParts := rfl
@[simp] theorem State.hold_mod_quarEngines (s : State) (d : Nat) (x : Held) : (s.hold d x).mod.quarEngines = s.mod.quarEngines := rfl
@[simp] theorem State.hold_mod_quarClusters (s : State) (d : Nat) (x : Held) : (s.hold d x).mod.quarClusters = s.mod.quarClusters := rfl
@[simp] theorem State.hold_mod_throttled (s : State) (d : Nat) (x : Held) : (s.hold d x).mod.throttled = s.mod.throttled := rfl
@[simp] theorem State.hold_mod_round (s : State) (d : Nat) (x : Held) : (s.hold d x).mod.round = s.mod.round := rfl
@[simp] theorem State.hold_mod_log (s : State) (d : Nat) (x : Held) : (s.hold d x).mod.log = s.mod.log := rfl
@[simp] theorem State.hold_mod_accepted (s : State) (d : Nat) (x : Held) : (s.hold d x).mod.accepted = s.mod.accepted := rfl
@[simp] theorem State.hold_mod_lists (s : State) (d : Nat) (x : Held) : (s.hold d x).mod.lists = s.mod.lists := rfl

@[simp] theorem State.accept_cur (s : State) (a : Option OwnScope × HostCmd) : (s.accept a).cur = s.cur := rfl
@[simp] theorem State.accept_sched (s : State) (a : Option OwnScope × HostCmd) : (s.accept a).sched = s.sched := rfl
@[simp] theorem State.accept_free (s : State) (a : Option OwnScope × HostCmd) : (s.accept a).free = s.free := rfl
@[simp] theorem State.accept_nextId (s : State) (a : Option OwnScope × HostCmd) : (s.accept a).nextId = s.nextId := rfl
@[simp] theorem State.accept_time (s : State) (a : Option OwnScope × HostCmd) : (s.accept a).time = s.time := rfl
@[simp] theorem State.accept_harts (s : State) (a : Option OwnScope × HostCmd) : (s.accept a).harts = s.harts := rfl
@[simp] theorem State.accept_gangs (s : State) (a : Option OwnScope × HostCmd) : (s.accept a).gangs = s.gangs := rfl
@[simp] theorem State.accept_copies (s : State) (a : Option OwnScope × HostCmd) : (s.accept a).copies = s.copies := rfl
@[simp] theorem State.accept_promises (s : State) (a : Option OwnScope × HostCmd) : (s.accept a).promises = s.promises := rfl
@[simp] theorem State.accept_tileOps (s : State) (a : Option OwnScope × HostCmd) : (s.accept a).tileOps = s.tileOps := rfl
@[simp] theorem State.accept_mem (s : State) (a : Option OwnScope × HostCmd) : (s.accept a).mem = s.mem := rfl
@[simp] theorem State.accept_prog (s : State) (a : Option OwnScope × HostCmd) : (s.accept a).prog = s.prog := rfl
@[simp] theorem State.accept_outbox (s : State) (a : Option OwnScope × HostCmd) : (s.accept a).outbox = s.outbox := rfl
@[simp] theorem State.accept_mod_power (s : State) (a : Option OwnScope × HostCmd) : (s.accept a).mod.power = s.mod.power := rfl
@[simp] theorem State.accept_mod_vfs (s : State) (a : Option OwnScope × HostCmd) : (s.accept a).mod.vfs = s.mod.vfs := rfl
@[simp] theorem State.accept_mod_queues (s : State) (a : Option OwnScope × HostCmd) : (s.accept a).mod.queues = s.mod.queues := rfl
@[simp] theorem State.accept_mod_cgrant (s : State) (a : Option OwnScope × HostCmd) : (s.accept a).mod.cgrant = s.mod.cgrant := rfl
@[simp] theorem State.accept_mod_errcnt (s : State) (a : Option OwnScope × HostCmd) : (s.accept a).mod.errcnt = s.mod.errcnt := rfl
@[simp] theorem State.accept_mod_nwin (s : State) (a : Option OwnScope × HostCmd) : (s.accept a).mod.nwin = s.mod.nwin := rfl
@[simp] theorem State.accept_mod_peertab (s : State) (a : Option OwnScope × HostCmd) : (s.accept a).mod.peertab = s.mod.peertab := rfl
@[simp] theorem State.accept_mod_monitors (s : State) (a : Option OwnScope × HostCmd) : (s.accept a).mod.monitors = s.mod.monitors := rfl
@[simp] theorem State.accept_mod_owners (s : State) (a : Option OwnScope × HostCmd) : (s.accept a).mod.owners = s.mod.owners := rfl
@[simp] theorem State.accept_mod_images (s : State) (a : Option OwnScope × HostCmd) : (s.accept a).mod.images = s.mod.images := rfl
@[simp] theorem State.accept_mod_recorders (s : State) (a : Option OwnScope × HostCmd) : (s.accept a).mod.recorders = s.mod.recorders := rfl
@[simp] theorem State.accept_mod_harbour (s : State) (a : Option OwnScope × HostCmd) : (s.accept a).mod.harbour = s.mod.harbour := rfl
@[simp] theorem State.accept_mod_tests (s : State) (a : Option OwnScope × HostCmd) : (s.accept a).mod.tests = s.mod.tests := rfl
@[simp] theorem State.accept_mod_quarParts (s : State) (a : Option OwnScope × HostCmd) : (s.accept a).mod.quarParts = s.mod.quarParts := rfl
@[simp] theorem State.accept_mod_quarEngines (s : State) (a : Option OwnScope × HostCmd) : (s.accept a).mod.quarEngines = s.mod.quarEngines := rfl
@[simp] theorem State.accept_mod_quarClusters (s : State) (a : Option OwnScope × HostCmd) : (s.accept a).mod.quarClusters = s.mod.quarClusters := rfl
@[simp] theorem State.accept_mod_throttled (s : State) (a : Option OwnScope × HostCmd) : (s.accept a).mod.throttled = s.mod.throttled := rfl
@[simp] theorem State.accept_mod_round (s : State) (a : Option OwnScope × HostCmd) : (s.accept a).mod.round = s.mod.round := rfl
@[simp] theorem State.accept_mod_held (s : State) (a : Option OwnScope × HostCmd) : (s.accept a).mod.held = s.mod.held := rfl
@[simp] theorem State.accept_mod_log (s : State) (a : Option OwnScope × HostCmd) : (s.accept a).mod.log = s.mod.log := rfl
@[simp] theorem State.accept_mod_lists (s : State) (a : Option OwnScope × HostCmd) : (s.accept a).mod.lists = s.mod.lists := rfl

@[simp] theorem State.unaccept_cur (s : State) (a : Option OwnScope × HostCmd) : (s.unaccept a).cur = s.cur := rfl
@[simp] theorem State.unaccept_sched (s : State) (a : Option OwnScope × HostCmd) : (s.unaccept a).sched = s.sched := rfl
@[simp] theorem State.unaccept_free (s : State) (a : Option OwnScope × HostCmd) : (s.unaccept a).free = s.free := rfl
@[simp] theorem State.unaccept_nextId (s : State) (a : Option OwnScope × HostCmd) : (s.unaccept a).nextId = s.nextId := rfl
@[simp] theorem State.unaccept_time (s : State) (a : Option OwnScope × HostCmd) : (s.unaccept a).time = s.time := rfl
@[simp] theorem State.unaccept_harts (s : State) (a : Option OwnScope × HostCmd) : (s.unaccept a).harts = s.harts := rfl
@[simp] theorem State.unaccept_gangs (s : State) (a : Option OwnScope × HostCmd) : (s.unaccept a).gangs = s.gangs := rfl
@[simp] theorem State.unaccept_copies (s : State) (a : Option OwnScope × HostCmd) : (s.unaccept a).copies = s.copies := rfl
@[simp] theorem State.unaccept_promises (s : State) (a : Option OwnScope × HostCmd) : (s.unaccept a).promises = s.promises := rfl
@[simp] theorem State.unaccept_tileOps (s : State) (a : Option OwnScope × HostCmd) : (s.unaccept a).tileOps = s.tileOps := rfl
@[simp] theorem State.unaccept_mem (s : State) (a : Option OwnScope × HostCmd) : (s.unaccept a).mem = s.mem := rfl
@[simp] theorem State.unaccept_prog (s : State) (a : Option OwnScope × HostCmd) : (s.unaccept a).prog = s.prog := rfl
@[simp] theorem State.unaccept_outbox (s : State) (a : Option OwnScope × HostCmd) : (s.unaccept a).outbox = s.outbox := rfl
@[simp] theorem State.unaccept_mod_power (s : State) (a : Option OwnScope × HostCmd) : (s.unaccept a).mod.power = s.mod.power := rfl
@[simp] theorem State.unaccept_mod_vfs (s : State) (a : Option OwnScope × HostCmd) : (s.unaccept a).mod.vfs = s.mod.vfs := rfl
@[simp] theorem State.unaccept_mod_queues (s : State) (a : Option OwnScope × HostCmd) : (s.unaccept a).mod.queues = s.mod.queues := rfl
@[simp] theorem State.unaccept_mod_cgrant (s : State) (a : Option OwnScope × HostCmd) : (s.unaccept a).mod.cgrant = s.mod.cgrant := rfl
@[simp] theorem State.unaccept_mod_errcnt (s : State) (a : Option OwnScope × HostCmd) : (s.unaccept a).mod.errcnt = s.mod.errcnt := rfl
@[simp] theorem State.unaccept_mod_nwin (s : State) (a : Option OwnScope × HostCmd) : (s.unaccept a).mod.nwin = s.mod.nwin := rfl
@[simp] theorem State.unaccept_mod_peertab (s : State) (a : Option OwnScope × HostCmd) : (s.unaccept a).mod.peertab = s.mod.peertab := rfl
@[simp] theorem State.unaccept_mod_monitors (s : State) (a : Option OwnScope × HostCmd) : (s.unaccept a).mod.monitors = s.mod.monitors := rfl
@[simp] theorem State.unaccept_mod_owners (s : State) (a : Option OwnScope × HostCmd) : (s.unaccept a).mod.owners = s.mod.owners := rfl
@[simp] theorem State.unaccept_mod_images (s : State) (a : Option OwnScope × HostCmd) : (s.unaccept a).mod.images = s.mod.images := rfl
@[simp] theorem State.unaccept_mod_recorders (s : State) (a : Option OwnScope × HostCmd) : (s.unaccept a).mod.recorders = s.mod.recorders := rfl
@[simp] theorem State.unaccept_mod_harbour (s : State) (a : Option OwnScope × HostCmd) : (s.unaccept a).mod.harbour = s.mod.harbour := rfl
@[simp] theorem State.unaccept_mod_tests (s : State) (a : Option OwnScope × HostCmd) : (s.unaccept a).mod.tests = s.mod.tests := rfl
@[simp] theorem State.unaccept_mod_quarParts (s : State) (a : Option OwnScope × HostCmd) : (s.unaccept a).mod.quarParts = s.mod.quarParts := rfl
@[simp] theorem State.unaccept_mod_quarEngines (s : State) (a : Option OwnScope × HostCmd) : (s.unaccept a).mod.quarEngines = s.mod.quarEngines := rfl
@[simp] theorem State.unaccept_mod_quarClusters (s : State) (a : Option OwnScope × HostCmd) : (s.unaccept a).mod.quarClusters = s.mod.quarClusters := rfl
@[simp] theorem State.unaccept_mod_throttled (s : State) (a : Option OwnScope × HostCmd) : (s.unaccept a).mod.throttled = s.mod.throttled := rfl
@[simp] theorem State.unaccept_mod_round (s : State) (a : Option OwnScope × HostCmd) : (s.unaccept a).mod.round = s.mod.round := rfl
@[simp] theorem State.unaccept_mod_held (s : State) (a : Option OwnScope × HostCmd) : (s.unaccept a).mod.held = s.mod.held := rfl
@[simp] theorem State.unaccept_mod_log (s : State) (a : Option OwnScope × HostCmd) : (s.unaccept a).mod.log = s.mod.log := rfl
@[simp] theorem State.unaccept_mod_lists (s : State) (a : Option OwnScope × HostCmd) : (s.unaccept a).mod.lists = s.mod.lists := rfl

@[simp] theorem State.setScope_cur (s : State) (o : Ownership) : (s.setScope o).cur = s.cur := rfl
@[simp] theorem State.setScope_sched (s : State) (o : Ownership) : (s.setScope o).sched = s.sched := rfl
@[simp] theorem State.setScope_free (s : State) (o : Ownership) : (s.setScope o).free = s.free := rfl
@[simp] theorem State.setScope_nextId (s : State) (o : Ownership) : (s.setScope o).nextId = s.nextId := rfl
@[simp] theorem State.setScope_time (s : State) (o : Ownership) : (s.setScope o).time = s.time := rfl
@[simp] theorem State.setScope_harts (s : State) (o : Ownership) : (s.setScope o).harts = s.harts := rfl
@[simp] theorem State.setScope_gangs (s : State) (o : Ownership) : (s.setScope o).gangs = s.gangs := rfl
@[simp] theorem State.setScope_copies (s : State) (o : Ownership) : (s.setScope o).copies = s.copies := rfl
@[simp] theorem State.setScope_promises (s : State) (o : Ownership) : (s.setScope o).promises = s.promises := rfl
@[simp] theorem State.setScope_tileOps (s : State) (o : Ownership) : (s.setScope o).tileOps = s.tileOps := rfl
@[simp] theorem State.setScope_mem (s : State) (o : Ownership) : (s.setScope o).mem = s.mem := rfl
@[simp] theorem State.setScope_prog (s : State) (o : Ownership) : (s.setScope o).prog = s.prog := rfl
@[simp] theorem State.setScope_outbox (s : State) (o : Ownership) : (s.setScope o).outbox = s.outbox := rfl
@[simp] theorem State.setScope_mod_power (s : State) (o : Ownership) : (s.setScope o).mod.power = s.mod.power := rfl
@[simp] theorem State.setScope_mod_vfs (s : State) (o : Ownership) : (s.setScope o).mod.vfs = s.mod.vfs := rfl
@[simp] theorem State.setScope_mod_queues (s : State) (o : Ownership) : (s.setScope o).mod.queues = s.mod.queues := rfl
@[simp] theorem State.setScope_mod_cgrant (s : State) (o : Ownership) : (s.setScope o).mod.cgrant = s.mod.cgrant := rfl
@[simp] theorem State.setScope_mod_errcnt (s : State) (o : Ownership) : (s.setScope o).mod.errcnt = s.mod.errcnt := rfl
@[simp] theorem State.setScope_mod_nwin (s : State) (o : Ownership) : (s.setScope o).mod.nwin = s.mod.nwin := rfl
@[simp] theorem State.setScope_mod_peertab (s : State) (o : Ownership) : (s.setScope o).mod.peertab = s.mod.peertab := rfl
@[simp] theorem State.setScope_mod_monitors (s : State) (o : Ownership) : (s.setScope o).mod.monitors = s.mod.monitors := rfl
@[simp] theorem State.setScope_mod_images (s : State) (o : Ownership) : (s.setScope o).mod.images = s.mod.images := rfl
@[simp] theorem State.setScope_mod_recorders (s : State) (o : Ownership) : (s.setScope o).mod.recorders = s.mod.recorders := rfl
@[simp] theorem State.setScope_mod_harbour (s : State) (o : Ownership) : (s.setScope o).mod.harbour = s.mod.harbour := rfl
@[simp] theorem State.setScope_mod_tests (s : State) (o : Ownership) : (s.setScope o).mod.tests = s.mod.tests := rfl
@[simp] theorem State.setScope_mod_quarParts (s : State) (o : Ownership) : (s.setScope o).mod.quarParts = s.mod.quarParts := rfl
@[simp] theorem State.setScope_mod_quarEngines (s : State) (o : Ownership) : (s.setScope o).mod.quarEngines = s.mod.quarEngines := rfl
@[simp] theorem State.setScope_mod_quarClusters (s : State) (o : Ownership) : (s.setScope o).mod.quarClusters = s.mod.quarClusters := rfl
@[simp] theorem State.setScope_mod_throttled (s : State) (o : Ownership) : (s.setScope o).mod.throttled = s.mod.throttled := rfl
@[simp] theorem State.setScope_mod_round (s : State) (o : Ownership) : (s.setScope o).mod.round = s.mod.round := rfl
@[simp] theorem State.setScope_mod_held (s : State) (o : Ownership) : (s.setScope o).mod.held = s.mod.held := rfl
@[simp] theorem State.setScope_mod_log (s : State) (o : Ownership) : (s.setScope o).mod.log = s.mod.log := rfl
@[simp] theorem State.setScope_mod_accepted (s : State) (o : Ownership) : (s.setScope o).mod.accepted = s.mod.accepted := rfl
@[simp] theorem State.setScope_mod_lists (s : State) (o : Ownership) : (s.setScope o).mod.lists = s.mod.lists := rfl

@[simp] theorem State.setRecorder_cur (s : State) (v : Nat) (r : Recorder) : (s.setRecorder v r).cur = s.cur := rfl
@[simp] theorem State.setRecorder_sched (s : State) (v : Nat) (r : Recorder) : (s.setRecorder v r).sched = s.sched := rfl
@[simp] theorem State.setRecorder_free (s : State) (v : Nat) (r : Recorder) : (s.setRecorder v r).free = s.free := rfl
@[simp] theorem State.setRecorder_nextId (s : State) (v : Nat) (r : Recorder) : (s.setRecorder v r).nextId = s.nextId := rfl
@[simp] theorem State.setRecorder_time (s : State) (v : Nat) (r : Recorder) : (s.setRecorder v r).time = s.time := rfl
@[simp] theorem State.setRecorder_harts (s : State) (v : Nat) (r : Recorder) : (s.setRecorder v r).harts = s.harts := rfl
@[simp] theorem State.setRecorder_gangs (s : State) (v : Nat) (r : Recorder) : (s.setRecorder v r).gangs = s.gangs := rfl
@[simp] theorem State.setRecorder_copies (s : State) (v : Nat) (r : Recorder) : (s.setRecorder v r).copies = s.copies := rfl
@[simp] theorem State.setRecorder_promises (s : State) (v : Nat) (r : Recorder) : (s.setRecorder v r).promises = s.promises := rfl
@[simp] theorem State.setRecorder_tileOps (s : State) (v : Nat) (r : Recorder) : (s.setRecorder v r).tileOps = s.tileOps := rfl
@[simp] theorem State.setRecorder_mem (s : State) (v : Nat) (r : Recorder) : (s.setRecorder v r).mem = s.mem := rfl
@[simp] theorem State.setRecorder_prog (s : State) (v : Nat) (r : Recorder) : (s.setRecorder v r).prog = s.prog := rfl
@[simp] theorem State.setRecorder_outbox (s : State) (v : Nat) (r : Recorder) : (s.setRecorder v r).outbox = s.outbox := rfl
@[simp] theorem State.setRecorder_mod_power (s : State) (v : Nat) (r : Recorder) : (s.setRecorder v r).mod.power = s.mod.power := rfl
@[simp] theorem State.setRecorder_mod_vfs (s : State) (v : Nat) (r : Recorder) : (s.setRecorder v r).mod.vfs = s.mod.vfs := rfl
@[simp] theorem State.setRecorder_mod_queues (s : State) (v : Nat) (r : Recorder) : (s.setRecorder v r).mod.queues = s.mod.queues := rfl
@[simp] theorem State.setRecorder_mod_cgrant (s : State) (v : Nat) (r : Recorder) : (s.setRecorder v r).mod.cgrant = s.mod.cgrant := rfl
@[simp] theorem State.setRecorder_mod_errcnt (s : State) (v : Nat) (r : Recorder) : (s.setRecorder v r).mod.errcnt = s.mod.errcnt := rfl
@[simp] theorem State.setRecorder_mod_nwin (s : State) (v : Nat) (r : Recorder) : (s.setRecorder v r).mod.nwin = s.mod.nwin := rfl
@[simp] theorem State.setRecorder_mod_peertab (s : State) (v : Nat) (r : Recorder) : (s.setRecorder v r).mod.peertab = s.mod.peertab := rfl
@[simp] theorem State.setRecorder_mod_monitors (s : State) (v : Nat) (r : Recorder) : (s.setRecorder v r).mod.monitors = s.mod.monitors := rfl
@[simp] theorem State.setRecorder_mod_owners (s : State) (v : Nat) (r : Recorder) : (s.setRecorder v r).mod.owners = s.mod.owners := rfl
@[simp] theorem State.setRecorder_mod_images (s : State) (v : Nat) (r : Recorder) : (s.setRecorder v r).mod.images = s.mod.images := rfl
@[simp] theorem State.setRecorder_mod_harbour (s : State) (v : Nat) (r : Recorder) : (s.setRecorder v r).mod.harbour = s.mod.harbour := rfl
@[simp] theorem State.setRecorder_mod_tests (s : State) (v : Nat) (r : Recorder) : (s.setRecorder v r).mod.tests = s.mod.tests := rfl
@[simp] theorem State.setRecorder_mod_quarParts (s : State) (v : Nat) (r : Recorder) : (s.setRecorder v r).mod.quarParts = s.mod.quarParts := rfl
@[simp] theorem State.setRecorder_mod_quarEngines (s : State) (v : Nat) (r : Recorder) : (s.setRecorder v r).mod.quarEngines = s.mod.quarEngines := rfl
@[simp] theorem State.setRecorder_mod_quarClusters (s : State) (v : Nat) (r : Recorder) : (s.setRecorder v r).mod.quarClusters = s.mod.quarClusters := rfl
@[simp] theorem State.setRecorder_mod_throttled (s : State) (v : Nat) (r : Recorder) : (s.setRecorder v r).mod.throttled = s.mod.throttled := rfl
@[simp] theorem State.setRecorder_mod_round (s : State) (v : Nat) (r : Recorder) : (s.setRecorder v r).mod.round = s.mod.round := rfl
@[simp] theorem State.setRecorder_mod_held (s : State) (v : Nat) (r : Recorder) : (s.setRecorder v r).mod.held = s.mod.held := rfl
@[simp] theorem State.setRecorder_mod_log (s : State) (v : Nat) (r : Recorder) : (s.setRecorder v r).mod.log = s.mod.log := rfl
@[simp] theorem State.setRecorder_mod_accepted (s : State) (v : Nat) (r : Recorder) : (s.setRecorder v r).mod.accepted = s.mod.accepted := rfl
@[simp] theorem State.setRecorder_mod_lists (s : State) (v : Nat) (r : Recorder) : (s.setRecorder v r).mod.lists = s.mod.lists := rfl

@[simp] theorem State.setTest_cur (s : State) (c : Nat) (f : FieldTest) : (s.setTest c f).cur = s.cur := rfl
@[simp] theorem State.setTest_sched (s : State) (c : Nat) (f : FieldTest) : (s.setTest c f).sched = s.sched := rfl
@[simp] theorem State.setTest_free (s : State) (c : Nat) (f : FieldTest) : (s.setTest c f).free = s.free := rfl
@[simp] theorem State.setTest_nextId (s : State) (c : Nat) (f : FieldTest) : (s.setTest c f).nextId = s.nextId := rfl
@[simp] theorem State.setTest_time (s : State) (c : Nat) (f : FieldTest) : (s.setTest c f).time = s.time := rfl
@[simp] theorem State.setTest_harts (s : State) (c : Nat) (f : FieldTest) : (s.setTest c f).harts = s.harts := rfl
@[simp] theorem State.setTest_gangs (s : State) (c : Nat) (f : FieldTest) : (s.setTest c f).gangs = s.gangs := rfl
@[simp] theorem State.setTest_copies (s : State) (c : Nat) (f : FieldTest) : (s.setTest c f).copies = s.copies := rfl
@[simp] theorem State.setTest_promises (s : State) (c : Nat) (f : FieldTest) : (s.setTest c f).promises = s.promises := rfl
@[simp] theorem State.setTest_tileOps (s : State) (c : Nat) (f : FieldTest) : (s.setTest c f).tileOps = s.tileOps := rfl
@[simp] theorem State.setTest_mem (s : State) (c : Nat) (f : FieldTest) : (s.setTest c f).mem = s.mem := rfl
@[simp] theorem State.setTest_prog (s : State) (c : Nat) (f : FieldTest) : (s.setTest c f).prog = s.prog := rfl
@[simp] theorem State.setTest_outbox (s : State) (c : Nat) (f : FieldTest) : (s.setTest c f).outbox = s.outbox := rfl
@[simp] theorem State.setTest_mod_power (s : State) (c : Nat) (f : FieldTest) : (s.setTest c f).mod.power = s.mod.power := rfl
@[simp] theorem State.setTest_mod_vfs (s : State) (c : Nat) (f : FieldTest) : (s.setTest c f).mod.vfs = s.mod.vfs := rfl
@[simp] theorem State.setTest_mod_queues (s : State) (c : Nat) (f : FieldTest) : (s.setTest c f).mod.queues = s.mod.queues := rfl
@[simp] theorem State.setTest_mod_cgrant (s : State) (c : Nat) (f : FieldTest) : (s.setTest c f).mod.cgrant = s.mod.cgrant := rfl
@[simp] theorem State.setTest_mod_errcnt (s : State) (c : Nat) (f : FieldTest) : (s.setTest c f).mod.errcnt = s.mod.errcnt := rfl
@[simp] theorem State.setTest_mod_nwin (s : State) (c : Nat) (f : FieldTest) : (s.setTest c f).mod.nwin = s.mod.nwin := rfl
@[simp] theorem State.setTest_mod_peertab (s : State) (c : Nat) (f : FieldTest) : (s.setTest c f).mod.peertab = s.mod.peertab := rfl
@[simp] theorem State.setTest_mod_monitors (s : State) (c : Nat) (f : FieldTest) : (s.setTest c f).mod.monitors = s.mod.monitors := rfl
@[simp] theorem State.setTest_mod_owners (s : State) (c : Nat) (f : FieldTest) : (s.setTest c f).mod.owners = s.mod.owners := rfl
@[simp] theorem State.setTest_mod_images (s : State) (c : Nat) (f : FieldTest) : (s.setTest c f).mod.images = s.mod.images := rfl
@[simp] theorem State.setTest_mod_recorders (s : State) (c : Nat) (f : FieldTest) : (s.setTest c f).mod.recorders = s.mod.recorders := rfl
@[simp] theorem State.setTest_mod_harbour (s : State) (c : Nat) (f : FieldTest) : (s.setTest c f).mod.harbour = s.mod.harbour := rfl
@[simp] theorem State.setTest_mod_quarParts (s : State) (c : Nat) (f : FieldTest) : (s.setTest c f).mod.quarParts = s.mod.quarParts := rfl
@[simp] theorem State.setTest_mod_quarEngines (s : State) (c : Nat) (f : FieldTest) : (s.setTest c f).mod.quarEngines = s.mod.quarEngines := rfl
@[simp] theorem State.setTest_mod_quarClusters (s : State) (c : Nat) (f : FieldTest) : (s.setTest c f).mod.quarClusters = s.mod.quarClusters := rfl
@[simp] theorem State.setTest_mod_throttled (s : State) (c : Nat) (f : FieldTest) : (s.setTest c f).mod.throttled = s.mod.throttled := rfl
@[simp] theorem State.setTest_mod_round (s : State) (c : Nat) (f : FieldTest) : (s.setTest c f).mod.round = s.mod.round := rfl
@[simp] theorem State.setTest_mod_held (s : State) (c : Nat) (f : FieldTest) : (s.setTest c f).mod.held = s.mod.held := rfl
@[simp] theorem State.setTest_mod_log (s : State) (c : Nat) (f : FieldTest) : (s.setTest c f).mod.log = s.mod.log := rfl
@[simp] theorem State.setTest_mod_accepted (s : State) (c : Nat) (f : FieldTest) : (s.setTest c f).mod.accepted = s.mod.accepted := rfl
@[simp] theorem State.setTest_mod_lists (s : State) (c : Nat) (f : FieldTest) : (s.setTest c f).mod.lists = s.mod.lists := rfl

@[simp] theorem State.keepList_cur (s : State) (f : FieldTest) : (s.keepList f).cur = s.cur := rfl
@[simp] theorem State.keepList_sched (s : State) (f : FieldTest) : (s.keepList f).sched = s.sched := rfl
@[simp] theorem State.keepList_free (s : State) (f : FieldTest) : (s.keepList f).free = s.free := rfl
@[simp] theorem State.keepList_nextId (s : State) (f : FieldTest) : (s.keepList f).nextId = s.nextId := rfl
@[simp] theorem State.keepList_time (s : State) (f : FieldTest) : (s.keepList f).time = s.time := rfl
@[simp] theorem State.keepList_harts (s : State) (f : FieldTest) : (s.keepList f).harts = s.harts := rfl
@[simp] theorem State.keepList_gangs (s : State) (f : FieldTest) : (s.keepList f).gangs = s.gangs := rfl
@[simp] theorem State.keepList_copies (s : State) (f : FieldTest) : (s.keepList f).copies = s.copies := rfl
@[simp] theorem State.keepList_promises (s : State) (f : FieldTest) : (s.keepList f).promises = s.promises := rfl
@[simp] theorem State.keepList_tileOps (s : State) (f : FieldTest) : (s.keepList f).tileOps = s.tileOps := rfl
@[simp] theorem State.keepList_mem (s : State) (f : FieldTest) : (s.keepList f).mem = s.mem := rfl
@[simp] theorem State.keepList_prog (s : State) (f : FieldTest) : (s.keepList f).prog = s.prog := rfl
@[simp] theorem State.keepList_outbox (s : State) (f : FieldTest) : (s.keepList f).outbox = s.outbox := rfl
@[simp] theorem State.keepList_mod_power (s : State) (f : FieldTest) : (s.keepList f).mod.power = s.mod.power := rfl
@[simp] theorem State.keepList_mod_vfs (s : State) (f : FieldTest) : (s.keepList f).mod.vfs = s.mod.vfs := rfl
@[simp] theorem State.keepList_mod_queues (s : State) (f : FieldTest) : (s.keepList f).mod.queues = s.mod.queues := rfl
@[simp] theorem State.keepList_mod_cgrant (s : State) (f : FieldTest) : (s.keepList f).mod.cgrant = s.mod.cgrant := rfl
@[simp] theorem State.keepList_mod_errcnt (s : State) (f : FieldTest) : (s.keepList f).mod.errcnt = s.mod.errcnt := rfl
@[simp] theorem State.keepList_mod_nwin (s : State) (f : FieldTest) : (s.keepList f).mod.nwin = s.mod.nwin := rfl
@[simp] theorem State.keepList_mod_peertab (s : State) (f : FieldTest) : (s.keepList f).mod.peertab = s.mod.peertab := rfl
@[simp] theorem State.keepList_mod_monitors (s : State) (f : FieldTest) : (s.keepList f).mod.monitors = s.mod.monitors := rfl
@[simp] theorem State.keepList_mod_owners (s : State) (f : FieldTest) : (s.keepList f).mod.owners = s.mod.owners := rfl
@[simp] theorem State.keepList_mod_images (s : State) (f : FieldTest) : (s.keepList f).mod.images = s.mod.images := rfl
@[simp] theorem State.keepList_mod_recorders (s : State) (f : FieldTest) : (s.keepList f).mod.recorders = s.mod.recorders := rfl
@[simp] theorem State.keepList_mod_harbour (s : State) (f : FieldTest) : (s.keepList f).mod.harbour = s.mod.harbour := rfl
@[simp] theorem State.keepList_mod_tests (s : State) (f : FieldTest) : (s.keepList f).mod.tests = s.mod.tests := rfl
@[simp] theorem State.keepList_mod_quarParts (s : State) (f : FieldTest) : (s.keepList f).mod.quarParts = s.mod.quarParts := rfl
@[simp] theorem State.keepList_mod_quarEngines (s : State) (f : FieldTest) : (s.keepList f).mod.quarEngines = s.mod.quarEngines := rfl
@[simp] theorem State.keepList_mod_quarClusters (s : State) (f : FieldTest) : (s.keepList f).mod.quarClusters = s.mod.quarClusters := rfl
@[simp] theorem State.keepList_mod_throttled (s : State) (f : FieldTest) : (s.keepList f).mod.throttled = s.mod.throttled := rfl
@[simp] theorem State.keepList_mod_round (s : State) (f : FieldTest) : (s.keepList f).mod.round = s.mod.round := rfl
@[simp] theorem State.keepList_mod_held (s : State) (f : FieldTest) : (s.keepList f).mod.held = s.mod.held := rfl
@[simp] theorem State.keepList_mod_log (s : State) (f : FieldTest) : (s.keepList f).mod.log = s.mod.log := rfl
@[simp] theorem State.keepList_mod_accepted (s : State) (f : FieldTest) : (s.keepList f).mod.accepted = s.mod.accepted := rfl

@[simp] theorem State.note_log (s : State) (w : Words) : (s.note w).mod.log = s.mod.log ++ [w] := rfl
@[simp] theorem State.hold_held (s : State) (d : Nat) (x : Held) : (s.hold d x).mod.held = s.mod.held ++ [(d, x)] := rfl
@[simp] theorem State.accept_accepted (s : State) (a : Option OwnScope × HostCmd) :
    (s.accept a).mod.accepted = s.mod.accepted ++ [a] := rfl

/-- A record goes out, or is held for its die's standby (R366); nothing else of the state changes. -/
theorem State.record_rest (s : State) (vf : Nat) (w : Words) :
    s.record vf w = { s with outbox := (s.record vf w).outbox, mod := { s.mod with held := (s.record vf w).mod.held } } := by
  unfold State.record
  split <;> rfl

/-! ### What a return, an answer forgotten and a moment of writes do -/

@[simp] theorem State.forgetAnswers_cur (s : State) (c n : Nat) : (s.forgetAnswers c n).cur = s.cur := rfl
@[simp] theorem State.forgetAnswers_sched (s : State) (c n : Nat) : (s.forgetAnswers c n).sched = s.sched := rfl
@[simp] theorem State.forgetAnswers_free (s : State) (c n : Nat) : (s.forgetAnswers c n).free = s.free := rfl
@[simp] theorem State.forgetAnswers_nextId (s : State) (c n : Nat) : (s.forgetAnswers c n).nextId = s.nextId := rfl
@[simp] theorem State.forgetAnswers_time (s : State) (c n : Nat) : (s.forgetAnswers c n).time = s.time := rfl
@[simp] theorem State.forgetAnswers_gangs (s : State) (c n : Nat) : (s.forgetAnswers c n).gangs = s.gangs := rfl
@[simp] theorem State.forgetAnswers_copies (s : State) (c n : Nat) : (s.forgetAnswers c n).copies = s.copies := rfl
@[simp] theorem State.forgetAnswers_promises (s : State) (c n : Nat) : (s.forgetAnswers c n).promises = s.promises := rfl
@[simp] theorem State.forgetAnswers_tileOps (s : State) (c n : Nat) : (s.forgetAnswers c n).tileOps = s.tileOps := rfl
@[simp] theorem State.forgetAnswers_mem (s : State) (c n : Nat) : (s.forgetAnswers c n).mem = s.mem := rfl
@[simp] theorem State.forgetAnswers_prog (s : State) (c n : Nat) : (s.forgetAnswers c n).prog = s.prog := rfl
@[simp] theorem State.forgetAnswers_mod (s : State) (c n : Nat) : (s.forgetAnswers c n).mod = s.mod := rfl
@[simp] theorem State.forgetAnswers_outbox (s : State) (c n : Nat) : (s.forgetAnswers c n).outbox = s.outbox := rfl

/-- The result of an access goes to its register, or, where it was issued before a running handler's entry and the register
is one of s56 to s61, to that register's hidden slot (R359). -/
theorem State.returnS_cases (s : State) (hid op : Nat) (r : SReg) (x : TV) :
    s.returnS hid op r x = s.setS hid r x ∨ ∃ h t, s.hart? hid = some h ∧ h.trapped = some t ∧ op < t.since ∧ r ∈ windowRegs ∧
      s.returnS hid op r x = (s.modHart hid fun h =>
        { h with trapped := some { t with saved := t.saved.set (r.toNat - 56) x } }).clearUpset (.scalarReg hid (hiddenSlot r)) := by
  unfold State.returnS
  split
  · rename_i t e
    split
    · rename_i c
      obtain ⟨h, a, b⟩ := Option.bind_eq_some_iff.1 e
      simp only [Bool.and_eq_true, decide_eq_true_eq, List.contains_iff_mem] at c
      exact .inr ⟨h, t, a, b, c.1, c.2, rfl⟩
    · exact .inl rfl
  · exact .inl rfl

/-- With no handler running, a result goes to its register. -/
theorem State.returnS_plain {s : State} {hid : Nat} {h : Hart} (op : Nat) (r : SReg) (x : TV) (a : s.hart? hid = some h)
    (n : h.trapped = none) : s.returnS hid op r x = s.setS hid r x := by
  simp [State.returnS, a, n]

@[simp] theorem State.setQuota_cur (s : State) (vf n : Nat) : (s.setQuota vf n).cur = s.cur := rfl
@[simp] theorem State.setQuota_sched (s : State) (vf n : Nat) : (s.setQuota vf n).sched = s.sched := rfl
@[simp] theorem State.setQuota_free (s : State) (vf n : Nat) : (s.setQuota vf n).free = s.free := rfl
@[simp] theorem State.setQuota_nextId (s : State) (vf n : Nat) : (s.setQuota vf n).nextId = s.nextId := rfl
@[simp] theorem State.setQuota_time (s : State) (vf n : Nat) : (s.setQuota vf n).time = s.time := rfl
@[simp] theorem State.setQuota_harts (s : State) (vf n : Nat) : (s.setQuota vf n).harts = s.harts := rfl
@[simp] theorem State.setQuota_gangs (s : State) (vf n : Nat) : (s.setQuota vf n).gangs = s.gangs := rfl
@[simp] theorem State.setQuota_copies (s : State) (vf n : Nat) : (s.setQuota vf n).copies = s.copies := rfl
@[simp] theorem State.setQuota_promises (s : State) (vf n : Nat) : (s.setQuota vf n).promises = s.promises := rfl
@[simp] theorem State.setQuota_tileOps (s : State) (vf n : Nat) : (s.setQuota vf n).tileOps = s.tileOps := rfl
@[simp] theorem State.setQuota_mem (s : State) (vf n : Nat) : (s.setQuota vf n).mem = s.mem := rfl
@[simp] theorem State.setQuota_prog (s : State) (vf n : Nat) : (s.setQuota vf n).prog = s.prog := rfl
@[simp] theorem State.setQuota_outbox (s : State) (vf n : Nat) : (s.setQuota vf n).outbox = s.outbox := rfl

@[simp] theorem State.stallsOn_cur (s : State) (i : Nat) (b : Bool) (c : CounterClass) : (s.stallsOn i b c).cur = s.cur := by simp [State.stallsOn]
@[simp] theorem State.stallsOn_sched (s : State) (i : Nat) (b : Bool) (c : CounterClass) : (s.stallsOn i b c).sched = s.sched := by simp [State.stallsOn]
@[simp] theorem State.stallsOn_free (s : State) (i : Nat) (b : Bool) (c : CounterClass) : (s.stallsOn i b c).free = s.free := by simp [State.stallsOn]
@[simp] theorem State.stallsOn_nextId (s : State) (i : Nat) (b : Bool) (c : CounterClass) : (s.stallsOn i b c).nextId = s.nextId := by simp [State.stallsOn]
@[simp] theorem State.stallsOn_time (s : State) (i : Nat) (b : Bool) (c : CounterClass) : (s.stallsOn i b c).time = s.time := by simp [State.stallsOn]
@[simp] theorem State.stallsOn_gangs (s : State) (i : Nat) (b : Bool) (c : CounterClass) : (s.stallsOn i b c).gangs = s.gangs := by simp [State.stallsOn]
@[simp] theorem State.stallsOn_copies (s : State) (i : Nat) (b : Bool) (c : CounterClass) : (s.stallsOn i b c).copies = s.copies := by simp [State.stallsOn]
@[simp] theorem State.stallsOn_promises (s : State) (i : Nat) (b : Bool) (c : CounterClass) : (s.stallsOn i b c).promises = s.promises := by simp [State.stallsOn]
@[simp] theorem State.stallsOn_tileOps (s : State) (i : Nat) (b : Bool) (c : CounterClass) : (s.stallsOn i b c).tileOps = s.tileOps := by simp [State.stallsOn]
@[simp] theorem State.stallsOn_mem (s : State) (i : Nat) (b : Bool) (c : CounterClass) : (s.stallsOn i b c).mem = s.mem := by simp [State.stallsOn]
@[simp] theorem State.stallsOn_prog (s : State) (i : Nat) (b : Bool) (c : CounterClass) : (s.stallsOn i b c).prog = s.prog := by simp [State.stallsOn]
@[simp] theorem State.stallsOn_mod (s : State) (i : Nat) (b : Bool) (c : CounterClass) : (s.stallsOn i b c).mod = s.mod := by simp [State.stallsOn]
@[simp] theorem State.stallsOn_outbox (s : State) (i : Nat) (b : Bool) (c : CounterClass) : (s.stallsOn i b c).outbox = s.outbox := by simp [State.stallsOn]

@[simp] theorem State.putLaneUpsets_cur (s : State) (i : Nat) (xs : List (Nat × Nat)) : (s.putLaneUpsets i xs).cur = s.cur := by unfold State.putLaneUpsets; split <;> rfl
@[simp] theorem State.putLaneUpsets_sched (s : State) (i : Nat) (xs : List (Nat × Nat)) : (s.putLaneUpsets i xs).sched = s.sched := by unfold State.putLaneUpsets; split <;> rfl
@[simp] theorem State.putLaneUpsets_free (s : State) (i : Nat) (xs : List (Nat × Nat)) : (s.putLaneUpsets i xs).free = s.free := by unfold State.putLaneUpsets; split <;> rfl
@[simp] theorem State.putLaneUpsets_nextId (s : State) (i : Nat) (xs : List (Nat × Nat)) : (s.putLaneUpsets i xs).nextId = s.nextId := by unfold State.putLaneUpsets; split <;> rfl
@[simp] theorem State.putLaneUpsets_time (s : State) (i : Nat) (xs : List (Nat × Nat)) : (s.putLaneUpsets i xs).time = s.time := by unfold State.putLaneUpsets; split <;> rfl
@[simp] theorem State.putLaneUpsets_harts (s : State) (i : Nat) (xs : List (Nat × Nat)) : (s.putLaneUpsets i xs).harts = s.harts := by unfold State.putLaneUpsets; split <;> rfl
@[simp] theorem State.putLaneUpsets_gangs (s : State) (i : Nat) (xs : List (Nat × Nat)) : (s.putLaneUpsets i xs).gangs = s.gangs := by unfold State.putLaneUpsets; split <;> rfl
@[simp] theorem State.putLaneUpsets_copies (s : State) (i : Nat) (xs : List (Nat × Nat)) : (s.putLaneUpsets i xs).copies = s.copies := by unfold State.putLaneUpsets; split <;> rfl
@[simp] theorem State.putLaneUpsets_promises (s : State) (i : Nat) (xs : List (Nat × Nat)) : (s.putLaneUpsets i xs).promises = s.promises := by unfold State.putLaneUpsets; split <;> rfl
@[simp] theorem State.putLaneUpsets_tileOps (s : State) (i : Nat) (xs : List (Nat × Nat)) : (s.putLaneUpsets i xs).tileOps = s.tileOps := by unfold State.putLaneUpsets; split <;> rfl
@[simp] theorem State.putLaneUpsets_prog (s : State) (i : Nat) (xs : List (Nat × Nat)) : (s.putLaneUpsets i xs).prog = s.prog := by unfold State.putLaneUpsets; split <;> rfl
@[simp] theorem State.putLaneUpsets_mod (s : State) (i : Nat) (xs : List (Nat × Nat)) : (s.putLaneUpsets i xs).mod = s.mod := by unfold State.putLaneUpsets; split <;> rfl
@[simp] theorem State.putLaneUpsets_outbox (s : State) (i : Nat) (xs : List (Nat × Nat)) : (s.putLaneUpsets i xs).outbox = s.outbox := by unfold State.putLaneUpsets; split <;> rfl
@[simp] theorem State.putLaneUpsets_mem_mem (s : State) (i : Nat) (xs : List (Nat × Nat)) : (s.putLaneUpsets i xs).mem.mem = s.mem.mem := by unfold State.putLaneUpsets; split <;> rfl
@[simp] theorem State.putLaneUpsets_mem_ds (s : State) (i : Nat) (xs : List (Nat × Nat)) : (s.putLaneUpsets i xs).mem.ds = s.mem.ds := by unfold State.putLaneUpsets; split <;> rfl
@[simp] theorem State.putLaneUpsets_mem_l1 (s : State) (i : Nat) (xs : List (Nat × Nat)) : (s.putLaneUpsets i xs).mem.l1 = s.mem.l1 := by unfold State.putLaneUpsets; split <;> rfl
@[simp] theorem State.putLaneUpsets_mem_cg (s : State) (i : Nat) (xs : List (Nat × Nat)) : (s.putLaneUpsets i xs).mem.cg = s.mem.cg := by unfold State.putLaneUpsets; split <;> rfl
@[simp] theorem State.putLaneUpsets_mem_hz (s : State) (i : Nat) (xs : List (Nat × Nat)) : (s.putLaneUpsets i xs).mem.hz = s.mem.hz := by unfold State.putLaneUpsets; split <;> rfl
@[simp] theorem State.putLaneUpsets_mem_flights (s : State) (i : Nat) (xs : List (Nat × Nat)) : (s.putLaneUpsets i xs).mem.flights = s.mem.flights := by unfold State.putLaneUpsets; split <;> rfl
@[simp] theorem State.putLaneUpsets_mem_tlb (s : State) (i : Nat) (xs : List (Nat × Nat)) : (s.putLaneUpsets i xs).mem.tlb = s.mem.tlb := by unfold State.putLaneUpsets; split <;> rfl
@[simp] theorem State.putLaneUpsets_mem_walks (s : State) (i : Nat) (xs : List (Nat × Nat)) : (s.putLaneUpsets i xs).mem.walks = s.mem.walks := by unfold State.putLaneUpsets; split <;> rfl

/-- Every hart but the one that stalls is as before, and that one in its marks alone. -/
theorem State.hart?_stallsOn (s : State) (i j : Nat) (b : Bool) (c : CounterClass) : (s.stallsOn i b c).hart? j =
    if j = i then (s.hart? i).map fun h => if b then { h with stallS := some c } else { h with stallL := some c }
    else s.hart? j := by
  simp only [State.stallsOn, State.hart?_modHart]

@[simp] theorem State.quotaOf_setQuota (s : State) (v w n : Nat) : (s.setQuota v n).quotaOf w = if w = v then n else s.quotaOf w := by
  simp only [State.quotaOf, State.setQuota, SMapOps.get_set]

/-- One lane's value is in agreement with itself (R71). -/
theorem agree_one (a : LaneAcc) (v : View) : agree [(a, v)] = [(a, v)] := by
  by_cases h : a.mt = .device <;> simp [agree, h]

/-- The writes of one moment become at most one entry of each open split. -/
theorem Hart.atOnce_older (h : Hart) (f : Hart → Hart) :
    (h.atOnce f).older = h.older ∨ ∃ ws, (h.atOnce f).older = h.older.map (ws :: ·) := by
  unfold Hart.atOnce
  dsimp only
  split
  · exact .inl rfl
  · exact .inr ⟨_, rfl⟩

end Sys2Proof.Machine
end

