-- ==== Sys2Proof/Laws/Memory.lean ====
section
/-! SUPPORT. The laws of memory: a byte reads as last written, every operation keeps the canonical form, and what the
operations of the die stores and the L1s do to the bytes of GDDR. -/

namespace Sys2Proof.Machine

/-! ### Bytes -/

theorem byteAt_setByte (m : List Host.Cell) (a b : Nat) (x : Byte) :
    byteAt (setByte m a x) b = if b = a then x else byteAt m b := SMapOps.get_set ..

theorem byteAt_setBytes (m : List Host.Cell) (a b : Nat) (xs : List Byte) :
    byteAt (setBytes m a xs) b = if a ≤ b ∧ b < a + xs.length then xs.getD (b - a) 0 else byteAt m b := by
  induction xs generalizing m a with
  | nil => grind [setBytes]
  | cons x xs ih =>
    rw [setBytes, ih, byteAt_setByte]
    by_cases h : b = a
    · subst h; simp <;> omega
    · by_cases l : a + 1 ≤ b
      · obtain ⟨n, rfl⟩ : ∃ n, b = a + 1 + n := ⟨b - (a + 1), by omega⟩
        simp [show a + 1 + n - a = n + 1 by omega, show a + 1 + n - (a + 1) = n by omega]
        grind
      · grind

theorem setByte_wf {m : List Host.Cell} (a : Nat) (x : Byte) (w : Memory.wf m) : Memory.wf (setByte m a x) :=
  SMapOps.wf_set memDefault a x w

theorem setBytes_wf {m : List Host.Cell} (a : Nat) (xs : List Byte) (w : Memory.wf m) : Memory.wf (setBytes m a xs) := by
  induction xs generalizing m a with
  | nil => exact w
  | cons x xs ih => exact ih (a + 1) (setByte_wf a x w)

theorem gddrWrite_wf {m : List Host.Cell} (n : Nat) (d : SectorData) (p x : Bool) (w : Memory.wf m) :
    Memory.wf (gddrWrite m n d p x) := setBytes_wf _ _ (setBytes_wf _ _ w)

theorem flipStored_wf {m : List Host.Cell} (n b : Nat) (w : Memory.wf m) : Memory.wf (flipStored m n b) := by
  unfold flipStored
  dsimp only
  split
  · exact setByte_wf _ _ w
  · exact w

theorem flipAll_wf (n : Nat) (bs : List Nat) {m : List Host.Cell} (w : Memory.wf m) :
    Memory.wf (bs.foldl (fun m b => flipStored m n b) m) := by
  induction bs generalizing m with
  | nil => exact w
  | cons b bs ih => exact ih (flipStored_wf n b w)

/-- Memory right after reset lists nothing. -/
@[simp] theorem reset_mem : State.reset.mem.mem = [] := rfl

theorem reset_wf : Memory.wf State.reset.mem.mem := rfl

/-! ### Homes and L1s: only an eviction and a metadata write change GDDR -/

theorem homeEvict_wf (s : State) (n : Nat) (w : Memory.wf s.mem.mem) : Memory.wf (s.homeEvict n).mem.mem := by
  unfold State.homeEvict
  split
  · split
    · exact gddrWrite_wf _ _ _ _ w
    · exact w
  · exact w

theorem homeEvicts_wf (ns : List Nat) {s : State} (w : Memory.wf s.mem.mem) :
    Memory.wf (ns.foldl State.homeEvict s).mem.mem := by
  induction ns generalizing s with
  | nil => exact w
  | cons n ns ih => exact ih (homeEvict_wf s n w)

theorem metaWrite_wf (s : State) (n x : Nat) (w : Memory.wf s.mem.mem) : Memory.wf (s.metaWrite n x).mem.mem :=
  setBytes_wf _ _ (homeEvict_wf s n w)

@[simp] theorem countErr_mem (s : State) (die lo w : Nat) : (s.countErr die lo w).mem = s.mem := rfl
@[simp] theorem countCE_mem (s : State) (die : Nat) : (s.countCE die).mem = s.mem := rfl
@[simp] theorem countUE_mem (s : State) (die : Nat) : (s.countUE die).mem = s.mem := rfl
@[simp] theorem countErr_harts (s : State) (die lo w : Nat) : (s.countErr die lo w).harts = s.harts := rfl
@[simp] theorem countErr_dsGet (s : State) (die lo w n : Nat) : (s.countErr die lo w).dsGet n = s.dsGet n := rfl

/-- An eviction changes a die store and GDDR alone. -/
@[simp] theorem homeEvict_harts (s : State) (n : Nat) : (s.homeEvict n).harts = s.harts := by
  unfold State.homeEvict; split
  · dsimp only; split <;> rfl
  · rfl
@[simp] theorem homeEvict_outbox (s : State) (n : Nat) : (s.homeEvict n).outbox = s.outbox := by
  unfold State.homeEvict; split
  · dsimp only; split <;> rfl
  · rfl
@[simp] theorem homeRoom_harts (s : State) (n : Nat) : (s.homeRoom n).harts = s.harts := by
  unfold State.homeRoom; split <;> simp
@[simp] theorem homeRoom_outbox (s : State) (n : Nat) : (s.homeRoom n).outbox = s.outbox := by
  unfold State.homeRoom; split <;> simp

/-- Where nothing is displaced, making room changes nothing. -/
theorem homeRoom_none {s : State} {n : Nat} (v : s.dieVictim n = none) : s.homeRoom n = s := by
  simp [State.homeRoom, v]

theorem homeRoom_wf (s : State) (n : Nat) (w : Memory.wf s.mem.mem) : Memory.wf (s.homeRoom n).mem.mem := by
  unfold State.homeRoom
  split
  · exact homeEvicts_wf _ w
  · exact w

/-- What a read at a home does: it may make room, install the sector and count a corrected or uncorrectable error. -/
theorem homeRead_cases (s : State) (n : Nat) :
    (∃ d, s.dsGet n = some d ∧ s.homeRead n = (s, d)) ∨
    (s.dsGet n = none ∧ (s.homeRead n).2 = (gddrRead (s.homeRoom n).mem.mem n).1 ∧
      ∃ e, (s.homeRead n).1 =
        { (s.homeRoom n).dsSet n (some (gddrRead (s.homeRoom n).mem.mem n).1) with
          mod := { (s.homeRoom n).mod with errcnt := e } }) := by
  unfold State.homeRead
  cases h : s.dsGet n with
  | some d => exact .inl ⟨d, rfl, rfl⟩
  | none =>
    refine .inr ⟨rfl, ?_, ?_⟩
    · dsimp only; split <;> rfl
    · dsimp only; split <;> exact ⟨_, rfl⟩

theorem homeRead_wf (s : State) (n : Nat) (w : Memory.wf s.mem.mem) : Memory.wf (s.homeRead n).1.mem.mem := by
  rcases homeRead_cases s n with ⟨d, _, h⟩ | ⟨_, _, e, h⟩
  · rw [h]; exact w
  · rw [h]; exact homeRoom_wf s n w

/-- Where nothing is displaced, a read at a home leaves GDDR alone. -/
theorem homeRead_mem_mem {s : State} {n : Nat} (v : s.dieVictim n = none) : (s.homeRead n).1.mem.mem = s.mem.mem := by
  rcases homeRead_cases s n with ⟨d, _, h⟩ | ⟨_, _, e, h⟩
  · rw [h]
  · rw [h, homeRoom_none v]; rfl

@[simp] theorem homeRead_harts (s : State) (n : Nat) : (s.homeRead n).1.harts = s.harts := by
  rcases homeRead_cases s n with ⟨d, _, h⟩ | ⟨_, _, e, h⟩ <;> rw [h] <;> simp

@[simp] theorem homeRead_outbox (s : State) (n : Nat) : (s.homeRead n).1.outbox = s.outbox := by
  rcases homeRead_cases s n with ⟨d, _, h⟩ | ⟨_, _, e, h⟩ <;> rw [h] <;> simp

/-- After a read at its home a sector is held there, as read. -/
@[simp] theorem homeRead_dsGet_self (s : State) (n : Nat) : (s.homeRead n).1.dsGet n = some (s.homeRead n).2 := by
  rcases homeRead_cases s n with ⟨d, g, h⟩ | ⟨g, v, e, h⟩
  · rw [h]; exact g
  · rw [h, v]; exact (State.dsGet_dsSet ..).trans (if_pos rfl)

/-- The other sectors stay as the making of room leaves them. -/
theorem homeRead_dsGet {s : State} {n m : Nat} (v : s.dieVictim n = none) (ne : m ≠ n) :
    (s.homeRead n).1.dsGet m = s.dsGet m := by
  rcases homeRead_cases s n with ⟨d, g, h⟩ | ⟨g, _, e, h⟩
  · rw [h]
  · rw [h, homeRoom_none v]; exact (State.dsGet_dsSet ..).trans (if_neg ne)

/-- A sector that a die store holds is read from there, and nothing changes. -/
theorem homeRead_held {s : State} {n : Nat} {d : DsSector} (h : s.dsGet n = some d) : s.homeRead n = (s, d) := by
  simp [State.homeRead, h]

/-- A write at a home: the sector it names holds the merge of the write over what was there. -/
theorem homeWrite_dsGet_self (s : State) (w : SWrite) :
    (s.homeWrite w).dsGet w.sector =
      some (applyWrite (if w.fc = true ∧ w.mask = BitVec.allOnes 128 ∧ s.dsGet w.sector = none then ⟨true, 0, false, false⟩
        else (s.homeRead w.sector).2) w) := by
  unfold State.homeWrite
  split
  · rename_i h
    simp only [Bool.and_eq_true, Option.isNone_iff_eq_none, decide_eq_true_eq, and_assoc] at h
    rw [State.dsGet_dsSet, if_pos rfl, if_pos h]
  · rename_i h
    simp only [Bool.and_eq_true, Option.isNone_iff_eq_none, decide_eq_true_eq, and_assoc] at h
    dsimp only
    rw [State.dsGet_dsSet, if_pos rfl, if_neg h]

/-- Where nothing is displaced, no other sector changes. -/
theorem homeWrite_dsGet {s : State} {w : SWrite} {m : Nat} (v : s.dieVictim w.sector = none) (ne : m ≠ w.sector) :
    (s.homeWrite w).dsGet m = s.dsGet m := by
  unfold State.homeWrite
  split
  · rw [State.dsGet_dsSet, if_neg ne, homeRoom_none v]
  · dsimp only
    rw [State.dsGet_dsSet, if_neg ne, homeRead_dsGet v ne]

theorem homeWrite_wf (s : State) (w : SWrite) (h : Memory.wf s.mem.mem) : Memory.wf (s.homeWrite w).mem.mem := by
  unfold State.homeWrite
  split
  · exact homeRoom_wf s _ h
  · exact homeRead_wf s _ h

theorem homeUpdate_wf (s : State) (n : Nat) (f : SectorData → SectorData) (h : Memory.wf s.mem.mem) :
    Memory.wf (s.homeUpdate n f).mem.mem := homeRead_wf s n h

@[simp] theorem launch_mem_mem (s : State) (f : Flight) : (s.launch f).mem.mem = s.mem.mem := rfl

@[simp] theorem sendWrite_mem_mem (s : State) (hid core op : Nat) (r : Bool) (w : SWrite) :
    (s.sendWrite hid core op r w).mem.mem = s.mem.mem := rfl

theorem writeBack_wf (s : State) (core n : Nat) (e : Bool) (w : Memory.wf s.mem.mem) :
    Memory.wf (s.writeBack core n e).mem.mem := by
  unfold State.writeBack
  split
  · exact w
  · dsimp only
    split
    · exact w
    · split
      · split <;> exact w
      · exact homeWrite_wf _ _ w

@[simp] theorem genWrap_mem_mem (s : State) (core : Nat) : (s.genWrap core).mem.mem = s.mem.mem := by
  have key : ∀ (ns : List Nat) (u : State), (ns.foldl (fun s sec => match s.l1Get core sec with
      | some l => s.l1Set core sec (if l.dirty = 0 then none else some { l with filled := false, pf := false, xf := false, gen := 0 })
      | none => s) u).mem.mem = u.mem.mem := by
    intro ns
    induction ns with
    | nil => exact fun _ => rfl
    | cons n ns ih => intro u; rw [List.foldl_cons, ih]; split <;> rfl
  exact key ..

@[simp] theorem acquireGen_mem_mem (s : State) (core : Nat) (o : BitVec 5) : (s.acquireGen core o).mem.mem = s.mem.mem := by
  unfold State.acquireGen
  split
  · rfl
  · split
    · exact genWrap_mem_mem s core
    · rfl

theorem l1View_wf (s : State) (core n : Nat) (w : Memory.wf s.mem.mem) : Memory.wf (s.l1View core n).1.mem.mem := by
  unfold State.l1View
  split
  · split <;> exact w
  · exact homeRead_wf s n w

/-- A power-on or a shutdown leaves memory as reset has it. -/
@[simp] theorem powered_mem (s : State) (p : Power) : (s.powered p).mem = State.reset.mem := rfl

end Sys2Proof.Machine
end

