-- ==== Sys2Proof/Laws/Issue.lean ====
section
/-! SUPPORT. What the shared shapes of a meaning answer: a word of the S-stream or of a lane slot that is ready to run,
one that traps on a proposal, and a scheduled move. -/

namespace Sys2Proof.Machine

/-! ### Waiting for registers -/

/-- A hart with no load, no queued store and nothing in flight on the module waits for no register. -/
theorem awaitRegs_idle (s : State) (hid : Nat) (h : Hart) (b : Bool) (names : List RegName) (l : h.loads = [])
    (q : h.storeQ = []) (f : s.mem.flights = []) : s.awaitRegs hid h b names = none := by
  simp [State.awaitRegs, l, q, f]

/-- Without a latent upset no target holds one. -/
theorem upsetAt_none (s : State) (t : UpsetTarget) (h : s.mem.upsets = []) : s.upsetAt t = false := by
  simp [State.upsetAt, h]

/-- An idle hart at its S-stream is ready to run every word. -/
theorem scalarReady_idle {s : State} {hid : Nat} {h : Hart} (reads writes : List SReg) (c : s.cur = .scalar hid)
    (e : s.hart? hid = some h) (l : h.loads = []) (q : h.storeQ = []) (f : s.mem.flights = []) (u : s.mem.upsets = []) :
    ScalarReady s hid h reads writes :=
  ⟨c, e, awaitRegs_idle s hid h true _ l q f, fun _ _ => upsetAt_none s _ u⟩

/-! ### The S-stream -/

/-- A word whose registers are ready goes on. -/
theorem withRegs_ready {s : State} {hid : Nat} {h : Hart} {reads writes : List SReg} (k : State)
    (r : ScalarReady s hid h reads writes) : s.withRegs hid h reads writes k = k := by
  have sound : (reads.any fun q => s.upsetAt (.scalarReg hid q.toNat)) = false := by
    simpa [List.any_eq_false] using r.sound
  simp only [State.withRegs, r.ready, sound]
  rfl

/-- A meaning of the S-stream whose registers are ready answers what its body says. -/
theorem onScalar_ready {s : State} {hid : Nat} {h : Hart} {reads writes : List SReg} (f : Nat → Hart → State)
    (r : ScalarReady s hid h reads writes) : onScalar s reads writes f = .next (f hid h) := by
  simp only [onScalar, r.acts, r.hart, withRegs_ready _ r]

/-- With settled operands a settled-only form answers what its body says. -/
theorem onSettled_ready {s : State} {hid : Nat} {h : Hart} {reads writes : List SReg} (f : Nat → Hart → State)
    (r : ScalarReady s hid h reads writes) (t : h.Settled reads) : onSettled s reads writes f = .next (f hid h) := by
  rw [onSettled, onScalar_ready _ r, if_neg]
  simpa [List.any_eq_true] using fun q m => t q m

/-- With a proposal among them it takes the tag fault, and nothing else happens (R178). -/
theorem onSettled_proposal {s : State} {hid : Nat} {h : Hart} {reads writes : List SReg} (f : Nat → Hart → State)
    (r : ScalarReady s hid h reads writes) (t : ∃ q ∈ reads, (h.getS q).tag = true) :
    onSettled s reads writes f = .next (s.tagTrap hid) := by
  rw [onSettled, onScalar_ready _ r, if_pos]
  simpa [List.any_eq_true] using t

/-- A meaning of the S-stream never refuses. -/
theorem onScalar_not_refused (s : State) (reads writes : List SReg) (f : Nat → Hart → State) (x : Refusal) :
    onScalar s reads writes f ≠ .refused x := by
  unfold onScalar
  repeat' split
  all_goals simp

theorem alu_ready {s : State} {hid : Nat} {h : Hart} {d a b : SReg} (f : Word → Word → Word)
    (r : ScalarReady s hid h [a, b] [d]) :
    alu s d a b f = .next (s.result hid d ⟨f (h.getS a).val (h.getS b).val, (h.getS a).tag || (h.getS b).tag⟩) :=
  onScalar_ready _ r

theorem alu1_ready {s : State} {hid : Nat} {h : Hart} {d a : SReg} (f : Word → Word) (r : ScalarReady s hid h [a] [d]) :
    alu1 s d a f = .next (s.result hid d ⟨f (h.getS a).val, (h.getS a).tag⟩) := onScalar_ready _ r

/-- What a result leaves of a hart: the register written, the pc at the next word. -/
theorem result_hart (s : State) (hid i : Nat) (d : SReg) (x : TV) :
    (s.result hid d x).hart? i =
      if i = hid then (s.hart? hid).map fun h => { h.setS d x with pc := (h.setS d x).pc + 4 } else s.hart? i := by
  unfold State.result State.nextPc
  rw [State.hart?_modHart, State.hart?_setS, State.hart?_setS]
  split
  · cases s.hart? hid <;> simp
  · rfl

/-! ### Lane slots -/

/-- A lane word whose registers are ready answers what its body says. -/
theorem laneWith_ready {s : State} {hid : Nat} {slot : Bool} {h : Hart} {reads writes masks wides : List Nat}
    {own : Nat → List Nat} {guard : Hart → Word32} (f : LaneCtx → State → State) (r : LaneReady s hid slot h reads writes masks wides own guard) :
    laneWith s reads writes masks wides own guard f = .next (f (s.laneCtx hid h slot) s) := by
  have ready := r.ready
  simp only [laneWith, r.acts, r.hart, r.inRange, r.present] at ready ⊢
  rw [ready]
  simp [r.sound]

theorem laneWord_ready {op : Nat} {w : LaneFields} {s : State} {hid : Nat} {slot : Bool} {h : Hart}
    (f : LaneCtx → State → State) (r : LaneReadyFor op w s hid slot h) :
    laneWord op w s f = .next (f (s.laneCtx hid h slot) s) := laneWith_ready f r

/-- A register at or beyond the declared count traps before anything else (R43). -/
theorem laneWith_register {s : State} {hid n : Nat} {slot : Bool} {h : Hart} {reads writes masks wides : List Nat}
    {own : Nat → List Nat} {guard : Hart → Word32} (f : LaneCtx → State → State) (c : s.cur = .lane hid slot) (e : s.hart? hid = some h)
    (i : s.indexFault h (reads ++ writes) wides = some n) :
    laneWith s reads writes masks wides own guard f = .next (s.laneTrap hid slot .register 0 true h.m0 (BitVec.ofNat 64 n)) := by
  simp only [laneWith, c, e, i]

theorem laneWith_not_refused (s : State) (reads writes masks wides : List Nat) (own : Nat → List Nat)
    (guard : Hart → Word32) (f : LaneCtx → State → State) (x : Refusal) : laneWith s reads writes masks wides own guard f ≠ .refused x := by
  unfold laneWith
  repeat' (first | split | dsimp only)
  all_goals simp

/-! ### Words behind the lane stream -/

/-- With no word behind the lane stream there is none to execute. -/
theorem runLate_idle {s : State} {hid : Nat} {h : Hart} (a : s.hart? hid = some h) (l : h.late = []) :
    s.runLate hid = s := by
  simp [State.runLate, a, l]

/-- A word that decodes is executed, when no word behind the lane stream has to come first. -/
theorem runWord_ok {s : State} {hid n : Nat} {h : Hart} {i : Instr} (l : h.late = [] ∨ passesLate (BitVec.ofNat 32 n) = true)
    (d : decodeS h.engine (BitVec.ofNat 32 n) = .ok i) : s.runWord hid h n = exec i s := by
  rcases l with l | l <;> simp [State.runWord, d, l]

theorem runLane_ok {s : State} {hid n : Nat} {h : Hart} {slot : Bool} {i : Instr} (l : h.late = [] ∨ h.passes i = true)
    (d : decodeL (BitVec.ofNat 96 n) = .ok i) : s.runLane hid h slot n = exec i s := by
  rcases l with l | l <;> simp [State.runLane, d, l]

/-- A slot passes a word by noting it behind the lane stream, its checks done, or does not move. -/
theorem passWord_cases (s : State) (hid : Nat) (h : Hart) (slot : Bool) (i : Instr) : s.passWord hid h slot i = s ∨
    ∃ op w b u accs, laneParts i = some (op, w) ∧ h.block = some b ∧
      s.lateAccs hid h slot op w (h.loads.flatMap LoadReq.targets ++ (h.late.flatMap LateWord.writes).map .v) = (u, some accs) ∧
      s.passWord hid h slot i = u.modHart hid fun k =>
        { k.laneNext slot with late := k.late ++ [⟨i, slot, h.slot slot, b, accs,
          SMapOps.get 0 k.kills (wordKills slot)⟩] } := by
  unfold State.passWord
  split
  · rename_i op w b e f
    dsimp only
    split
    · exact .inl rfl
    · split
      · rename_i accs g
        exact .inr ⟨op, w, b, _, accs, e, f, Prod.ext rfl g, rfl⟩
      · exact .inl rfl
  · exact .inl rfl

/-! ### Moves -/

/-- A scheduled event is the step. -/
theorem step_event {s : State} {i : Instr} {rest : List Move} (h : s.sched = .event i :: rest) :
    step s = exec i { s with sched := rest } := by
  simp only [step, State.advance, h, State.move]

/-- A scheduled tick moves the timebase alone. -/
theorem step_tick {s : State} {n : Nat} {rest : List Move} (h : s.sched = .tick n :: rest) :
    step s = .next { s with sched := rest, time := s.time + BitVec.ofNat 64 n } := by
  simp only [step, State.advance, h, State.move]

end Sys2Proof.Machine
end

