-- ==== Sys2Proof/Safety.lean ====
section
/-! DEFINITION. What counts as a safe run, in the terms that claims use. -/

namespace Sys2Proof

/-- A step is safe when it neither faults nor is refused. -/
def SafeStep (s : Machine.State) : Prop := ∃ t, Machine.step s = .next t

/-- A run of `n` steps is safe when each of them is. -/
def SafeRun (n : Nat) (s : Machine.State) : Prop := ∃ t, core.run n s = .next t

end Sys2Proof
end

