-- ==== Sys2Proof/Tests/Slice0.lean ====
section
/-! SUPPORT. Tests: the decoding of words written out from the encodings of the spec, ill-formed terms that WellFormed
refuses, single steps with results worked out from the spec, and for each statement states that meet its hypotheses. -/

section

-- One theorem at a time: checked side by side, their stacks together pass the memory limit.
set_option Elab.async false

open Sys2Proof Sys2Proof.Machine

theorem test_decode_scalar_two_source : ∀ p ∈ ([
    (0b000001_100001_010010_101101_00000000, .sadd 33 18 45),
    (0b000001_100001_010010_101101_00000001, .ssub 33 18 45),
    (0b000001_100001_010010_101101_00000010, .smul 33 18 45),
    (0b000001_100001_010010_101101_00000011, .smulh 33 18 45),
    (0b000001_100001_010010_101101_00000100, .smulhn 33 18 45),
    (0b000001_100001_010010_101101_00000101, .sdiv 33 18 45),
    (0b000001_100001_010010_101101_00000110, .sdivn 33 18 45),
    (0b000001_100001_010010_101101_00000111, .srem 33 18 45),
    (0b000001_100001_010010_101101_00001000, .sremn 33 18 45),
    (0b000001_100001_010010_101101_00001001, .sand 33 18 45),
    (0b000001_100001_010010_101101_00001010, .sor 33 18 45),
    (0b000001_100001_010010_101101_00001011, .sxor 33 18 45),
    (0b000001_100001_010010_101101_00001100, .sshl 33 18 45),
    (0b000001_100001_010010_101101_00001101, .sshr 33 18 45),
    (0b000001_100001_010010_101101_00001110, .ssra 33 18 45),
    (0b000001_100001_010010_101101_00001111, .smin 33 18 45),
    (0b000001_100001_010010_101101_00010000, .smax 33 18 45),
    (0b000001_100001_010010_101101_00010001, .sminn 33 18 45),
    (0b000001_100001_010010_101101_00010010, .smaxn 33 18 45),
    (0b000001_100001_010010_101101_00010110, .sbfi 33 18 45),
    (0b000001_100001_010010_101101_110_10011, .scmp 33 18 45 6),
    (0b000001_100001_010010_101101_00_1_10100, .scmov 33 18 45 true),
    (0b000001_100001_010010_101101_00_1_10101, .sbfx 33 18 45 true),
    (0b000001_100001_010010_101101_101_11010, .slea 33 18 45 5)] : List (BitVec 32 × Instr)),
    (decodeS .wave p.1).toOption = some p.2 ∧ encodeS p.2 = some p.1 := by decide +kernel

theorem test_decode_scalar_one_source : ∀ p ∈ ([
    (0b000001_100001_010010_00000000010111, .sclz 33 18),
    (0b000001_100001_010010_00000000011000, .spop 33 18),
    (0b000001_100001_010010_000000_101_11001, .sext 33 18 5)] : List (BitVec 32 × Instr)),
    (decodeS .wave p.1).toOption = some p.2 ∧ encodeS p.2 = some p.1 := by decide +kernel

theorem test_decode_scalar_immediate : ∀ p ∈ ([
    (0b000010_100001_010010_11111111111010, .saddi 33 18 (-6)),
    (0b000011_100001_010010_11111111111010, .sandi 33 18 (-6)),
    (0b000100_100001_010010_11111111111010, .sori 33 18 (-6)),
    (0b000101_100001_010010_11111111111010, .sxori 33 18 (-6)),
    (0b000110_100001_010010_00000000_100101, .sshli 33 18 37),
    (0b000111_100001_010010_00000000_100101, .sshri 33 18 37),
    (0b001000_100001_010010_00000000_100101, .ssrai 33 18 37),
    (0b001001_100001_010010_011_11111111011, .scmpi 33 18 3 (-5)),
    (0b001010_100001_10000000000000000101, .smovl 33 0x80005),
    (0b001011_100001_10000000000000000101, .sshor 33 0x80005)] : List (BitVec 32 × Instr)),
    (decodeS .wave p.1).toOption = some p.2 ∧ encodeS p.2 = some p.1 := by decide +kernel

theorem test_decode_control : ∀ p ∈ ([
    (0b001100_0101_010010_1111111111111101, .sbr 5 18 (-3)),
    (0b001101_11111111111111111111110111, .sjmp (-9)),
    (0b001110_11111111111111111111110111, .scall (-9)),
    (0b001111_00000000000000000000000000, .sret),
    (0b001111_000000_010010_00000000000001, .sjmpr 18),
    (0b001111_000000_010010_00000000000010, .scallr 18),
    (0b010000_0000_010010_1111111111111101, .sloop 18 (-3))] : List (BitVec 32 × Instr)),
    (decodeS .wave p.1).toOption = some p.2 ∧ encodeS p.2 = some p.1 := by decide +kernel

theorem test_decode_lane_dispatch : ∀ p ∈ ([
    (0b010001_000000_010010_00000000000000, .lrun 18),
    (0b010010_00000000000000000000000000, .lsync),
    (0b010010_100001_00000000000000000001, .sget 33),
    (0b010010_00_1001_010010_00000000000010, .kset 9 18)] : List (BitVec 32 × Instr)),
    (decodeS .wave p.1).toOption = some p.2 ∧ encodeS p.2 = some p.1 := by decide +kernel

theorem test_decode_scalar_memory : ∀ p ∈ ([
    (0b010011_100001_010010_0100001_10_10011, .sld 33 18 ⟨.acq, 1⟩ .b32 19),
    (0b010100_100001_010010_1000110_11_00111, .sst 33 18 ⟨.rel, 6⟩ .b64 7),
    (0b010101_100001_010010_1100001_1_1000_00, .satom 33 18 ⟨.ar, 1⟩ true 8),
    (0b010110_100001_010010_0100100_01_00000, .sldc 33 18 ⟨.acq, 4⟩ .b16),
    (0b010110_100001_010010_1000100_00_00001, .sstc 33 18 ⟨.rel, 4⟩ .b8)] : List (BitVec 32 × Instr)),
    (decodeS .wave p.1).toOption = some p.2 ∧ encodeS p.2 = some p.1 := by decide +kernel

theorem test_decode_waits : ∀ p ∈ ([
    (0b010111_100001_010010_1001_0101_101101, .swait 33 18 9 5 45),
    (0b011000_000000000000_1101001_0000000, .sfence ⟨.ar, 9⟩),
    (0b011000_100001_000000000000_0101_0001, .sclk 33 5),
    (0b011000_000000_010010_101101_1001_0010, .ssleep 18 45 9)] : List (BitVec 32 × Instr)),
    (decodeS .wave p.1).toOption = some p.2 ∧ encodeS p.2 = some p.1 := by decide +kernel

theorem test_decode_barriers : ∀ p ∈ ([
    (0b011001_000000_010010_000000_1001_0000, .barInit 18 9),
    (0b011001_000000000000_100100_1001_0001, .barArrive ⟨.rel, 4⟩ 9),
    (0b011001_000000_010010_100101_1001_0010, .barWait 18 ⟨.acq, 5⟩ 9),
    (0b011001_100001_010010_100101_1001_0011, .barTest 33 18 ⟨.acq, 5⟩ 9),
    (0b011001_100001_010010_000000_1001_0100, .barArm 33 18 ⟨.plain, 0⟩ 9),
    (0b011001_00000000000000000000000101, .uret)] : List (BitVec 32 × Instr)),
    (decodeS .wave p.1).toOption = some p.2 ∧ encodeS p.2 = some p.1 := by decide +kernel

theorem test_decode_copies : ∀ p ∈ ([
    (0b011011_100001_010010_101101_1001_0000, .cpy 33 18 45 9),
    (0b011011_100001_010010_101101_1001_0001, .cpyt 33 18 45 9),
    (0b011011_100001_010010_101101_1001_0010, .cpyg 33 18 45 9),
    (0b011011_00000000000000000000000011, .cpcl),
    (0b011011_100001_000000000000_1001_0100, .cpq 33 9)] : List (BitVec 32 × Instr)),
    (decodeS .wave p.1).toOption = some p.2 ∧ encodeS p.2 = some p.1 := by decide +kernel

theorem test_decode_rings : ∀ p ∈ ([
    (0b011100_100001_000000_101101_00000000, .ringRes 33 45),
    (0b011100_100001_000000_101101_00000010, .ringGet 33 45),
    (0b011100_000000_010010_101101_00000001, .ringCmt 18 45),
    (0b011100_000000_010010_101101_00000011, .ringRel 18 45)] : List (BitVec 32 × Instr)),
    (decodeS .wave p.1).toOption = some p.2 ∧ encodeS p.2 = some p.1 := by decide +kernel

theorem test_decode_tasks : ∀ p ∈ ([
    (0b011101_100001_010010_101101_00000000, .spawn 33 18 45),
    (0b011101_100001_010010_101101_00000001, .send 33 18 45),
    (0b011101_100001_010010_101101_00000011, .fpoll 33 18 45),
    (0b011101_000000_010010_101101_00000010, .fwait 18 45),
    (0b011101_000000_010010_101101_00000100, .hold 18 45),
    (0b011101_000000_010010_101101_00000101, .drop 18 45),
    (0b011101_100001_000000000000_0101_0110, .tget 33 5),
    (0b011101_000000_010010_101101_0001_0111, .tset 18 45 1),
    (0b011101_00000000000000000000001000, .exit),
    (0b011101_00000000000000000000001001, .jcancel),
    (0b011110_000000_010010_00000000000000, .safe 18),
    (0b011110_000000_010010_00000000000010, .yield 18),
    (0b011110_000000_010010_101101_00000001, .phase 18 45)] : List (BitVec 32 × Instr)),
    (decodeS .wave p.1).toOption = some p.2 ∧ encodeS p.2 = some p.1 := by decide +kernel

theorem test_decode_walker : ∀ p ∈ ([
    (0b011111_100001_010010_101101_00000000, .wloop 33 18 45),
    (0b011111_000000_010010_101101_00000001, .wcov 18 45),
    (0b011111_00000000000000000000000010, .wclr)] : List (BitVec 32 × Instr)),
    (decodeS .wave p.1).toOption = some p.2 ∧ encodeS p.2 = some p.1 := by decide +kernel

theorem test_decode_crane : ∀ p ∈ ([
    (0b100000_000000_010010_00000000000000, .mfmt 18),
    (0b100001_000_101_000000000000_1001_0000, .mzero 5 9),
    (0b100100_100001_000000000000_0110_0000, .mbar 33 6),
    (0b100100_000000_010010_000000_0110_0001, .mwait 18 6),
    (0b100100_100001_000000000_101_1001_0010, .mpsn 33 5 9),
    (0b100100_000000000000000000_1001_0011, .mscrub 9),
    (0b100010_000101_010010_101101_1001_0000, .mma 5 18 45 9),
    (0b100011_000101_010010_000000_1001_00_1_1, .mout 18 5 9 true true)] : List (BitVec 32 × Instr)),
    (decodeS .crane p.1).toOption = some p.2 ∧ encodeS p.2 = some p.1 := by decide +kernel

theorem test_decode_system : ∀ p ∈ ([
    (0b111110_100001_000000_0000010010_0000, .csrr 33 0x12),
    (0b111110_000000_010010_0000100001_0001, .csrw 18 0x21),
    (0b111110_100001_000000000000_0001_0010, .feat 33 1),
    (0b111111_000000000000_1010100101_0000, .trap 0x2A5),
    (0b111111_00000000000000000000000001, .rte),
    (0b111111_000000_010010_00000000000010, .tlbiVa 18),
    (0b111111_00000000000000000000010010, .tlbiSpace),
    (0b111111_00000000000000000000100010, .tlbiVf),
    (0b111111_00000000000000000000000011, .halt)] : List (BitVec 32 × Instr)),
    (decodeS .wave p.1).toOption = some p.2 ∧ encodeS p.2 = some p.1 := by decide +kernel

theorem test_decode_lane_integer : ∀ p ∈ ([
    (0b00_00000001_00011_1000000010_0100000100_0010000010_0000000000_000_00_1_0_0_0_0_0_0_0_0_00000000000_0000000000000000,
      .add { laneZero with ty := .i32, d := 514, a := 260, b := 130, sat := true }),
    (0b00_00000010_00110_1000000010_0100000100_0010000010_0000000000_000_00_1_0_0_0_0_0_0_0_0_00000000000_0000000000000000,
      .sub { laneZero with ty := .n16, d := 514, a := 260, b := 130, sat := true }),
    (0b00_00000011_00100_1000000010_0100000100_0010000010_0000000000_000_00_1_0_0_0_0_0_0_0_0_00000000000_0000000000000000,
      .mul { laneZero with ty := .i64, d := 514, a := 260, b := 130, sat := true }),
    (0b00_00000100_01000_1000000010_0100000100_0010000010_0000000000_000_00_0_0_0_0_0_0_0_0_0_00000000000_0000000000000000,
      .mulh { laneZero with ty := .n64, d := 514, a := 260, b := 130 }),
    (0b00_00000101_00010_1000000010_0100000100_0010000010_0001000010_000_00_1_0_0_0_0_0_0_0_0_00000000000_0000000000000000,
      .mad { laneZero with ty := .i16, d := 514, a := 260, b := 130, c := 66, sat := true }),
    (0b00_00000110_10011_1000000010_0100000100_0010000010_0000000000_000_00_0_0_0_0_0_0_0_0_0_00000000000_0000000000000000,
      .and { laneZero with ty := .b64, d := 514, a := 260, b := 130 }),
    (0b00_00000111_10011_1000000010_0100000100_0010000010_0000000000_000_00_0_0_0_0_0_0_0_0_0_00000000000_0000000000000000,
      .or { laneZero with ty := .b64, d := 514, a := 260, b := 130 }),
    (0b00_00001000_10011_1000000010_0100000100_0010000010_0000000000_000_00_0_0_0_0_0_0_0_0_0_00000000000_0000000000000000,
      .xor { laneZero with ty := .b64, d := 514, a := 260, b := 130 }),
    (0b00_00001001_00101_1000000010_0100000100_0000000000_0000000000_000_00_0_0_0_0_0_0_0_0_1_00000000000_0000000000001001,
      .shl { laneZero with ty := .n8, d := 514, a := 260, imm := true, imm16 := 9 }),
    (0b00_00001010_00110_1000000010_0100000100_0000000000_0000000000_000_00_0_0_0_0_0_0_0_0_1_00000000000_0000000000001001,
      .shr { laneZero with ty := .n16, d := 514, a := 260, imm := true, imm16 := 9 }),
    (0b00_00001011_00011_1000000010_0100000100_0000000000_0000000000_000_00_0_0_0_0_0_0_0_0_1_00000000000_0000000000001001,
      .sra { laneZero with ty := .i32, d := 514, a := 260, imm := true, imm16 := 9 }),
    (0b00_00001100_00001_1000000010_0100000100_0000000101_0000000000_000_00_0_0_0_0_0_0_1_0_0_00000000000_0000000000000000,
      .min { laneZero with ty := .i8, d := 514, a := 260, b := 5, kb := true }),
    (0b00_00001101_00001_1000000010_0100000100_0000000101_0000000000_000_00_0_0_0_0_0_0_1_0_0_00000000000_0000000000000000,
      .max { laneZero with ty := .i8, d := 514, a := 260, b := 5, kb := true }),
    (0b00_00001110_00100_1000000010_0100000100_0000000000_0000000000_000_00_1_0_0_0_0_0_0_0_0_00000000000_0000000000000000,
      .abs { laneZero with ty := .i64, d := 514, a := 260, sat := true }),
    (0b00_00001111_01000_0000000101_0100000100_0010000010_0000000000_000_00_0_0_0_0_0_0_0_0_0_00000000011_0000000000000000,
      .cmp { laneZero with ty := .n64, d := 5, a := 260, b := 130, aux := 3 }),
    (0b00_00010000_00100_1000000010_0100000100_0010000010_0000000000_000_00_0_0_0_0_0_0_0_0_0_00000000000_0000000000000000,
      .bfx { laneZero with ty := .i64, d := 514, a := 260, b := 130 }),
    (0b00_00010001_10011_1000000010_0100000100_0010000010_0000000000_000_00_0_0_0_0_0_0_0_0_0_00000000000_0000000000000000,
      .bfi { laneZero with ty := .b64, d := 514, a := 260, b := 130 }),
    (0b00_00010010_10011_1000000010_0100000100_0000000000_0000000000_000_00_0_0_0_0_0_0_0_0_0_00000000000_0000000000000000,
      .clz { laneZero with ty := .b64, d := 514, a := 260 }),
    (0b00_00010011_10011_1000000010_0100000100_0000000000_0000000000_000_00_0_0_0_0_0_0_0_0_0_00000000000_0000000000000000,
      .pop { laneZero with ty := .b64, d := 514, a := 260 }),
    (0b00_00010100_10011_1000000010_0100000100_0000000000_0000000000_000_00_0_0_0_0_0_0_0_0_0_00000000000_0000000000000000,
      .brev { laneZero with ty := .b64, d := 514, a := 260 })] : List (BitVec 96 × Instr)),
    (decodeL p.1).toOption = some p.2 ∧ encodeL p.2 = some p.1 := by decide +kernel

theorem test_decode_lane_float : ∀ p ∈ ([
    (0b00_00100000_01001_1000000010_0100000100_0010000010_0000000000_000_11_1_1_0_0_1_0_0_0_0_00000000000_0000000000000000,
      .fadd { laneZero with ty := .f64, d := 514, a := 260, b := 130, rnd := .rup, sat := true, nega := true, absb := true }),
    (0b00_00100001_10100_1000000010_0100000100_0010000010_0000000000_000_11_1_1_0_0_1_0_0_0_0_00000000000_0000000000000000,
      .fsub { laneZero with ty := .a26, d := 514, a := 260, b := 130, rnd := .rup, sat := true, nega := true, absb := true }),
    (0b00_00100010_01100_1000000010_0100000100_0010000010_0000000000_000_11_1_1_0_0_1_0_0_0_0_00000000000_0000000000000000,
      .fmul { laneZero with ty := .bf16, d := 514, a := 260, b := 130, rnd := .rup, sat := true, nega := true, absb := true }),
    (0b00_00100011_01011_1000000010_0100000100_0010000010_0000001001_000_10_0_0_1_0_0_0_0_1_0_00000000000_0000000000000000,
      .fma { laneZero with ty := .f16, d := 514, a := 260, b := 130, c := 9, rnd := .rdn, negb := true, kc := true }),
    (0b00_00100100_01001_1000000010_0100000100_0010000010_0000000000_000_00_0_0_0_1_0_0_0_0_0_00000000000_0000000000000000,
      .fmin { laneZero with ty := .f64, d := 514, a := 260, b := 130, absa := true }),
    (0b00_00100101_01001_1000000010_0100000100_0010000010_0000000000_000_00_0_0_0_1_0_0_0_0_0_00000000000_0000000000000000,
      .fmax { laneZero with ty := .f64, d := 514, a := 260, b := 130, absa := true }),
    (0b00_00100110_01001_0000000101_0100000100_0010000010_0000000000_000_00_0_0_0_0_0_0_0_0_0_00000000110_0000000000000000,
      .fcmp { laneZero with ty := .f64, d := 5, a := 260, b := 130, aux := 6 }),
    (0b00_00100111_01001_1000000010_0100000100_0010000010_0000000000_000_01_0_0_0_0_0_0_0_0_0_00000000000_0000000000000000,
      .fdiv { laneZero with ty := .f64, d := 514, a := 260, b := 130, rnd := .rtz }),
    (0b00_00101000_01001_1000000010_0100000100_0000000000_0000000000_000_01_0_0_0_0_0_0_0_0_0_00000000000_0000000000000000,
      .fsqrt { laneZero with ty := .f64, d := 514, a := 260, rnd := .rtz }),
    (0b00_00101001_01010_1000000010_0100000100_0000000000_0000000000_000_11_0_1_0_0_0_0_0_0_0_00000000000_0000000000000000,
      .fexp2 { laneZero with ty := .f32, d := 514, a := 260, rnd := .rup, nega := true }),
    (0b00_00101010_01010_1000000010_0100000100_0000000000_0000000000_000_11_0_1_0_0_0_0_0_0_0_00000000000_0000000000000000,
      .flog2 { laneZero with ty := .f32, d := 514, a := 260, rnd := .rup, nega := true }),
    (0b00_00101011_01010_1000000010_0100000100_0000000000_0000000000_000_11_0_1_0_0_0_0_0_0_0_00000000000_0000000000000000,
      .frcp { laneZero with ty := .f32, d := 514, a := 260, rnd := .rup, nega := true }),
    (0b00_00101100_01010_1000000010_0100000100_0000000000_0000000000_000_11_0_1_0_0_0_0_0_0_0_00000000000_0000000000000000,
      .frsq { laneZero with ty := .f32, d := 514, a := 260, rnd := .rup, nega := true }),
    (0b00_00101101_01010_1000000010_0100000100_0000000000_0000000000_000_11_0_1_0_0_0_0_0_0_0_00000000000_0000000000000000,
      .fsinpi { laneZero with ty := .f32, d := 514, a := 260, rnd := .rup, nega := true }),
    (0b00_00101110_01010_1000000010_0100000100_0000000000_0000000000_000_11_0_1_0_0_0_0_0_0_0_00000000000_0000000000000000,
      .fcospi { laneZero with ty := .f32, d := 514, a := 260, rnd := .rup, nega := true }),
    (0b00_00101111_01010_1000000010_0100000100_0000000000_0000000000_000_11_0_1_0_0_0_0_0_0_0_00000000000_0000000000000000,
      .ftanh { laneZero with ty := .f32, d := 514, a := 260, rnd := .rup, nega := true }),
    (0b00_00110000_01001_1000000010_0100000100_0000000000_0000000000_000_00_0_0_0_0_0_0_0_0_0_00000000000_0000000000000000,
      .fclass { laneZero with ty := .f64, d := 514, a := 260 }),
    (0b00_00110001_01100_1000000010_0100000100_0000000000_0000000000_000_10_0_0_0_0_0_0_0_0_0_00000000000_0000000000000000,
      .frnd { laneZero with ty := .bf16, d := 514, a := 260, rnd := .rdn }),
    (0b00_00110010_01001_1000000010_0100000100_0010000010_0000000000_000_01_0_0_0_0_0_0_0_0_0_00000000000_0000000000000000,
      .fscale { laneZero with ty := .f64, d := 514, a := 260, b := 130, rnd := .rtz })] : List (BitVec 96 × Instr)),
    (decodeL p.1).toOption = some p.2 ∧ encodeL p.2 = some p.1 := by decide +kernel

theorem test_decode_lane_conversion : ∀ p ∈ ([
    (0b00_01000000_01110_1000000010_0100000100_0000000000_0000000000_000_11_1_0_0_0_0_0_0_0_0_00000001010_0000000000000000,
      .cvt { laneZero with ty := .e4m3, d := 514, a := 260, rnd := .rup, sat := true, aux := 10 }),
    (0b00_01000001_10001_1000000010_0100000100_0000000000_0000000000_000_00_0_0_0_0_0_0_0_0_0_00000001010_0000000000000000,
      .qscl { laneZero with ty := .e2m1, d := 514, a := 260, aux := 10 }),
    (0b00_01000010_01101_1000000010_0100000100_0010000010_0000000000_000_01_0_0_0_0_0_0_0_0_0_00000001010_0000000000000000,
      .qpack { laneZero with ty := .e5m2, d := 514, a := 260, b := 130, rnd := .rtz, aux := 10 }),
    (0b00_01000011_01010_1000000010_0100000100_0010000010_0000000000_000_00_0_0_0_0_0_0_0_0_0_00000010001_0000000000000000,
      .qunp { laneZero with ty := .f32, d := 514, a := 260, b := 130, aux := 17 }),
    (0b00_01000100_01110_1000000010_0100000100_0000000111_0000000000_000_00_0_0_0_0_0_0_1_0_0_00000001010_0000000000000000,
      .qspare { laneZero with ty := .e4m3, d := 514, a := 260, b := 7, kb := true, aux := 10 })] : List (BitVec 96 × Instr)),
    (decodeL p.1).toOption = some p.2 ∧ encodeL p.2 = some p.1 := by decide +kernel

theorem test_decode_lane_mask : ∀ p ∈ ([
    (0b00_01001000_10011_1000000010_0100000100_0010000010_0000000000_110_00_0_0_0_0_0_0_0_0_0_00000000000_0000000000000000,
      .sel { laneZero with ty := .b64, d := 514, a := 260, b := 130, msel := 6 }),
    (0b00_01001001_00000_0000000101_0000000011_0000000000_0000000000_110_00_0_0_0_0_0_0_0_0_0_00000000000_0000000000000000,
      .mand { laneZero with d := 5, a := 3, msel := 6 }),
    (0b00_01001010_00000_0000000101_0000000011_0000000000_0000000000_110_00_0_0_0_0_0_0_0_0_0_00000000000_0000000000000000,
      .mor { laneZero with d := 5, a := 3, msel := 6 }),
    (0b00_01001011_00000_0000000101_0000000011_0000000000_0000000000_110_00_0_0_0_0_0_0_0_0_0_00000000000_0000000000000000,
      .mxor { laneZero with d := 5, a := 3, msel := 6 }),
    (0b00_01001100_00000_0000000101_0000000000_0000000000_0000000000_110_00_0_0_0_0_0_0_0_0_0_00000000000_0000000000000000,
      .mnot { laneZero with d := 5, msel := 6 }),
    (0b00_01001101_00000_1000000010_0000000000_0000000000_0000000000_110_00_0_0_0_0_0_0_0_0_0_00000000010_0000000000000000,
      .mmov { laneZero with d := 514, msel := 6, aux := 2 })] : List (BitVec 96 × Instr)),
    (decodeL p.1).toOption = some p.2 ∧ encodeL p.2 = some p.1 := by decide +kernel

theorem test_decode_lane_cross : ∀ p ∈ ([
    (0b00_01010000_10011_1000000010_0100000100_0000000000_0000000000_000_00_0_0_0_0_0_0_0_0_1_00000000010_0000000000000011,
      .shfl { laneZero with ty := .b64, d := 514, a := 260, imm := true, aux := 2, imm16 := 3 }),
    (0b00_01010001_10011_1000000010_0100000100_0010000010_0001000010_000_00_0_0_0_0_0_0_0_0_0_00000000000_0000000000000000,
      .perm { laneZero with ty := .b64, d := 514, a := 260, b := 130, c := 66 }),
    (0b00_01010010_00000_0000000000_0000000000_0000000000_0000000000_110_00_0_0_0_0_0_0_0_0_0_00000000010_0000000000000000,
      .vote { laneZero with msel := 6, aux := 2 }),
    (0b00_01010011_01010_1000000010_0100000100_0000000000_0000000000_000_01_0_0_0_0_0_0_0_0_0_00000000000_0000000000000000,
      .redu { laneZero with ty := .f32, d := 514, a := 260, rnd := .rtz }),
    (0b00_01010100_00111_1000000010_0100000100_0000000000_0000000000_000_00_0_0_0_0_0_0_0_0_0_00000010010_0000000000000000,
      .scan { laneZero with ty := .n32, d := 514, a := 260, aux := 18 }),
    (0b00_01010101_10011_1000000010_0000000000_0000000000_0000000000_000_00_0_0_0_0_0_0_0_0_0_00000000000_0000000000000000,
      .srd { laneZero with ty := .b64, d := 514 }),
    (0b00_01010110_10011_1000000010_0100000100_0000000000_0000000000_000_00_0_0_0_0_0_0_0_0_0_00000000000_0000000000001001,
      .movx { laneZero with ty := .b64, d := 514, a := 260, imm16 := 9 }),
    (0b00_01010111_10011_0000000000_0100000100_0010000010_0000000000_000_00_0_0_0_0_0_0_0_0_0_00000000000_0000000000001001,
      .movxd { laneZero with ty := .b64, a := 260, b := 130, imm16 := 9 })] : List (BitVec 96 × Instr)),
    (decodeL p.1).toOption = some p.2 ∧ encodeL p.2 = some p.1 := by decide +kernel

theorem test_decode_lane_memory : ∀ p ∈ ([
    (0b00_01011000_01000_1000000010_0100000100_0010000010_0000000000_110_00_0_0_0_0_0_0_0_0_0_10010100001_1000000000010000,
      .ld { laneZero with ty := .n64, d := 514, a := 260, b := 130, msel := 6, aux := 1185, imm16 := 32784 }),
    (0b00_01011001_00000_0000000000_0100000100_0010000010_0001000010_110_00_0_0_0_0_0_0_0_0_0_00101000001_0000000000010000,
      .st { laneZero with ty := .b32, a := 260, b := 130, c := 66, msel := 6, aux := 321, imm16 := 16 }),
    (0b00_01011010_00010_1000000010_0100000100_0010000010_0000000000_000_00_0_0_0_0_0_0_0_0_0_11000000000_0000000000000000,
      .ldd { laneZero with ty := .i16, d := 514, a := 260, b := 130, aux := 1536 }),
    (0b00_01011011_00101_0000000000_0100000100_0010000010_0001000010_000_00_0_0_0_0_0_0_0_0_0_00000000000_0000000000000000,
      .std { laneZero with ty := .n8, a := 260, b := 130, c := 66 }),
    (0b00_01011100_00011_1000000010_0100000101_0010000010_0000000000_001_00_0_0_0_0_0_0_0_0_0_00000000000_0000000000000000,
      .ldc { laneZero with ty := .i32, d := 514, a := 261, b := 130, msel := 1 }),
    (0b00_01011101_10011_0000000000_0100000101_0010000010_0001000010_000_00_0_0_0_0_0_0_0_0_0_00000000000_0000000000000000,
      .stc { laneZero with ty := .b64, a := 261, b := 130, c := 66 }),
    (0b00_01011110_01001_1000000010_0100000100_0010000010_0001000010_000_11_0_0_0_0_0_0_0_0_0_00001100001_0000000000000000,
      .atom { laneZero with ty := .f64, d := 514, a := 260, b := 130, c := 66, rnd := .rup, aux := 97 }),
    (0b00_01011111_00000_1000000010_0100000101_0010000010_0001000010_000_00_0_0_0_0_0_0_0_0_0_00110000000_0000000000000000,
      .atomc { laneZero with ty := .b32, d := 514, a := 261, b := 130, c := 66, aux := 384 }),
    (0b00_01100000_00000_0000000000_0100000100_0010000010_0000000000_000_00_0_0_0_0_0_0_0_0_0_00000000000_0000000000000000,
      .pref { laneZero with a := 260, b := 130 }),
    (0b00_01100001_00000_0000000101_0100000100_0010000010_0000000000_000_00_0_0_0_0_0_0_0_0_0_00010000000_0000000000000000,
      .tagrd { laneZero with d := 5, a := 260, b := 130, aux := 128 })] : List (BitVec 96 × Instr)),
    (decodeL p.1).toOption = some p.2 ∧ encodeL p.2 = some p.1 := by decide +kernel

theorem test_decode_lane_defect : ∀ p ∈ ([
    (0b00_01110000_01001_0000000011_0000000000_0010000010_0000000000_000_00_0_0_0_0_0_0_0_0_0_00000000000_1111111110110000,
      .dinit { laneZero with ty := .f64, d := 3, b := 130, imm16 := 65456 }),
    (0b00_01110001_01001_0000000010_0100000100_0010000010_0000000000_000_00_0_0_0_0_0_0_0_0_0_00000000001_0000000000000000,
      .dacc { laneZero with ty := .f64, d := 2, a := 260, b := 130, aux := 1 }),
    (0b00_01110010_01001_1000000010_0000000011_0000000000_0000000000_000_10_0_0_0_0_0_0_0_0_0_00000000000_0000000000000000,
      .drnd { laneZero with ty := .f64, d := 514, a := 3, rnd := .rdn }),
    (0b00_01110011_01001_1000000010_0100000100_0000000010_0001000010_000_00_0_0_0_0_0_0_0_0_0_00000000000_0000000000000000,
      .dcor { laneZero with ty := .f64, d := 514, a := 260, b := 2, c := 66 }),
    (0b00_01110100_00000_1000000010_0000000011_0000000000_0000000000_000_00_0_0_0_0_0_0_0_0_0_00000000001_0000000000000000,
      .drst { laneZero with d := 514, a := 3, aux := 1 }),
    (0b00_01110101_00000_0000000101_0000000011_0000000000_0000000000_000_00_0_0_0_0_0_0_0_0_0_00000000001_0000000000000000,
      .ptst { laneZero with d := 5, a := 3, aux := 1 }),
    (0b00_01110110_10011_0000000000_0100000100_0000000000_0000000000_000_00_0_0_0_0_0_0_0_0_0_00000000000_0000000000000000,
      .pchk { laneZero with ty := .b64, a := 260 })] : List (BitVec 96 × Instr)),
    (decodeL p.1).toOption = some p.2 ∧ encodeL p.2 = some p.1 := by decide +kernel

theorem test_decode_lane_control : ∀ p ∈ ([
    (0b00_01111000_00000_0000000000_0000000000_0000000000_0000000000_110_00_0_0_0_0_0_0_0_0_0_00010000001_1000000000101000,
      .lbr { laneZero with msel := 6, aux := 129, imm16 := 32808 }),
    (0b00_01111001_00000_0000000000_0000000000_0000000000_0000000000_000_00_0_0_0_0_0_0_0_0_0_00000000000_0000000000000000,
      .ljoin laneZero),
    (0b00_01111010_00000_0000000000_0000000000_0000000000_0000000000_000_00_0_0_0_0_0_0_0_0_0_00000000000_0000000000000000,
      .lend laneZero),
    (0b00_01111011_00000_0000000000_0000000000_0000000000_0000000000_000_00_0_0_0_0_0_0_0_0_0_00000000000_0000000000000000,
      .lnop laneZero),
    (0b00_01111100_00000_0000000000_0000000000_0000000000_0000000000_000_00_0_0_0_0_0_0_0_0_0_00000000000_0000001010100101,
      .ltrap { laneZero with imm16 := 677 })] : List (BitVec 96 × Instr)),
    (decodeL p.1).toOption = some p.2 ∧ encodeL p.2 = some p.1 := by decide +kernel

theorem test_decode_pair : (decodeL
      0b01_000001_001_000001100_000100001_000000110_00_1_0_0_0_0_000_100010_011_000001001_000000010_000000111_01_0_1_0_0_0_000_00).toOption =
    some (.pairLaneWord ⟨1, 1, 12, 33, 6, .rne, true, false, false, false, false, 0⟩
      ⟨0x22, 3, 9, 2, 7, .rtz, false, true, false, false, false, 0⟩) := by decide +kernel

/-! ### Well-formedness: an ill-formed term of each check is refused, its neighbour is not -/

/-- Ranges, strengths and zero rules of the S-stream forms (R182, R185, R191 to R196, R246, R255, R285, R299, R325). -/
theorem test_wf_scalar_refused : ∀ i ∈ ([
    .sbr 6 1 0, .sext 1 2 6, .sld 1 2 ⟨.rel, 1⟩ .b8 0, .sldc 1 2 ⟨.ar, 1⟩ .b8, .sst 1 2 ⟨.acq, 1⟩ .b8 0,
    .sstc 1 2 ⟨.acq, 1⟩ .b8, .sld 1 2 ⟨.plain, 1⟩ .b8 0, .sld 1 2 ⟨.acq, 0⟩ .b8 0, .satom 2 3 ⟨.plain, 0⟩ true 10,
    .satom 3 4 ⟨.plain, 0⟩ true 9, .sfence ⟨.plain, 0⟩, .sclk 1 6, .barArrive ⟨.acq, 1⟩ 0, .barWait 1 ⟨.rel, 1⟩ 0,
    .barTest 1 2 ⟨.ar, 1⟩ 0, .barArm 1 2 ⟨.rel, 1⟩ 0, .cpy 1 63 2 0, .cpyg 1 63 2 0, .cpyt 1 60 2 0, .spawn 1 61 2,
    .send 1 63 2, .tget 1 6, .tset 1 0 2, .tset 1 2 0, .wloop 63 1 2, .wloop 1 63 2, .mzero 0 0, .mma 0 1 2 0,
    .mout 1 0 0 false false, .mpsn 1 0 0, .mscrub 0, .mbar 1 8, .mwait 1 8, .csrr 1 2, .csrw 1 0x33, .feat 1 2]
      : List Instr), i.wf = false := by decide +kernel

theorem test_wf_scalar_kept : ∀ i ∈ ([
    .sbr 5 1 0, .sext 1 2 5, .sld 1 2 ⟨.acq, 1⟩ .b8 0, .sst 1 2 ⟨.rel, 1⟩ .b8 0, .satom 3 4 ⟨.ar, 1⟩ true 8,
    .satom 2 4 ⟨.plain, 0⟩ true 9, .sfence ⟨.acq, 1⟩, .sclk 1 5, .barArrive ⟨.rel, 1⟩ 0, .barWait 1 ⟨.plain, 0⟩ 0,
    .cpy 1 62 2 0, .cpyt 1 59 2 0, .spawn 1 60 2, .send 1 62 2, .tget 1 5, .tset 1 0 0, .tset 1 2 1, .wloop 62 62 2,
    .mma 7 1 2 15, .mbar 1 7, .csrr 1 0x32, .feat 1 1] : List Instr), i.wf = true := by decide +kernel

/-- Every check of a lane word, in the order of R146: a reserved selector, a type the form does not take, a field that
must be zero, an ordering annotation, an odd base of a pair, and m0 as a destination. -/
theorem test_wf_lane_refused : ∀ i ∈ ([
    .cmp { laneZero with ty := .i32, d := 1, aux := 6 }, .srd { laneZero with aux := 7 },
    .mmov { laneZero with d := 1, aux := 3 }, .redu { laneZero with ty := .i32, aux := 6 },
    .add { laneZero with ty := .f32 }, .fdiv { laneZero with ty := .f16 }, .cvt { laneZero with ty := .f32, aux := 10 },
    .redu { laneZero with ty := .f32, aux := 3 }, .srd { laneZero with ty := .b64, aux := 1 },
    .add { laneZero with ty := .i32, c := 1 }, .add { laneZero with ty := .i32, msel := 1 },
    .add { laneZero with ty := .i32, rnd := .rtz }, .and { laneZero with sat := true }, .add { laneZero with ty := .i32, nega := true },
    .add { laneZero with ty := .i32, ka := true, a := 16 }, .add { laneZero with ty := .i32, imm := true, b := 1 },
    .add { laneZero with ty := .i8, imm := true, imm16 := 256 }, .mand { laneZero with d := 8 }, .drnd { laneZero with ty := .f32, a := 4 },
    .ld { laneZero with ty := .i8, aux := 128 }, .lnop { laneZero with aux := 1 }, .ltrap { laneZero with imm16 := 0x400 },
    .ld { laneZero with aux := 1 }, .ld { laneZero with aux := 0x41 }, .st { laneZero with aux := 0x21 }, .pref { laneZero with aux := 0x21 },
    .add { laneZero with ty := .i64, d := 1 }, .ld { laneZero with a := 1 }, .mand { laneZero with d := 0, a := 1 }]
      : List Instr), i.wf = false := by decide +kernel

theorem test_wf_lane_kept : ∀ i ∈ ([
    .cmp { laneZero with ty := .i32, d := 1, aux := 5 }, .srd { laneZero with ty := .b64 }, .add { laneZero with ty := .i64, d := 2 },
    .ld { laneZero with aux := 0x21 }, .st { laneZero with aux := 0x41 }, .mand { laneZero with d := 1 },
    .ltrap { laneZero with imm16 := 0x3FF }] : List Instr), i.wf = true := by decide +kernel

/-- The pairing rules of R142: a bank that supplies three reads, two destinations in one bank, a dependence, two
operations of class S; and a pair that keeps them. -/
theorem test_wf_pair :
    let op (cop : BitVec 6) (d a b : BitVec 9) : CompactOp := ⟨cop, 3, d, a, b, .rne, false, false, false, false, false, 0⟩
    (Instr.pairLaneWord (op 0x20 1 4 8) (op 0x20 2 12 3)).wf = false ∧
    (Instr.pairLaneWord (op 0x20 1 4 8) (op 0x20 5 6 3)).wf = false ∧
    (Instr.pairLaneWord (op 0x20 1 4 8) (op 0x20 2 1 3)).wf = false ∧
    (Instr.pairLaneWord (op 0x28 1 4 8) (op 0x28 2 7 3)).wf = false ∧
    (Instr.pairLaneWord (op 0x20 1 4 8) (op 0x20 2 7 3)).wf = true := by decide +kernel

/-- Words that name no instruction, with the reason R146 gives each. -/
theorem test_decode_refused :
    let reason (r : Decoded) : Option Reason := match r with | .error e => some e.reason | .ok _ => none
    reason (decodeS .wave 0) = some .opcode ∧ reason (decodeS .crane 0x44024000) = some .engine ∧
    reason (decodeS .wave 0x88318800) = some .engine ∧ reason (decodeS .wave 0x33000000) = some .select ∧
    reason (decodeL 0) = some .opcode ∧ reason (decodeL (2 ^ 95)) = some .form ∧ reason (decodeL (3 * 2 ^ 94)) = some .form ∧
    reason (decodeL (2 ^ 94 + 1)) = some .mbz ∧ reason (decodeL (2 ^ 86 + 21 * 2 ^ 81)) = some .type := by decide +kernel

/-! ### One step of the bench -/

/-- The bench with the word next, its hart changed by `f`. -/
def bench (nbits w : Nat) (f : Hart → Hart) : State := (State.reset.withFetchWord nbits w).modHart 0 f

/-- What a step of the bench leaves of the hart. -/
def ran (nbits w : Nat) (f : Hart → Hart) : Option Hart :=
  match step (bench nbits w f) with
  | .next t => t.hart? 0
  | _ => none

/-- A scalar register of the hart after the step. -/
def sAfter (w : Nat) (f : Hart → Hart) (r : SReg) : Option (Word × Bool) :=
  (ran 32 w f).map fun h => ((h.getS r).val, (h.getS r).tag)

/-- The pc after the step. -/
def pcAfter (w : Nat) (f : Hart → Hart) : Option Word := (ran 32 w f).map (·.pc)

/-- A register of lane 0 after the step. -/
def vAfter (w : Nat) (f : Hart → Hart) (r : Nat) : Option (BitVec 32 × Bool) :=
  (ran 96 w f).map fun h => ((h.getV r 0).val, (h.getV r 0).tag)

/-- The FCODE of the bench's task after the step, when it has faulted. -/
def fcodeAfter (nbits w : Nat) (f : Hart → Hart) : Option (BitVec 16) :=
  match step (bench nbits w f) with
  | .next t => (t.tcb? 0 0).bind fun c => if c.st = .faulted then some c.fcode else none
  | _ => none

/-- R180, R177: `sadd s6, s6, s7` wraps modulo 2^64, and the tag of s7 joins. -/
theorem test_sadd_wraps :
    sAfter 0x04618700 (fun h => (h.setS 6 ⟨BitVec.allOnes 64, false⟩).setS 7 ⟨1, true⟩) 6 = some (0, true) := by decide +kernel

/-- R177: a write to s0 is discarded: `sadd s0, s6, s7`. -/
theorem test_sadd_s0 : sAfter 0x04018700 (fun h => h.setS 7 ⟨5, true⟩) 0 = some (0, false) := by decide +kernel

/-- R181: the least number divided by -1 is itself; a division by zero gives 0. `sdiv s1, s2, s3`. -/
theorem test_sdiv_overflow :
    sAfter 0x04108305 (fun h => (h.setS 2 ⟨0x8000000000000000, false⟩).setS 3 ⟨BitVec.allOnes 64, false⟩) 1 =
      some (0x8000000000000000, false) := by decide +kernel
theorem test_sdiv_zero : sAfter 0x04108305 (fun h => h.setS 2 ⟨7, false⟩) 1 = some (0, false) := by decide +kernel

/-- R181: an empty field leaves the destination of `sbfi s1, s2, s3` as it was, tag and all. -/
theorem test_sbfi_empty :
    sAfter 0x04108316 (fun h => (h.setS 1 ⟨9, true⟩).setS 2 ⟨7, false⟩) 1 = some (9, true) := by decide +kernel

/-- R183: `saddi s3, s3, -4` sign-extends its immediate. -/
theorem test_saddi_negative : sAfter 0x0830FFFC (fun h => h.setS 3 ⟨3, false⟩) 3 = some (BitVec.ofInt 64 (-1), false) := by
  decide +kernel

/-- R184: `smovl s5, 0x80000` sign-extends, and `sshor s5, 0x12345` shifts by 20. -/
theorem test_smovl_high : sAfter 0x28580000 id 5 = some (0xFFFFFFFFFFF80000, false) := by decide +kernel
theorem test_sshor : sAfter 0x2C512345 (fun h => h.setS 5 ⟨1, false⟩) 5 = some (0x112345, false) := by decide +kernel

/-- R187: a count of 0 wraps, so `sloop s5, -3` branches. -/
theorem test_sloop_wraps : sAfter 0x4005FFFD id 5 = some (BitVec.allOnes 64, false) := by decide +kernel
theorem test_sloop_ends : pcAfter 0x4005FFFD (fun h => h.setS 5 ⟨1, false⟩) = some (benchEntry + 4) := by decide +kernel

/-- R186: `scallr s63` reads its target before it writes the link; bits 1:0 are ignored. -/
theorem test_scallr_link : pcAfter 0x3C0FC002 (fun h => h.setS 63 ⟨0x2003, false⟩) = some 0x2000 := by decide +kernel

/-- R185, R357: a branch on a proposal takes the tag fault, class 0x03; the table is of zeros, so the task faults. -/
theorem test_sbr_proposal : fcodeAfter 32 0x30050002 (fun h => h.setS 5 ⟨0, true⟩) = some 0x0300 := by decide +kernel

/-- R145, R146, R357: the zero word is illegal, class 0x01, REASON OPCODE. -/
theorem test_illegal : fcodeAfter 32 0 id = some 0x0101 := by decide +kernel

/-- Chapter 17's example: `trap 5` with a vector word set saves the next pc, the class and the number. -/
theorem test_trap :
    (match step ((bench 32 0xFC000050 id).dsSet (benchFrame / 128) (some ⟨true, (1 : BitVec 1024) <<< 800, false, false⟩)) with
      | .next t => (t.hart? 0).map fun h => (h.getS 56, h.getS 57, h.getS 59, h.pc)
      | _ => none) =
      some (⟨benchEntry + 4, false⟩, ⟨0x0000190000000000, false⟩, ⟨5, false⟩, benchEntry - 256 + 100) := by decide +kernel

/-- R255, R97: `bar.arrive` on a barrier that expects one arrival ends its phase. -/
theorem test_bar_arrive :
    (match step ((bench 32 0x64000021 id).modUnit 0 fun g => g.setBar 0 2 { Barrier.zero with exp := 1, init := true }) with
      | .next t => (t.unit? 0).map fun g => ((g.bar 0 2).gen, (g.bar 0 2).arr)
      | _ => none) = some (1, 0) := by decide +kernel

/-- R22, R36, R357: `sst.b64 s6, [s4]` to a page without W takes the access fault, class 0x0F, cause 0x03. -/
theorem test_sst_not_writable : fcodeAfter 32 0x50610060 (fun h => h.setS 4 ⟨0x1000, false⟩) = some 0x0F03 := by decide +kernel

/-- R207: `add.i32.sat v10, v3, 100` clamps. -/
theorem test_add_sat : vAfter 0x0046_0500_6000_0008_0800_0064 (fun h => h.setV 3 0 ⟨0x7FFFFFF0, true⟩) 10 =
    some (0x7FFFFFFF, true) := by decide +kernel

/-- A load that still owes v3, and the sum of v3 and 100 that waits for it (R189, R426). -/
def owes : LoadReq := ⟨7, .ld, [⟨0, 0x1000, 0x100000, .normal, false⟩], 4, 1, true, 3, none, 0x1100, .laneLoad, [], 0, .lane 0⟩
def addLate : LateWord :=
  ⟨.add { laneZero with ty := .i32, d := 10, a := 3, sat := true, imm := true, imm16 := 100 }, false,
    ⟨0, BitVec.allOnes 32, false, .run⟩, ⟨benchEntry, [], 0⟩, [], 0⟩

theorem test_hold : (match step { bench 96 0x0046_0500_6000_0008_0800_0064 (fun h => { h with loads := [owes] }) with
    sched := [.hold 0 false] } with
    | .next t => (t.hart? 0).map fun k => (k.late, k.slot0.off, k.loads) | _ => none) = some ([addLate], 1, [owes]) := by
  decide +kernel
theorem test_late : (match step { bench 32 0x04618700 (fun h => { h.setV 3 0 ⟨0x7FFFFFF0, true⟩ with late := [addLate] }) with
    sched := [.late 0] } with
    | .next t => (t.hart? 0).map fun k => (k.late, k.slot0, k.getV 10 0) | _ => none) =
      some ([], Slot.zero, ⟨0x7FFFFFFF, true⟩) := by decide +kernel


/-- Chapter 9's example of `bfx`: offset 28, width 8 of 0xF0000000 is clipped at the end, signed and unsigned. -/
theorem test_bfx_signed : vAfter 0x0406_0280_2010_0000_0000_0000
    (fun h => (h.setV 1 0 ⟨0xF0000000, false⟩).setV 2 0 ⟨0x081C, false⟩) 5 = some (0xFFFFFFFF, false) := by decide +kernel
theorem test_bfx_unsigned : vAfter 0x040E_0280_2010_0000_0000_0000
    (fun h => (h.setV 1 0 ⟨0xF0000000, false⟩).setV 2 0 ⟨0x081C, false⟩) 5 = some (0xF, false) := by decide +kernel

/-- R162: 1 + 2^-24 in f32 is a tie, which goes to the even 1 in rne. `fadd.f32 v5, v1, v2`. -/
theorem test_fadd_tie : vAfter 0x0814_0280_2010_0000_0000_0000
    (fun h => (h.setV 1 0 ⟨0x3F800000, false⟩).setV 2 0 ⟨0x33800000, false⟩) 5 = some (0x3F800000, false) := by decide +kernel

/-- R210: `fma.f32 v4, v1, v2, v3` rounds once: (1 + 2^-12)^2 - (1 + 2^-11) is 2^-24. -/
theorem test_fma_once : vAfter 0x08D4_0200_2010_0600_0000_0000
    (fun h => ((h.setV 1 0 ⟨0x3F800800, false⟩).setV 2 0 ⟨0x3F800800, false⟩).setV 3 0 ⟨0xBF801000, false⟩) 4 =
    some (0x33800000, false) := by decide +kernel

/-- R119: `lbr m1, +40` of lanes 0 and 1 alone sends lane 1 to the target's slot. -/
theorem test_lbr : (ran 96 0x1E00_0000_0000_0040_0000_0028
    (fun h => (h.setM 0 ⟨3, 0⟩).setM 1 ⟨2, 0⟩)).map (fun h => (h.slot0.mask, h.slot0.off, h.slot1.mask, h.slot1.off)) =
    some (1, 1, 2, 40) := by decide +kernel

/-- R43, R357: a register at or beyond the declared count is a register trap, class 0x06: here v976. -/
theorem test_register : fcodeAfter 96 0x0047_E800_6000_0008_0800_0064 id = some 0x0600 := by decide +kernel

/-- R143: both operations of a pair read before either writes: v5 := v2 + v0 takes the v2 from before v2 := v3 + v4. -/
theorem test_pair_reads_first : (ran 96 0x4120_5010_0000_0480_8060_4000
    (fun h => ((h.setV 2 0 ⟨7, false⟩).setV 3 0 ⟨9, true⟩).setV 4 0 ⟨1, false⟩)).map
      (fun h => (h.getV 5 0, h.getV 2 0)) = some (⟨7, false⟩, ⟨10, true⟩) := by decide +kernel

/-- R299: `mzero acc1, 1` on a crane thread is one operation counted in mx. -/
theorem test_mzero : (ran 32 0x84100010 id).map (fun h => (h.mx.length, h.pc)) = some (1, benchEntry + 4) := by decide +kernel

/-- R312, R326: `tget s5, 0` returns the task's time word, here 0, settled. -/
theorem test_tget : sAfter 0x74500006 (fun h => h.setS 5 ⟨9, true⟩) 5 = some (0, false) := by decide +kernel

/-! ### Witnesses: for each statement, states and operands that meet its hypotheses together -/

/-- A bench hart and unit, and the module with one such unit, agent `a` next. -/
def hw : Hart := benchHart .wave .vector false
def hc : Hart := benchHart .crane .vector false
def gw : Gang := benchUnit .wave
def gc : Gang := benchUnit .crane
def world (a : Agent) (h : Hart) (g : Gang) : State :=
  { State.reset.withFetchWord 32 0 with cur := a, harts := [(0, some h)], gangs := [(0, some g)] }
def ws : State := world (.scalar 0) hw gw

theorem ready (h : Hart) (g : Gang) (reads writes : List SReg) (l : h.loads = []) (q : h.storeQ = []) :
    ScalarReady (world (.scalar 0) h g) 0 h reads writes := scalarReady_idle reads writes rfl rfl l q rfl rfl

theorem readyW (reads writes : List SReg) : ScalarReady ws 0 hw reads writes := ready hw gw reads writes rfl rfl

theorem some_of {α β : Type} (r : α × Option β) (h : r.2.isSome = true) : ∃ u x, r = (u, some x) := by
  obtain ⟨u, _ | x⟩ := r
  · cases h
  · exact ⟨u, x, rfl⟩

theorem done_of {α : Type} (r : α × Bool) (h : r.2 = true) : ∃ u, r = (u, true) := ⟨r.1, by rw [← h]⟩

theorem done_of' {α : Type} (r : α × Bool) (h : r.2 = true) : r = (r.1, true) := by rw [← h]

/-- A check that passes, and what follows it. -/
theorem chain {α β γ : Type} (r : α × Option β) (p : α → β → Bool) (f : α → β → γ × Bool)
    (h : (r.2.any fun x => p r.1 x && (f r.1 x).2) = true) : ∃ u x v, r = (u, some x) ∧ p u x = true ∧ f u x = (v, true) := by
  obtain ⟨u, _ | x⟩ := r
  · cases h
  · simp only [Option.any_some, Bool.and_eq_true] at h
    exact ⟨u, x, (f u x).1, rfl, h.1, by rw [← h.2]⟩

/-- A plain access has no release part to wait for. -/
theorem plain_done (s : State) (hid : Nat) (obs : BitVec 5) : ReleaseDone s hid ⟨.plain, obs⟩ s := by simp [ReleaseDone]

/-- A release of `s` that ends. -/
theorem rel_done (s : State) (hid : Nat) (obs : BitVec 5) (h : (s.release hid obs).2 = true) :
    ReleaseDone s hid ⟨.rel, obs⟩ ((s.release hid obs).1.released hid) := by
  simp only [ReleaseDone, true_or, if_true]
  exact ⟨_, by rw [← h], rfl⟩

theorem witness_StepRunsTheDecodedInstruction_scalar :
    let s := State.reset.withFetchWord 32 0x04618700
    s.sched = [] ∧ s.cur = .scalar 0 ∧ ∃ h, s.hart? 0 = some h ∧ h.still = false ∧ s.saved h = false ∧ h.late = [] ∧
      (s.asyncDue 0 h).isNone = true ∧ h.wait = none ∧ h.acq = false ∧ (s.fetchBytes 0 h h.pc 4 accFetch).2 = .ok 0x04618700 ∧
      (decodeS h.engine 0x04618700).toOption = some (.sadd 6 6 7) :=
  ⟨rfl, rfl, hw, rfl, rfl, rfl, rfl, rfl, rfl, rfl, by decide +kernel, by decide +kernel⟩

theorem witness_StepRunsTheDecodedInstruction_lane :
    let n := 0x0046_0500_6000_0008_0800_0064
    let s := State.reset.withFetchWord 96 n
    s.sched = [] ∧ s.cur = .lane 0 false ∧ ∃ h, s.hart? 0 = some h ∧ s.lanesGo h = true ∧ (h.slot false).st = .run ∧ h.late = [] ∧
      (s.fetchBytes 0 h (h.laneAddr false) 12 accFetch).2 = .ok n ∧ (decodeL (BitVec.ofNat 96 n)).toOption.isSome = true :=
  ⟨rfl, rfl, benchHart .wave .vector true, rfl, rfl, rfl, rfl, by decide +kernel, by decide +kernel⟩

theorem witness_StepRunsTheDecodedInstruction_event :
    ({ ws with sched := [.event (.placementRound)] } : State).sched = .event .placementRound :: [] := rfl

theorem witness_ModuleNeverStops : State.reset.sched = [] := rfl

theorem witness_StepKeepsMemoryCanonical : Memory.wf ws.mem.mem ∧
    ∃ t, step { ws with sched := [.tick 1] } = .next t := ⟨rfl, _, rfl⟩

theorem witness_ScalarEncodeDecode : Instr.wf (.sadd 6 6 7) = true ∧ encodeS (.sadd 6 6 7) = some 0x04618700 := by decide
theorem witness_LaneEncodeDecode : Instr.wf (.lnop laneZero) = true ∧ (encodeL (.lnop laneZero)).isSome = true := by decide

theorem witness_DecodedWordIsTheEncoding : (decodeS .crane 0x883188F0).toOption = some (.mma 3 6 8 15) ∧
    (decodeL 0x1E00_0000_0000_0040_0000_0028).toOption = some (.lbr { laneZero with msel := 1, imm16 := 40 }) := by decide

theorem witness_ScalarArithmeticResults : ScalarReady ws 0 hw [1, 2] [3] ∧ ScalarReady ws 0 hw [1] [3] ∧
    ScalarReady ws 0 hw [] [3] ∧ ScalarReady ws 0 hw [3] [3] := ⟨readyW .., readyW .., readyW .., readyW ..⟩
theorem witness_ScalarDivisionAndBitFields : ScalarReady ws 0 hw [1, 2] [3] ∧ ScalarReady ws 0 hw [1, 2, 3] [3] :=
  ⟨readyW .., readyW ..⟩
theorem witness_ScalarCompareConditions : ScalarReady ws 0 hw [1, 2] [3] ∧ ScalarReady ws 0 hw [1] [3] := ⟨readyW .., readyW ..⟩
theorem witness_ScalarSelectCountExtend : ScalarReady ws 0 hw [1, 2, 3] [3] ∧ ScalarReady ws 0 hw [1] [3] := ⟨readyW .., readyW ..⟩
theorem witness_ScalarResultAndFrame : ws.hart? 0 = some hw ∧ registerForm (.sloop 5 (-3)) = some ([5], [5], [5]) ∧
    ScalarReady ws 0 hw [5] [5] ∧ hw.Settled [5] := ⟨rfl, rfl, readyW .., by simp [Hart.Settled]; decide⟩
theorem witness_ScalarBranch : ScalarReady ws 0 hw [5] [] ∧ hw.Settled [5] ∧
    (let h := hw.setS 5 ⟨1, true⟩; ScalarReady (world (.scalar 0) h gw) 0 h [5] [] ∧ ¬h.Settled [5]) :=
  ⟨readyW .., by simp [Hart.Settled]; decide, ready _ gw _ _ rfl rfl, by simp [Hart.Settled]; decide⟩
theorem witness_ScalarJumpsAndCalls : ScalarReady ws 0 hw [] [] ∧ ScalarReady ws 0 hw [] [63] ∧ ScalarReady ws 0 hw [63] [] ∧
    ScalarReady ws 0 hw [5] [] ∧ ScalarReady ws 0 hw [63] [63] := ⟨readyW .., readyW .., readyW .., readyW .., readyW ..⟩
theorem witness_ScalarLoopStep : ScalarReady ws 0 hw [0] [0] ∧ (hw.getS 0).tag = false ∧
    (let h := hw.setS 5 ⟨1, true⟩; ScalarReady (world (.scalar 0) h gw) 0 h [5] [5] ∧ (h.getS 5).tag = true) :=
  ⟨readyW .., rfl, ready _ gw _ _ rfl rfl, by decide⟩

/-- A vector wave with no block, with four, and with an entry in its FIFO. -/
theorem witness_LaneDispatch :
    let full : Hart := { hw with queue := List.replicate 4 ⟨0x1100, [], 0⟩, fifo := [⟨1, true⟩] }
    (hw.roleBad .vector = false ∧ hw.inLaneHandler = false ∧ ScalarReady ws 0 hw [5] [] ∧ hw.Settled [5] ∧
      (∀ n, ws.upsetAt (.uniformReg 0 n) = false) ∧ hw.blocks = 0) ∧
    (full.roleBad .vector = false ∧ full.inLaneHandler = false ∧ full.blocks = 4 ∧ full.fifo = [⟨1, true⟩] ∧
      ScalarReady (world (.scalar 0) full gw) 0 full [5] [] ∧ ScalarReady (world (.scalar 0) full gw) 0 full [] [3] ∧
      ∀ n, (world (.scalar 0) full gw).upsetAt (.uniformReg 0 n) = false) :=
  ⟨⟨rfl, rfl, readyW .., by simp [Hart.Settled]; decide, fun _ => rfl, rfl⟩,
    rfl, rfl, rfl, rfl, ready _ gw _ _ rfl rfl, ready _ gw _ _ rfl rfl, fun _ => rfl⟩

/-- The bench with its code page writable, where stores and atomics can go. -/
def open' (h : Hart) (g : Gang) : State :=
  let s := world (.scalar 0) h g
  { s with mem := { s.mem with tlb := [{ benchTlb 0 with w := true, d := true }] } }
def hp : Hart := hw.setS 4 ⟨0x1000, false⟩
theorem readyOpen (h : Hart) (g : Gang) (reads writes : List SReg) (l : h.loads = []) (q : h.storeQ = []) :
    ScalarReady (open' h g) 0 h reads writes := scalarReady_idle reads writes rfl rfl l q rfl rfl

theorem witness_ScalarLoadIssues : ScalarReady (open' hp gw) 0 hp [4] [6] ∧ hp.Settled [4] ∧ hp.full .ld = false ∧
    (∃ u acc, (open' hp gw).scalarCheck 0 hp accRead .scalarLoad false (alignTo ((hp.getS 4).val + 8) 8) = (u, some acc)) ∧
    (∃ u acc, (open' hp gw).scalarClusterCheck 0 hp .scalarLoad (alignTo (hp.getS 4).val 8) 8 = (u, some acc)) ∧
    (let f : Hart := { hp with ld := List.replicate 63 ⟨9, false⟩ }; ScalarReady (open' f gw) 0 f [4] [6] ∧ f.full .ld = true) :=
  ⟨readyOpen _ _ _ _ rfl rfl, by simp [Hart.Settled]; decide, rfl, some_of _ (by decide +kernel), some_of _ (by decide +kernel),
    readyOpen _ _ _ _ rfl rfl, by decide⟩

def ldReq : LoadReq := ⟨1, .sld, [⟨0, 0x1008, 0x100008, .normal, false⟩], 8, 1, false, 6, none, 0x1100, .scalarLoad, [], 0, .scalar 0⟩
theorem witness_ScalarLoadReturns :
    let h : Hart := { hw with loads := [ldReq], ld := [⟨1, false⟩] }
    let s := world (.scalar 0) h gw
    s.hart? 0 = some h ∧ h.trapped = none ∧ h.loads = [ldReq] ∧ h.storeQ = [] ∧ s.mem.flights = [] ∧ isCtl 0x100008 = false ∧
      isNet 0x100008 = false ∧ ldReq.late = 0 ∧ s.l1Victim h.core (sectorOf 0x100008) = none ∧
      (s.l1View h.core (sectorOf 0x100008)).2.x = false ∧
    ScalarReady (open' hp gw) 0 hp [4] [6] ∧ Sys2Proof.Ord.str ⟨.acq, 1⟩ = .acq ∧
      ∃ u acc, (open' hp gw).scalarCheck 0 hp accRead .scalarLoad false (alignTo ((hp.getS 4).val + 8) 8) = (u, some acc) :=
  ⟨rfl, rfl, rfl, rfl, rfl, by decide, by decide, rfl, by decide +kernel, by decide +kernel, readyOpen _ _ _ _ rfl rfl, rfl,
    some_of _ (by decide +kernel)⟩

theorem witness_ScalarStoresAndAtomics :
    let s := open' hp gw
    ScalarReady s 0 hp [6, 4] [] ∧ hp.Settled [4] ∧ hp.full .st = false ∧ hp.full .ld = false ∧
    (∃ u acc v, s.scalarCheck 0 hp accWrite .scalarStore (hp.getS 6).tag (alignTo ((hp.getS 4).val + 8) 8) = (u, some acc) ∧
      (!((hp.getS 6).tag && u.tagless acc)) = true ∧ u.loadsBefore 0 false 8 [acc] = (v, true)) ∧
    (∃ u acc v, s.scalarClusterCheck 0 hp .scalarStore (alignTo (hp.getS 4).val 8) 8 = (u, some acc) ∧ true = true ∧
      u.loadsBefore 0 true 8 [acc] = (v, true)) ∧
    ScalarReady s 0 hp [6, 4] [6] ∧ ScalarReady s 0 hp [6, sreg 7, 4] [6] ∧
    (∃ u acc v, s.scalarCheck 0 hp accAtomic .scalarAtomic (hp.getS 6).tag (alignTo (hp.getS 4).val 8) = (u, some acc) ∧
      (!((hp.getS 6).tag && u.tagless acc)) = true ∧ u.loadsBefore 0 false 8 [acc] = (v, true)) ∧
    (∀ v, ReleaseDone v 0 ⟨.plain, 0⟩ v) ∧ (s.release 0 1).2 = true :=
  ⟨readyOpen _ _ _ _ rfl rfl, by simp [Hart.Settled]; decide, rfl, rfl, chain _ _ _ (by decide +kernel),
    chain _ (fun _ _ => true) _ (by decide +kernel), readyOpen _ _ _ _ rfl rfl, readyOpen _ _ _ _ rfl rfl,
    chain _ _ _ (by decide +kernel), fun v => plain_done v 0 0, by decide +kernel⟩

theorem witness_SettledOnlyOperandsFault :
    let h := (hw.setS 5 ⟨1, true⟩).setS 63 ⟨1, true⟩
    let s := world (.scalar 0) h gw
    (h.getS 5).tag = true ∧ (h.getS 63).tag = true ∧ h.roleBad .vector = false ∧ ScalarReady s 0 h [5] [] ∧
    ScalarReady s 0 h [5] [63] ∧ ScalarReady s 0 h [63] [] ∧ ScalarReady s 0 h [5] [5] ∧ ScalarReady s 0 h [5] [6] ∧
    ScalarReady s 0 h [6, 5] [] ∧ ScalarReady s 0 h [6, 5] [6] ∧ ScalarReady s 0 h [6, sreg 7, 5] [6] ∧
    ScalarReady s 0 h [5, 7] [] ∧ ScalarReady s 0 h [7, 5] [] := by
  refine ⟨by decide, by decide, rfl, ?_⟩
  and_intros <;> exact ready _ gw _ _ rfl rfl

def bars (b : Barrier) : Gang := gw.setBar 0 2 b
def bOn : Barrier := { Barrier.zero with exp := 1, init := true }

theorem witness_WaitsFencesAndClock :
    let h := hw.setS 5 ⟨9, false⟩
    let s := world (.scalar 0) h (bars bOn)
    ScalarReady s 0 h [] [] ∧ (s.closeBatch 0).hart? 0 = some h ∧ (∃ u, ReleaseDone s 0 ⟨.ar, 1⟩ u) ∧ ReleaseDone s 0 ⟨.acq, 1⟩ s ∧
    ScalarReady s 0 h [] [6] ∧ ScalarReady s 0 h [5, 6] [] ∧ h.Settled [5, 6] ∧ s.barrier? h 2 = some bOn ∧
    bOn.init = true ∧ (s.closeBatch 0).barrier? h 2 = some bOn ∧ s.time.toNat < (h.getS 5).val.toNat ∧
    (h.getS 6).val.toNat ≤ s.time.toNat ∧
    (let k : Hart := { h with wait := some (.ssleep 2 1 0) }
     let t := world (.scalar 0) k (bars bOn)
     t.hart? 0 = some k ∧ k.still = false ∧ t.saved k = false ∧ t.barrier? k 2 = some bOn ∧ (0 : Word).toNat ≤ t.time.toNat ∧ (bOn.gen - 1).toInt < 0) := by
  refine ⟨ready _ _ _ _ rfl rfl, rfl, ?_, by simp [ReleaseDone], ready _ _ _ _ rfl rfl, ready _ _ _ _ rfl rfl,
    by simp [Hart.Settled]; decide, rfl, rfl, rfl, by decide, by decide, rfl, rfl, rfl, rfl, by decide, by decide⟩
  exact ⟨_, by simp only [ReleaseDone, or_true, if_true]; exact ⟨_, done_of' _ (by decide +kernel), rfl⟩⟩

theorem witness_BarrierInitArriveAndMisuse :
    let h := hw.setS 5 ⟨63, false⟩
    let s := world (.scalar 0) h (bars bOn)
    (s.barrier? h 2 = some bOn ∧ ScalarReady s 0 h [5] [] ∧ h.Settled [5] ∧ (h.getS 5).val.toNat < 64 ∧ bOn.arr = 0 ∧
      bOn.pend = 0 ∧ bOn.init = true ∧ (∃ u, ReleaseDone s 0 ⟨.rel, 1⟩ u ∧ u.barrier? h 2 = some bOn) ∧
      bOn.arr.toNat < bOn.exp.toNat) ∧
    (let k := hw.setS 5 ⟨64, false⟩
     let b := { bOn with arr := 1 }
     (world (.scalar 0) k (bars b)).barrier? k 2 = some b ∧ 64 ≤ (k.getS 5).val.toNat ∧ b.exp.toNat ≤ b.arr.toNat) ∧
    (let p := hw.setS 6 ⟨1, true⟩
     let t := world (.scalar 0) p { gw with nbar := 2 }
     t.barrier? p 2 = none ∧ ScalarReady t 0 p [5, 6] [] ∧ ScalarReady t 0 p [6] [7] ∧ p.Settled [5] ∧ ¬p.Settled [5, 6] ∧
      (world (.scalar 0) p gw).barrier? p 15 = some Barrier.zero) := by
  refine ⟨⟨rfl, ready _ _ _ _ rfl rfl, by simp [Hart.Settled]; decide, by decide, rfl, rfl, rfl, ?_, by decide⟩,
    ⟨rfl, by decide, by decide⟩, rfl, ready _ _ _ _ rfl rfl, ready _ _ _ _ rfl rfl, by simp [Hart.Settled]; decide,
    by simp [Hart.Settled]; decide, rfl⟩
  exact ⟨_, rel_done _ 0 1 (by decide +kernel), by decide +kernel⟩

def armed2 : Armed := ⟨2, 0, 0x2003, ⟨.acq, 1⟩⟩

theorem witness_BarrierWaitTestAndInterrupts :
    let h := { hw with armed := [armed2] }
    let s := world (.scalar 0) h (bars bOn)
    (s.barrier? h 2 = some bOn ∧ bOn.init = true ∧ ScalarReady s 0 h [5] [] ∧ ScalarReady s 0 h [5] [6] ∧
      ScalarReady s 0 h [5, 6] [] ∧ h.Settled [5, 6] ∧ (s.closeBatch 0).hart? 0 = some h ∧
      (s.closeBatch 0).barrier? h 2 = some bOn ∧ genReached bOn 0 ∧ ¬genReached bOn 1 ∧
      (h.armed.any fun y => y.bar = 2) = true ∧ (h.armed.any fun y => y.bar = 3) = false ∧ h.armed.length < 2) ∧
    (s.hart? 0 = some h ∧ h.still = false ∧ s.saved h = false ∧ h.wait = none ∧ s.dueInterrupt h = some armed2) ∧
    (let k := { h with userReturn := some 0x1104, armed := [armed2, armed2] }
     ScalarReady (world (.scalar 0) k (bars bOn)) 0 k [] [] ∧ k.userReturn = some 0x1104 ∧ 2 ≤ k.armed.length ∧
      h.userReturn = none) :=
  ⟨⟨rfl, rfl, ready _ _ _ _ rfl rfl, ready _ _ _ _ rfl rfl, ready _ _ _ _ rfl rfl, by simp [Hart.Settled]; decide, rfl, rfl,
      by simp [genReached]; decide, by simp [genReached]; decide, by decide, by decide, by decide⟩,
    ⟨rfl, rfl, rfl, rfl, rfl⟩, ready _ _ _ _ rfl rfl, rfl, by decide, rfl⟩

/-- A loader wave whose engine's die holds the code page's translation, with `n` in s6; s4 names the page. -/
def hl (n : Word) : Hart := (({ benchHart .wave .loader false with wait := none } : Hart).setS 4 ⟨0x1000, false⟩).setS 6 ⟨n, false⟩
def hm : Hart := (hl 0).setS 4 ⟨0x1080, false⟩
def mapCode : DsSector := ⟨true, 0x1000 + 24 * 2 ^ 64 + 16 * 2 ^ 128, false, false⟩
def copyWorld (h : Hart) (b : Barrier) : State :=
  let s := world (.scalar 0) h (bars b)
  { s with mem := { s.mem with tlb := [{ benchTlb 0 with site := .die 0, w := true, d := true }, benchTlb 0],
                               ds := SMapOps.set none s.mem.ds (benchSector - 1) (some mapCode) } }
theorem readyCopy (h : Hart) (b : Barrier) (reads writes : List SReg) (l : h.loads = []) (q : h.storeQ = []) :
    ScalarReady (copyWorld h b) 0 h reads writes := scalarReady_idle reads writes rfl rfl l q rfl rfl

/-- What a read of a map, or of an engine, is. -/
theorem words_of (r : State × MapRead) (p : State → List Word → Bool)
    (h : (match r.2 with | .words m => p r.1 m | _ => false) = true) : ∃ u m, r = (u, .words m) ∧ p u m = true := by
  obtain ⟨u, m | f | _⟩ := r
  · exact ⟨u, m, rfl, h⟩
  all_goals cases h
theorem view_of (r : State × Got) (h : (match r.2 with | .view _ => true | _ => false) = true) : ∃ u v, r = (u, .view v) := by
  obtain ⟨u, x⟩ := r
  cases x <;> simp_all
theorem view_of' (r : Got) (h : (match r with | .view _ => true | _ => false) = true) : ∃ v, r = .view v := by
  cases r <;> simp_all
theorem bad_of (r : State × Got) (h : (match r.2 with | .bad _ => true | _ => false) = true) : ∃ u v, r = (u, .bad v) := by
  obtain ⟨u, x⟩ := r
  cases x <;> simp_all

theorem witness_CopyIssues :
    let h := hl 0x4000000000080
    let s := copyWorld h bOn
    (h.engine = .wave ∧ h.roleBad .loader = false ∧ ScalarReady s 0 h (group 4 2 ++ [6]) [7] ∧
      h.Settled (group 4 2 ++ [6]) ∧ s.barrier? h 2 = some bOn ∧ bOn.init = true ∧ cpyBad (h.getS 6).val false = false ∧
      ctlCmt (h.getS 6).val = false ∧ ctlLen (h.getS 6).val ≠ 0 ∧ s.copyStalls h = false ∧
      bOn.pend.toNat + ctlLen (h.getS 6).val < 2 ^ 48 ∧ ctlArv (h.getS 6).val = true ∧ bOn.arr.toNat < bOn.exp.toNat) ∧
    (let k := hm
     let t := copyWorld k bOn
     k.roleBad .loader = false ∧ ScalarReady t 0 k (group 4 5 ++ [10]) [7] ∧ k.Settled (group 4 5 ++ [10]) ∧
      cpytBad (k.getS 10).val false = false ∧ ctlCmt (k.getS 10).val = false ∧ ∃ u m tm,
      t.readMap 0 k ((k.getS 4).val &&& ~~~127) = (u, .words m) ∧ tmapOf m = some tm ∧
        (((k.coords 4).drop tm.boxes.length).all fun z => z = 0) = true ∧ tm.bytes ≠ 0 ∧ u.copyStalls k = false ∧
        bOn.pend.toNat + tm.bytes < 2 ^ 48) := by
  refine ⟨⟨rfl, rfl, readyCopy _ _ _ _ rfl rfl, by simp [Hart.Settled, group]; decide, rfl, rfl, by decide, by decide,
    by decide, by decide, by decide, by decide, by decide⟩, rfl, readyCopy _ _ _ _ rfl rfl,
    by simp [Hart.Settled, group]; decide, by decide, by decide, ?_⟩
  obtain ⟨u, m, h, p⟩ := words_of ((copyWorld hm bOn).readMap 0 hm 0x1080) (fun u m => u.copyStalls hm = false &&
    decide (tmapOf m = some ⟨0x1000, 8, [16], [8], [1], 0⟩)) (by decide +kernel)
  simp only [Bool.and_eq_true, decide_eq_true_eq] at p
  exact ⟨u, m, _, h, p.2, by decide +kernel, by decide, p.1, by decide⟩

theorem witness_GangCopyBatchAndQuery :
    let h := hl 0x4020000000010
    let s := copyWorld h bOn
    (h.engine = .wave ∧ h.roleBad .loader = false ∧ ScalarReady s 0 h (group 4 2 ++ [6]) [7] ∧
      h.Settled (group 4 2 ++ [6]) ∧ s.unit? h.unit = some (bars bOn) ∧ s.barrier? h 2 = some bOn ∧ bOn.init = true ∧
      (bars bOn).openCopy h.gang 2 = none ∧ ctlSli (h.getS 6).val ≤ ctlNsl (h.getS 6).val ∧ ctlNsl (h.getS 6).val ≠ 0 ∧
      ctlCmt (h.getS 6).val = false ∧ s.copyStalls h = false ∧ bOn.pend.toNat + ctlLen (h.getS 6).val < 2 ^ 48 ∧
      bOn.arr.toNat < bOn.exp.toNat) ∧
    ScalarReady s 0 h [] [7] ∧ ScalarReady s 0 h [] [] ∧ s.queried 0 h (some 2) = false ∧
    (let c : Copy := ⟨0, 0, 0, 0, 0, some 2, .linear [⟨0, 1, 0, 0, 7, 0x1000, false, 0, true, 128⟩], none, 64, true, [], [],
        [(0, 1)], 128, 0x1100⟩
     let t := s.putCopy 9 c
     t.queried 0 h (some 2) = true) :=
  ⟨⟨rfl, rfl, readyCopy _ _ _ _ rfl rfl, by simp [Hart.Settled, group]; decide, rfl, rfl, rfl, by decide, by decide,
    by decide, by decide, by decide, by decide, by decide⟩, readyCopy _ _ _ _ rfl rfl, readyCopy _ _ _ _ rfl rfl,
    by decide, by decide⟩

def copyOf (x : List (Nat × SWrite)) : Copy := ⟨0, 0, 0, 0, 0, some 2,
  .linear [⟨0, 1, 0, 0, 7, 0x1000, false, 0, true, 128⟩], none, 64, true, [], x, [(0, 1)], 128, 0x1100⟩
def pieceOne : SWrite := ⟨0, BitVec.allOnes 128, 7, false, false, false⟩

theorem witness_CopyEvents :
    let s := (copyWorld hw bOn).putCopy 9 (copyOf [])
    (s.copy? 9 = some (copyOf []) ∧ (copyOf []).active = true ∧ (copyOf []).read.any (fun r => r.1 = 0) = false ∧
      ∃ sec ps src u v, (copyOf []).sector? 0 = some (sec, ps) ∧ (sourceSectors ps)[0]? = some src ∧ src.1 = false ∧
        s.engineRead 0 0 (BitVec.ofNat 64 ((((partsFrom ps src).head?).bind fun p => p.src.map Prod.snd).getD 0)) .copyRead =
          (u, .view v)) ∧
    (let c := copyOf [(0, pieceOne)]
     let t := (copyWorld hw bOn).putCopy 9 c
     t.copy? 9 = some c ∧ c.active = true ∧ t.copySent 9 0 = false ∧ ∃ n ps v, c.sector? 0 = some ((true, n), ps) ∧
      ((List.range (sourceSectors ps).length).map fun j => c.read.find? fun r => r.1 = 128 * 0 + j) =
        [((0 : Nat), pieceOne)].map some ∧
      t.granuleRead c.unit (ps.map fun p => (p.dst, p.len)) n .copyWrite = .view v) ∧
    (let c := { copyOf [] with done := [0], owed := 0 }
     ((copyWorld hw bOn).putCopy 9 c).copy? 9 = some c ∧ c.allDone = true ∧ c.owed = 0 ∧ c.ring = none) ∧
    (let t := (ws.putUnit 0 (bars bOn)).putCopy 9 (copyOf [])
     t.copy? 9 = some (copyOf []) ∧ t.unit? 0 = some (bars bOn) ∧ ∃ sec ps src u f, (copyOf []).sector? 0 = some (sec, ps) ∧
      sourceSectors ps = [src] ∧ src.1 = false ∧
      t.engineRead 0 0 (BitVec.ofNat 64 ((((partsFrom ps src).head?).bind fun p => p.src.map Prod.snd).getD 0)) .copyRead =
        (u, .bad f)) := by
  refine ⟨⟨rfl, rfl, rfl, ?_⟩, ⟨rfl, rfl, rfl, ?_⟩, ⟨rfl, by decide +kernel, rfl, rfl⟩, rfl, rfl, ?_⟩
  · obtain ⟨u, v, h⟩ := view_of (((copyWorld hw bOn).putCopy 9 (copyOf [])).engineRead 0 0 0x1000 .copyRead) (by decide +kernel)
    exact ⟨_, _, (false, 0x20), u, v, rfl, by decide +kernel, rfl, h⟩
  · obtain ⟨v, h⟩ := view_of' (((copyWorld hw bOn).putCopy 9 (copyOf [(0, pieceOne)])).granuleRead 0 [(0, 128)] 0 .copyWrite)
      (by decide +kernel)
    exact ⟨0, _, v, rfl, by decide +kernel, h⟩
  · obtain ⟨u, v, h⟩ := bad_of (((ws.putUnit 0 (bars bOn)).putCopy 9 (copyOf [])).engineRead 0 0 0x1000 .copyRead)
      (by decide +kernel)
    exact ⟨_, _, (false, 0x20), u, v, rfl, by decide +kernel, rfl, h⟩

def ring0 (st : RingSlotState) (w : List Waiter) : Ring := ⟨true, 4, 0, 1, 0, 0, [(0, (st, true))], w, [(0, 0)]⟩
def ringUnit (r : Ring) (rels : List RingRel) : Gang := { gw with rings := [(5, some r)], rels := rels }
def hr : Hart := hw.setS 6 ⟨512, false⟩

theorem witness_RingOperations :
    (∀ st, let r := ring0 st []
      let s := world (.scalar 0) hr (ringUnit r [])
      ScalarReady s 0 hr [] [12] ∧ hr.batchOpen = none ∧ s.ring? hr 5 = some r ∧ r.waiters = [] ∧ (r.slot 0).1 = st ∧
        ScalarReady s 0 hr [6] [] ∧ hr.Settled [6]) ∧
    (let s := world (.scalar 0) hr (ringUnit (ring0 .res []) [])
     (ring0 .res []).slotIn 512 .res = some 0 ∧ (ring0 .held []).slotIn 512 .held = some 0 ∧
      (ring0 .free []).slotIn 512 .res = none ∧ (ring0 .free []).slotIn 512 .held = none ∧ s.hartTileOps 0 = [] ∧
      s.hartCopies 0 = [] ∧ (ringUnit (ring0 .held []) []).hartSlices 0 ((ring0 .held []).offset 0) (ring0 .held []).slotBytes = [] ∧
      ∃ u, ReleaseDone s 0 ⟨.rel, letterM⟩ u) ∧
    (let x : RingRel := ⟨5, 0, [7], [8], []⟩
     let g := ringUnit (ring0 .held []) [x]
     let s := world (.scalar 0) hr g
     s.unit? 0 = some g ∧ (g.rels.find? fun x => x.ring = 5 && x.slot = 0) = some x ∧ s.relReady g x = true ∧
      g.ring 5 = some (ring0 .held [])) := by
  refine ⟨fun st => ⟨ready _ _ _ _ rfl rfl, rfl, rfl, rfl, rfl, ready _ _ _ _ rfl rfl, by simp [Hart.Settled]; decide⟩,
    ⟨by decide, by decide, by decide, by decide, rfl, rfl, rfl, _, rel_done _ 0 letterM (by decide +kernel)⟩, rfl, rfl,
    by decide +kernel, rfl⟩

def flying (k : FlightKind) : State := { ws with mem := { ws.mem with flights := [(1, some ⟨0, 0, 1, 1, k⟩)] } }

theorem witness_HomeWritesFillsAndEvictions :
    let w : SWrite := ⟨0x2000, BitVec.allOnes 128, 7, true, false, true⟩
    let s := flying (.home w)
    s.flight? 1 = some ⟨0, 0, 1, 1, .home w⟩ ∧
    (s.oldest 1 fun f => f.core = 0 && f.kind.touches w.sector && !f.kind.remote) = true ∧ w.sector ∉ [0x2001] ∧
    s.dieVictim w.sector = none ∧
    (let d : DsSector := ⟨true, 5, false, false⟩
     let t := { State.reset with mem := { State.reset.mem with ds := [(0x2001, some d)] } }
     Memory.wf t.mem.mem ∧ t.Backed ∧ homeSector 0x2000 = true ∧ 0x2000 ∉ [0x2001] ∧ homeSector 0x2001 = true) := by
  refine ⟨rfl, by decide +kernel, by decide, by decide +kernel, by decide, ?_, by decide, by decide, by decide⟩
  intro n d h
  simp only [State.dsGet, SMapOps.get] at h
  split at h
  · simp only [Option.some.injEq] at h
    subst_vars
    exact ⟨by decide, fun e => by cases e⟩
  · split at h <;> cases h

theorem witness_AtomicAtHomeResult :
    let r : AtomReq := ⟨none, 0x100008, 8, scalarAop 9, 2 ^ 64 - 1, 5, true, false, 63, 0x1100⟩
    let s := flying (.atomics [r])
    s.flight? 1 = some ⟨0, 0, 1, 1, .atomics [r]⟩ ∧
    (s.oldest 1 fun f => f.core = 0 && f.kind.touches (sectorOf r.addr) && !f.kind.remote) = true ∧ (9#4).toNat < 10 ∧
    r.size = 8 ∧ r.v < 2 ^ 64 ∧ r.new < 2 ^ 64 ∧ r.lane = none ∧ 0 < r.dst ∧ r.dst < 64 ∧ s.hart? 0 = some hw ∧
    hw.killed = false ∧ hw.trapped = none ∧ (s.homeRead (sectorOf r.addr)).2.x = false ∧ s.dieVictim (sectorOf r.addr) = none := by
  decide +kernel

theorem witness_StoresLeaveTheQueueAndReachTheSlice :
    (∀ k, k = SqKind.l1 ∨ k = .through ∨ k = .cluster →
      let w : SWrite := ⟨0x2000, 15, 7, true, false, false⟩
      let e : SqEntry := ⟨1, 0, k, false, [], [w], [], 0, .scalar 0⟩
      let h := { hw with storeQ := [e], st := [⟨1, false⟩] }
      let s := world (.scalar 0) h gw
      s.hart? 0 = some h ∧ h.storeQ = [e] ∧ s.queueHeld 0 = false ∧ e.writes = [w] ∧ e.rel = false ∧
        isNet (128 * w.sector) = false ∧ s.l1Victim h.core w.sector = none) ∧
    (let w : SWrite := ⟨3, BitVec.allOnes 128, 7, true, false, true⟩
     let s := flying (.posted 0 w)
     s.flight? 1 = some ⟨0, 0, 1, 1, .posted 0 w⟩ ∧
      (s.oldest 1 fun f => f.core = 0 && f.kind.touchesGranule 0 w.sector) = true ∧
      (s.oldest 1 fun f => f.hart = 0 && f.core = 0 && f.kind.postedTo 0 w.sector) = true ∧ s.unit? 0 = some gw) := by
  refine ⟨?_, by decide +kernel⟩
  rintro k (rfl | rfl | rfl) <;> decide +kernel

/-- Tables of five levels, at frame 0x300000 on, with a leaf for page 1 of VF 0. -/
def rooted : State :=
  let entry (frame : Nat) : DsSector := ⟨true, BitVec.ofNat 1024 (frame + 3), false, false⟩
  let leaf : DsSector := ⟨true, BitVec.ofNat 1024 ((0x100000 + 0x41) * 2 ^ 64), false, false⟩
  let t := ws.setVfRegs 0 { ws.vfRegs 0 with troot := 0x300001 }
  { t with mem := { t.mem with tlb := [], ds := [(0x300000 / 128, some (entry 0x301000)),
      (0x301000 / 128, some (entry 0x302000)), (0x302000 / 128, some (entry 0x303000)),
      (0x303000 / 128, some (entry 0x304000)), (0x304000 / 128, some leaf)] } }

theorem witness_WalksAndFillGenerations :
    canonical 0x1000 = true ∧ (∃ u c l, ws.walk 0 0 0x1000 true = (u, .failed c l)) ∧
    (∃ u e l a, rooted.walk 0 0 0x1000 true = (u, .leaf e l a)) ∧
    (let s := { ws with mem := { ws.mem with cg := [(0, 255)] } }
     s.cgOf 0 = 255) := by
  refine ⟨by decide, ?_, ?_, rfl⟩
  · have h : (match (ws.walk 0 0 0x1000 true).2 with | .failed .. => true | _ => false) = true := by decide +kernel
    revert h
    obtain ⟨u, c | c⟩ := ws.walk 0 0 0x1000 true <;> simp
  have h : (match (rooted.walk 0 0 0x1000 true).2 with | .leaf .. => true | _ => false) = true := by decide +kernel
  revert h
  obtain ⟨u, c | c⟩ := rooted.walk 0 0 0x1000 true <;> simp

theorem inbound_of (r : State × Inbound) (p : State → List (TlbEntry × Word × Nat) → Bool)
    (h : (match r.2 with | .ok m => p r.1 m | _ => false) = true) : ∃ u m, r = (u, .ok m) ∧ p u m = true := by
  obtain ⟨u, m | f⟩ := r
  · exact ⟨u, _, rfl, h⟩
  · cases h

theorem witness_InboundAccessesAndCompletions :
    (let h := { hw with wait := some Wait.tlbi }
     let s := world (.scalar 0) h gw
     s.hart? 0 = some h ∧ ∃ u, s.quiesce (s.hartVf h) = (u, true)) ∧
    ((flying (.netLoad 5)).flight? 1 = some ⟨0, 0, 1, 1, .netLoad 5⟩ ∧
      (∀ w, (flying (.netWrite w)).flight? 1 = some ⟨0, 0, 1, 1, .netWrite w⟩) ∧
      (let r : AtomReq := ⟨none, 0x8000000000, 8, .add, 1, 0, false, false, 63, 0x1100⟩
       (flying (.netAtomics false [r])).flight? 1 = some ⟨0, 0, 1, 1, .netAtomics false [r]⟩ ∧ r.lane = none ∧
        0 < r.dst ∧ r.dst < 64 ∧ hw.killed = false ∧ hw.trapped = none) ∧
      (∀ direct, let q : LoadReq := ⟨1, if direct then .ldd else .ld, [⟨0, 0x1000, 0x8000000000, .normal, false⟩], 4, 1, false, 6,
          none, 0x1100, .laneLoad, [], 0, .lane 0⟩
        let s := { world (.scalar 0) { hw with loads := [q] } gw with mem := (flying (.netLoad 0x100000000)).mem }
        (s.setFlight 1 none).netBusy hw.core 0x100000000 = false ∧ q.fills 0x100000000 = !direct ∧
          q.keeps 0x100000000 = direct ∧ (s.setFlight 1 none).l1Victim hw.core 0x100000000 = none) ∧
      (flying (.netWrite ⟨5, 1, 0, false, false, false⟩)).netBusy 0 5 = true) ∧
    (ws.mod.power = .on ∧ State.reset.mod.power ≠ .on ∧ 10 ≤ (10#4).toNat) ∧
    (let s := copyWorld hw bOn
     s.mod.power = .on ∧ Delivery.unordered ≠ .unsupported ∧
      (∃ u ts v bytes p, s.inboundCheck 0 accRead (runsOf 0x1000 4) = (u, .ok ts) ∧ u.inboundBytes ts = (v, bytes, p, false)) ∧
      (∃ u m, s.inboundCheck 0 accWrite (runsOf 0x1000 128) = (u, .ok m) ∧
        (match m with | [(e, va, n)] => va = 0x1000 && n = 128 && e.mt ≠ .device | _ => false) = true) ∧
      (∃ u m, s.inboundCheck 0 accAtomic [(0x1008, 8)] = (u, .ok m) ∧
        (match m with | (e, va, n) :: _ => va = 0x1008 && n = 8 && !(u.homeRead (sectorOf (e.pa 0x1008))).2.x | _ => false) =
          true)) := by
  refine ⟨⟨rfl, _, done_of' _ (by decide +kernel)⟩, ⟨rfl, fun _ => rfl, by decide +kernel⟩,
    by decide, by decide, by decide, ?_,
    inbound_of _ (fun _ m => match m with
      | [(e, va, n)] => va = 0x1000 && n = 128 && e.mt ≠ .device
      | _ => false) (by decide +kernel),
    inbound_of _ (fun u m => match m with
      | (e, va, n) :: _ => va = 0x1008 && n = 8 && !(u.homeRead (sectorOf (e.pa 0x1008))).2.x | _ => false) (by decide +kernel)⟩
  obtain ⟨u, m, h, p⟩ := inbound_of ((copyWorld hw bOn).inboundCheck 0 accRead (runsOf 0x1000 4))
    (fun u m => !(u.inboundBytes m).2.2.2) (by decide +kernel)
  rcases e : u.inboundBytes m with ⟨v, b, q, x⟩
  rw [e] at p
  exact ⟨u, m, v, b, q, h, by simp_all⟩

/-- The module up, every scope owned by host 1 until time 5. -/
def owned : State :=
  { State.reset with
      mod := { ModState.reset with
        power := .on, owners := [⟨.module, some (1, 5), [], 0⟩, ⟨.vf 0, some (1, 5), [], 0⟩] } }

theorem witness_ControlRegisterWrites :
    owned.mod.power = .on ∧ owned.writeWaits (.host 1) = false ∧ owned.scopeBusy (.vf 0) = false ∧
    (∀ off, owned.reaches (.host 1) off = true) ∧
    owned.ctlAllowed (.host 1) (.vfsched 0) 3 = true ∧ owned.ctlAllowed (.host 2) (.vfsched 0) 3 = false ∧
    isCtl (Config.ctlBase + 0x108000) = true ∧ ctlRegAt 0x108000 = some (.vfsched 0) ∧
    owned.ownerOf (.vf 0) = some 1 ∧ owned.vfResident 0 = false ∧ (0x300001 : Word).extractLsb' 52 12 = (0 : BitVec 12) ∧
    (0x300001 : Word).extractLsb' 1 11 = (0 : BitVec 11) :=
  ⟨rfl, rfl, rfl, fun _ => rfl, by decide⟩

/-- A chart of a node 0 with a handler, and an edge 1 from it to it; a hart of task `n` in a job of it. -/
def job1 : Job :=
  ⟨[(0, (0x4000000000000000, 0x5000)), (1, (0x8000000000000000, 0))],
    [(0, 0x8000000000000000), (1, 0x8000000000000000), (64, 0x8000000000000000)],
    [⟨0, 0, 1⟩], [], [], [⟨1, 4, 9⟩], true, false, 0, 0, [3], false⟩
def tasking (h : Hart) (n : Nat) (j : Job) : State :=
  let s := world (.scalar 0) h { gw with task := n }
  { s with prog := { s.prog with tasks := [(n, some benchTcb)], jobs := [(0, some j)] } }
theorem readyTask (h : Hart) (n : Nat) (j : Job) (reads writes : List SReg) (l : h.loads = []) (q : h.storeQ = []) :
    ScalarReady (tasking h n j) 0 h reads writes := scalarReady_idle reads writes rfl rfl l q rfl rfl

/-- The bench's hart is its unit's only one. -/
theorem one_hart (h : Hart) (n : Nat) (j : Job) (f : h.suspendedFault = false) :
    ∀ i ∈ (tasking h n j).unitHarts 0, ∀ k, (tasking h n j).hart? i = some k → k.suspendedFault = false := by
  intro i _ k hk
  rcases i with _ | i
  · cases hk
    exact f
  · simp [State.hart?, tasking, world, SMapOps.get] at hk

/-- A spawner whose own number is the one no new task takes. -/
def spawner : Hart := { hw with wait := some (.spawn 20 0x100 0x5000 0 0 0) }
theorem fresh_id (h : Hart) (j : Job) (n : Nat) : (tasking h (2 ^ 32 - 1) j).taskIdUsed 0 (n % (2 ^ 32 - 1)) = false := by
  have : n % (2 ^ 32 - 1) < 2 ^ 32 - 1 := Nat.mod_lt _ (by decide)
  generalize n % (2 ^ 32 - 1) = m at this
  have e : 2 ^ 32 - 1 ≠ m := by omega
  simp [State.taskIdUsed, State.tcb?, State.taskUnits, taskKey, tasking, SMapOps.get, world, gw, benchUnit]
  omega

theorem witness_SpawnAndSend :
    (let h := hw.setS 16 ⟨0x100, false⟩
     let s := tasking h 0 job1
     ScalarReady s 0 h (group 12 4 ++ [16]) [20] ∧ h.Settled (group 12 4 ++ [16]) ∧
      (∃ u, ReleaseDone s 0 ⟨.rel, letterK⟩ u) ∧ h.full .ts = false ∧
      s.taskOf h = some (0, 0, benchTcb) ∧ s.job? 0 0 = some job1 ∧ job1.kind (spawnNode 0x100) = .node ∧
      spawnBad 0x100 = false ∧ listBad 0 0 (spawnScnt 0x100) = false ∧ job1.timeFault 0 0 = none ∧
      job1.produceFault 0 0 0 0 = none) ∧
    (let s := tasking spawner (2 ^ 32 - 1) job1
     s.hart? 0 = some spawner ∧ s.taskOf spawner = some (0, 2 ^ 32 - 1, benchTcb) ∧ s.harbourOk 0 = true ∧
      s.jobCancelled 0 0 = false ∧ s.taskIdUsed 0 (Config.taskId s.free % (2 ^ 32 - 1)) = false ∧
      s.countRoom 0 benchTcb ⟨0, 0, 1⟩ = true ∧ s.tcbRoom 0 = true) ∧
    (let h := hw.setS 16 ⟨1, false⟩
     let s := tasking h 0 job1
     ScalarReady s 0 h (group 12 2 ++ [16]) [20] ∧ (sendBad 1 = false ∧ job1.kind 1 = .edge ∧ s.peerOk job1 0 = true ∧
      job1.timeFault 1 0 = none ∧ job1.produceFault 0 0 1 0 = none ∧ job1.gateStalls 0 0 = false ∧
      { job1 with slack := 1 }.gateStalls 0 0 = true ∧ s.countRoom 0 benchTcb ⟨1, 0, 1⟩ = true) ∧
      ∃ u, ReleaseDone (s.putHart 0 { h with wait := none }) 0 ⟨.rel, letterK⟩ u ∧ u.jobCancelled 0 0 = false ∧
        (u.hart? 0).isSome = true ∧ (u.tcb? 0 0).isSome = true ∧ (u.job? 0 0).isSome = true) := by
  refine ⟨⟨readyTask _ _ _ _ _ rfl rfl, by simp [Hart.Settled, group]; decide, ⟨_, rel_done _ 0 letterK (by decide +kernel)⟩,
      by decide +kernel⟩, ⟨rfl, rfl, rfl, rfl, fresh_id .., by decide +kernel⟩, readyTask _ _ _ _ _ rfl rfl,
    by decide +kernel, _, rel_done _ 0 letterK (by decide +kernel), by decide +kernel⟩

theorem witness_FrontiersAndHolds :
    let h := hw
    let s := tasking h 0 job1
    let late : Word := 0x400000000
    h.Settled [5, 6] ∧ s.taskOf h = some (0, 0, benchTcb) ∧ s.job? 0 0 = some job1 ∧ job1.kind 0 ≠ .unused ∧
    job1.timeFault 0 0 = none ∧ ScalarReady s 0 h [5, 6] [] ∧ ScalarReady s 0 h [5, 6] [7] ∧ h.full .ts = false ∧
    job1.produceFault 0 0 0 0 = none ∧ job1.holdOk 0 0 = true ∧ job1.held 0 0 = 0 ∧
    s.passed 0 0 0 0 0 = false ∧ s.earlierWait 0 0 0 0 late = false ∧ s.earlierTask 0 0 benchTcb = false ∧
    (tasking { h with wait := some (.fwait 0 0) } 0 job1).earlierWait 1 0 0 0 late = true ∧ { job1 with holds := [⟨0, 0, 1⟩] }.held 0 0 ≠ 0 ∧
    (tasking h 0 { job1 with fronts := [⟨0, 0, [late]⟩] }).passed 0 0 0 0 0 = true ∧
    timeDepth 0x4000000000000000 ≠ job1.depth 0 ∧ timeOk 1 = false ∧ s.countRoom 0 benchTcb ⟨0, 0, 1⟩ = true := by
  refine ⟨by simp [Hart.Settled]; decide, rfl, rfl, by decide +kernel, by decide +kernel, readyTask _ _ _ _ _ rfl rfl,
    readyTask _ _ _ _ _ rfl rfl, by decide +kernel⟩

theorem witness_TaskSelfEndsAndPhase :
    let h := hw.setS 5 ⟨7, false⟩
    let s := tasking h 0 job1
    let g := { gw with task := 0 }
    (s.taskOf h = some (0, 0, benchTcb) ∧ s.unit? h.unit = some g ∧ ScalarReady s 0 h [] [6] ∧ ScalarReady s 0 h [5] [] ∧
      ScalarReady s 0 h [5, 6] [] ∧ h.Settled [5, 6] ∧ (h.getS 5).val.toNat ≤ 7 ∧ (h.getS 6).val.toNat ≤ 63 ∧
      listBad 0 0 0 = false ∧ (s.closeBatch 0).hart? 0 = some h ∧ h.blocks = 0 ∧
      (s.closeBatch 0).unitPhased h.unit = false ∧ s.job? 0 0 = some job1 ∧ h.trapped = none ∧ h.ended = none ∧
      s.safeDue 0 h = false ∧ h.doomed = false ∧ g.roleMark ≠ some 0 ∧ s.jobCancelled 0 0 = false ∧ g.preempt = none ∧
      g.st = .resident) ∧ (∀ i ∈ s.unitHarts 0, ∀ k, s.hart? i = some k → k.suspendedFault = false) ∧
    (let k := { h with block := some ⟨0x1100, [], 0⟩ }
     k.blocks ≠ 0 ∧ k.inLaneHandler = false ∧ { g with preempt := some 0 }.preempt.isSome = true) ∧
    (let l := hw.setS 5 ⟨0x4010000, false⟩
     let t := tasking l 0 job1
     ScalarReady t 0 l [5, 6] [] ∧ l.Settled [5, 6] ∧ l.engine = .wave ∧
      (let x := (l.getS 5).val
       x.toNat < 2 ^ 27 ∧ (x.extractLsb' 22 5).toNat = 16 ∧ (x.extractLsb' 16 6).toNat = 1 ∧ x.extractLsb' 0 16 = 0#16) ∧
      t.safeDue 0 l = false ∧ l.blocks = 0 ∧ (t.closeBatch 0).hart? 0 = some l ∧ l.drained = true ∧
      ∃ v, ReleaseDone (t.closeBatch 0) 0 ⟨.rel, letterKYM⟩ v ∧ (v.hart? 0).isSome = true ∧ v.unit? 0 = some g ∧
        v.tcb? 0 0 = some benchTcb) := by
  refine ⟨⟨rfl, rfl, readyTask _ _ _ _ _ rfl rfl, readyTask _ _ _ _ _ rfl rfl, readyTask _ _ _ _ _ rfl rfl,
      by simp [Hart.Settled]; decide, by decide +kernel⟩, one_hart _ _ _ rfl, by decide +kernel, readyTask _ _ _ _ _ rfl rfl,
    by simp [Hart.Settled]; decide, rfl, by decide +kernel, rfl, rfl, rfl, rfl, _, rel_done _ 0 letterKYM (by decide +kernel),
    by decide +kernel, by decide +kernel, by decide +kernel⟩

theorem witness_RetirementBatchesFrontiersAndMessages :
    (let h := { hw with ended := some .exited }
     let s := tasking h 0 { job1 with cancelled := false }
     let t := { benchTcb with units := 1 }
     s.tcb? 0 0 = some t ∧ s.taskOver 0 0 t = true ∧ s.taskDrained 0 0 = true ∧ s.harbourOk 0 = true ∧ t.leaving = false ∧ t.scnt = 0 ∧
      s.jobCancelled 0 0 = false ∧ ∃ u, s.retireReleases ((s.taskUnits 0 0).any fun n => match s.unit? n with
        | some g => g.granules ≠ 0 | none => false) (s.taskHarts 0 0) = (u, true) ∧ u.job? 0 0 = some job1) ∧
    (let b : Batch := ⟨0, 0, [⟨0, 0, 1⟩], [], true, []⟩
     let j := { job1 with peers := [] }
     let s := tasking hw 0 j
     let t := { s with prog := { s.prog with dieQ := [(2, b)] } }
     t.harbourOk 2 = true ∧ t.harbourOk 0 = true ∧ (t.prog.dieQ.find? fun p => p.1 = 2) = some (2, b) ∧
      t.job? 0 0 = some j ∧ b.msgs = [] ∧ b.frees = [] ∧ j.peers = [] ∧ j.cancelled = false ∧ j.applied = true) ∧
    (job1.messages[0]? = some ⟨1, 4, 9⟩ ∧ job1.htpl (job1.edgeDst 1) ≠ 0 ∧
      (summary (job1.path 1 (job1.edgeDst 1)) 4).isSome = true ∧ (tasking hw 0 job1).tcbRoom 0 = true ∧
      job1.cancelled = false) ∧ (∀ die, (tasking hw 0 job1).harbourOk die = true) ∧
    (let s := tasking hw 0 job1
     let t := { s with mod := { s.mod with peertab := [(3, (0x8000000000000000, 0))] } }
     t.job? 0 0 = some job1 ∧ job1.peers.contains 3 = true ∧ bitOf (t.peer 3).1 63 = true ∧ t.harbourOk 0 = true ∧
      job1.cancelled = false) := by
  refine ⟨⟨rfl, by decide +kernel, by decide +kernel, rfl, rfl, rfl, rfl, _, done_of' _ (by decide +kernel), by decide +kernel⟩,
    by decide +kernel, by decide +kernel, fun _ => rfl, by decide +kernel⟩

/-- A manifest of 9 iterations of width 8 over cells of 4 bytes in the code page: iteration i has cell i; register 5. -/
def man : List Word := [9 + 5 * 2 ^ 37, 0x1000, 36, 0, 0x1000, 4, 1, 0, 0, 0, 0, 0, 0, 0, 0, 0]
/-- Walker state with SET and KEEP and a map of 128 bytes at 0. -/
def mapSet : Word := 0x30000000000080
def run0 (batch : Nat) (inBody : Bool) (stores : List WStore) : WalkRun :=
  ⟨man, 0x1100, 20, 9, batch, 0, 0, 1, 0xFF, inBody, [], [], [], [], stores, [(0, 0)]⟩
def hk (k : Option WalkRun) : Hart := { hw with walker := mapSet, walk := k }

theorem witness_WalkerMap :
    let h := hw.setS 6 ⟨0x100000080, false⟩
    let s := world (.scalar 0) h gw
    s.unit? h.unit = some gw ∧ gw.csize ≤ 2 ^ 21 ∧ ScalarReady s 0 h [5, 6] [] ∧ h.Settled [5, 6] ∧
    (h.getS 5).val.extractLsb' 0 7 = 0 ∧ (h.getS 6).val &&& 0xFFFFFFFEFFE00000 = 0 ∧
    ((h.getS 6).val.extractLsb' 0 21).toNat = 128 ∧ (h.getS 5).val.toNat + 128 ≤ gw.csize ∧ ScalarReady s 0 h [] [] ∧
    h.walker.getLsbD 53 = false ∧ (hk none).walker.getLsbD 53 = true ∧ (hk none).full .st = false ∧ (hk none).loads = [] ∧
    ScalarReady (world (.scalar 0) (hk none) gw) 0 (hk none) [] [] := by
  refine ⟨rfl, by decide, ready _ _ _ _ rfl rfl, by simp [Hart.Settled]; decide, by decide +kernel, by decide +kernel,
    by decide +kernel, by decide +kernel, ready _ _ _ _ rfl rfl, by decide, by decide, by decide, rfl, ready _ _ _ _ rfl rfl⟩

theorem cells_of (r : State × Foot) (p : State → LaneCells → Bool)
    (h : (match r.2 with | .cells m => p r.1 m | _ => false) = true) : ∃ u m, r = (u, .cells m) ∧ p u m = true := by
  obtain ⟨u, m | f | _ | _⟩ := r
  · exact ⟨u, m, rfl, h⟩
  all_goals cases h

/-- The manifest `man` in the bench's page, named by s12, with a count of 9 in s10. -/
def hwl : Hart := ((hk none).setS 12 ⟨0x1000, false⟩).setS 10 ⟨9, false⟩
def manSector : DsSector :=
  ⟨true, BitVec.ofNat 1024 (((List.range 7).map fun i => ((man.getD i 0).toNat) * 2 ^ (64 * i)).sum), false, false⟩
def manWorld : State :=
  let s := open' hwl gw
  { s with mem := { s.mem with ds := SMapOps.set none s.mem.ds 0x2000 (some manSector) } }

theorem seen_of (r : State × Seen) (p : State → LaneAcc → View → Bool)
    (h : (match r.2 with | .views [(a, x)] => p r.1 a x | _ => false) = true) :
    ∃ u a x, r = (u, .views [(a, x)]) ∧ p u a x = true := by
  obtain ⟨u, (_ | ⟨⟨a, x⟩, _ | _⟩) | _ | _⟩ := r
  case views.cons.nil => exact ⟨u, a, x, rfl, h⟩
  all_goals cases h

theorem witness_WalkerLoopRuns :
    (let h := hwl
     let s := manWorld
     ScalarReady s 0 h [12, 12 + 1, 10] [20, 20 + 1] ∧ h.roleBad .vector = false ∧ h.walk = none ∧
      h.Settled [12, 12 + 1, 10] ∧ (h.blocks = 0 ∧ (h.getS 12).val.toNat % 128 = 0 ∧ (0x1001 : Word).toNat % 128 ≠ 0 ∧
      walkSet hw.walker = false ∧ walkSet h.walker = true ∧ manifestBad [] (s.declared h) = true ∧
      manNiter man = (h.getS 10).val.toNat ∧ manCells man ≤ 8 * walkLen h.walker ∧
      8 * walkLen (0x30000000000000 : Word) < manCells man ∧ (∀ l, l < manWidth man → h.m0.getLsbD l = true) ∧
      walkKeep h.walker = true ∧ h.absent = [] ∧ { h with m := [(0, ⟨0xFFFFFF7F, 0⟩)] }.m0.getLsbD 7 = false ∧
      7 < manWidth man) ∧ ∃ u, s.settleHart 0 = (u, true) ∧ u.hart? 0 = some h ∧
        ∃ v acc x, u.walkRead 0 h .scalarLoad false 128 [⟨0, 0x1000, false⟩] = (v, .views [(acc, x)]) ∧
          (!x.x && !x.p && mapWords x.data = man && !manifestBad man (v.declared h) && decide (v.hart? 0 = some h) &&
            (List.range 16).all fun k => !v.upsetAt (.uniformReg 0 k)) = true) ∧
    (let k := run0 2 false []
     let h := hk (some k)
     let s := world (.scalar 0) h gw
     let ls := batchLanes (manWidth man) 9 1
     s.hart? 0 = some h ∧ h.walk = some k ∧ k.inBody = false ∧ k.batch ≠ 0 ∧ h.still = false ∧ s.saved h = false ∧
      s.safeDue 0 h = false ∧ ls = [(0, 8)] ∧
      ∃ u cs v vs h1, s.footprint 0 h man ls (List.range 4) = (u, .cells cs) ∧ (∀ p ∈ cs, ∃ c, p.2 = some c) ∧
        (∀ p ∈ cs, p.1 < 32) ∧ u.mapViews 0 h (cs.filterMap Prod.snd) = (v, some vs) ∧ v.hart? 0 = some h1 ∧
        ∃ k1, h1.walk = some k1 ∧ k1.manifest = man) ∧
    (let h := hk (some (run0 0 false []))
     ScalarReady (world (.scalar 0) h gw) 0 h [12, 12 + 1, 10] [20, 20 + 1] ∧ h.roleBad .vector = false ∧
      h.walk = some (run0 0 false []) ∧ (20 : SReg).toNat ≤ 62) := by
  refine ⟨⟨scalarReady_idle _ _ rfl rfl rfl rfl rfl rfl, rfl, rfl, by simp [Hart.Settled]; decide, by decide +kernel, ?_⟩,
    ⟨rfl, rfl, rfl, by decide, rfl, rfl, rfl, by decide +kernel, ?_⟩, ready _ _ _ _ rfl rfl, rfl, rfl, by decide⟩
  · obtain ⟨u, e⟩ := done_of (manWorld.settleHart 0) (by decide +kernel)
    have k : (manWorld.settleHart 0).1 = manWorld := by decide +kernel
    rw [e] at k
    obtain rfl : u = manWorld := k
    exact ⟨_, e, rfl, seen_of (manWorld.walkRead 0 hwl .scalarLoad false 128 [⟨0, 0x1000, false⟩]) (fun v _ x =>
      !x.x && !x.p && mapWords x.data = man && !manifestBad man (v.declared hwl) && decide (v.hart? 0 = some hwl) &&
        (List.range 16).all fun k => !v.upsetAt (.uniformReg 0 k)) (by decide +kernel)⟩
  obtain ⟨u, cs, e, p⟩ := cells_of ((world (.scalar 0) (hk (some (run0 2 false []))) gw).footprint 0 (hk (some (run0 2 false [])))
    man (batchLanes (manWidth man) 9 1) (List.range 4)) (fun u cs => cs = [(0, some 8)] &&
      decide ((u.mapViews 0 (hk (some (run0 2 false []))) [8]).1.hart? 0 = some (hk (some (run0 2 false [])))) &&
      (u.mapViews 0 (hk (some (run0 2 false []))) [8]).2.isSome) (by decide +kernel)
  simp only [Bool.and_eq_true, decide_eq_true_eq] at p
  obtain ⟨⟨rfl, q⟩, o⟩ := p
  obtain ⟨v, vs, r⟩ := some_of _ o
  rw [r] at q
  exact ⟨u, _, v, vs, _, e, by simp, by simp, r, q, _, rfl, rfl⟩

def byteStore (a : Nat) : WStore := ⟨0, a, 0xFF000 + a, .normal, 7, false⟩
def won : List WinCell := [⟨0, 0, 0x07070707, false⟩]
def filled : List WStore := [byteStore 0x1000, byteStore 0x1001, byteStore 0x1002, byteStore 0x1003]

theorem witness_WalkerBatchCommits :
    (let h := hk (some (run0 1 true filled))
     let s := open' h gw
     s.hart? 0 = some h ∧ h.loads = [] ∧ h.block = none ∧ h.still = false ∧ s.saved h = false ∧
      h.full .st = false ∧ lastStores filled = filled ∧ outsideLanes (run0 1 true filled) filled = [] ∧
      partialLanes man filled = [] ∧ ∃ vs u p,
      s.mapViews 0 h ((storedCells man filled).map Prod.snd) = (s, some vs) ∧
        s.placeCells h man (winners man filled (coveredIn vs (walkOff h.walker))) = (u, p, []) ∧ u.hart? 0 = some h ∧
        winners man filled (coveredIn vs (walkOff h.walker)) = won) ∧
    outsideLanes (run0 1 true [byteStore 0x1004]) (lastStores [byteStore 0x1004]) ≠ [] ∧
    outsideLanes (run0 1 true [byteStore 0x1003]) (lastStores [byteStore 0x1003]) = [] ∧
    partialLanes man (lastStores [byteStore 0x1003]) ≠ [] := by
  refine ⟨⟨rfl, rfl, rfl, rfl, rfl, by decide, by decide +kernel, by decide +kernel, by decide +kernel, ?_⟩, by decide +kernel⟩
  have e : ((open' (hk (some (run0 1 true filled))) gw).mapViews 0 (hk (some (run0 1 true filled)))
    ((storedCells man filled).map Prod.snd)).1 = open' (hk (some (run0 1 true filled))) gw := by decide +kernel
  have q : (((open' (hk (some (run0 1 true filled))) gw).mapViews 0 (hk (some (run0 1 true filled)))
    ((storedCells man filled).map Prod.snd)).2.any fun vs =>
      winners man filled (coveredIn vs (walkOff (hk (some (run0 1 true filled))).walker)) =
        won) = true := by decide +kernel
  have r : (let x := (open' (hk (some (run0 1 true filled))) gw).placeCells (hk (some (run0 1 true filled))) man won
    x.2.2 = [] ∧ x.1.hart? 0 = some (hk (some (run0 1 true filled)))) := by decide +kernel
  rcases f : (open' (hk (some (run0 1 true filled))) gw).mapViews 0 (hk (some (run0 1 true filled)))
    ((storedCells man filled).map Prod.snd) with ⟨u, _ | vs⟩
  · rw [f] at q
    cases q
  · rw [f] at e q
    obtain rfl : u = _ := e
    have q' := of_decide_eq_true q
    rcases g : (open' (hk (some (run0 1 true filled))) gw).placeCells (hk (some (run0 1 true filled))) man won with ⟨u, p, l⟩
    rw [g] at r
    obtain ⟨rfl : l = [], r⟩ := r
    exact ⟨vs, u, p, rfl, by rw [q', g], r, q'⟩

/-- A crane thread's unit with room for images, and a hart of it with an operation of one cell left. -/
def gx : Gang := { gc with granules := 1024 }
def tiling (t : TileOp) : State := { world (.scalar 0) hc gx with tileOps := [(1, some t)], nextId := 2 }
def mmaOp (a va : Word) (out : List SWrite) : TileOp := ⟨0, 0, 1, .mma a 0 va 0 fmtReset, 0, 1, [], out, 0x1100, true⟩

theorem witness_CraneIssues :
    let s := world (.scalar 0) hc gx
    let desc1 : Word := 0x4000000000000000
    s.unit? hc.unit = some gx ∧ hc.engine = .crane ∧ ScalarReady s 0 hc [5] [] ∧ hc.Settled [5] ∧
    fmtFault fmtReset = none ∧ (let h := hc.setS 5 ⟨fmtReset, false⟩; fmtFault (h.getS 5).val = none) ∧
    hc.full .mx = false ∧ (7#3).toNat < gx.nacc ∧ { gx with nacc := 1 }.nacc ≤ (1#3).toNat ∧ ScalarReady s 0 hc [] [] ∧
    descSrc (hc.getS 5).val ≠ 2 ∧ descMc (hc.getS 5).val = false ∧ descBad (hc.getS 5).val 0 false = false ∧
    gx.checkImage (hc.getS 5).val 0 15 moutBytes false = .ok ∧
    { gx with rings := [(0, some ⟨true, 0, 127, 0, 0, 0, [(0, (.res, false))], [], []⟩)] }.moutCommitFault desc1 1 = none ∧
    ScalarReady s 0 hc [5, 8] [] ∧ ScalarReady s 0 hc (hc.descNext 5 ++ hc.descNext 8) [] ∧ hc.wait = none ∧ hc.desc 5 = .ok 0 0 ∧ hc.desc 8 = .ok 0 0 ∧
    ∃ ta tb, fmtA hc.fmt = some ta ∧ fmtB hc.fmt = some tb ∧ gx.checkImage 0 0 1 (imageBytes hc.fmt ta) true = .ok ∧
      gx.checkImage 0 0 1 (imageBytes hc.fmt tb) true = .ok := by
  refine ⟨rfl, rfl, ready _ _ _ _ rfl rfl, by simp [Hart.Settled]; decide, by decide +kernel, by decide +kernel, by decide,
    by decide, by decide, ready _ _ _ _ rfl rfl, by decide, by decide, by decide, rfl, by decide +kernel, ready _ _ _ _ rfl rfl,
    ready _ _ _ _ rfl rfl, rfl, rfl, rfl, _, _, rfl, rfl, rfl, rfl⟩

/-- A streamed operand, and none mapped. -/
def streamed : Word := 0x8000000000000000

/-- Both operands of the operation, and the state after reading row 63 of A and then column 63 of B. -/
def opA : Operand := ⟨0, 0, (fmtA fmtReset).getD .e2m1, fmtReset⟩
def readA : State := ((tiling (mmaOp 0 0 [])).tileReads 1 0 0 (opA.rowSectors 0 63)).1
def readAB : State := (readA.tileReads 1 1 0 (opA.rowSectors 0 63)).1
def opS : Operand := { opA with desc := streamed }
def faultS : State × List Failure := (tiling (mmaOp streamed 0 [])).imageFailures 1 0 0 (opS.allSectors 0)

/-- The same of an image whose pages are all read, where the die holds their translation. -/
def opV : Operand := ⟨streamed, 0x1000, .e2m1, 0x1111⟩
def mmaV : TileOp := { mmaOp 0 0 [] with kind := .mma streamed 0 0x1000 0 0x1111 }
def mappedS : State :=
  let s := tiling mmaV
  { s with mem := { s.mem with tlb := [{ benchTlb 0 with site := .die 0, bitsLog := 16, page := 0 }] } }

theorem only_op (m : SMap (Option TileOp)) (i : Nat) (o : TileOp) (n : i ≠ 1) (h : m.map Prod.fst = [1]) :
    SMapOps.get none m i ≠ some o := by
  obtain _ | ⟨⟨k, x⟩, _ | r⟩ := m
  · cases h
  · simp only [List.map_cons, List.map_nil, List.cons.injEq, and_true] at h
    subst h
    simp [SMapOps.get, n]
  · simp at h

theorem witness_TileOperationsCompleteOrFault :
    (let t : TileOp := ⟨0, 0, 1, .mzero, 7, 15, [], [], 0x1100, true⟩
     (tiling t).tileOp? 1 = some t ∧ (tiling t).unit? 0 = some gx ∧ SMapOps.wf 0 gx.tiles = true ∧
      (tiling t).tileBusy 0 7 15 1 = false) ∧
    (let t := mmaOp 0 0 []
     let s := tiling t
     s.tileOp? 1 = some t ∧ s.cellOpen 1 t 0 (64 * 63 + 63) = true ∧ t.operand 0 = some opA ∧ t.operand 1 = some opA ∧
      (s.tileReads 1 0 0 (opA.rowSectors 0 63)).2 = .ok ∧ (readA.tileReads 1 1 0 (opA.rowSectors 0 63)).2 = .ok ∧
      ((readAB.tileOp? 1).any fun t => t.kind = .mma 0 0 0 0 fmtReset) = true ∧
      (readAB.unit? 0).isSome = true) ∧
    (let old : SWrite := ⟨sectorOf 16380, BitVec.allOnes 128 <<< 4 >>> 4, 0, true, false, true⟩
     let t : TileOp := ⟨0, 0, 1, .mout 0 true false, 7, 1, [], [old], 0x1100, true⟩
     let s := tiling t
     s.tileOp? 1 = some t ∧ s.unit? 0 = some gx ∧ s.cellOpen 1 t 0 (64 * 63 + 63) = true ∧
      (t.out.find? fun w => w.sector = 0 * 2 ^ 58 + sectorOf (imageStart 0 0 0 + 4 * (64 * 63 + 63))) = some old ∧
      (imageStart 0 0 0 + 4 * (64 * 63 + 63)) % 128 + 4 ≤ 128 ∧ t.done.length + 1 < 4096) ∧
    (let t := mmaOp streamed 0 []
     let s := tiling t
     s.tileOp? 1 = some t ∧ t.mask = 1 ∧ descSrc streamed = 2 ∧ t.operand 0 = some opS ∧ t.operand 1 = some opA ∧
      descSrc opA.desc ≠ 2 ∧ faultS.2 ≠ [] ∧ (worstFailure faultS.2).isSome = true ∧ faultS.1.unit? 0 = some gx ∧
      faultS.1.tcb? 0 0 = some benchTcb ∧ faultS.1.jobCancelled 0 0 = false ∧ faultS.1.harbourOk benchTcb.die = true ∧
      SMapOps.wf none faultS.1.tileOps = true) ∧ (∀ i o, i ≠ 1 → faultS.1.tileOp? i = some o → o.unit ≠ 0) ∧
    (mappedS.tileOp? 1 = some mmaV ∧ mmaV.operand 0 = some opV ∧ mmaV.operand 1 = some { opV with desc := 0, va := 0 } ∧
      (mappedS.imageFailures 1 0 0 (opV.allSectors 0)).2 = []) := by
  exact ⟨by decide +kernel, by decide +kernel, by decide +kernel, by decide +kernel,
    fun i o n h => absurd h (only_op _ i o n (by decide +kernel)), by decide +kernel⟩

theorem witness_CraneBarriersPoisonAndScrub :
    let s := world (.scalar 0) hc gx
    let m : Mark := ⟨3, 0, [1]⟩
    let g := { gx with marks := List.replicate 16 m }
    s.unit? hc.unit = some gx ∧ hc.engine = .crane ∧ ScalarReady s 0 hc [] [6] ∧ (gx.marks.filter fun m => m.obj = 3) = [] ∧
    (g.marks.filter fun m => m.obj = 3).length = 16 ∧ (7#3).toNat < gx.nacc ∧ s.tileBusy 0 7 15 s.nextId = false ∧
    ScalarReady s 0 hc [5] [] ∧ hc.Settled [5] ∧ hc.wait = none ∧ ScalarReady s 0 hc [] [] ∧ SMapOps.wf 0 gx.tiles = true ∧
    (∀ p ∈ s.tileOps, ∀ o, p.2 = some o → o.unit ≠ 0 ∨ o.mask &&& 15 = 0) ∧
    (let t := tiling (mmaOp 0 0 [])
     t.tileOp? 1 = some (mmaOp 0 0 []) ∧ (mmaOp 0 0 []).unit = hc.unit ∧ (mmaOp 0 0 []).mask &&& 15 ≠ 0 ∧
      (m.ops.any fun id => (t.tileOp? id).isSome) = true) ∧
    (g.marks.find? fun x => x.obj = 3) = some m ∧ (m.ops.any fun id => (s.tileOp? id).isSome) = false := by
  refine ⟨rfl, rfl, ready _ _ _ _ rfl rfl, rfl, by decide, by decide, by decide +kernel, ready _ _ _ _ rfl rfl,
    by simp [Hart.Settled]; decide, rfl, ready _ _ _ _ rfl rfl, rfl, ?_, by decide +kernel, by decide, by decide +kernel⟩
  intro p hp
  cases hp

/-- The bench with vector words for every class, and a handler at work. -/
def vectors (h : Hart) : State :=
  let s := world (.scalar 0) h gw
  let v : DsSector := ⟨true, BitVec.allOnes 1024, false, false⟩
  { s with mem := { s.mem with ds := SMapOps.set none (SMapOps.set none s.mem.ds 0x2000 (some v)) 0x2001 (some v) } }
def rec0 (lane : Bool) : Record := ⟨0x02, 1, lane, false, false, 1, 0x1100, 7, 8, 9⟩
def handling (lane : Bool) : Hart :=
  { hw with trapped := some ⟨[⟨1, true⟩, ⟨2, false⟩, ⟨3, false⟩, ⟨4, false⟩, ⟨5, false⟩, ⟨6, false⟩], false, rec0 lane, 0x1104,
      some (.sget 3), 0⟩ }
def frozenHart : Hart := { benchHart .wave .vector true with frozen := true, laneTrap := some ⟨false, rec0 true⟩ }

theorem witness_TrapEntryAndReturn :
    (let h := handling false
     let s := vectors h
     ScalarReady s 0 h [] [] ∧ ScalarReady s 0 h [56, 57] [58, 59, 60, 61] ∧ h.trapped.isSome = true ∧ s.unit? h.unit = some gw) ∧
    (let s := vectors hw
     hw.trapped = none ∧ ScalarReady s 0 hw [] [] ∧ ∃ w, (s.fetchBytes 0 hw (s.vectorBase hw + 100) 4 accRead).2 = .ok w ∧
      w ≠ 0 ∧ (s.fetchBytes 0 hw (s.vectorBase hw + 100) 4 accRead).1.hart? 0 = some hw) ∧
    (let u := (ws.fetchBytes 0 hw (ws.vectorBase hw + 100) 4 accRead).1
     (ws.fetchBytes 0 hw (ws.vectorBase hw + 100) 4 accRead).2 = .ok 0 ∧ u.hart? 0 = some hw ∧ u.unit? 0 = some gw ∧
      u.tcb? 0 0 = some benchTcb ∧ u.jobCancelled 0 0 = false ∧ u.harbourOk benchTcb.die = true) ∧
    (let h := frozenHart
     let s := vectors h
     let t : LaneTrap := ⟨false, rec0 true⟩
     (s.hart? 0 = some h ∧ h.laneTrap = some t ∧ h.still = false ∧ s.saved h = false ∧ h.trapped = none ∧
      h.busy = false ∧ h.wait = none ∧ h.walk = none ∧
      (classNamed t.record.cls).code = t.record.cls.toNat ∧
      (s.fetchBytes 0 h (s.vectorBase h + BitVec.ofNat 64 (4 * t.record.cls.toNat)) 4 accRead).1.hart? 0 = some h) ∧
      ∃ w, (s.fetchBytes 0 h (s.vectorBase h + BitVec.ofNat 64 (4 * t.record.cls.toNat)) 4 accRead).2 = .ok w ∧ w ≠ 0) := by
  refine ⟨⟨scalarReady_idle _ _ rfl rfl rfl rfl rfl rfl, scalarReady_idle _ _ rfl rfl rfl rfl rfl rfl, rfl, rfl⟩,
    ⟨rfl, scalarReady_idle _ _ rfl rfl rfl rfl rfl rfl, 2 ^ 32 - 1, by decide +kernel, by decide, by decide +kernel⟩,
    by decide +kernel, by decide +kernel, 2 ^ 32 - 1,
    by decide +kernel, by decide⟩

theorem witness_ControlRegistersInvalidationHalt :
    let s := { ws with prog := { ws.prog with tasks := [(0, some { benchTcb with priv := true })] } }
    ScalarReady ws 0 hw [] [6] ∧ ScalarReady ws 0 hw [5] [] ∧ hw.Settled [5] ∧ ScalarReady ws 0 hw [] [] ∧
    ws.privileged hw = false ∧ hw.engine = .wave ∧ s.privileged hw = true ∧ ScalarReady s 0 hw [5] [] ∧
    ScalarReady s 0 hw [] [] ∧ (∃ u, ReleaseDone s 0 ⟨.rel, letterK⟩ u ∧ (u.hart? 0).isSome = true) ∧
    canonical (hw.getS 5).val = true ∧ canonical 0x100000000000000 = false ∧ (∀ die, ws.harbourOk die = true) ∧
    ((ws.openAtomics 0 hw).find? fun p => p.2.lane.isSome && p.2.op.floats) = none ∧
    ((∃ v j, ((s.invalidate 0 .vf).waiting 0 .tlbi).quiesce 0 = (v, true) ∧ v.hart? 0 = some j) ∧
     let r : AtomReq := ⟨some 3, 0x100008, 4, .fadd .rne, 0x3F800000, 0, false, false, 40, 0x1100⟩
     let h := { hw with storeQ := [⟨1, 1, .atomics, false, [], [], [r], 0, .lane 0⟩], ld := [⟨1, false⟩], st := [⟨1, false⟩] }
     let t := world (.scalar 0) h gw
     ScalarReady t 0 h [] [6] ∧ ScalarReady t 0 h [5] [] ∧ h.Settled [5] ∧
      ((t.openAtomics 0 h).find? fun p => p.2.lane.isSome && p.2.op.floats) = some (1, r)) := by
  refine ⟨readyW .., readyW .., by simp [Hart.Settled]; decide, readyW .., rfl, rfl, rfl, ?_, ?_, ?_, by decide, by decide,
    fun _ => rfl, rfl, ⟨_, _, done_of' _ (by decide +kernel), rfl⟩, ⟨rfl, rfl, by decide +kernel, by decide +kernel⟩,
    ⟨rfl, rfl, by decide +kernel, by decide +kernel⟩, by simp [Hart.Settled]; decide, by decide +kernel⟩
  · exact scalarReady_idle _ _ rfl rfl rfl rfl rfl rfl
  · exact scalarReady_idle _ _ rfl rfl rfl rfl rfl rfl
  · exact ⟨_, rel_done _ 0 letterK (by decide +kernel), by decide +kernel⟩

/-! #### Lane words: the bench's lane slot, with every lane running -/

def hv : Hart := benchHart .wave .vector true
def lw (h : Hart) : State := world (.lane 0 false) h gw
def laneOk (h : Hart) (w : LaneFields) (op : Nat) : Bool :=
  ((lw h).indexFault h (laneReads op w ++ laneWrites op w) (laneWides op w)).isNone &&
  decide ((lw h).struck 0 (laneOwn op w ((lw h).declared h)) (h.live false) = 0)
theorem laneReady {h : Hart} {w : LaneFields} {op : Nat} (a : h.absent = []) (l : h.loads = []) (q : h.storeQ = [])
    (ok : laneOk h w op = true) : LaneReadyFor op w (lw h) 0 false h := by
  simp only [laneOk, Bool.and_eq_true, Option.isNone_iff_eq_none, decide_eq_true_eq] at ok
  exact ⟨rfl, rfl, ok.1, by simp [Hart.absentAny, a], awaitRegs_idle _ _ _ _ _ l q rfl, ok.2⟩
/-- The words of some opcodes with these fields are ready. -/
theorem lanesReady (h : Hart) (w : LaneFields) (ops : List Nat) (a : h.absent = []) (l : h.loads = []) (q : h.storeQ = [])
    (ok : ops.all (laneOk h w) = true) : ∀ op ∈ ops, LaneReadyFor op w (lw h) 0 false h :=
  fun op m => laneReady a l q (List.all_eq_true.1 ok op m)

def w32 : LaneFields := { laneZero with ty := .i32, d := 975, a := 3, b := 4, c := 5 }
def wf32 : LaneFields := { laneZero with ty := .f32, d := 975, a := 3, b := 4, c := 5 }

theorem witness_LaneIntegerResults :
    (∀ op ∈ [0x01, 0x02, 0x03, 0x04, 0x05, 0x06, 0x07, 0x08, 0x09, 0x0A, 0x0B, 0x0C, 0x0D, 0x0E, 0x10, 0x11, 0x12, 0x13, 0x14],
      LaneReadyFor op w32 (lw hv) 0 false hv) ∧ w32.ty.signed = true ∧ 32 ≤ w32.ty.width ∧ hv.live false = BitVec.allOnes 32 :=
  ⟨lanesReady _ _ _ rfl rfl rfl (by decide +kernel), rfl, by decide, rfl⟩

theorem witness_LaneFloatResults :
    (∀ op ∈ [0x20, 0x21, 0x22, 0x23, 0x24, 0x25, 0x27, 0x28, 0x29, 0x2A, 0x2B, 0x2C, 0x2D, 0x2E, 0x2F, 0x30, 0x31, 0x32],
      LaneReadyFor op wf32 (lw hv) 0 false hv) ∧ 32 ≤ wf32.ty.width ∧ wf32.ty.value 0x7FC00000 = .nan ∧
    wf32.ty.value 0xFF800000 = .inf true ∧ wf32.ty.value 0x7F800000 = .inf false :=
  ⟨lanesReady _ _ _ rfl rfl rfl (by decide +kernel), by decide, by decide +kernel, by decide +kernel, by decide +kernel⟩

theorem witness_LaneConversionResults :
    (∀ op ∈ [0x40, 0x41, 0x43, 0x44], LaneReadyFor op wf32 (lw hv) 0 false hv) ∧
    LaneReadyFor 0x42 { wf32 with ty := .e4m3 } (lw hv) 0 false hv :=
  ⟨lanesReady _ _ _ rfl rfl rfl (by decide +kernel), laneReady rfl rfl rfl (by decide +kernel)⟩

/-- A lane hart whose FIFO holds `n` entries, with lane 31 of register 3 and of m3 a proposal. -/
def hf (n : Nat) : Hart :=
  { hv.setV 3 31 ⟨1, true⟩ with fifo := List.replicate n ⟨5, false⟩, m := [(0, ⟨BitVec.allOnes 32, 0⟩), (3, ⟨0, 0x80000000⟩)] }

theorem witness_LaneMasksAndTests :
    (∀ op ∈ [0x0F, 0x48, 0x49, 0x4A, 0x4B, 0x4C, 0x4D, 0x52, 0x75, 0x76], LaneReadyFor op { w32 with d := 7 } (lw hv) 0 false hv) ∧
    LaneReadyFor 0x26 { wf32 with d := 7 } (lw hv) 0 false hv ∧ ({ w32 with aux := 5 } : LaneFields).aux.toNat % 8 = 5 ∧
    (w32.ty.width = 32 ∧ w32.imm = false) ∧
    (let w := { w32 with aux := 2 }
     w.aux.toNat % 4 = 2 ∧ LaneReadyFor 0x52 w (lw (hf 7)) 0 false (hf 7) ∧ LaneReadyFor 0x52 w (lw (hf 8)) 0 false (hf 8) ∧
      (hf 7).walking = false ∧ lanesOf ((hf 7).live false) ≠ [] ∧ (hf 7).fifo.length < 8 ∧ 8 ≤ (hf 8).fifo.length) ∧
    (let h := { hv with walk := some (run0 1 true []) }
     LaneReadyFor 0x52 { w32 with aux := 2 } (lw h) 0 false h ∧ h.walking = true ∧ lanesOf (h.live false) ≠ []) ∧
    LaneReadyFor 0x76 w32 (lw (hf 0)) 0 false (hf 0) ∧ (((lw (hf 0)).laneCtx 0 (hf 0) false).a w32 31).tag = true ∧
    (((lw hv).laneCtx 0 hv false).a w32 31).tag = false :=
  ⟨lanesReady _ _ _ rfl rfl rfl (by decide +kernel), laneReady rfl rfl rfl (by decide +kernel), by decide, ⟨rfl, rfl⟩,
    ⟨by decide, laneReady rfl rfl rfl (by decide +kernel), laneReady rfl rfl rfl (by decide +kernel), rfl, by decide +kernel,
      by decide, by decide⟩, ⟨laneReady rfl rfl rfl (by decide +kernel), rfl, by decide +kernel⟩,
    laneReady rfl rfl rfl (by decide +kernel), by decide +kernel, by decide +kernel⟩

theorem witness_LaneCrossResults :
    (∀ op ∈ [0x50, 0x51, 0x53, 0x54, 0x55, 0x56, 0x57], LaneReadyFor op w32 (lw hv) 0 false hv) ∧ (lw hv).mem.upsets = [] ∧
    hv.ended = none ∧ w32.imm = false ∧ 32 ≤ w32.ty.width ∧ w32.ty.isFloat = false ∧ wf32.ty.isFloat = true ∧
    LaneReadyFor 0x53 wf32 (lw hv) 0 false hv ∧
    (let w := { w32 with ty := .b64, d := 974, aux := 0 }
     LaneReadyFor 0x55 w (lw hv) 0 false hv ∧ w.ty = .b64) ∧
    LaneReadyFor 0x55 { w32 with ty := .b32, aux := 6 } (lw hv) 0 false hv ∧
    (let w := { w32 with aux := 0x10 }
     let h := { hv with walk := some (run0 1 true []) }
     w.aux.getLsbD 4 = true ∧ LaneReadyFor 0x53 w (lw (hf 7)) 0 false (hf 7) ∧ LaneReadyFor 0x53 w (lw (hf 8)) 0 false (hf 8) ∧
      LaneReadyFor 0x53 w (lw h) 0 false h ∧ h.walking = true ∧ lanesOf (h.live false) ≠ []) ∧
    (let w := { wf32 with aux := 0x12 }
     wf32.ty = .f32 ∧ w.aux.toNat % 16 < 3 ∧ w.aux.getLsbD 4 = true ∧ (hf 7).walking = false ∧
      LaneReadyFor 0x54 w (lw hv) 0 false hv ∧ LaneReadyFor 0x53 w (lw (hf 7)) 0 false (hf 7) ∧
      LaneReadyFor 0x53 w (lw (hf 8)) 0 false (hf 8)) ∧
    (let h := { hv with slot0 := ⟨0, 0xFFFF, false, .run⟩, slot1 := ⟨40, 0xFFFF0000, false, .run⟩, older := [[[(3, 31, ⟨9, false⟩)]]] }
     LaneReadyFor 0x50 w32 (lw h) 0 false h ∧ LaneReadyFor 0x51 w32 (lw h) 0 false h ∧ h.older ≠ [] ∧
      (h.slot true).mask.getLsbD 31 = true) ∧
    ((lw hv).declared hv ≤ 976 ∧ LaneReadyFor 0x56 { w32 with imm16 := 976 } (lw hv) 0 false hv ∧
      LaneReadyFor 0x56 { w32 with imm16 := 975 } (lw hv) 0 false hv) :=
  ⟨lanesReady _ _ _ rfl rfl rfl (by decide +kernel), rfl, rfl, rfl, by decide, rfl, rfl, laneReady rfl rfl rfl (by decide +kernel),
    ⟨laneReady rfl rfl rfl (by decide +kernel), rfl⟩, laneReady rfl rfl rfl (by decide +kernel),
    ⟨by decide, laneReady rfl rfl rfl (by decide +kernel), laneReady rfl rfl rfl (by decide +kernel),
      laneReady rfl rfl rfl (by decide +kernel), rfl, by decide +kernel⟩,
    ⟨rfl, by decide, by decide, rfl, laneReady rfl rfl rfl (by decide +kernel), laneReady rfl rfl rfl (by decide +kernel),
      laneReady rfl rfl rfl (by decide +kernel)⟩,
    ⟨laneReady rfl rfl rfl (by decide +kernel), laneReady rfl rfl rfl (by decide +kernel), by decide, by decide⟩,
    by decide +kernel, laneReady rfl rfl rfl (by decide +kernel), laneReady rfl rfl rfl (by decide +kernel)⟩

/-- A lane hart whose address register 4 (a pair) names the code page in every lane, over a writable page. -/
def ha : Hart := (lanesOf (BitVec.allOnes 32)).foldl (fun h l => h.setV 4 l ⟨BitVec.ofNat 32 (0x1000 + 4 * l), false⟩) hv
def la (h : Hart) : State := { open' h gw with cur := .lane 0 false }
def wa : LaneFields := { w32 with d := 6, a := 4, imm := true, aux := 0, c := 8 }
theorem laneReadyOpen {h : Hart} {w : LaneFields} {op : Nat} (a : h.absent = []) (l : h.loads = []) (q : h.storeQ = [])
    (i : (la h).indexFault h (laneReads op w ++ laneWrites op w) (laneWides op w) = none)
    (s : (la h).struck 0 (laneOwn op w ((la h).declared h)) (h.live false) = 0) :
    LaneReadyFor op w (la h) 0 false h :=
  ⟨rfl, rfl, i, by simp [Hart.absentAny, a], awaitRegs_idle _ _ _ _ _ l q rfl, s⟩

def laneReq (l : Nat) : LoadReq :=
  ⟨1, .ld, [⟨l, 0x107F, 0x10007F, .normal, true⟩], 1, 1, true, 5, none, 0x1100, .laneLoad, [], 0, .lane 0⟩

theorem witness_LaneLoads :
    (∀ op ∈ [0x58, 0x5A, 0x60, 0x61], LaneReadyFor op wa (la ha) 0 false ha) ∧ ha.walking = false ∧ ha.full .ld = false ∧
    { ha with ld := List.replicate 63 ⟨9, false⟩ }.full .ld = true ∧ ha.loads = [] ∧ ha.storeQ = [] ∧
    (let c := (la ha).laneCtx 0 ha false
     ((la ha).memCheck c wa false (4 * memCount 0x58 wa) accRead .laneLoad fun _ => false).2.isSome = true ∧
      ((la hv).memCheck ((la hv).laneCtx 0 hv false) wa true (4 * memCount 0x5C wa) accRead .laneDirect
        fun _ => false).2.isSome = true ∧
      (memCount 0x58 wa, memCount 0x61 wa) = (1, 1) ∧ 31 ∈ c.memLanes wa) ∧
    (let h : Hart := { hw with loads := [laneReq 31], ld := [⟨1, false⟩] }
     let s := world (.scalar 0) h gw
     s.hart? 0 = some h ∧ h.loads = [laneReq 31] ∧ h.storeQ = [] ∧ s.mem.flights = [] ∧ isCtl 0x10007F = false ∧
      isNet 0x10007F = false ∧ (laneReq 31).late = 0 ∧ s.l1Victim h.core (sectorOf 0x10007F) = none ∧
      (s.l1View h.core (sectorOf 0x10007F)).2.x = false ∧ h.m0.getLsbD 31 = true ∧
      0x10007F % 128 + 1 ≤ 128) :=
  ⟨fun op m => by
      have i : ([0x58, 0x5A, 0x60, 0x61].all fun op => decide ((la ha).indexFault ha (laneReads op wa ++ laneWrites op wa)
        (laneWides op wa) = none)) = true := by decide +kernel
      have s : ([0x58, 0x5A, 0x60, 0x61].all fun op => decide ((la ha).struck 0 (laneOwn op wa ((la ha).declared ha)) (ha.live false) = 0)) = true := by decide +kernel
      exact laneReadyOpen (by decide +kernel) (by decide +kernel) (by decide +kernel)
        (of_decide_eq_true (List.all_eq_true.1 i op m)) (of_decide_eq_true (List.all_eq_true.1 s op m)),
    by decide +kernel⟩

/-! #### Lane stores, defect correction, control -/

theorem witness_LaneStoresAndAtomics :
    let c := (la ha).laneCtx 0 ha false
    let dat (l : Nat) : Bool := (c.data wa (memCount 0x59 wa) l).tag
    let u := ((la ha).memCheck c wa false (4 * memCount 0x59 wa) accWrite .laneStore dat).1
    (∀ op ∈ [0x59, 0x5B, 0x5E], LaneReadyFor op wa (la ha) 0 false ha) ∧
    (∀ op ∈ [0x5D, 0x5F], LaneReadyFor op wa (la hv) 0 false hv) ∧ ReleaseDone (la ha) 0 wa.ord (la ha) ∧
    (ha.walking = false ∧ ha.full .st = false ∧ ha.full .ld = false ∧
    { ha with st := List.replicate 63 ⟨9, false⟩ }.full .st = true ∧
    (((la ha).memCheck c wa false (4 * memCount 0x59 wa) accWrite .laneStore dat).2.any fun accs =>
      accs.length = 32 && (u.tagCheck c wa accs dat).isNone && (u.loadsBefore 0 false (4 * memCount 0x59 wa) accs).2 &&
      decide (u.hart? 0 = some ha)) = true ∧
    (((la ha).memCheck c wa false 4 accAtomic .laneAtomic fun l => (c.c wa l).tag).2.any fun accs => accs.length = 32) = true ∧
    (((la hv).memCheck ((la hv).laneCtx 0 hv false) wa true 4 accAtomic .laneDirect fun _ => false).2.any fun accs =>
      accs.length = 32) = true) ∧
    ((la ha).hart? 0 = some ha ∧ ha.ended = none ∧ wa.ord.str = .plain) ∧
    (let h := { ha with walk := some (run0 1 true []) }
     (∀ op ∈ [0x59, 0x5B, 0x5E], LaneReadyFor op wa (la h) 0 false h) ∧ h.walking = true ∧
      ((la h).laneCtx 0 h false).memLanes wa ≠ [] ∧ LaneReadyFor 0x59 { wa with aux := 0x41 } (la h) 0 false h ∧
      { wa with aux := 0x41 }.ord.str = .rel ∧ ((la h).laneCtx 0 h false).memLanes { wa with aux := 0x41 } ≠ []) := by
  have i (h : Hart) (op : Nat) (k : (decide ((la h).indexFault h (laneReads op wa ++ laneWrites op wa) (laneWides op wa) = none) &&
      decide ((la h).struck 0 (laneOwn op wa ((la h).declared h)) (h.live false) = 0) &&
      decide (h.absent = [] ∧ h.loads = [] ∧ h.storeQ = [])) = true) : LaneReadyFor op wa (la h) 0 false h := by
    simp only [Bool.and_eq_true, decide_eq_true_eq] at k
    exact laneReadyOpen k.2.1 k.2.2.1 k.2.2.2 k.1.1 k.1.2
  refine ⟨fun op m => i ha op ?_, fun op m => i hv op ?_, ?_, by decide +kernel, by decide +kernel,
    fun op m => i _ op ?_, rfl, by decide +kernel,
    laneReadyOpen rfl rfl rfl (by decide +kernel) (by decide +kernel), by decide +kernel, by decide +kernel⟩
  · simp only [List.mem_cons, List.not_mem_nil, or_false] at m
    rcases m with rfl | rfl | rfl <;> decide +kernel
  · simp only [List.mem_cons, List.not_mem_nil, or_false] at m
    rcases m with rfl | rfl <;> decide +kernel
  · unfold ReleaseDone
    rw [if_neg (by decide +kernel)]
  · simp only [List.mem_cons, List.not_mem_nil, or_false] at m
    rcases m with rfl | rfl | rfl <;> decide +kernel

def wd : LaneFields := { wf32 with d := 0, a := 0, b := 0, c := 5 }
theorem witness_DefectCorrectionResults :
    (wd.ty.width = 32 ∧ hv.walk = none ∧ wd.imm = false) ∧
    (∀ op ∈ [0x70, 0x71, 0x72, 0x73, 0x74], LaneReadyFor op wd (lw hv) 0 false hv) ∧
    (let h := { hv with corrOvf := 1 }
     LaneReadyFor 0x70 wd (lw h) 0 false h ∧ h.corrOvf.getLsbD 0 = true) ∧
    (let w := { wd with a := 3, b := 3, c := 3, aux := 1 }
     (∀ op ∈ [0x70, 0x71], LaneReadyFor op w (lw (hf 0)) 0 false (hf 0)) ∧ w.aux.getLsbD 0 = true ∧
      (((lw (hf 0)).laneCtx 0 (hf 0) false).a w 31).tag = true ∧ w.aux.toNat % 4 = 1) ∧
    (((lw hv).laneCtx 0 hv false).c wd 0).tag = false ∧ wd.aux.toNat % 4 = 0 :=
  ⟨⟨rfl, rfl, rfl⟩, lanesReady _ _ _ rfl rfl rfl (by decide +kernel), ⟨laneReady rfl rfl rfl (by decide +kernel), by decide⟩,
    ⟨lanesReady _ _ _ rfl rfl rfl (by decide +kernel), by decide, by decide +kernel, by decide⟩, by decide +kernel, by decide⟩

def wj : LaneFields := { laneZero with msel := 3, imm16 := 40 }
def split0 : Split := ⟨Slot.zero, false, false⟩
theorem witness_LaneControlAndPairs :
    (let h := { hw with queue := [⟨0x1100, [], 0⟩] }
     let s := world (.scalar 0) h gw
     s.hart? 0 = some h ∧ h.still = false ∧ s.saved h = false ∧ h.late = [] ∧ h.block = none ∧ h.queue = [⟨0x1100, [], 0⟩] ∧ h.frozen = false ∧ h.walk = none) ∧
    (let w := { w32 with d := 976 }
     (lw hv).cur = .lane 0 false ∧ (lw hv).hart? 0 = some hv ∧ laneInstr 0x01 w = some (.add w) ∧
      (lw hv).indexFault hv (laneReads 0x01 w ++ laneWrites 0x01 w) (laneWides 0x01 w) = some 976) ∧
    (∀ op ∈ [0x78, 0x79, 0x7A, 0x7B, 0x7C], LaneReadyFor op wj (lw hv) 0 false hv) ∧ hv.slot1.st = .free ∧ hv.stack = [] ∧
    (let full := { hv with slot1 := ⟨0, 0, false, .wait⟩, stack := List.replicate 64 split0 }
     LaneReadyFor 0x78 wj (lw full) 0 false full ∧ LaneReadyFor 0x79 wj (lw full) 0 false full ∧ full.stack.length = 64 ∧
      full.slot1.st ≠ .free ∧ full.slot1.off = full.slot0.off ∧ (lw full).upsetAt (.stack 0 63) = false) ∧
    (let far := { hv with slot1 := ⟨9, 0, false, .wait⟩ }
     LaneReadyFor 0x79 wj (lw far) 0 false far ∧ far.slot1.off ≠ far.slot0.off) ∧
    (let run := { hv with slot1 := ⟨9, 0, false, .run⟩ }
     LaneReadyFor 0x79 wj (lw run) 0 false run ∧ LaneReadyFor 0x7A wj (lw run) 0 false run) ∧
    hv.live false ≠ 0 ∧ hv.walking = false ∧
    (let x : CompactOp := ⟨0x05, 0, 1, 2, 3, .rne, false, false, false, false, false, 0⟩
     let y : CompactOp := ⟨0x01, 0, 9, 1, 3, .rne, false, false, false, false, false, 0⟩
     copLane x.cop = some 0x05 ∧ copLane y.cop = some 0x01 ∧ LaneReadyFor 0x05 x.single (lw hv) 0 false hv ∧
      laneInstr 0x05 x.single = some (.mad x.single) ∧
      LaneReady (lw hv) 0 false hv (laneReads 0x05 x.single ++ laneReads 0x01 y.single)
        (laneWrites 0x05 x.single ++ laneWrites 0x01 y.single) (laneMasks 0x05 x.single ++ laneMasks 0x01 y.single) []
        (fun _ => laneReads 0x05 x.single ++ laneReads 0x01 y.single) (fun _ => BitVec.allOnes 32)) ∧
    (let h := { hv with walk := some (run0 1 true []) }
     LaneReadyFor 0x7C wj (lw h) 0 false h ∧ h.walking = true ∧ h.live false ≠ 0) :=
  ⟨⟨rfl, rfl, rfl, rfl, rfl, rfl, rfl, rfl⟩, ⟨rfl, rfl, rfl, by decide +kernel⟩, lanesReady _ _ _ rfl rfl rfl (by decide +kernel),
    rfl, rfl,
    ⟨laneReady rfl rfl rfl (by decide +kernel), laneReady rfl rfl rfl (by decide +kernel), by decide, by decide, rfl, rfl⟩,
    ⟨laneReady rfl rfl rfl (by decide +kernel), by decide⟩,
    ⟨laneReady rfl rfl rfl (by decide +kernel), laneReady rfl rfl rfl (by decide +kernel)⟩, by decide, rfl,
    ⟨rfl, rfl, laneReady rfl rfl rfl (by decide +kernel), rfl,
      ⟨rfl, rfl, by decide +kernel, rfl, awaitRegs_idle _ _ _ _ _ rfl rfl rfl, by decide +kernel⟩⟩,
    laneReady rfl rfl rfl (by decide +kernel), rfl, by decide⟩

/-! #### Queues, placement, the module, management -/

/-- The module up, with a READY task 5 whose template and shape stand in the code page, a VF weight, and a queue. -/
def tplSector : DsSector := ⟨true, (2 ^ 64 - 1) * 2 ^ 512 + 0x1100 * 2 ^ 576, false, false⟩
def readyTcb : Tcb := { benchTcb with st := .ready, placed := 0, tpl := 0x1000, args := 0x1200 }
def waitingUnit : State :=
  let s := copyWorld hw bOn
  { s with
      harts := [], gangs := []
      prog := { s.prog with tasks := [(5, some readyTcb)] }
      mem := { s.mem with ds := [(0x2000, some tplSector)] } }
def queued (ctl : Word) (packets : List (List Words)) (fence : List (Word × Word)) : State :=
  let s := tasking hw (2 ^ 32 - 1) job1
  { s with mod := { s.mod with power := .on, queues := [(4095, ⟨ctl, fence, packets⟩)] } }
/-- A queue of VF 0, enabled, of four buffers; a LAUNCH of node 0 of job 0; a FENCE of one condition. -/
def qOn : Word := 0x8000000400010000
def launch0 : Words := [0x0100000000000000, 0, 0x1000, 0x1200, 0, 0, 0, 0]
def fence1 : List Words := [[0x0200000000000000, 0, 0, 0, 0, 0, 0, 0], [0x1200, 0, 0, 0, 0, 0, 0, 0]]

theorem launch_id (n : Nat) : (queued qOn [] []).taskIdUsed 0 (n % (2 ^ 32 - 1)) = false := fresh_id hw job1 n

theorem witness_LaunchQueues :
    (let s := queued qOn [] []
     s.mod.power = .on ∧ (s.queue 4095).ctl = qOn ∧ qOn.getLsbD 63 = true ∧ s.harbourOk 0 = true ∧
      s.mayTakeAll 4095 fence1 fence1.length = true ∧ s.mayTakeAll 4095 [launch0] 1 = true ∧ (s.queue 4095).packets = [] ∧
      (s.queue 4095).ctl.extractLsb' 0 2 = 0#2 ∧ ((fence1.headD []).getD 0 0).extractLsb' 56 8 = 2#8 ∧
      fenceBad fence1 = false ∧ (launch0.getD 0 0).extractLsb' 56 8 = 1#8 ∧ s.launchBad 0 [launch0] = false ∧
      s.launchLate 0 [launch0] = false ∧ s.jobCancelled 0 0 = false ∧ s.tcbRoom 0 = true ∧
      s.logInput 0 (1 :: 7 :: 4095 :: launch0) = s ∧ (s.job? 0 0).isSome = true) ∧
    (queued qOn [] []).taskIdUsed 0 (Config.taskId (queued qOn [] []).free % (2 ^ 32 - 1)) = false ∧
    (queued 0 [] []).queue 4095 = ⟨0, [], []⟩ ∧ (queued 0x8000000000000000 [] []).mayTakeAll 4095 [launch0] 1 = false ∧
    (queued qOn [] []).launchBad 0 [launch0.set 7 1] = true ∧
    (let s := queued (qOn ||| 1) [fence1] [(0x1200, 0)]
     let r := s.hmSectors 0 0 [0x1200]
     (s.queue 4095).ctl.extractLsb' 0 2 = 1#2 ∧ (s.queue 4095).packets = [fence1] ∧
      (r.2.any fun gs => gs.any HmGot.failed) = true ∧ r.1.mod = s.mod) ∧
    (let t := queued (qOn ||| 1) [fence1] [(0x1200, 0)]
     let s := { t with mem := (copyWorld hw bOn).mem }
     let r := s.hmSectors 0 0 [0x1200]
     (r.2.any fun gs => gs.all fun g => !g.failed && g.word 0x1200 = 0) = true ∧ r.1.mod = s.mod) := by
  exact ⟨by decide +kernel, launch_id _, by decide +kernel⟩

theorem witness_PlacementAndPreemption :
    (let s := waitingUnit
     s.mod.power = .on ∧ s.harbourOk 0 = true ∧ s.mod.queues = [] ∧ s.gangs = [] ∧ s.mod.images = [] ∧
      s.prog.tasks = [(taskKey 0 5, some readyTcb)] ∧ readyTcb.st = .ready ∧ readyTcb.placed = 0 ∧ readyTcb.carries = [] ∧
      readyTcb.data = none ∧
      s.jobCancelled 0 0 = false ∧ (s.vfRegs 0).sched.extractLsb' 0 8 ≠ 0#8 ∧
      (let r := s.placeReads 0 0 readyTcb
       (match r.2 with
        | .ok d => r.1.prog = s.prog && r.1.gangs = [] && (r.1.findRoom d.need).isSome && d.tpl.count = 1 &&
          !d.tpl.convoy
        | _ => false) = true)) ∧
    (let h := { hw with wait := some (.ringGet 5 3) }
     let x := { hw with berth := 9, pendingBerth := true, index := 1 }
     let s := world (.scalar 0) h gw
     let t := { s with harts := [(0, some h), (1, some x)] }
     let ready (s : State) := (s.mates h).find? fun x => x.2.pendingBerth && !x.2.stalls && x.2.ended.isNone &&
       !x.2.suspendedFault && !x.2.halted && x.2.safeMask.isNone
     s.hart? 0 = some h ∧ h.engine = .wave ∧ h.pendingBerth = false ∧ h.stalls = true ∧ hw.stalls = false ∧
      h.ended = none ∧ s.saved h = false ∧ t.saved x = false ∧ ready s = none ∧
      (((List.range Config.berths).drop 8).find? fun b => !(s.mates h).any fun x => x.2.berth = b).isSome = true ∧
      ready t = some (1, x) ∧ t.hart? 1 = some x ∧ x.pendingBerth = true ∧
      ((List.range 8).find? fun b => !(t.mates x).any fun x => x.2.berth = b).isSome = true) ∧
    (let r := ring0 .free []
     let g := { gw with convoy := true, lentry := 0x2000, rings := [(5, some r)] }
     let h := { hw with wait := some (.ringGet 5 3) }
     let s := world (.scalar 0) h g
     let t := { s with time := 9, harts := [(0, some h), (1, some { hw with index := 1 })],
                       mod := { s.mod with vfs := [(0, { VfRegs.zero with roleTime := 1 })] } }
     t.unit? 0 = some g ∧ (t.vfRegs 0).roleTime ≠ 0 ∧ g.roleMark = none ∧ g.st = .resident ∧
      t.harbourOk (clusterDie 0) = true ∧ t.starves 0 0 h g (t.vfRegs 0).roleLow.toNat (t.vfRegs 0).roleTime.toNat = true ∧
      ({ t with time := 0 } : State).starves 0 0 h g 0 1 = false) ∧
    (let g := { gw with preempt := some 0 }
     let s := world (.scalar 0) hw g
     g.preempt = some 0 ∧ s.time.toNat < (0 : Word).toNat + Config.preemptTicks ∧
      (0 : Word).toNat + Config.preemptTicks ≤ ({ s with time := 2 ^ 40 } : State).time.toNat ∧ hw.hasReached = false ∧
      s.tcb? 0 0 = some benchTcb ∧ s.harbourOk benchTcb.die = true ∧ s.jobCancelled 0 0 = false) ∧
    (let g := { gw with st := .saved, bars := [(2, bOn)] }
     let h := { hw with absent := [60], ctxV := [(32 * 960, ⟨7, true⟩)] }
     let s := { world (.scalar 0) h g with mod := { ws.mod with quota := [(0, 1)] } }
     g.st = .saved ∧ s.mod.power = .on ∧ s.restoreTurn g = true ∧ s.quotaOf g.vf ≠ 0 ∧ s.harbourOk 0 = true ∧
      s.tcb? g.vf g.task = some benchTcb ∧ s.harbourOk benchTcb.die = true ∧ (∀ b ∈ g.bars, b.2.rsv = 0 ∧ b.2.ccause.toNat < 7) ∧
      (let b := (2, { bOn with ccause := 7 })
       b ∈ { g with bars := [b] }.bars ∧ 7 ≤ b.2.ccause.toNat) ∧ (s.roomAt g.need 0).isSome = true ∧
      ((s.unitHarts 0).all fun i => (s.hart? i).all fun k => !k.doomed) = true ∧
      h.absent.contains 60 = true ∧ SMapOps.wf LV.zero h.ctxV = true ∧ ∀ p ∈ h.v, p.1 / 512 ≠ 60) :=
  ⟨by decide +kernel, by decide +kernel, by decide +kernel, by decide +kernel, by decide +kernel⟩

theorem witness_ModuleEvents :
    (let s := waitingUnit
     s.harbourOk 3 = true ∧ s.mod.power = .on ∧ State.reset.mod.power ≠ .on ∧ s.clusterHolds 0 = false ∧
      (s.fieldTest 0).running = false ∧ (s.fieldTest 0).next.toNat ≤ s.time.toNat ∧ s.harbourOk (clusterDie 0) = true) ∧
    (let s := { owned with mod := { owned.mod with
        harbour := [(3, .takingOver)], tests := [(7, ⟨true, 0, 0, [[1, 2]]⟩)],
        monitors := [(63, { Monitor.zero with cfg := 0x8001000000000000 })] } }
     SMapOps.get .active s.mod.harbour 3 = .takingOver ∧ (s.fieldTest 7).running = true ∧
      (s.monitor 63).cfg.getLsbD 63 = true ∧ (s.monitor 62).cfg.getLsbD 63 = false ∧ (∀ x ∈ s.mod.held, x.1 ≠ 3) ∧
      ({ s with mod := { s.mod with held := [(3, .record 0 [1])] } } : State).mod.held = [(3, .record 0 [1])]) ∧
    ws.dsGet benchSector = some (benchCode 0) ∧ ws.unit? 0 = some gw ∧ 63 < gw.granules ∧ 7 < gw.nacc := by
  decide +kernel

theorem witness_ManagementOwnership :
    (let s := owned
     s.windowOver .module = false ∧ scopeExists .module = true ∧ s.ownerOf .module ≠ none ∧ s.ownerOf (.vf 5) = none ∧
      s.windowOver (.vf 5) = false ∧ s.scopeBusy .module = false ∧ s.scopeBusy (.vf 5) = false ∧
      scopeExists (.vf 5) = true ∧ 0x23 ∉ commandCodes ∧ 0x42 ∈ commandCodes ∧ (s.scopeRec .module).owner = some (1, 5) ∧
      s.time.toNat < (5 : Word).toNat ∧ (5 : Word).toNat ≤ ({ s with time := 5 } : State).time.toNat ∧
      s.ownerOf .module = some 1 ∧ s.ownerOf .module ≠ some 2 ∧ isGddr 0x107F = true ∧ 0x107F % 128 + 1 ≤ 128 ∧
      (s.homeRead (sectorOf 0x107F)).2.x = false ∧ s.mod.accepted = [] ∧ s.mgmtBusy = false ∧
      s.dieVictim (sectorOf 0x107F) = none) ∧
    (let a : Claim := ⟨1, 3, 7, 3600⟩
     let b : Claim := ⟨2, 3, 6, 1⟩
     let s := { State.reset with
       time := 2 ^ 40, mod := { ModState.reset with power := .on, owners := [⟨.vf 5, none, [a, b], 0⟩] } }
     s.windowOver (.vf 5) = true ∧ a ∈ (s.scopeRec (.vf 5)).claims ∧
      (∀ y ∈ (s.scopeRec (.vf 5)).claims, y = a ∨ y.prio.toNat < a.prio.toNat ∨
        y.prio = a.prio ∧ y.nonce.toNat < a.nonce.toNat) ∧
      ((s.scopeRec (.vf 5)).claims.filter (· = a)).length = 1) ∧
    ({ owned with mem := { owned.mem with ds := [(sectorOf 0x1000, some ⟨true, 0, false, true⟩)] } }.homeRead
      (sectorOf 0x1000)).2.x = true := by
  decide +kernel

/-- The words of an image of no section but its names and its note, of level 1, its CRC field apart. -/
def imageWords : List (List Word) := [[0x2000100464F52, 0x40, 0x100400003, 0, 0, 0, 0, 0], [0, 0, 0, 0, 0, 0, 0, 0],
  [0x400000001, 0, 0, 0x100, 0x18, 4, 0, 0], [0x600000009, 0, 0, 0x118, 0x20, 8, 0, 0],
  [0x6261747274732E00, 0x642E65746F6E2E00, 0x6E6F737572, 1, 0, 0, 0]]
def bytesOf (ws : List Word) : List Byte := ws.flatMap fun w => toBytes 8 w.toNat
def emptyImage : List Byte := (imageWords.flatMap bytesOf).take 24 ++ toBytes 4 0x18988D11 ++ (imageWords.flatMap bytesOf).drop 28
/-- Its CRC, in pieces: the register before each run of words. -/
def crcOver (c : Word32) (ws : List Word) : Word32 := (bytesOf ws).foldl (fun c b => crcBits (c ^^^ b.zeroExtend 32) 8) c
theorem crc_pieces : (imageWords.zip [0xFFFFFFFF, 0xFDA27F47, 0x54EBECAD, 0x1406F232, 0x3F19FCED]).map
    (fun x => crcOver x.2 x.1) = [0xFDA27F47, 0x54EBECAD, 0x1406F232, 0x3F19FCED, 0xE76772EE] := by
  decide +kernel
theorem crc_image : crcBad emptyImage = false := by
  have e : emptyImage.take 24 ++ [0, 0, 0, 0] ++ emptyImage.drop 28 = imageWords.flatMap bytesOf := by decide +kernel
  have p := crc_pieces
  simp only [imageWords, List.zip_cons_cons, List.zip_nil_right, List.map_cons, List.map_nil,
    List.cons.injEq, and_true, crcOver] at p
  have n : fileNum emptyImage 24 4 = 0x18988D11 := by decide +kernel
  rw [crcBad, e, n, crc32]
  simp only [imageWords, List.flatMap_cons, List.flatMap_nil, List.append_nil, List.foldl_append]
  obtain ⟨p0, p1, p2, p3, p4⟩ := p
  rw [show BitVec.allOnes 32 = (0xFFFFFFFF : Word32) from rfl, p0, p1, p2, p3, p4]
  decide
/-- The owner's module with VF 0's table root, over empty tables. -/
def rootOn : State := owned.setVfRegs 0 { owned.vfRegs 0 with troot := 0x300001 }
/-- An image with 4 KiB of `.bss`. -/
def bssImage : List Byte := [[0x2000100464F52, 0x40, 0x100400004, 0, 0, 0, 0, 0], [0, 0, 0, 0, 0, 0, 0, 0],
  [0x400000001, 0, 0, 0x140, 0x20, 4, 0, 0], [0x600000009, 0, 0, 0x160, 0x20, 8, 0, 0], [0x200000018, 6, 0, 0, 0x1000, 8, 0, 0],
  [0x6261747274732E00, 0x642E65746F6E2E00, 0x6E6F737572, 0x7373622E, 1, 0, 0, 0]].flatMap bytesOf
/-- The module with one command accepted, and the image of VF 0 whose leaves are to be written. -/
def accepting (c : HostCmd) : State :=
  { rootOn with mod := { rootOn.mod with
      accepted := [(some (.vf 0), c)], images := [⟨0, 0x10000, 4096, [], [], false, true⟩] } }
def loading (image : List Byte) : HostCmd := .load 1 0 0x10000 4096 image []

theorem image_loads : (rootOn.loadImage 0 0x10000 4096 emptyImage []).2 = .placed := by
  rw [State.loadImage, crc_image, show headerBad emptyImage = false by decide +kernel]
  decide +kernel

/-- The owner's module with VF 0's image, in use and not. -/
def loaded (used : Bool) : State :=
  let h := { hw with pc := 0x20000 }
  { owned with
      harts := if used then [(0, some h)] else []
      gangs := if used then [(0, some gw)] else []
      prog := (tasking h 0 job1).prog
      mod := { owned.mod with images := [⟨0, 0x20000, 4096, [[1, 2]], [0x20], false, false⟩] } }

theorem witness_ManagementCommands :
    (owned.mod.power = .on ∧ owned.ownerOf (.vf 0) = some 1 ∧ owned.ownerOf (.vf 0) ≠ some 2 ∧ owned.ownerOf .module = some 1 ∧
      owned.ownerOf .module ≠ some 2) ∧
    (rootOn.ownerOf (.vf 0) = some 1 ∧
      (rootOn.loadImage 0 0x10000 4096 emptyImage []).2 = .placed ∧
      (owned.loadImage 0 0x10000 4096 [] []).2 = .refused .header) ∧
    ((∀ x, (accepting (loading x)).mod.accepted = [(some (.vf 0), loading x)] ∧
        (accepting (loading x)).loadingAt 0 0x10000 = true) ∧
      ((sectionsOf emptyImage).any fun p => ((accepting (loading emptyImage)).publishImage 0 0x10000 p.1 []).2) = true ∧
      ((sectionsOf bssImage).any fun p => !((accepting (loading bssImage)).publishImage 0 0x10000 p.1 []).2) = true ∧
      ((accepting (.mgmtTlbi 1 0 1 0)).quiesce 0).2 = true ∧ canonical 0 = true) ∧
    (let s := loaded true
     ((s.mod.images.find? fun x => x.vf = 0 && x.base = 0x20000).any fun i => s.imageUsed i) = true ∧
      (s.charts 0)[0]? = some [1, 2] ∧ s.job? 0 255 = none ∧ s.job? 0 0 = some job1 ∧
      job1.kind 0 ≠ .unused ∧ job1.timeFault 0 0 = none ∧ job1.holdOk 0 0 = true ∧ job1.cancelled = false ∧
      { job1 with holds := [⟨0, 0, 1⟩] }.held 0 0 ≠ 0) ∧
    (let f : Tcb := { benchTcb with st := .faulted, fcode := 0x0E01 }
     let s := { loaded false with prog := { (loaded false).prog with tasks := [(0, some f)] } }
     s.tcb? 0 0 = some f ∧ s.gangs = [] ∧ memoryCode f.fcode = true ∧ f.succs = [] ∧ s.jobCancelled 0 f.job.toNat = false ∧
      s.vfHarts 0 = [] ∧ s.mem.flights = [] ∧ s.activeJobs < Config.activeJobs ∧
      ((s.mod.images.find? fun x => x.vf = 0 && x.base = 0x20000).any fun i => !s.imageUsed i &&
        ((s.removeImage i).quiesce 0).2) = true) ∧
    (let h := { hw with halted := true }
     let s := world (.scalar 0) h gw
     s.hart? 0 = some h ∧ s.hartVf h = 0 ∧ h.halted = true) ∧
    owned.ctlAllowed (.host 1) (.capture 63 0) 0x8001000000000000 = true := by
  refine ⟨by decide +kernel, ⟨by decide +kernel, image_loads, by decide +kernel⟩, ?_, by decide +kernel, by decide +kernel,
    by decide +kernel, by decide +kernel⟩
  exact ⟨fun _ => ⟨rfl, rfl⟩, by decide +kernel, by decide +kernel, by decide +kernel, by decide +kernel⟩

end
end

section
/-! SUPPORT. S-stream instructions that test a scalar register: proposals in settled-only operands, branches, the loop step
and conditions (R178, R182, R185, R187). -/

namespace Sys2Proof.Machine

/-! ### Format SB (R133)

Its fields lie across those of format SX; each is a run of bits of the word. -/

theorem extractLsb'_extractLsb' {n i k j m : Nat} (x : BitVec n) (inside : j + m ≤ k) :
    (x.extractLsb' i k).extractLsb' j m = x.extractLsb' (i + j) m := by
  apply BitVec.eq_of_getLsbD_eq
  intro p lt
  have : j + p < k := by omega
  simp [lt, this, Nat.add_assoc]

section
variable (w : BitVec 32)

theorem SFields.cond_ofWord : (SFields.ofWord w).cond = w.extractLsb' 22 4 :=
  extractLsb'_extractLsb' w (by decide)

theorem SFields.sbA_ofWord : (SFields.ofWord w).sbA = w.extractLsb' 16 6 := by
  simp only [SFields.sbA, SFields.ofWord, extractLsb'_extractLsb', Nat.reduceAdd, Nat.reduceLeDiff]
  exact BitVec.extractLsb'_append_extractLsb'_eq_extractLsb' rfl

theorem SFields.off16_ofWord : (SFields.ofWord w).off16 = w.extractLsb' 0 16 := by
  simp only [SFields.off16, SFields.ofWord, extractLsb'_extractLsb', Nat.reduceAdd, Nat.reduceLeDiff]
  rw [BitVec.extractLsb'_append_extractLsb'_eq_extractLsb' (show 14 = 8 + 6 from rfl),
    BitVec.extractLsb'_append_extractLsb'_eq_extractLsb' (show 8 = 4 + 4 from rfl)]
  exact BitVec.extractLsb'_append_extractLsb'_eq_extractLsb' rfl

end

section
variable (op : BitVec 6) (cond : BitVec 4) (a : SReg) (off : BitVec 16)

theorem SFields.op_ofWord_append : (SFields.ofWord (op ++ cond ++ a ++ off)).op = op := by
  rw [SFields.ofWord, BitVec.extractLsb'_append_eq_of_le (by decide), BitVec.extractLsb'_append_eq_of_le (by decide)]
  exact BitVec.extractLsb'_append_eq_left

theorem SFields.cond_ofWord_append : (SFields.ofWord (op ++ cond ++ a ++ off)).cond = cond := by
  rw [SFields.cond_ofWord, BitVec.extractLsb'_append_eq_of_le (by decide), BitVec.extractLsb'_append_eq_of_le (by decide)]
  exact BitVec.extractLsb'_append_eq_right

theorem SFields.sbA_ofWord_append : (SFields.ofWord (op ++ cond ++ a ++ off)).sbA = a := by
  rw [SFields.sbA_ofWord, BitVec.extractLsb'_append_eq_of_le (by decide)]
  exact BitVec.extractLsb'_append_eq_right

theorem SFields.off16_ofWord_append : (SFields.ofWord (op ++ cond ++ a ++ off)).off16 = off := by
  rw [SFields.off16_ofWord]
  exact BitVec.extractLsb'_append_eq_right

/-- The words of opcode 0x0C: a branch on one of its six conditions, or a reserved encoding. -/
theorem decodeS_sbr (e : Engine) : decodeS e ((0x0C : BitVec 6) ++ cond ++ a ++ off) =
    if cond.toNat < 6 then .ok (.sbr cond a off) else .error ⟨.select, true⟩ := by
  simp only [decodeS, decodeFields, SFields.op_ofWord_append, SFields.cond_ofWord_append, SFields.sbA_ofWord_append,
    SFields.off16_ofWord_append]
  by_cases h : cond.toNat < 6 <;> simp [h, bad]

/-- The words of opcode 0x10: the loop step under condition 0, or a reserved encoding. -/
theorem decodeS_sloop (e : Engine) : decodeS e ((0x10 : BitVec 6) ++ cond ++ a ++ off) =
    if cond = 0 then .ok (.sloop a off) else .error ⟨.select, true⟩ := by
  simp only [decodeS, decodeFields, SFields.op_ofWord_append, SFields.cond_ofWord_append, SFields.sbA_ofWord_append,
    SFields.off16_ofWord_append]
  by_cases h : cond = 0 <;> simp [h, bad]

end

/-! ### Proposals in settled-only operands (R178) -/

section
variable {s : State} {hid : Nat} {h : Hart}

/-- A form with one settled-only operand takes the tag fault on a proposal in it. -/
theorem onSettled_proposal_one {a : SReg} {writes : List SReg} (f : Nat → Hart → State)
    (r : ScalarReady s hid h [a] writes) (t : (h.getS a).tag = true) :
    onSettled s [a] writes f = .next (s.tagTrap hid) :=
  onSettled_proposal f r ⟨a, List.mem_singleton_self a, t⟩

/-- A form whose body begins with the tag check of one operand, others being free to be proposals, takes the tag fault on
a proposal in that one. -/
theorem onScalar_checked_proposal {reads writes : List SReg} (a : SReg) (f : Nat → Hart → State)
    (r : ScalarReady s hid h reads writes) (t : (h.getS a).tag = true) :
    onScalar s reads writes (fun hid h => if (h.getS a).tag then s.tagTrap hid else f hid h) = .next (s.tagTrap hid) := by
  rw [onScalar_ready _ r, if_pos t]

theorem exec_lrun_proposal {a : SReg} (role : h.roleBad .vector = false) (r : ScalarReady s hid h [a] [])
    (t : (h.getS a).tag = true) : exec (.lrun a) s = .next (s.tagTrap hid) :=
  (onScalar_ready _ r).trans (by simp [role, t])

/-- The AOPs below 9 are the operations without a comparand (R193). -/
theorem scalarAop_ne_cas {aop : BitVec 4} (lt : aop.toNat < 9) : scalarAop aop ≠ .cas := by
  unfold scalarAop
  generalize aop.toNat = n at lt
  match n with
  | 0 | 1 | 2 | 3 | 4 | 5 | 6 | 7 | 8 => simp

theorem exec_satom_proposal {a d : SReg} {o : Ord} {w : Bool} {aop : BitVec 4} (lt : aop.toNat < 9)
    (r : ScalarReady s hid h [d, a] [d]) (t : (h.getS a).tag = true) :
    exec (.satom d a o w aop) s = .next (s.tagTrap hid) := by
  show execSatom d a o w aop s = _
  simp only [execSatom, scalarAop_ne_cas lt, decide_false, Bool.false_eq_true, if_false]
  exact onScalar_checked_proposal a _ r t

end

/-- Settles O21: in every form listed, the tag check of these operands comes before anything the body changes. -/
theorem settledOnlyOperandsFault : Obligations.SettledOnlyOperandsFault := by
  intro s hid h a b d o sz off o16 cond c w aop n t
  refine ⟨fun r => ⟨?sbr, ?sjmpr, ?csrw, ?safe, ?yield, fun role => exec_lrun_proposal role r t⟩, ?scallr, ?sret, ?sloop,
    fun r => ⟨?sld, ?sldc⟩, fun r => ⟨?sst, ?sstc⟩, fun lt r => exec_satom_proposal lt r t, ?cas,
    fun r => ⟨?ssleep, ?phase⟩, fun r => ⟨?ssleepSecond, ?phaseSecond⟩⟩
  case sbr | sjmpr | csrw | safe | yield | sld | sldc => exact onSettled_proposal_one _ r t
  case scallr | sloop => exact fun r => onSettled_proposal_one _ r t
  case sret => rintro r rfl; exact onSettled_proposal_one _ r t
  case sst | sstc => exact onScalar_checked_proposal a _ r t
  case cas => exact fun r => onScalar_checked_proposal a _ r t
  case ssleep | phase => exact onSettled_proposal _ r ⟨a, List.mem_cons_self, t⟩
  case ssleepSecond | phaseSecond => exact onSettled_proposal _ r ⟨a, List.mem_cons_of_mem b (List.mem_singleton_self a), t⟩

/-! ### Branches -/

/-- The target of a branch: the address of its word plus 4 times the signed offset (R185). -/
theorem wordTarget_signExtend (pc : Word) (off : BitVec 16) : wordTarget pc off.toInt = pc + off.signExtend 64 * 4 := by
  rw [wordTarget, BitVec.ofInt_mul, BitVec.mul_comm]
  rfl

/-- A branch leads its hart to the target or past the word. -/
theorem State.branch_eq_goTo {s : State} {hid : Nat} {h : Hart} (taken : Bool) (target : Word) (e : s.hart? hid = some h) :
    s.branch hid taken target = s.goTo hid (if taken then target else h.pc + 4) := by
  simp only [State.branch, State.goTo, State.modHart_of_hart s _ e]

/-- A scalar register written before a branch does not move the place it starts from. -/
theorem State.branch_setS {s : State} {hid : Nat} {h : Hart} (r : SReg) (x : TV) (taken : Bool) (target : Word)
    (e : s.hart? hid = some h) :
    (s.setS hid r x).branch hid taken target = (s.setS hid r x).goTo hid (if taken then target else h.pc + 4) := by
  have e' : (s.setS hid r x).hart? hid = some (h.setS r x) := by simp [State.hart?_setS, e]
  rw [State.branch_eq_goTo taken target e', Hart.setS_frame]

/-- The six conditions of `sbr` (R185). -/
theorem sbrTaken_eq_branchCondition (cond : BitVec 4) (x : Word) : sbrTaken cond x = branchCondition cond x := by
  simp only [sbrTaken, branchCondition, ← BitVec.toNat_inj]
  generalize cond.toNat = n
  match n with
  | 0 | 1 | 2 | 3 | 4 => rfl
  | n + 5 => simp

/-- Settles O14, from the six conditions, the target and the decoding of opcode 0x0C. -/
theorem scalarBranch : Obligations.ScalarBranch := by
  refine ⟨fun s hid h cond a off _ r => ⟨fun settled => ?_, fun proposal => ?_⟩, fun e cond a off => decodeS_sbr cond a off e⟩
  · refine (onSettled_ready _ r settled).trans ?_
    rw [State.branch_eq_goTo _ _ r.hart, sbrTaken_eq_branchCondition, wordTarget_signExtend]
  · exact onSettled_proposal_one _ r (by simpa [Hart.Settled] using proposal)

/-! ### The loop step -/

/-- The loop step on a settled counter: the decremented value is written, then tested (R187). -/
theorem exec_sloop_settled {s : State} {hid : Nat} {h : Hart} {a : SReg} (off : BitVec 16)
    (r : ScalarReady s hid h [a] [a]) (t : (h.getS a).tag = false) :
    exec (.sloop a off) s = .next ((s.setS hid a ⟨(h.getS a).val - 1, false⟩).goTo hid
      (if (h.getS a).val - 1 ≠ 0 then h.pc + off.signExtend 64 * 4 else h.pc + 4)) := by
  refine (onSettled_ready _ r (by simpa [Hart.Settled] using t)).trans ?_
  simp only [State.branch_setS _ _ _ _ r.hart, wordTarget_signExtend, decide_eq_true_eq]

/-- Settles O16; s0 reads 0, so its decremented value is −1, never zero. -/
theorem scalarLoopStep : Obligations.ScalarLoopStep := by
  refine ⟨fun s hid h a off r => ⟨fun t => onSettled_proposal_one _ r t, exec_sloop_settled off r, ?_⟩,
    fun e cond a off reserved => (decodeS_sloop cond a off e).trans (if_neg reserved)⟩
  rintro rfl
  exact exec_sloop_settled off r rfl

/-! ### Conditions -/

/-- The eight conditions of `scmp` and `scmpi` (R182). -/
theorem scmpHolds_eq_scalarCondition (cc : BitVec 3) (x y : Word) : scmpHolds cc x y = scalarCondition cc x y := by
  have lt := cc.isLt
  simp only [scmpHolds, scalarCondition, ← BitVec.toNat_inj]
  generalize cc.toNat = n at lt
  match n with
  | 0 | 1 | 2 | 3 | 4 | 5 | 6 | 7 => simp [holds, BitVec.toInt_inj, BitVec.toNat_inj]

/-- Settles O11: the model's conditions are those of the table. -/
theorem scalarCompareConditions : Obligations.ScalarCompareConditions := by
  refine fun s hid h d a b cc i => ⟨fun r => ?_, fun r => ?_⟩
  · rw [← scmpHolds_eq_scalarCondition]
    exact alu_ready (fun x y => wordOfBool (scmpHolds cc x y)) r
  · rw [← scmpHolds_eq_scalarCondition]
    exact alu1_ready (fun x => wordOfBool (scmpHolds cc x (simm i))) r

end Sys2Proof.Machine
end

section
/-! SUPPORT. Division, remainder and bit fields of the S-stream (R181, R209). -/

namespace Sys2Proof.Machine

/-! ### Division (R181) -/

/-- The quotient of the least integer by −1 is out of range and wraps to the least integer again. -/
theorem sdivOf_eq (x y : Word) : sdivOf x y = if y = 0 then 0
    else if x = BitVec.intMin 64 ∧ y = -1 then BitVec.intMin 64 else BitVec.ofInt 64 (x.toInt.tdiv y.toInt) := by
  unfold sdivOf
  split
  · rfl
  · split
    next corner => rw [corner.1, corner.2]; decide
    next => rfl

theorem sremOf_eq (x y : Word) : sremOf x y = if y = 0 then x
    else if x = BitVec.intMin 64 ∧ y = -1 then 0 else BitVec.ofInt 64 (x.toInt - y.toInt * x.toInt.tdiv y.toInt) := by
  unfold sremOf
  split
  · rfl
  · split
    next corner => rw [corner.1, corner.2]; decide
    next => rw [Int.tmod_def]

/-! ### Bit fields (R181, R209) -/

section
variable {w a b d o n : Nat}

/-- A field that is not empty lies within the register. -/
theorem fieldOf_bounds (f : fieldOf w b = some (o, n)) : 0 < n ∧ o + n ≤ w := by
  simp only [fieldOf, Option.ite_none_left_eq_some, Option.some.injEq, Prod.mk.injEq] at f
  obtain ⟨nonempty, rfl, rfl⟩ := f
  omega

theorem extractField_of_none (signed : Bool) (f : fieldOf w b = none) : extractField w a b signed = 0 := by
  simp [extractField, f]

theorem testBit_extractField_unsigned (f : fieldOf w b = some (o, n)) (i : Nat) :
    (extractField w a b false).testBit i = (decide (i < n) && a.testBit (o + i)) := by
  simp [extractField, f, Nat.testBit_mod_two_pow, Nat.testBit_shiftRight]

/-- The low `n` bits read as a signed integer are the bit vector's own integer. -/
theorem signedOf_eq_toInt (pos : 0 < n) (x : Nat) : signedOf n x = (BitVec.ofNat n x).toInt := by
  have double : 2 ^ n = 2 * 2 ^ (n - 1) := by rw [← Nat.pow_succ', Nat.succ_eq_add_one, Nat.sub_add_cancel pos]
  have positive : x % 2 ^ n < 2 ^ (n - 1) ↔ 2 * (x % 2 ^ n) < 2 ^ n := by omega
  simp only [signedOf, BitVec.toInt_eq_toNat_cond, BitVec.toNat_ofNat, positive]

/-- Wrapping a signed integer to a register extends it by its sign. -/
theorem wrap_signedOf (pos : 0 < n) (x : Nat) : wrap w (signedOf n x) = ((BitVec.ofNat n x).signExtend w).toNat := by
  rw [signedOf_eq_toInt pos, BitVec.signExtend, BitVec.toNat_ofInt, wrap]

theorem testBit_wrap_signedOf (pos : 0 < n) (x : Nat) {i : Nat} (lt : i < w) :
    (wrap w (signedOf n x)).testBit i = if i < n then x.testBit i else x.testBit (n - 1) := by
  have top : n - 1 < n := Nat.sub_one_lt_of_lt pos
  rw [wrap_signedOf pos, BitVec.testBit_toNat, BitVec.getLsbD_signExtend, BitVec.msb_eq_getLsbD_last]
  simp only [BitVec.getLsbD_ofNat, lt, top, decide_true, Bool.true_and]
  by_cases below : i < n
  · simp only [below, if_true, decide_true, Bool.true_and]
  · simp only [below, if_false]

theorem testBit_extractField_signed (f : fieldOf w b = some (o, n)) {i : Nat} (lt : i < w) :
    (extractField w a b true).testBit i = if i < n then a.testBit (o + i) else a.testBit (o + n - 1) := by
  obtain ⟨pos, -⟩ := fieldOf_bounds f
  have top : n - 1 < n := Nat.sub_one_lt_of_lt pos
  simp only [extractField, f, if_true, testBit_wrap_signedOf pos _ lt, Nat.testBit_mod_two_pow, Nat.testBit_shiftRight,
    top, decide_true, Bool.true_and, Nat.add_sub_assoc (show 1 ≤ n from pos)]
  by_cases below : i < n
  · simp only [below, if_true, decide_true, Bool.true_and]
  · simp only [below, if_false]

theorem insertField_of_none (f : fieldOf w b = none) : insertField w d a b = none := by
  simp [insertField, f]

/-- A number cut at a field's two ends. -/
theorem eq_field_split (d o n : Nat) : d = 2 ^ o * (2 ^ n * (d >>> o >>> n) + (d >>> o) % 2 ^ n) + d % 2 ^ o := by
  simp only [Nat.shiftRight_eq_div_pow, Nat.div_add_mod]

/-- Replacing a field keeps the parts above and below it. -/
theorem replace_field (d o n v : Nat) : d - ((d >>> o) % 2 ^ n) <<< o + v <<< o =
    2 ^ o * (2 ^ n * (d >>> o >>> n) + v) + d % 2 ^ o := by
  have cut := eq_field_split d o n
  rw [Nat.mul_add] at cut ⊢
  rw [Nat.shiftLeft_eq, Nat.shiftLeft_eq, Nat.mul_comm _ (2 ^ o), Nat.mul_comm _ (2 ^ o)]
  omega

theorem testBit_replace_field (d o n a i : Nat) :
    (d - ((d >>> o) % 2 ^ n) <<< o + (a % 2 ^ n) <<< o).testBit i =
      if o ≤ i ∧ i < o + n then a.testBit (i - o) else d.testBit i := by
  have low : d % 2 ^ o < 2 ^ o := Nat.mod_lt _ (Nat.two_pow_pos o)
  have field : a % 2 ^ n < 2 ^ n := Nat.mod_lt _ (Nat.two_pow_pos n)
  rw [replace_field, Nat.testBit_two_pow_mul_add _ low, Nat.testBit_two_pow_mul_add _ field]
  simp only [Nat.testBit_mod_two_pow, Nat.testBit_shiftRight]
  rcases Nat.lt_or_ge i o with below | above
  · simp [below, Nat.not_le.2 below]
  rcases Nat.lt_or_ge i (o + n) with inside | beyond
  · have : i - o < n := by omega
    simp [above, inside, this, Nat.not_lt.2 above]
  · have outside : ¬i - o < n := by omega
    have place : o + (n + (i - o - n)) = i := by omega
    simp [outside, place, Nat.not_lt.2 above, Nat.not_lt.2 beyond]

theorem insertField_of_some (f : fieldOf w b = some (o, n)) :
    ∃ m, insertField w d a b = some m ∧
      ∀ i, m.testBit i = if o ≤ i ∧ i < o + n then a.testBit (i - o) else d.testBit i :=
  ⟨_, by simp [insertField, f], testBit_replace_field d o n a⟩

/-! The bits of the words these give. -/

theorem getLsbD_extractField_unsigned {x : BitVec w} (f : fieldOf w b = some (o, n)) (i : Nat) :
    (BitVec.ofNat w (extractField w x.toNat b false)).getLsbD i = (decide (i < n) && x.getLsbD (o + i)) := by
  obtain ⟨-, fits⟩ := fieldOf_bounds f
  rw [BitVec.getLsbD_ofNat, testBit_extractField_unsigned f, BitVec.testBit_toNat]
  by_cases inside : i < n
  · have : i < w := by omega
    simp [this]
  · simp [inside]

theorem getLsbD_extractField_signed {x : BitVec w} (f : fieldOf w b = some (o, n)) {i : Nat} (lt : i < w) :
    (BitVec.ofNat w (extractField w x.toNat b true)).getLsbD i =
      if i < n then x.getLsbD (o + i) else x.getLsbD (o + n - 1) := by
  simp only [BitVec.getLsbD_ofNat, testBit_extractField_signed f lt, BitVec.testBit_toNat, lt, decide_true, Bool.true_and]

theorem getLsbD_insertField {x y : BitVec w} (f : fieldOf w b = some (o, n)) :
    ∃ m, insertField w y.toNat x.toNat b = some m ∧
      ∀ i, (BitVec.ofNat w m).getLsbD i = if o ≤ i ∧ i < o + n then x.getLsbD (i - o) else y.getLsbD i := by
  obtain ⟨-, fits⟩ := fieldOf_bounds f
  obtain ⟨m, e, bit⟩ := insertField_of_some (d := y.toNat) (a := x.toNat) f
  refine ⟨m, e, fun i => ?_⟩
  rw [BitVec.getLsbD_ofNat, bit, BitVec.testBit_toNat, BitVec.testBit_toNat]
  by_cases lt : i < w
  · simp [lt]
  · have outside : ¬(o ≤ i ∧ i < o + n) := by omega
    simp [lt, outside, BitVec.getLsbD_of_ge _ _ (Nat.not_lt.1 lt)]

end

/-! The field that a register names: its offset in bits 7:0, its width in bits 15:8 (R181). -/

theorem fieldOf_word (w : Nat) (y : Word) : fieldOf w y.toNat =
    if (y.extractLsb' 8 8).toNat = 0 ∨ w ≤ (y.extractLsb' 0 8).toNat then none
    else some ((y.extractLsb' 0 8).toNat, min (y.extractLsb' 8 8).toNat (w - (y.extractLsb' 0 8).toNat)) := by
  simp only [fieldOf, BitVec.extractLsb'_toNat, Nat.shiftRight_eq_div_pow, Nat.reducePow, Nat.div_one]

/-! ### What the bit-field forms do (R181) -/

section
variable {s : State} {hid : Nat} {h : Hart} {d a b : SReg}

theorem exec_sbfx_ready (signed : Bool) (r : ScalarReady s hid h [a, b] [d]) :
    exec (.sbfx d a b signed) s = .next (s.result hid d
      ⟨BitVec.ofNat 64 (extractField 64 (h.getS a).val.toNat (h.getS b).val.toNat signed),
        (h.getS a).tag || (h.getS b).tag⟩) :=
  alu_ready (fun x y => BitVec.ofNat 64 (extractField 64 x.toNat y.toNat signed)) r

theorem exec_sbfi_empty (r : ScalarReady s hid h [a, b, d] [d]) (f : fieldOf 64 (h.getS b).val.toNat = none) :
    exec (.sbfi d a b) s = .next (s.nextPc hid) :=
  (onScalar_ready _ r).trans (by simp only [insertField_of_none f])

theorem exec_sbfi_field {m : Nat} (r : ScalarReady s hid h [a, b, d] [d])
    (e : insertField 64 (h.getS d).val.toNat (h.getS a).val.toNat (h.getS b).val.toNat = some m) :
    exec (.sbfi d a b) s = .next (s.result hid d
      ⟨BitVec.ofNat 64 m, (h.getS a).tag || (h.getS b).tag || (h.getS d).tag⟩) :=
  (onScalar_ready _ r).trans (by simp only [e])

end

/-- Settles O10, from the corners of the two signed divisions and the bits of a field taken or replaced. -/
theorem scalarDivisionAndBitFields : Obligations.ScalarDivisionAndBitFields := by
  intro s hid h d a b x y t o w empty
  have noField (e : empty) : fieldOf 64 y.toNat = none := (fieldOf_word 64 y).trans (if_pos e)
  have field (e : ¬empty) : fieldOf 64 y.toNat = some (o, w) := (fieldOf_word 64 y).trans (if_neg e)
  refine ⟨fun r => ⟨?sdiv, ?srem, alu_ready sdivnOf r, alu_ready sremnOf r, ?sbfx, ?sbfxs⟩, fun r => ⟨?sbfiEmpty, ?sbfi⟩⟩
  case sdiv => rw [← sdivOf_eq]; exact alu_ready sdivOf r
  case srem => rw [← sremOf_eq]; exact alu_ready sremOf r
  case sbfx =>
    refine ⟨_, exec_sbfx_ready false r, fun e => ?_, fun e => getLsbD_extractField_unsigned (field e)⟩
    rw [extractField_of_none false (noField e)]; rfl
  case sbfxs =>
    refine ⟨_, exec_sbfx_ready true r, fun e => ?_, fun e i => getLsbD_extractField_signed (field e)⟩
    rw [extractField_of_none true (noField e)]; rfl
  case sbfiEmpty => exact fun e => exec_sbfi_empty r (noField e)
  case sbfi =>
    intro e
    obtain ⟨m, inserted, bit⟩ := getLsbD_insertField (x := x) (y := (h.getS d).val) (field e)
    exact ⟨_, exec_sbfi_field r inserted, bit⟩

end Sys2Proof.Machine
end
